-- ==== Sys2Proof/Word.lean ====
section
/-! DEFINITION. Word types of the Cegil and the plainest arithmetic on them (00 R2, R3). -/

namespace Sys2Proof

/-- A 32-bit word (00 R3). -/
abbrev Word := BitVec 32
/-- A 64-bit value, held in a register pair (00 R3). -/
abbrev DWord := BitVec 64
/-- One byte. -/
abbrev Byte := BitVec 8

/-- A sparse store of `w`-bit cells by key. The keys rise strictly and no cell is zero: a key that is not listed reads
zero. -/
abbrev SMap (w : Nat) := List (Nat × BitVec w)

/-- Lane register number V0 to V255 (04 R90). -/
abbrev VReg := BitVec 8
/-- Scalar register number S0 to S63 (04 R90). -/
abbrev SReg := BitVec 6
/-- Predicate number P0 to P7 (04 R90). -/
abbrev PReg := BitVec 3
/-- Accumulator tile number (04 R90). -/
abbrev AccReg := BitVec 6
/-- Operand map number (04 R90). -/
abbrev OmReg := BitVec 4
/-- Ring descriptor number (04 R90). -/
abbrev RgReg := BitVec 4
/-- Named barrier number (04 R90). -/
abbrev BarReg := BitVec 5
/-- Codebook number (04 R90). -/
abbrev CbReg := BitVec 2

/-- The field of `n` bits of `w` that begins at bit `pos` (00 R7, bits). -/
def fld (w pos n : Nat) : Nat := w / 2 ^ pos % 2 ^ n

/-- The number a bit stands for. -/
def bnat (b : Bool) : Nat := if b then 1 else 0

/-- The bit a number stands for. -/
def natb (n : Nat) : Bool := n % 2 == 1

/-- A condition as one bit. -/
def bit1 (b : Bool) : BitVec 1 := if b then 1 else 0

end Sys2Proof
end

