-- ==== Sys2Proof/Config.lean ====
section
/-! DEFINITION. What the spec leaves open or fixes per part: free values and functions that nothing in Lean can evaluate
(log 6, 7, 14, 18), and the constants the spec gives (13 R304, 18 R398, 18 R404). -/

namespace Sys2Proof.Config

/-- The n-th free value (log 6). -/
opaque freeValue : Nat → DWord

/-- The n-th draw of the conditioned entropy source (09 R222, log 6). -/
opaque entropy : Nat → DWord

/-- The draws of replay mode, by the replay seed and the draw's number (09 R222, log 6). -/
opaque replayDraw : DWord → Nat → DWord

/-- The FP32 value that a special function gives on an operand where the spec bounds the error alone (03 R80): it is the
result where it lies within the bound, and the nearest value is where it does not (log 7). -/
opaque specialPick : Nat → Word → Word

/-- ECDSA P-384 over SHA-384 verifies (20 R428, R435, 16 R370), by key: 0 production, 1 development, 2 debug, 3 device
identity (log 14). -/
opaque ecdsaOk : Nat → List Byte → List Byte → Bool

/-- The device identity key's signature (16 R370, log 14). -/
opaque ecdsaSign : List Byte → List Byte

/-- SHA-384 (16 R370, log 14). -/
opaque sha384 : List Byte → List Byte

/-- What the 256 bytes of a logged flit carry, as numbers: the place of messages in flits is not given (20 R433, log 15). -/
opaque flitParts : List Byte → List Nat

/-- The SHA-384 digest of the device identity public key (20 R435, log 14). -/
opaque identityDigest : List Byte

/-- The physical core that a logical core of a die occupies (18 R399, log 18). -/
opaque physicalCore : Nat → Nat → Nat

/-- The block of a partition's pool, 0 to 15, that holds block `i` of the gang in a slot (20 R437, log 6). -/
opaque poolBlock : Nat → Nat → Nat

/-- Which of the 124 × 64 counts of corrected errors counts those of a kind of store on a die: 0 an L1, 1 the die cache, 2 team scratch
(17 R389, log 70). -/
opaque errorCell : Nat → Nat → Nat

/-- TRAPINFO of UNCORRECTABLE where it is about an array: its number, or 0, by the kind of the array: 1 scalar and control state, 2 array state, 3 the
weight store (18 R392, log 70). -/
opaque arrayNumber : Nat → BitVec 32

/-- The temperature in °C of one of the 124 dies as firmware folds its accumulators for the n-th time, and the worst margin of a half of a core's
ports as the n-th change of its state is written (17 R389, log 53). -/
opaque temperature : Nat → Nat → Nat
opaque portMargin : Nat → Nat → Bool → Nat → BitVec 8

/-- clk in a second (00 R5, 17 R390). -/
def second : Nat := 2500000000

/-- SW, the quarantine window in clk (18 R398). -/
def sw : Nat := 128

/-- The initiator's remote timer in clk (18 R404). -/
def remoteTimer : Nat := 5000000

/-- Entries of a quarantine buffer (18 R397). -/
def muckSize : Nat := 256

/-- Transit of one hop in clk (01 R27). -/
def hop : Nat := 30

/-- clk from a control transfer to the first issue of the next clause (15 R345). -/
def branchTime : Nat := 3

/-- Physical bytes of one stack (00 R5). -/
def stackBytes : Nat := 2 ^ 36

/-- First byte of the region of a stack reserved to firmware (10 R244). -/
def reservedBase : Nat := 0xFF0000000

/-- Bytes of the weight store (10 R240). -/
def wsBytes : Nat := 2 ^ 27

end Sys2Proof.Config
end

