-- ==== Sys2Proof/Syntax.lean ====
section
/-! DEFINITION. The syntax of the Cegil: one constructor for each row of the opcode table. An instruction row is one
Giric instruction of generation 1 (04 R93); an event row is a step of the machine that no instruction makes. -/

namespace Sys2Proof

/-- 06 R129: the element type of ADDSAT, SUBSAT, MIN and MAX. -/
inductive PackTy where
  | i32 | ui32 | i16x2 | ui16x2 | i8x4 | ui8x4
deriving DecidableEq, Repr

/-- 06 R136: the signedness of MULHI. -/
inductive MulTy where
  | i32 | ui32 | mix32
deriving DecidableEq, Repr

/-- 06 R136, R137, R141: signed or unsigned 32-bit. -/
inductive Sgn where
  | i32 | ui32
deriving DecidableEq, Repr

/-- 06 R141, 12 R281: an integer condition. -/
inductive CmpCond where
  | eq | ne | lt | le | gt | ge
deriving DecidableEq, Repr

/-- 06 R141: how a comparison combines with Pc. -/
inductive Comb where
  | none | and | or
deriving DecidableEq, Repr

/-- 06 R144: the operations of SALU and SALUI. -/
inductive SaluOp where
  | add | sub | mullo | mulhiI | mulhiU | and | or | xor | andn | shl | shr | sar | minI | maxI | minU | maxU | add64 | sub64 | mov | popc | clz | idivI | idivU | iremI | iremU
deriving DecidableEq, Repr

/-- 06 R146: the type of SCMP. -/
inductive ScmpTy where
  | i32 | ui32 | i64 | ui64
deriving DecidableEq, Repr

/-- 03 R71: the RND field; code 7 is undefined. -/
inductive Rnd where
  | mode | rne | rtz | rup | rdn | rna | sr
deriving DecidableEq, Repr

/-- 07 R160: the element type of an X-form floating-point instruction. -/
inductive FTy where
  | f32 | f16x2 | bf16x2 | f64
deriving DecidableEq, Repr

/-- 07 R168. -/
inductive FMovOp where
  | mov | neg | abs | cpsgn
deriving DecidableEq, Repr

/-- 07 R169. -/
inductive FCond where
  | eq | ne | lt | le | gt | ge | un | ord
deriving DecidableEq, Repr

/-- 07 R167. -/
inductive DfmaOp where
  | fma | add | sub | mul | min | max
deriving DecidableEq, Repr

/-- 07 R172: the types of the conversions. -/
inductive CvtTy where
  | f32 | f16 | bf16 | f64 | e4m3 | e5m2 | s32 | u32 | s16 | u16 | s8 | u8
deriving DecidableEq, Repr

/-- 06 R148. -/
inductive ShflKind where
  | idx | up | down | xor
deriving DecidableEq, Repr

/-- 06 R148: the segment width. -/
inductive ShflW where
  | w32 | w16 | w8 | w4 | w2
deriving DecidableEq, Repr

/-- 06 R149. -/
inductive VoteOp where
  | any | all | uni | ballot
deriving DecidableEq, Repr

/-- 06 R150. -/
inductive RedOp where
  | add | minI | maxI | minU | maxU | and | or | xor | minidxI | maxidxI | minidxU | maxidxU | fadd | fmin | fmax
deriving DecidableEq, Repr

/-- 06 R153. -/
inductive ScanOp where
  | add | minI | maxI | minU | maxU | and | or | xor
deriving DecidableEq, Repr

/-- 06 R131. -/
inductive LidSel where
  | lane | slice | gidlo | gidhi | active | dead
deriving DecidableEq, Repr

/-- 12 R272. -/
inductive LdTy where
  | u8 | s8 | u16 | s16 | w | d | q
deriving DecidableEq, Repr

/-- 12 R272: the sizes of ST and STS. -/
inductive StTy where
  | b | h | w | d | q
deriving DecidableEq, Repr

/-- 12 R273. -/
inductive LdsSp where
  | core | ts | ws
deriving DecidableEq, Repr

/-- 12 R274. -/
inductive PSp where
  | glob | core | ts | priv
deriving DecidableEq, Repr

/-- 12 R275, R276, 14 R310. -/
inductive Sp4 where
  | glob | core | ts | ws
deriving DecidableEq, Repr

/-- 12 R279. -/
inductive AtomOp where
  | add | and | or | xor | minI | maxI | minU | maxU | exch | cas | fadd | add64 | exch64 | cas64 | inc
deriving DecidableEq, Repr

/-- 02 R51. -/
inductive Scope where
  | block | lower | launch | ext
deriving DecidableEq, Repr

/-- 12 R281. -/
inductive Sp3 where
  | glob | core | ts
deriving DecidableEq, Repr

/-- 12 R287. -/
inductive PrefLvl where
  | l1 | dc | hc
deriving DecidableEq, Repr

/-- 12 R288. -/
inductive FlushAct where
  | wb | inv | mem
deriving DecidableEq, Repr

/-- 08 R193. -/
inductive Twin where
  | single | kj | nj
deriving DecidableEq, Repr

/-- 08 R195. -/
inductive McblSp where
  | core | ts | ws
deriving DecidableEq, Repr

/-- 02 R32, 15 R335. -/
inductive BrMode where
  | any | all | uni
deriving DecidableEq, Repr

/-- 17 R379. -/
inductive BarOp where
  | arrive | wait | sync
deriving DecidableEq, Repr

/-- 09 R214. -/
inductive CsrwOp where
  | write | set | clr
deriving DecidableEq, Repr

/-- 16 R361. -/
inductive TlbSz where
  | k64 | m2 | g1
deriving DecidableEq, Repr

/-- 09 R223. -/
inductive SigSel where
  | sigs | sigl | sigk
deriving DecidableEq, Repr

/-- The guard fields of word 1 of an X form (04 R89, 02 R31). -/
structure Guard where
  /-- GRD, the guard predicate. -/
  grd : PReg
  /-- GN, negate the guard. -/
  gn : Bool
  /-- GO, use this guard and not the clause's. -/
  go : Bool
deriving DecidableEq, Repr

/-- Where a gang stands: its die (a VD in context 0, or 128 + home for the service cores of a home, 01 R14), core,
partition and gang slot. -/
structure GangKey where
  die : Nat
  core : Nat
  part : Nat
  slot : Nat
deriving DecidableEq, Repr

/-- A block of a launch: the launch name (13 R477), the replica's number at the launch's start (19 R408) and the block
index. -/
structure BlockKey where
  name : Nat
  rep : Nat
  idx : Nat
deriving DecidableEq, Repr

/-- What a home found about an access that faults there, as its fault record holds it (16 R365). -/
structure HomeFault where
  /-- The home. -/
  home : Nat
  /-- The gang's outstanding entry that made the access. -/
  id : Nat
  /-- KIND of the record: 1 load, 2 store sector, 3 engine access. -/
  kind : Nat
  /-- The fault code (18 R392). -/
  code : Nat
  /-- FLAGS: FIRST and LAST sector of one store. -/
  flags : Nat
  /-- Context of the access. -/
  ctx : BitVec 16
  /-- Code position of the instruction. -/
  pos : Word
  /-- Address: lowest unfinished lane, or the sector. -/
  addr : DWord
  /-- Unfinished lane mask, or byte mask. -/
  mask : Word
  /-- Sector data of a store. -/
  data : List Byte
deriving DecidableEq, Repr

/-- A request that a peer module makes of this one over a pod link (11 R258, 20 R431). -/
structure RemoteReq where
  /-- The peer's request tag (18 R404). -/
  tag : Nat
  /-- The context in which this module translates the address. -/
  ctx : BitVec 16
  /-- The global address. -/
  addr : DWord
  /-- A store, else a load. -/
  write : Bool
  /-- Bytes of a load. -/
  size : Nat
  /-- Bytes of a store. -/
  data : List Byte
  /-- Copy data, on the unordered channel (14 R321). -/
  copy : Bool
deriving DecidableEq, Repr

/-- What waits on a miss record of a home (16 R359): a gang's access, or a command stream of its core's copy engine. -/
structure Waiter where
  gang : GangKey
  engine : Option Nat
deriving DecidableEq, Repr

/-- What a flit carries for this module (20 R429, R430). -/
inductive FlitMsg where
  /-- Link control, or nothing for this module. -/
  | idle
  /-- A request of the peer. -/
  | req (q : RemoteReq)
  /-- The answer to a request of this module, by its tag. -/
  | answer (tag : Nat) (data : List Byte)
  /-- A refusal of a request of this module, with the fault code (18 R404). -/
  | nack (tag code : Nat)
  /-- The receiver asks for the flit of a channel's sequence number again. -/
  | again (unordered : Bool) (seq : BitVec 16)
  /-- The receiver has taken every flit of the ordered channel up to a sequence number, or the one of the unordered channel. -/
  | ack (unordered : Bool) (seq : BitVec 16)
deriving DecidableEq, Repr

/-- A flit as the receiver of a link sees it after FEC (20 R429). -/
structure Flit where
  /-- The unordered channel. -/
  unordered : Bool
  seq : BitVec 16
  /-- Returned buffer slots. -/
  slots : BitVec 15
  /-- The CRC passes after correction. -/
  good : Bool
  /-- Symbols that FEC corrected. -/
  fixed : Nat
  /-- The 256 bytes, for the arrival log (20 R432). -/
  bytes : List Byte
  msg : FlitMsg
deriving DecidableEq, Repr

/-- An access of an application core (11 R247), in the module's physical addresses (16 R352). -/
structure HostAccess where
  home : Nat
  off : Nat
  /-- None for a load. -/
  store : Option (List Byte)
  /-- Bytes of a load. -/
  size : Nat
deriving DecidableEq, Repr

/-- What firmware fixes for the supervisor crew of one die (13 R307, 18 R396). -/
structure CrewPlan where
  die : Nat
  core : Nat
  part : Nat
  /-- The 288 bytes of the crew's launch record. -/
  record : List Byte
  /-- Base of the die fault queue, S8:S9. -/
  fq : DWord
  /-- Base of the debug-event queue, S10:S11. -/
  dq : DWord
deriving DecidableEq, Repr

/-- A firmware image and what its bring-up finds and chooses (20 R428). -/
structure FwImage where
  bytes : List Byte
  sig : List Byte
  /-- Security version of the image (16 R371). -/
  secv : BitVec 16
  /-- The image header requests replay (20 R433). -/
  replay : Bool
  /-- Training of bridges, links and HBM4E succeeds. -/
  trains : Bool
  /-- The memory test succeeds. -/
  memOk : Bool
  /-- Cores that the port test finds degraded: die, core, PORTS (01 R19, R20). -/
  ports : List (Nat × Nat × BitVec 2)
  /-- Entry of the walker routine, a code position of context 0 (16 R360). -/
  walker : Word
  /-- The code versions that firmware lays down: context, number, BASE, WORDS, LTAB, LTN (log 8). -/
  code : List (Nat × Nat × DWord × Nat × DWord × Nat)
  /-- Bytes that firmware places in the stacks: home, offset, byte. -/
  place : List (Nat × Nat × Byte)
  crews : List CrewPlan
  /-- Seed of a replay (09 R222). -/
  seed : DWord
deriving DecidableEq, Repr

/-- An Abail module as the loader-translator takes it (04 R107, R108): each instruction with its extension word where
XW is 1, the indirect targets and the security version. -/
structure AbailModule where
  gen : BitVec 16
  blocks : Byte
  code : List (DWord × Word)
  targets : List Nat
  secv : BitVec 16
  /-- The link table that follows the module, by entries of 16 bytes, and the kernel descriptors, of 64 (04 R104, R105): their entry points are
  instruction indices. -/
  links : List (List Byte)
  kernels : List (List Byte)
deriving DecidableEq, Repr


/-- The instructions and the events of the opcode table, one constructor a row. -/
inductive Instr where
  /-- MOV, major 0x02, form R. -/
  | mov (d : VReg) (a : VReg)
  /-- MOVI, major 0x03, form J. -/
  | movi (d : VReg) (i : BitVec 16)
  /-- MOVH, major 0x04, form J. -/
  | movh (d : VReg) (i : BitVec 16)
  /-- MOVL, major 0x05, form L. -/
  | movl (d : VReg) (i : BitVec 32)
  /-- ADD, major 0x06, form R. -/
  | add (d : VReg) (a : VReg) (b : VReg)
  /-- ADDI, major 0x07, form I. -/
  | addi (d : VReg) (a : VReg) (i : BitVec 8)
  /-- SUB, major 0x08, form R. -/
  | sub (d : VReg) (a : VReg) (b : VReg)
  /-- NEG, major 0x09, form R. -/
  | neg (d : VReg) (a : VReg)
  /-- ADDSAT, major 0x0A, form X. -/
  | addsat (d : VReg) (a : VReg) (b : VReg) (ty : PackTy) (x : Guard)
  /-- SUBSAT, major 0x0B, form X. -/
  | subsat (d : VReg) (a : VReg) (b : VReg) (ty : PackTy) (x : Guard)
  /-- MULLO, major 0x0C, form R. -/
  | mullo (d : VReg) (a : VReg) (b : VReg)
  /-- MULHI, major 0x0D, form X. -/
  | mulhi (d : VReg) (a : VReg) (b : VReg) (ty : MulTy) (x : Guard)
  /-- MAD, major 0x0E, form X. -/
  | mad (d : VReg) (a : VReg) (b : VReg) (c : VReg) (sat : Bool) (ty : Sgn) (x : Guard)
  /-- MADW, major 0x0F, form X. -/
  | madw (d : VReg) (a : VReg) (b : VReg) (c : VReg) (ty : Sgn) (x : Guard)
  /-- ABS, major 0x10, form R. -/
  | abs (d : VReg) (a : VReg)
  /-- MIN, major 0x11, form X. -/
  | min (d : VReg) (a : VReg) (b : VReg) (ty : PackTy) (x : Guard)
  /-- MAX, major 0x12, form X. -/
  | max (d : VReg) (a : VReg) (b : VReg) (ty : PackTy) (x : Guard)
  /-- AND, major 0x13, form R. -/
  | and (d : VReg) (a : VReg) (b : VReg)
  /-- OR, major 0x14, form R. -/
  | or (d : VReg) (a : VReg) (b : VReg)
  /-- XOR, major 0x15, form R. -/
  | xor (d : VReg) (a : VReg) (b : VReg)
  /-- ANDN, major 0x16, form R. -/
  | andn (d : VReg) (a : VReg) (b : VReg)
  /-- ANDI, major 0x17, form I. -/
  | andi (d : VReg) (a : VReg) (i : BitVec 8)
  /-- ORI, major 0x18, form I. -/
  | ori (d : VReg) (a : VReg) (i : BitVec 8)
  /-- XORI, major 0x19, form I. -/
  | xori (d : VReg) (a : VReg) (i : BitVec 8)
  /-- SHL, major 0x1A, form R. -/
  | shl (d : VReg) (a : VReg) (b : VReg)
  /-- SHR, major 0x1B, form R. -/
  | shr (d : VReg) (a : VReg) (b : VReg)
  /-- SAR, major 0x1C, form R. -/
  | sar (d : VReg) (a : VReg) (b : VReg)
  /-- SHLI, major 0x1D, form I. -/
  | shli (d : VReg) (a : VReg) (i : BitVec 8)
  /-- SHRI, major 0x1E, form I. -/
  | shri (d : VReg) (a : VReg) (i : BitVec 8)
  /-- SARI, major 0x1F, form I. -/
  | sari (d : VReg) (a : VReg) (i : BitVec 8)
  /-- ROTL, major 0x20, form R. -/
  | rotl (d : VReg) (a : VReg) (b : VReg)
  /-- POPC, major 0x21, form R. -/
  | popc (d : VReg) (a : VReg)
  /-- CLZ, major 0x22, form R. -/
  | clz (d : VReg) (a : VReg)
  /-- BREV, major 0x23, form R. -/
  | brev (d : VReg) (a : VReg)
  /-- BFE, major 0x24, form X. -/
  | bfe (d : VReg) (a : VReg) (sx : Bool) (pos : BitVec 8) (len : BitVec 8) (x : Guard)
  /-- BFI, major 0x25, form X. -/
  | bfi (d : VReg) (a : VReg) (b : VReg) (pos : BitVec 8) (len : BitVec 8) (x : Guard)
  /-- LEA, major 0x26, form X. -/
  | lea (d : VReg) (a : VReg) (b : VReg) (i : BitVec 8) (sh : BitVec 2) (x : Guard)
  /-- SEL, major 0x27, form X. -/
  | sel (d : VReg) (a : VReg) (b : VReg) (c : PReg) (x : Guard)
  /-- CMP, major 0x28, form X. -/
  | cmp (d : PReg) (a : VReg) (b : VReg) (c : PReg) (ty : Sgn) (cond : CmpCond) (comb : Comb) (x : Guard)
  /-- CMPI, major 0x29, form X. -/
  | cmpi (d : PReg) (a : VReg) (i : BitVec 8) (c : PReg) (ty : Sgn) (cond : CmpCond) (comb : Comb) (x : Guard)
  /-- IDIV, major 0x2A, form X. -/
  | idiv (d : VReg) (a : VReg) (b : VReg) (ty : Sgn) (x : Guard)
  /-- IREM, major 0x2B, form X. -/
  | irem (d : VReg) (a : VReg) (b : VReg) (ty : Sgn) (x : Guard)
  /-- SXT, major 0x2C, form I. -/
  | sxt (d : VReg) (a : VReg) (n : BitVec 8)
  /-- ZXT, major 0x2D, form I. -/
  | zxt (d : VReg) (a : VReg) (n : BitVec 8)
  /-- BPERM, major 0x2E, form X. -/
  | bperm (d : VReg) (a : VReg) (b : VReg) (c : VReg) (x : Guard)
  /-- ADD64, major 0x2F, form X. -/
  | add64 (d : VReg) (a : VReg) (b : VReg) (sub : Bool) (x : Guard)
  /-- SHF, major 0x30, form X. -/
  | shf (d : VReg) (a : VReg) (b : VReg) (c : VReg) (right : Bool) (x : Guard)
  /-- PAND, major 0x32, form R. -/
  | pand (d : PReg) (a : PReg) (b : PReg)
  /-- POR, major 0x33, form R. -/
  | por (d : PReg) (a : PReg) (b : PReg)
  /-- PXOR, major 0x34, form R. -/
  | pxor (d : PReg) (a : PReg) (b : PReg)
  /-- PNOT, major 0x35, form R. -/
  | pnot (d : PReg) (a : PReg)
  /-- PMOV, major 0x36, form R. -/
  | pmov (d : PReg) (a : PReg)
  /-- VFROMP, major 0x37, form R. -/
  | vfromp (d : VReg) (a : PReg)
  /-- SALU, major 0x38, form X. -/
  | salu (d : SReg) (a : SReg) (b : SReg) (op : SaluOp) (x : Guard)
  /-- SALUI, major 0x39, form L. -/
  | salui (d : SReg) (a : SReg) (op : SaluOp) (i : BitVec 32)
  /-- SMOVI, major 0x3A, form J. -/
  | smovi (d : SReg) (i : BitVec 16)
  /-- BCAST, major 0x3B, form R. -/
  | bcast (d : VReg) (a : SReg)
  /-- RDLANE, major 0x3C, form X. -/
  | rdlane (d : SReg) (a : VReg) (b : SReg) (n : BitVec 8) (reg : Bool) (x : Guard)
  /-- WRLANE, major 0x3D, form X. -/
  | wrlane (d : VReg) (a : SReg) (b : SReg) (n : BitVec 8) (reg : Bool) (x : Guard)
  /-- ELECT, major 0x3E, form R. -/
  | elect (d : PReg) (a : SReg) (ws : Bool)
  /-- SCMP, major 0x3F, form X. -/
  | scmp (d : PReg) (a : SReg) (b : SReg) (c : PReg) (ty : ScmpTy) (cond : CmpCond) (comb : Comb) (x : Guard)
  /-- FADD, major 0x40, form R. -/
  | fadd (d : VReg) (a : VReg) (b : VReg)
  /-- FSUB, major 0x41, form R. -/
  | fsub (d : VReg) (a : VReg) (b : VReg)
  /-- FMUL, major 0x42, form R. -/
  | fmul (d : VReg) (a : VReg) (b : VReg)
  /-- FFMA, major 0x43, form X. -/
  | ffma (d : VReg) (a : VReg) (b : VReg) (c : VReg) (rnd : Rnd) (fi : Bool) (fo : Bool) (ty : FTy) (np : Bool) (nc : Bool) (x : Guard)
  /-- FADDX, major 0x44, form X. -/
  | faddx (d : VReg) (a : VReg) (b : VReg) (rnd : Rnd) (fi : Bool) (fo : Bool) (ty : FTy) (sub : Bool) (x : Guard)
  /-- FMULX, major 0x45, form X. -/
  | fmulx (d : VReg) (a : VReg) (b : VReg) (rnd : Rnd) (fi : Bool) (fo : Bool) (ty : FTy) (x : Guard)
  /-- FMIN, major 0x46, form X. -/
  | fmin (d : VReg) (a : VReg) (b : VReg) (fi : Bool) (ty : FTy) (x : Guard)
  /-- FMAX, major 0x47, form X. -/
  | fmax (d : VReg) (a : VReg) (b : VReg) (fi : Bool) (ty : FTy) (x : Guard)
  /-- FMOV, major 0x48, form X. -/
  | fmov (d : VReg) (a : VReg) (b : VReg) (ty : FTy) (op : FMovOp) (x : Guard)
  /-- FCMP, major 0x49, form X. -/
  | fcmp (d : PReg) (a : VReg) (b : VReg) (c : PReg) (fi : Bool) (ty : FTy) (hi : Bool) (cond : FCond) (comb : Comb) (x : Guard)
  /-- FCLASS, major 0x4A, form X. -/
  | fclass (d : PReg) (a : VReg) (mlo : BitVec 8) (mhi : BitVec 2) (ty : FTy) (hi : Bool) (x : Guard)
  /-- FRND, major 0x4B, form X. -/
  | frnd (d : VReg) (a : VReg) (rnd : Rnd) (fi : Bool) (ty : FTy) (nx : Bool) (x : Guard)
  /-- DFMA, major 0x4C, form X. -/
  | dfma (d : VReg) (a : VReg) (b : VReg) (c : VReg) (rnd : Rnd) (fi : Bool) (fo : Bool) (op : DfmaOp) (x : Guard)
  /-- CVT, major 0x50, form X. -/
  | cvt (d : VReg) (a : VReg) (rnd : Rnd) (fi : Bool) (fo : Bool) (sat : Bool) (si : BitVec 2) (di : BitVec 2) (sty : CvtTy) (dty : CvtTy) (x : Guard)
  /-- CVTPK, major 0x51, form X. -/
  | cvtpk (d : VReg) (a : VReg) (b : VReg) (c : VReg) (rnd : Rnd) (fi : Bool) (fo : Bool) (sat : Bool) (h : Bool) (bs : Bool) (dty : CvtTy) (x : Guard)
  /-- CVTUP, major 0x52, form X. -/
  | cvtup (d : VReg) (a : VReg) (c : VReg) (rnd : Rnd) (fi : Bool) (fo : Bool) (sat : Bool) (h : Bool) (bs : Bool) (sty : CvtTy) (dty : CvtTy) (x : Guard)
  /-- CBENC, major 0x53, form X. -/
  | cbenc (d : VReg) (a : VReg) (c : CbReg) (rnd : Rnd) (fi : Bool) (j : BitVec 3) (x : Guard)
  /-- CBDEC, major 0x54, form X. -/
  | cbdec (d : VReg) (a : VReg) (c : CbReg) (j : BitVec 3) (x : Guard)
  /-- RCP, major 0x58, form R. -/
  | rcp (d : VReg) (a : VReg)
  /-- RSQ, major 0x59, form R. -/
  | rsq (d : VReg) (a : VReg)
  /-- SQRT, major 0x5A, form R. -/
  | sqrt (d : VReg) (a : VReg)
  /-- EXP2, major 0x5B, form R. -/
  | exp2 (d : VReg) (a : VReg)
  /-- LOG2, major 0x5C, form R. -/
  | log2 (d : VReg) (a : VReg)
  /-- SINPI, major 0x5D, form R. -/
  | sinpi (d : VReg) (a : VReg)
  /-- COSPI, major 0x5E, form R. -/
  | cospi (d : VReg) (a : VReg)
  /-- FDIV, major 0x5F, form X. -/
  | fdiv (d : VReg) (a : VReg) (b : VReg) (rnd : Rnd) (fi : Bool) (fo : Bool) (x : Guard)
  /-- TANH, major 0x60, form R. -/
  | tanh (d : VReg) (a : VReg)
  /-- SIGM, major 0x61, form R. -/
  | sigm (d : VReg) (a : VReg)
  /-- SHFL, major 0x70, form X. -/
  | shfl (d : VReg) (a : VReg) (b : VReg) (kind : ShflKind) (k : BitVec 5) (reg : Bool) (w : ShflW) (x : Guard)
  /-- VOTE, major 0x71, form X. -/
  | vote (d : BitVec 6) (a : PReg) (op : VoteOp) (sc : Bool) (x : Guard)
  /-- REDX, major 0x72, form X. -/
  | redx (d : VReg) (a : VReg) (rnd : Rnd) (fi : Bool) (fo : Bool) (op : RedOp) (sc : Bool) (x : Guard)
  /-- SCANX, major 0x73, form X. -/
  | scanx (d : VReg) (a : VReg) (op : ScanOp) (ex : Bool) (x : Guard)
  /-- LID, major 0x74, form R. -/
  | lid (d : VReg) (what : LidSel)
  /-- MATCH, major 0x75, form X. -/
  | matchLanes (d : VReg) (a : VReg) (b64 : Bool) (x : Guard)
  /-- LD, major 0x80, form X. -/
  | ld (d : VReg) (a : SReg) (b : VReg) (off : BitVec 14) (ty : LdTy) (p : Bool) (strm : Bool) (k : BitVec 2) (lo : Bool) (x : Guard)
  /-- ST, major 0x81, form X. -/
  | st (d : VReg) (a : SReg) (b : VReg) (off : BitVec 14) (ty : StTy) (p : Bool) (strm : Bool) (k : BitVec 2) (lo : Bool) (x : Guard)
  /-- LDS, major 0x82, form X. -/
  | lds (d : VReg) (b : VReg) (off : BitVec 14) (ty : LdTy) (sp : LdsSp) (x : Guard)
  /-- STS, major 0x83, form X. -/
  | sts (d : VReg) (b : VReg) (off : BitVec 14) (ty : StTy) (sp : LdsSp) (x : Guard)
  /-- LDW, major 0x84, form X. -/
  | ldw (d : VReg) (a : SReg) (off : BitVec 14) (n : BitVec 2) (sp : Sp4) (strm : Bool) (x : Guard)
  /-- LDP, major 0x85, form X. -/
  | ldp (d : VReg) (a : SReg) (b : VReg) (off : BitVec 14) (h : Bool) (j : BitVec 2) (sp : PSp) (k : BitVec 2) (lo : Bool) (x : Guard)
  /-- STP, major 0x86, form X. -/
  | stp (d : VReg) (a : SReg) (b : VReg) (off : BitVec 14) (h : Bool) (j : BitVec 2) (sp : PSp) (k : BitVec 2) (lo : Bool) (x : Guard)
  /-- SLD, major 0x87, form X. -/
  | sld (d : SReg) (a : SReg) (off : BitVec 14) (w64 : Bool) (sp : Sp4) (x : Guard)
  /-- SST, major 0x88, form X. -/
  | sst (d : SReg) (a : SReg) (off : BitVec 14) (w64 : Bool) (sp : Sp4) (x : Guard)
  /-- ATOM, major 0x89, form X. -/
  | atom (d : VReg) (a : SReg) (b : VReg) (c : VReg) (rnd : Rnd) (op : AtomOp) (k : BitVec 2) (lo : Bool) (x : Guard)
  /-- RED, major 0x8A, form X. -/
  | red (a : SReg) (b : VReg) (c : VReg) (rnd : Rnd) (op : AtomOp) (k : BitVec 2) (lo : Bool) (x : Guard)
  /-- ATOMS, major 0x8B, form X. -/
  | atoms (d : VReg) (b : VReg) (c : VReg) (rnd : Rnd) (op : AtomOp) (ts : Bool) (nr : Bool) (x : Guard)
  /-- WAITV, major 0x8C, form X. -/
  | waitv (d : SReg) (a : SReg) (b : SReg) (c : SReg) (scope : Scope) (sp : Sp3) (cond : CmpCond) (u : Bool) (nd : Bool) (x : Guard)
  /-- TBEGIN, major 0x8D, form R. -/
  | tbegin (d : VReg) (a : PReg)
  /-- TABORT, major 0x8F, form I. -/
  | tabort (i : BitVec 8)
  /-- PREF, major 0x90, form X. -/
  | pref (a : SReg) (b : VReg) (off : BitVec 14) (lvl : PrefLvl) (k : BitVec 2) (lo : Bool) (x : Guard)
  /-- CFLUSH, major 0x91, form X. -/
  | cflush (a : SReg) (b : VReg) (off : BitVec 14) (act : FlushAct) (k : BitVec 2) (lo : Bool) (x : Guard)
  /-- FENCE, major 0x93, form I. -/
  | fence (fl : Bool) (fs : Bool)
  /-- MLDW, major 0xA0, form X. -/
  | mldw (cb : CbReg) (a : OmReg) (tw : Twin) (x : Guard)
  /-- MMA, major 0xA2, form X. -/
  | mma (d : AccReg) (a : OmReg) (tw : Twin) (ow : Bool) (x : Guard)
  /-- MMAB, major 0xA3, form X. -/
  | mmab (d : AccReg) (a : OmReg) (tw : Twin) (ow : Bool) (andOp : Bool) (x : Guard)
  /-- MZERO, major 0xA4, form R. -/
  | mzero (d : AccReg) (n1 : BitVec 6) (fol : Bool)
  /-- MRD, major 0xA5, form X. -/
  | mrd (d : VReg) (a : AccReg) (fol : Bool) (x : Guard)
  /-- MWR, major 0xA6, form X. -/
  | mwr (d : AccReg) (a : VReg) (fol : Bool) (x : Guard)
  /-- MST, major 0xA7, form X. -/
  | mst (d : OmReg) (a : AccReg) (rnd : Rnd) (fo : Bool) (sat : Bool) (fol : Bool) (s32 : Bool) (x : Guard)
  /-- MCBL, major 0xA8, form X. -/
  | mcbl (d : CbReg) (a : SReg) (sp : McblSp) (x : Guard)
  /-- OMSET, major 0xA9, form X. -/
  | omset (d : OmReg) (a : SReg) (x : Guard)
  /-- MNANR, major 0xAA, form R. -/
  | mnanr (d : SReg)
  /-- CPY, major 0xB0, form X. -/
  | cpy (d : SReg) (a : SReg) (b : SReg) (dsp : Sp4) (ssp : Sp4) (cmd : BitVec 2) (x : Guard)
  /-- TCPY, major 0xB1, form X. -/
  | tcpy (d : SReg) (a : SReg) (out : Bool) (ts : Bool) (rsc : Bool) (cmd : BitVec 2) (x : Guard)
  /-- GATHER, major 0xB2, form X. -/
  | gather (d : SReg) (a : SReg) (b : VReg) (r : BitVec 8) (ts : Bool) (cmd : BitVec 2) (k : BitVec 2) (x : Guard)
  /-- SCATTER, major 0xB3, form X. -/
  | scatter (d : SReg) (a : SReg) (b : VReg) (r : BitVec 8) (ts : Bool) (cmd : BitVec 2) (k : BitVec 2) (x : Guard)
  /-- RGINIT, major 0xB4, form X. -/
  | rginit (d : RgReg) (a : SReg) (n1 : BitVec 4) (slotb : BitVec 8) (ts : Bool) (x : Guard)
  /-- RGACQ_C, major 0xB5, form X. -/
  | rgacqC (d : SReg) (a : RgReg) (b : SReg) (c : PReg) (ph : Bool) (x : Guard)
  /-- RGACQ_P, major 0xB5, form X. -/
  | rgacqP (d : SReg) (a : RgReg) (c : PReg) (x : Guard)
  /-- RGREL_C, major 0xB6, form X. -/
  | rgrelC (a : RgReg) (x : Guard)
  /-- RGREL_P, major 0xB6, form X. -/
  | rgrelP (a : RgReg) (x : Guard)
  /-- RGPUT, major 0xB7, form X. -/
  | rgput (d : RgReg) (a : SReg) (b : SReg) (ssp : Sp4) (cmd : BitVec 2) (x : Guard)
  /-- QPUSH, major 0xB9, form X. -/
  | qpush (d : SReg) (a : SReg) (b : SReg) (x : Guard)
  /-- QPOP, major 0xBA, form X. -/
  | qpop (d : SReg) (c : SReg) (w : Bool) (scope : Scope) (x : Guard)
  /-- LAUNCH, major 0xBB, form X. -/
  | launch (d : SReg) (a : SReg) (b : SReg) (c : SReg) (q : BitVec 2) (cx : Bool) (x : Guard)
  /-- LAUNCH_PRE, major 0xBB, form X. -/
  | launchPre (d : SReg) (a : SReg) (b : SReg) (x : Guard)
  /-- LAUNCH_KILL, major 0xBB, form X. -/
  | launchKill (d : SReg) (a : SReg) (b : SReg) (c : SReg) (x : Guard)
  /-- LAUNCH_CTX, major 0xBB, form X. -/
  | launchCtx (d : SReg) (a : SReg) (x : Guard)
  /-- LAUNCH_RES, major 0xBB, form X. -/
  | launchRes (d : SReg) (a : SReg) (x : Guard)
  /-- WSLD, major 0xBC, form X. -/
  | wsld (d : SReg) (a : SReg) (b : SReg) (x : Guard)
  /-- BR, major 0xC0, form J. -/
  | br (i : BitVec 16)
  /-- BRC, major 0xC1, form L. -/
  | brc (c : PReg) (n : Bool) (mode : BrMode) (rv : Bool) (rcv : BitVec 16) (tgt : BitVec 32)
  /-- CALL, major 0xC2, form J. -/
  | call (i : BitVec 16)
  /-- CALLT, major 0xC3, form J. -/
  | callt (i : BitVec 16)
  /-- CALLI, major 0xC4, form R. -/
  | calli (a : VReg) (xv : Bool)
  /-- RET, major 0xC5, form R. -/
  | ret (a : VReg)
  /-- JMPI, major 0xC6, form R. -/
  | jmpi (a : VReg) (xv : Bool)
  /-- REGANG, major 0xC7, form X. -/
  | regang (m : BitVec 8) (x : Guard)
  /-- IDEM, major 0xCB, form R. -/
  | idem (a : SReg)
  /-- TRAP, major 0xCC, form J. -/
  | trap (i : BitVec 16)
  /-- WAIT, major 0xCE, form L. -/
  | wait (tLd : BitVec 6) (tSt : BitVec 6) (tCp : BitVec 6) (tTl : BitVec 6)
  /-- BAR, major 0xCF, form X. -/
  | bar (d : BarReg) (a : SReg) (n : BitVec 8) (op : BarOp) (sreg : Bool) (x : Guard)
  /-- CSRR, major 0xD0, form X. -/
  | csrr (d : SReg) (nlo : BitVec 8) (nhi : BitVec 4) (x : Guard)
  /-- CSRW, major 0xD1, form X. -/
  | csrw (a : SReg) (nlo : BitVec 8) (op : CsrwOp) (nhi : BitVec 4) (x : Guard)
  /-- GROW, major 0xD2, form I. -/
  | grow (d : SReg) (k : BitVec 8)
  /-- SHRINK, major 0xD3, form I. -/
  | shrink (d : SReg) (k : BitVec 8)
  /-- QUERY, major 0xD4, form X. -/
  | query (d : SReg) (a : SReg) (item : BitVec 8) (x : Guard)
  /-- HOPS, major 0xD5, form X. -/
  | hops (d : SReg) (a : SReg) (b : SReg) (x : Guard)
  /-- TLBW, major 0xD6, form X. -/
  | tlbw (d : SReg) (a : SReg) (b : SReg) (sz : TlbSz) (x : Guard)
  /-- TLBW_FAULT, major 0xD6, form X. -/
  | tlbwFault (d : SReg) (a : SReg) (b : SReg) (x : Guard)
  /-- TLBI_PAGE, major 0xD7, form X. -/
  | tlbiPage (d : SReg) (a : SReg) (c : SReg) (x : Guard)
  /-- TLBI_CTX, major 0xD7, form X. -/
  | tlbiCtx (d : SReg) (a : SReg) (c : SReg) (x : Guard)
  /-- TLBI_ALL, major 0xD7, form X. -/
  | tlbiAll (d : SReg) (c : SReg) (x : Guard)
  /-- TLBI_FQ, major 0xD7, form X. -/
  | tlbiFq (d : SReg) (a : SReg) (b : SReg) (x : Guard)
  /-- NDSRC_TIME, major 0xD8, form X. -/
  | ndsrcTime (d : SReg) (x : Guard)
  /-- NDSRC_RAND, major 0xD8, form X. -/
  | ndsrcRand (d : SReg) (x : Guard)
  /-- SIGRD, major 0xD9, form R. -/
  | sigrd (d : SReg) (what : SigSel)
  /-- GETM, major 0xDA, form X. -/
  | getm (d : SReg) (x : Guard)
  /-- SETM, major 0xDA, form X. -/
  | setm (a : SReg) (m : BitVec 6) (x : Guard)
  /-- DBG_HALT, major 0xDB, form X. -/
  | dbgHalt (d : SReg) (b : SReg) (x : Guard)
  /-- DBG_RUN, major 0xDB, form X. -/
  | dbgRun (d : SReg) (b : SReg) (x : Guard)
  /-- DBG_STEP, major 0xDB, form X. -/
  | dbgStep (d : SReg) (b : SReg) (x : Guard)
  /-- DBG_BP, major 0xDB, form X. -/
  | dbgBp (d : SReg) (a : SReg) (b : SReg) (slot : BitVec 2) (x : Guard)
  /-- DBG_WP, major 0xDB, form X. -/
  | dbgWp (d : SReg) (a : SReg) (b : SReg) (slot : BitVec 1) (kind : BitVec 2) (len : BitVec 4) (x : Guard)
  /-- DBG_DUMP, major 0xDB, form X. -/
  | dbgDump (d : SReg) (a : SReg) (b : SReg) (x : Guard)
  /-- CODEPUB_NEW, major 0xDC, form X. -/
  | codepubNew (d : SReg) (a : SReg) (x : Guard)
  /-- CODEPUB_PUB, major 0xDC, form X. -/
  | codepubPub (d : SReg) (a : SReg) (b : SReg) (x : Guard)
  /-- CODEPUB_RET, major 0xDC, form X. -/
  | codepubRet (d : SReg) (a : SReg) (x : Guard)
  /-- FRMIG_COPY, major 0xDD, form X. -/
  | frmigCopy (d : SReg) (a : SReg) (x : Guard)
  /-- FRMIG_COMMIT, major 0xDD, form X. -/
  | frmigCommit (d : SReg) (a : SReg) (b : SReg) (x : Guard)
  /-- FRMIG_END, major 0xDD, form X. -/
  | frmigEnd (d : SReg) (a : SReg) (x : Guard)
  /-- FRMIG_BAD, major 0xDD, form X. -/
  | frmigBad (d : SReg) (a : SReg) (x : Guard)
  /-- Event WAYP_WRITE (10 R239). -/
  | waypWrite (die : Nat) (v : BitVec 32)
  /-- Event VDTB_WRITE (16 R355). -/
  | vdtbWrite (addr : BitVec 64)
  /-- Event RETN_WRITE (10 R245). -/
  | retnWrite (die : Nat) (v : BitVec 32)
  /-- Event SMPLCFG_WRITE (17 R387). -/
  | smplcfgWrite (die core : Nat) (v : BitVec 32)
  /-- Event CLAUSE_HEADER (04 R86). -/
  | clauseHeader (h : BitVec 32)
  /-- Event RECONVERGENCE_RELEASE (02 R35). -/
  | reconvergenceRelease (k : GangKey) (rpc : BitVec 32)
  /-- Event RESULT_WRITEBACK (05 R121). -/
  | resultWriteback (k : GangKey) (id : Nat)
  /-- Event LOAD_COMPLETE (17 R375). -/
  | loadComplete (k : GangKey) (id : Nat)
  /-- Event STORE_ACCEPTED (12 R269). -/
  | storeAccepted (k : GangKey) (id : Nat)
  /-- Event QUARANTINE_RELEASE (18 R398). -/
  | quarantineRelease (die core : Nat)
  /-- Event HOME_LOAD_FAULT (12 R266). -/
  | homeLoadFault (k : GangKey) (f : HomeFault)
  /-- Event DEFERRED_STORE_FAULT (12 R267). -/
  | deferredStoreFault (k : GangKey) (f : HomeFault)
  /-- Event ENGINE_ACCESS_FAULT (14 R313). -/
  | engineAccessFault (die core stream : Nat) (f : HomeFault)
  /-- Event REMOTE_TIMEOUT (12 R268). -/
  | remoteTimeout (tag : Nat)
  /-- Event INBOUND_REMOTE_ACCESS (18 R404). -/
  | inboundRemoteAccess (link : Nat) (q : RemoteReq)
  /-- Event TLB_MISS (16 R359). -/
  | tlbMiss (home ctx : Nat) (striped : Bool) (gran : Nat) (w : Waiter)
  /-- Event TRANSLATION_RETRY (16 R359). -/
  | translationRetry (home ctx : Nat) (striped : Bool) (gran : Nat) (w : Waiter)
  /-- Event WALKER_START (16 R360). -/
  | walkerStart (home : Nat)
  /-- Event COPY_COMPLETE (14 R311). -/
  | copyComplete (die core stream : Nat)
  /-- Event SHADOW_PLANE_READY (08 R210). -/
  | shadowPlaneReady (die core : Nat)
  /-- Event STREAM_ROW_WRITTEN (08 R210). -/
  | streamRowWritten (die core : Nat)
  /-- Event MST_COMPLETE (08 R204). -/
  | mstComplete (k : GangKey) (id : Nat)
  /-- Event GROW_GRANT (09 R219). -/
  | growGrant (die core part : Nat)
  /-- Event BOOST (13 R306). -/
  | boost (k : GangKey) (slice : Nat)
  /-- Event LAUNCH_APPEND (13 R297). -/
  | launchAppend (die name queue : Nat)
  /-- Event DEPENDENCE_POLL (13 R298). -/
  | dependencePoll (die : Nat)
  /-- Event ADMISSION (13 R299). -/
  | admission (die : Nat)
  /-- Event BLOCK_DEAL (13 R300). -/
  | blockDeal (b : BlockKey)
  /-- Event BLOCK_START (10 R234). -/
  | blockStart (b : BlockKey)
  /-- Event LAUNCH_COMPLETION (13 R301). -/
  | launchCompletion (name : Nat)
  /-- Event BALANCE_TICK (13 R305). -/
  | balanceTick (die : Nat)
  /-- Event BALANCE_ARRIVAL (13 R305). -/
  | balanceArrival (die core : Nat)
  /-- Event REPARTITION_COMPLETE (10 R239). -/
  | repartitionComplete (die : Nat)
  /-- Event RETENTION_ENTRY (10 R245). -/
  | retentionEntry (die core : Nat) (acc : Bool)
  /-- Event RETENTION_EXIT (10 R245). -/
  | retentionExit (die core : Nat) (acc : Bool)
  /-- Event HOME_CACHE_WRITEBACK (10 R243). -/
  | homeCacheWriteback (home line : Nat)
  /-- Event FRMIG_COPY_DONE (16 R368). -/
  | frmigCopyDone (home : Nat)
  /-- Event VERSION_FREE (15 R348). -/
  | versionFree (ctx ver : Nat)
  /-- Event MARGIN_MONITOR_REPORT (01 R19). -/
  | marginMonitorReport (die core : Nat) (halfB : Bool)
  /-- Event HALF_WIDTH_SWITCH (01 R19). -/
  | halfWidthSwitch (die core : Nat)
  /-- Event CROSSING_CHECK_ERROR (01 R19). -/
  | crossingCheckError (die core : Nat) (halfB : Bool)
  /-- Event STRIKE_REPORT (18 R400). -/
  | strikeReport (die : Nat) (lDie : Bool) (region : Nat)
  /-- Event REPLICA_VOTE (19 R415). -/
  | replicaVote (name blk gang : Nat)
  /-- Event RESYNC_IMAGE_ARRIVAL (19 R418). -/
  | resyncImageArrival (b : BlockKey)
  /-- Event REPLICA_RECORD_TIMEOUT (19 R421). -/
  | replicaRecordTimeout (name blk gang : Nat)
  /-- Event FORWARD_ARRIVAL (19 R419). -/
  | forwardArrival (k : GangKey) (vals : List (BitVec 32))
  /-- Event DIE_RESET (18 R403). -/
  | dieReset (die : Nat)
  /-- Event HOME_RESET (10 R246). -/
  | homeReset (home : Nat)
  /-- Event MGMT_LOAD (20 R428). -/
  | mgmtLoad (port : Nat) (img : FwImage)
  /-- Event MGMT_LIFE (20 R427). -/
  | mgmtLife (port off len : Nat)
  /-- Event MGMT_TOKEN (20 R435). -/
  | mgmtToken (port : Nat) (tok : List (BitVec 8))
  /-- Event LIFECYCLE_ADVANCE (20 R434). -/
  | lifecycleAdvance (signed : Bool) (dest : BitVec 2)
  /-- Event FLIT_ARRIVAL (20 R429). -/
  | flitArrival (link : Nat) (f : Flit)
  /-- Event LINK_RETRAIN (20 R429). -/
  | linkRetrain (link : Nat)
  /-- Event REPLAY_INJECT (20 R433). -/
  | replayInject (n : Nat)
  /-- Event RESERVED_OPCODE_ISSUE (04 R94). -/
  | reservedOpcodeIssue (w : BitVec 32)
  /-- Event APPLICATION_CORE_ACCESS (11 R247). -/
  | applicationCoreAccess (q : HostAccess)
  /-- Event RECALL_ARRIVAL (16 R364). -/
  | recallArrival (home die ctx : Nat) (lo len : Nat)
  /-- Event CODEBOOK_READY (08 R210). -/
  | codebookReady (die core : Nat)
  /-- Event ABAIL_TRANSLATION (04 R110). -/
  | abailTranslation (m : AbailModule)
  /-- NOP, major 0x01, form R. -/
  | nop
  /-- TEND, major 0x8E, form R. -/
  | tend
  /-- REL, major 0x92, form R. -/
  | rel
  /-- MSWAP, major 0xA1, form R. -/
  | mswap
  /-- EXIT, major 0xC8, form R. -/
  | exit
  /-- LEXIT, major 0xC9, form R. -/
  | lexit
  /-- YIELD, major 0xCA, form R. -/
  | yield
  /-- TRET, major 0xCD, form R. -/
  | tret
  /-- Event HEADER_WAIT_MET (04 R87). -/
  | headerWaitMet
  /-- Event GANG_EXIT (15 R342). -/
  | gangExit
  /-- Event STARVATION_TIMER_EXPIRY (17 R383). -/
  | starvationTimerExpiry
  /-- Event PIN_END_FLUSH (02 R57). -/
  | pinEndFlush
  /-- Event BLOCK_RESTART (02 R58). -/
  | blockRestart
  /-- Event LCLK_TICK (11 R251). -/
  | lclkTick
  /-- Event WS_REFRESH_WINDOW (10 R241). -/
  | wsRefreshWindow
  /-- Event VERDICT_ARRIVAL (19 R414). -/
  | verdictArrival
  /-- Event LIFETIME_FOLD (17 R390). -/
  | lifetimeFold
  /-- Event POWER_UP (20 R428). -/
  | powerUp
  /-- Event MGMT_STATUS (20 R427). -/
  | mgmtStatus
  /-- Event POWER_LOSS (17 R390). -/
  | powerLoss
  /-- Event ORDERLY_SHUTDOWN (17 R390). -/
  | orderlyShutdown
  /-- Event MODULE_RESET (20 R435). -/
  | moduleReset
  /-- Event LOG_FREEZE (20 R432). -/
  | logFreeze
  /-- Event WAITV_RELOAD_TIMEOUT (12 R282). -/
  | waitvReloadTimeout
deriving DecidableEq, Repr

end Sys2Proof
end

