-- ==== Sys2Proof/WellFormed.lean ====
section
/-! DEFINITION. Which instructions are well formed: the checks on an instruction's fields that the spec gives the fate
ILLEGAL_ENCODING, beyond undefined field values and must-be-zero bits, which the syntax cannot hold. -/

namespace Sys2Proof

/-- An even register, the base of a pair (04 R90). -/
def ev {w : Nat} (r : BitVec w) : Bool := r.toNat % 2 == 0

/-- A register number that is a multiple of 4. -/
def mul4 {w : Nat} (r : BitVec w) : Bool := r.toNat % 4 == 0

/-- A position from 0 to 31 and a length from 1 to 32 whose sum is at most 32 (06 R138). -/
def bfOk (pos len : BitVec 8) : Bool := decide (1 ≤ len.toNat) && decide (pos.toNat ≤ 31) && decide (pos.toNat + len.toNat ≤ 32)

/-- C is zero when no combine is named (06 R141). -/
def combOk (comb : Comb) (c : PReg) : Bool := comb != .none || c == 0

/-- The 64-bit operations of SALU name even pairs (06 R144). -/
def SaluOp.pair : SaluOp → Bool
  | .add64 => true
  | .sub64 => true
  | _ => false

/-- SALU (06 R144): pairs are even; .mov, .popc and .clz need B zero. -/
def saluOk (op : SaluOp) (d a b : SReg) : Bool :=
  (!op.pair || (ev d && ev a && ev b)) && ((op != .mov && op != .popc && op != .clz) || b == 0)

/-- SALUI (06 R144): no .popc or .clz; .mov needs A zero; pairs are even. -/
def saluiOk (op : SaluOp) (d a : SReg) : Bool :=
  op != .popc && op != .clz && (!op.pair || (ev d && ev a)) && (op != .mov || a == 0)

/-- The lane selector of RDLANE and WRLANE (06 R132). -/
def laneSelOk (reg : Bool) (b : SReg) (n : BitVec 8) : Bool := if reg then n == 0 else b == 0 && decide (n.toNat ≤ 31)

/-- The 64-bit types of SCMP name even pairs (06 R146). -/
def scmpOk (ty : ScmpTy) (a b : SReg) : Bool := (ty != .i64 && ty != .ui64) || (ev a && ev b)

/-- Element 1 exists in the packed types alone (07 R169). -/
def hiOk (hi : Bool) (ty : FTy) : Bool := !hi || ty == .f16x2 || ty == .bf16x2

/-- DFMA (07 R167): C is zero but for .fma; .min and .max need RND and FO zero; no stochastic rounding. -/
def dfmaOk (op : DfmaOp) (c : VReg) (rnd : Rnd) (fo : Bool) : Bool :=
  (op == .fma || c == 0) && rnd != .sr && ((op != .min && op != .max) || (rnd == .mode && !fo))

/-- Elements per register of a conversion type (07 R172); 1 for F64. -/
def CvtTy.elems : CvtTy → Nat
  | .f16 => 2 | .bf16 => 2 | .s16 => 2 | .u16 => 2
  | .e4m3 => 4 | .e5m2 => 4 | .s8 => 4 | .u8 => 4
  | _ => 1

/-- A floating-point conversion type (07 R172). -/
def CvtTy.isFloat : CvtTy → Bool
  | .f32 => true | .f16 => true | .bf16 => true | .f64 => true | .e4m3 => true | .e5m2 => true
  | _ => false

/-- The float-to-float conversions to a wider format (07 R174, 03 R71): F16 or BF16 to F32, FP8 to F16, BF16 or F32, anything to F64. -/
def CvtTy.widens (s d : CvtTy) : Bool :=
  match s, d with
  | .f16, .f32 => true
  | .bf16, .f32 => true
  | .e4m3, .f32 => true
  | .e5m2, .f32 => true
  | .e4m3, .f16 => true
  | .e5m2, .f16 => true
  | .e4m3, .bf16 => true
  | .e5m2, .bf16 => true
  | s, .f64 => s.isFloat
  | _, _ => false

/-- FI acts on F64, F32, F16 and BF16 sources, and FO on F32, F16 and BF16 results; elsewhere they change nothing and
are allowed (07 R173, R174). RND and SAT by the kinds of source and destination (07 R174). -/
def cvtOk (s d : CvtTy) (si di : BitVec 2) (rnd : Rnd) (sat : Bool) : Bool :=
  s != d && decide (si.toNat < s.elems) && decide (di.toNat < d.elems) &&
  (if s.isFloat then
    if d.isFloat then !(s.widens d && rnd == .sr) else rnd != .sr && !sat
   else if d.isFloat then rnd != .sr else rnd == .mode && !sat)

/-- CVTPK (07 R175): a 16- or 8-bit destination; .put1 for 8 bits alone; .bs for E4M3 alone, and C only with it; RND and
SAT as R174 gives them. -/
def cvtpkOk (d : CvtTy) (h bs : Bool) (c : VReg) (rnd : Rnd) (sat : Bool) : Bool :=
  decide (2 ≤ d.elems) && (!h || d.elems == 4) && (!bs || d == .e4m3) && (bs || c == 0) &&
  (d.isFloat || (rnd != .sr && !sat))

/-- CVTUP (07 R176). -/
def cvtupOk (s d : CvtTy) (h bs : Bool) (c : VReg) (rnd : Rnd) (sat : Bool) : Bool :=
  decide (2 ≤ s.elems) && (d == .f32 || (d == .s32 && !s.isFloat)) && (!h || s.elems == 4) &&
  (!bs || (s == .e4m3 && d == .f32)) && (bs || (c == 0 && rnd == .mode && !sat)) && rnd != .sr

/-- VOTE (06 R149): a predicate destination but for .ballot and .sc; .ballot has no EXT. -/
def voteOk (op : VoteOp) (d : BitVec 6) (sc : Bool) : Bool :=
  if op == .ballot then !sc else sc || decide (d.toNat < 8)

/-- The reductions that return a value and its lane (06 R152). -/
def RedOp.indexed : RedOp → Bool
  | .minidxI => true | .maxidxI => true | .minidxU => true | .maxidxU => true
  | _ => false

/-- REDX (06 R127, R150 to R152): RND and FO for .fadd alone, FI for the floating-point operations, an even D for the
index forms, a scalar number below 64 with .sc. -/
def redxOk (op : RedOp) (d : VReg) (sc : Bool) (rnd : Rnd) (fo fi : Bool) : Bool :=
  (!sc || decide (d.toNat < 64)) && (!op.indexed || ev d) &&
  (if op == .fadd then rnd != .sr else rnd == .mode && !fo && (!fi || op == .fmin || op == .fmax))

/-- LO is 1 when B names a lane register and 0 when B is zero (12 R263). -/
def loOk (lo : Bool) (b : VReg) : Bool := lo || b == 0

/-- The address form of LD and ST (12 R263, R272): a global pair, or the lane form of a private window. -/
def lpOk (p : Bool) (a : SReg) (b : VReg) (k : BitVec 2) (lo : Bool) : Bool :=
  if p then a == 0 && k == 0 && !lo else ev a && loOk lo b

/-- Registers of an element of a lane load (12 R272). -/
def LdTy.regs : LdTy → Nat
  | .d => 2
  | .q => 4
  | _ => 1

/-- Registers of an element of a lane store (12 R272). -/
def StTy.regs : StTy → Nat
  | .d => 2
  | .q => 4
  | _ => 1

/-- The destination of a lane load (12 R272). -/
def ldDstOk (ty : LdTy) (d : VReg) : Bool := d.toNat % ty.regs == 0

/-- The data of a lane store (12 R272). -/
def stSrcOk (ty : StTy) (d : VReg) : Bool := d.toNat % ty.regs == 0

/-- A uniform address: an even pair for global memory (12 R263, R275). -/
def sp4Ok (sp : Sp4) (a : SReg) : Bool := sp != .glob || ev a

/-- The address form of LDP and STP (12 R274). -/
def pspOk (sp : PSp) (a : SReg) (b : VReg) (k : BitVec 2) (lo : Bool) : Bool :=
  if sp == .glob then ev a && loOk lo b else a == 0 && k == 0 && !lo

/-- The 64-bit atomic operations (12 R279). -/
def AtomOp.wide : AtomOp → Bool
  | .add64 => true | .exch64 => true | .cas64 => true
  | _ => false

/-- The return register of an atomic: even for a 64-bit operation (12 R278). -/
def atomDstOk (op : AtomOp) (d : VReg) : Bool := !op.wide || ev d

/-- The data registers of an atomic, and RND for .fadd alone (12 R262, R279). -/
def atomSrcOk (op : AtomOp) (c : VReg) (rnd : Rnd) : Bool :=
  (match op with
   | .cas => ev c
   | .add64 => ev c
   | .exch64 => ev c
   | .cas64 => mul4 c
   | _ => true) &&
  (if op == .fadd then rnd != .sr else rnd == .mode)

/-- RED has no exchange and no compare-and-swap (12 R279). -/
def redOpOk : AtomOp → Bool
  | .exch => false | .cas => false | .exch64 => false | .cas64 => false
  | _ => true

/-- The CSRs of the map and whether each is 64 bits wide (05 R123); none for a number absent from the map. -/
def csrWide (n : Nat) : Option Bool :=
  if n ≤ 4 || (0x20 ≤ n && n ≤ 0x24) then some false
  else if n == 0x30 then some true
  else if n == 0x31 || (0x40 ≤ n && n ≤ 0x42) || n == 0x50 then some false
  else if n == 0x51 then some true
  else if n == 0x52 || (0x60 ≤ n && n ≤ 0x62) then some false
  else if n == 0x70 then some true
  else if n == 0x71 || (0x80 ≤ n && n ≤ 0x82) then some false
  else if n == 0x83 then some true
  else if n == 0x84 || (0x90 ≤ n && n ≤ 0x92) then some false
  else if n == 0x93 || (0xA0 ≤ n && n ≤ 0xA8) || n == 0xB0 then some true
  else if n == 0xB1 then some false
  else none

/-- The CSR number of CSRR and CSRW is in the map, and a 64-bit CSR names an even register (09 R214). -/
def csrEncOk (nlo : BitVec 8) (nhi : BitVec 4) (r : SReg) : Bool :=
  match csrWide (nhi.toNat * 256 + nlo.toNat) with
  | none => false
  | some true => ev r
  | some false => true

/-- QUERY has the items 0 to 9, and an argument for items 3 and 4 alone (09 R220). -/
def queryOk (item : BitVec 8) (a : SReg) : Bool :=
  decide (item.toNat ≤ 9) && (item.toNat == 3 || item.toNat == 4 || a == 0)

/-- The majors that no instruction of generation 1 owns (04 R93, R94). -/
def reservedMajor (m : Nat) : Bool :=
  m == 0 || m == 0x31 || (0x4D ≤ m && m ≤ 0x4F) || (0x55 ≤ m && m ≤ 0x57) || (0x62 ≤ m && m ≤ 0x6F) ||
  (0x76 ≤ m && m ≤ 0x7F) || (0x94 ≤ m && m ≤ 0x9F) || (0xAB ≤ m && m ≤ 0xAF) || m == 0xB8 ||
  (0xBD ≤ m && m ≤ 0xBF) || (0xDE ≤ m && m ≤ 0xFF)


/-- The conditions the spec puts on the fields of an instruction beyond their widths (04 R90, R94 and each entry).
An event has none, but for RESERVED_OPCODE_ISSUE, whose word has a major that no instruction owns (04 R94). -/
def Instr.wf : Instr → Bool
  | .nop => true
  | .mov _ _ => true
  | .movi _ _ => true
  | .movh _ _ => true
  | .movl _ _ => true
  | .add _ _ _ => true
  | .addi _ _ _ => true
  | .sub _ _ _ => true
  | .neg _ _ => true
  | .addsat _ _ _ _ _ => true
  | .subsat _ _ _ _ _ => true
  | .mullo _ _ _ => true
  | .mulhi _ _ _ _ _ => true
  | .mad _ _ _ _ _ _ _ => true
  | .madw d _ _ c _ _ => ev d && ev c
  | .abs _ _ => true
  | .min _ _ _ _ _ => true
  | .max _ _ _ _ _ => true
  | .and _ _ _ => true
  | .or _ _ _ => true
  | .xor _ _ _ => true
  | .andn _ _ _ => true
  | .andi _ _ _ => true
  | .ori _ _ _ => true
  | .xori _ _ _ => true
  | .shl _ _ _ => true
  | .shr _ _ _ => true
  | .sar _ _ _ => true
  | .shli _ _ i => i.toNat < 32
  | .shri _ _ i => i.toNat < 32
  | .sari _ _ i => i.toNat < 32
  | .rotl _ _ _ => true
  | .popc _ _ => true
  | .clz _ _ => true
  | .brev _ _ => true
  | .bfe _ _ _ pos len _ => bfOk pos len
  | .bfi _ _ _ pos len _ => bfOk pos len
  | .lea _ _ _ _ _ _ => true
  | .sel _ _ _ _ _ => true
  | .cmp _ _ _ c _ _ comb _ => combOk comb c
  | .cmpi _ _ _ c _ _ comb _ => combOk comb c
  | .idiv _ _ _ _ _ => true
  | .irem _ _ _ _ _ => true
  | .sxt _ _ n => decide (1 ≤ n.toNat) && decide (n.toNat ≤ 32)
  | .zxt _ _ n => decide (1 ≤ n.toNat) && decide (n.toNat ≤ 32)
  | .bperm _ _ _ _ _ => true
  | .add64 d a b _ _ => ev d && ev a && ev b
  | .shf _ _ _ _ _ _ => true
  | .pand _ _ _ => true
  | .por _ _ _ => true
  | .pxor _ _ _ => true
  | .pnot _ _ => true
  | .pmov _ _ => true
  | .vfromp _ _ => true
  | .salu d a b op _ => saluOk op d a b
  | .salui d a op _ => saluiOk op d a
  | .smovi _ _ => true
  | .bcast _ _ => true
  | .rdlane _ _ b n reg _ => laneSelOk reg b n
  | .wrlane _ _ b n reg _ => laneSelOk reg b n
  | .elect _ a ws => ws || a == 0
  | .scmp _ a b c ty _ comb _ => combOk comb c && scmpOk ty a b
  | .fadd _ _ _ => true
  | .fsub _ _ _ => true
  | .fmul _ _ _ => true
  | .ffma _ _ _ _ rnd _ _ ty _ _ _ => rnd != .sr && ty != .f64
  | .faddx _ _ _ rnd _ _ ty _ _ => rnd != .sr && ty != .f64
  | .fmulx _ _ _ rnd _ _ ty _ => rnd != .sr && ty != .f64
  | .fmin _ _ _ _ ty _ => ty != .f64
  | .fmax _ _ _ _ ty _ => ty != .f64
  | .fmov _ _ b _ op _ => op == .cpsgn || b == 0
  | .fcmp _ _ _ c _ ty hi _ comb _ => combOk comb c && hiOk hi ty
  | .fclass _ _ _ _ ty hi _ => hiOk hi ty
  | .frnd _ _ rnd _ _ _ _ => rnd != .sr
  | .dfma _ _ _ c rnd _ fo op _ => dfmaOk op c rnd fo
  | .cvt _ _ rnd _ _ sat si di sty dty _ => cvtOk sty dty si di rnd sat
  | .cvtpk _ _ _ c rnd _ _ sat h bs dty _ => cvtpkOk dty h bs c rnd sat
  | .cvtup d _ c rnd _ _ sat h bs sty dty _ => ev d && cvtupOk sty dty h bs c rnd sat
  | .cbenc _ _ _ _ _ _ _ => true
  | .cbdec _ _ _ _ _ => true
  | .rcp _ _ => true
  | .rsq _ _ => true
  | .sqrt _ _ => true
  | .exp2 _ _ => true
  | .log2 _ _ => true
  | .sinpi _ _ => true
  | .cospi _ _ => true
  | .fdiv _ _ _ rnd _ _ _ => rnd != .sr
  | .tanh _ _ => true
  | .sigm _ _ => true
  | .shfl _ _ b _ k reg _ _ => if reg then k == 0 else b == 0
  | .vote d _ op sc _ => voteOk op d sc
  | .redx d _ rnd fi fo op sc _ => redxOk op d sc rnd fo fi
  | .scanx _ _ _ _ _ => true
  | .lid _ _ => true
  | .matchLanes _ a b64 _ => !b64 || ev a
  | .ld d a b _ ty p _ k lo _ => lpOk p a b k lo && ldDstOk ty d
  | .st d a b _ ty p _ k lo _ => lpOk p a b k lo && stSrcOk ty d
  | .lds d _ _ ty _ _ => ldDstOk ty d
  | .sts d _ _ ty _ _ => stSrcOk ty d
  | .ldw d a _ n sp _ _ => decide (d.toNat % 2 ^ n.toNat = 0) && sp4Ok sp a
  | .ldp _ a b _ h j sp k lo _ => (!h || j.toNat < 2) && pspOk sp a b k lo
  | .stp _ a b _ h j sp k lo _ => (!h || j.toNat < 2) && pspOk sp a b k lo
  | .sld d a _ w64 sp _ => (!w64 || ev d) && sp4Ok sp a
  | .sst d a _ w64 sp _ => (!w64 || ev d) && sp4Ok sp a
  | .atom d a b c rnd op _ lo _ => ev a && loOk lo b && atomDstOk op d && atomSrcOk op c rnd
  | .red a b c rnd op _ lo _ => ev a && loOk lo b && redOpOk op && atomSrcOk op c rnd
  | .atoms d _ c rnd op _ nr _ => (if nr then d == 0 else atomDstOk op d) && atomSrcOk op c rnd
  | .waitv d a b _ scope sp _ _ nd _ => (sp != .glob || ev a) && (scope == .ext || b == 0) && (!nd || d == 0)
  | .tbegin _ _ => true
  | .tend => true
  | .tabort _ => true
  | .pref a b _ _ _ lo _ => ev a && loOk lo b
  | .cflush a b _ _ _ lo _ => ev a && loOk lo b
  | .rel => true
  | .fence fl fs => fl || fs
  | .mldw _ _ _ _ => true
  | .mswap => true
  | .mma _ _ _ _ _ => true
  | .mmab _ _ _ _ _ _ => true
  | .mzero _ _ _ => true
  | .mrd d _ _ _ => d.toNat ≤ 248
  | .mwr _ a _ _ => a.toNat ≤ 248
  | .mst _ _ rnd _ _ _ _ _ => rnd != .sr
  | .mcbl _ _ _ _ => true
  | .omset _ a _ => mul4 a
  | .mnanr _ => true
  | .cpy d a _ dsp ssp _ _ => sp4Ok dsp d && sp4Ok ssp a
  | .tcpy d a _ _ rsc _ _ => decide (d.toNat % 8 = 0) && (rsc || ev a)
  | .gather _ a _ _ _ _ _ _ => ev a
  | .scatter _ a _ _ _ _ _ _ => ev a
  | .rginit _ _ _ _ _ _ => true
  | .rgacqC d _ b _ ph _ => ev d && (!ph || b == 0)
  | .rgacqP d _ _ _ => ev d
  | .rgrelC _ _ => true
  | .rgrelP _ _ => true
  | .rgput _ a _ ssp _ _ => sp4Ok ssp a
  | .qpush _ _ b _ => ev b
  | .qpop d c w scope _ => mul4 d && (w || scope == .block) && ((w && scope == .ext) || c == 0)
  | .launch d a b c _ cx _ => ev d && ev a && ev b && (cx || c == 0)
  | .launchPre d a b _ => ev d && ev a && ev b
  | .launchKill d a b _ _ => ev d && ev a && ev b
  | .launchCtx d a _ => ev d && ev a
  | .launchRes d a _ => ev d && ev a
  | .wsld _ a _ _ => ev a
  | .br _ => true
  | .brc _ _ _ rv rcv _ => rv || rcv == 0
  | .call _ => true
  | .callt _ => true
  | .calli _ _ => true
  | .ret _ => true
  | .jmpi _ _ => true
  | .regang _ _ => true
  | .exit => true
  | .lexit => true
  | .yield => true
  | .idem _ => true
  | .trap _ => true
  | .tret => true
  | .wait _ _ _ _ => true
  | .bar _ a n _ sreg _ => if sreg then n == 0 else a == 0 && decide (1 ≤ n.toNat) && decide (n.toNat ≤ 32)
  | .csrr d nlo nhi _ => csrEncOk nlo nhi d
  | .csrw a nlo _ nhi _ => csrEncOk nlo nhi a
  | .grow _ k => decide (1 ≤ k.toNat) && decide (k.toNat ≤ 15)
  | .shrink _ k => decide (1 ≤ k.toNat) && decide (k.toNat ≤ 15)
  | .query _ a item _ => queryOk item a
  | .hops _ _ _ _ => true
  | .tlbw _ _ b _ _ => ev b
  | .tlbwFault _ _ _ _ => true
  | .tlbiPage _ a _ _ => ev a
  | .tlbiCtx _ a _ _ => ev a
  | .tlbiAll _ _ _ => true
  | .tlbiFq _ _ _ _ => true
  | .ndsrcTime d _ => ev d
  | .ndsrcRand d _ => ev d
  | .sigrd d _ => ev d
  | .getm d _ => ev d
  | .setm a _ _ => ev a
  | .dbgHalt _ _ _ => true
  | .dbgRun _ _ _ => true
  | .dbgStep _ _ _ => true
  | .dbgBp _ a _ _ _ => ev a
  | .dbgWp _ a _ _ _ len _ => ev a && decide (len.toNat ≤ 12)
  | .dbgDump _ a _ _ => ev a
  | .codepubNew d a _ => ev d && ev a
  | .codepubPub d _ _ _ => ev d
  | .codepubRet d _ _ => ev d
  | .frmigCopy d a _ => ev d && ev a
  | .frmigCommit d a b _ => ev d && ev a && ev b
  | .frmigEnd d a _ => ev d && ev a
  | .frmigBad d a _ => ev d && ev a
  | .waypWrite _ _ => true
  | .vdtbWrite _ => true
  | .retnWrite _ _ => true
  | .smplcfgWrite _ _ _ => true
  | .clauseHeader _ => true
  | .headerWaitMet => true
  | .reconvergenceRelease _ _ => true
  | .gangExit => true
  | .resultWriteback _ _ => true
  | .loadComplete _ _ => true
  | .storeAccepted _ _ => true
  | .quarantineRelease _ _ => true
  | .homeLoadFault _ _ => true
  | .deferredStoreFault _ _ => true
  | .engineAccessFault _ _ _ _ => true
  | .remoteTimeout _ => true
  | .inboundRemoteAccess _ _ => true
  | .tlbMiss _ _ _ _ _ => true
  | .translationRetry _ _ _ _ _ => true
  | .walkerStart _ => true
  | .copyComplete _ _ _ => true
  | .shadowPlaneReady _ _ => true
  | .streamRowWritten _ _ => true
  | .mstComplete _ _ => true
  | .growGrant _ _ _ => true
  | .boost _ _ => true
  | .starvationTimerExpiry => true
  | .pinEndFlush => true
  | .blockRestart => true
  | .launchAppend _ _ _ => true
  | .dependencePoll _ => true
  | .admission _ => true
  | .blockDeal _ => true
  | .blockStart _ => true
  | .launchCompletion _ => true
  | .balanceTick _ => true
  | .balanceArrival _ _ => true
  | .lclkTick => true
  | .repartitionComplete _ => true
  | .wsRefreshWindow => true
  | .retentionEntry _ _ _ => true
  | .retentionExit _ _ _ => true
  | .homeCacheWriteback _ _ => true
  | .frmigCopyDone _ => true
  | .versionFree _ _ => true
  | .marginMonitorReport _ _ _ => true
  | .halfWidthSwitch _ _ => true
  | .crossingCheckError _ _ _ => true
  | .strikeReport _ _ _ => true
  | .replicaVote _ _ _ => true
  | .verdictArrival => true
  | .resyncImageArrival _ => true
  | .replicaRecordTimeout _ _ _ => true
  | .forwardArrival _ _ => true
  | .lifetimeFold => true
  | .dieReset _ => true
  | .homeReset _ => true
  | .powerUp => true
  | .mgmtStatus => true
  | .mgmtLoad _ _ => true
  | .mgmtLife _ _ _ => true
  | .mgmtToken _ _ => true
  | .lifecycleAdvance _ _ => true
  | .flitArrival _ _ => true
  | .linkRetrain _ => true
  | .replayInject _ => true
  | .reservedOpcodeIssue w => reservedMajor (w.toNat % 256)
  | .applicationCoreAccess _ => true
  | .powerLoss => true
  | .orderlyShutdown => true
  | .moduleReset => true
  | .logFreeze => true
  | .waitvReloadTimeout => true
  | .recallArrival _ _ _ _ _ => true
  | .codebookReady _ _ => true
  | .abailTranslation _ => true

end Sys2Proof
end

