-- ==== Sys2Proof/Decode.lean ====
section
/-! DEFINITION. The decoder and the encoder of the Cegil's words (04 R89 to R94). `extract` reads an instruction's fields,
`encode` writes them, and `decode` accepts a word sequence when its fields form a well-formed instruction whose words are
exactly these, so that every bit an instruction does not use must be zero (04 R89, R94). -/

namespace Sys2Proof

/-- Words of an instruction by its major: forms R, I and J have one, X and L two (04 R89); none for a major no
instruction owns (04 R93). -/
def wordsOf (m : Nat) : Option Nat :=
  if reservedMajor m then none
  else if m == 0x05 || (0x0A ≤ m && m ≤ 0x0B) || (0x0D ≤ m && m ≤ 0x0F) || (0x11 ≤ m && m ≤ 0x12) ||
    (0x24 ≤ m && m ≤ 0x2B) || (0x2E ≤ m && m ≤ 0x30) || (0x38 ≤ m && m ≤ 0x39) || (0x3C ≤ m && m ≤ 0x3D) || m == 0x3F ||
    (0x43 ≤ m && m ≤ 0x54) || m == 0x5F || (0x70 ≤ m && m ≤ 0x73) || m == 0x75 || (0x80 ≤ m && m ≤ 0x8C) ||
    (0x90 ≤ m && m ≤ 0x91) || m == 0xA0 || (0xA2 ≤ m && m ≤ 0xA3) || (0xA5 ≤ m && m ≤ 0xA9) ||
    (0xB0 ≤ m && m ≤ 0xBC) || m == 0xC1 || m == 0xC7 || (0xCE ≤ m && m ≤ 0xD1) || (0xD4 ≤ m && m ≤ 0xD8) ||
    (0xDA ≤ m && m ≤ 0xDD) then some 2
  else some 1

/-- GRD, GN and GO of word 1 (04 R89). -/
def Guard.ofWord (w1 : Nat) : Guard := ⟨BitVec.ofNat 3 (fld w1 19 3), natb (fld w1 22 1), natb (fld w1 23 1)⟩

/-- GRD, GN and GO as bits [23:19] of word 1 (04 R89). -/
def Guard.bits (x : Guard) : Nat := x.grd.toNat * 2 ^ 19 + bnat x.gn * 2 ^ 22 + bnat x.go * 2 ^ 23

/-- Word 0 of the forms R, I, X and L (04 R89). -/
def wordR (m d a b : Nat) : Nat := m + d * 2 ^ 8 + a * 2 ^ 16 + b * 2 ^ 24

/-- Word 0 of the form J (04 R89). -/
def wordJ (m d i : Nat) : Nat := m + d * 2 ^ 8 + i * 2 ^ 16

/-- RND, FI, FO and SAT as bits [13:8] of word 1 (04 R89). -/
def wordF (rnd fi fo sat : Nat) : Nat := rnd * 2 ^ 8 + fi * 2 ^ 11 + fo * 2 ^ 12 + sat * 2 ^ 13

/-- Word 1 of the form X (04 R89); `f` holds RND, FI, FO and SAT in place. -/
def wordX (c f sub ext : Nat) (x : Guard) : Nat := c + f + sub * 2 ^ 14 + x.bits + ext * 2 ^ 24

/-- Word 1 of the memory forms with OFF14 (12 R262). -/
def wordM (off sub ext : Nat) (x : Guard) : Nat := off + sub * 2 ^ 14 + x.bits + ext * 2 ^ 24


/-- The code of PackTy. -/
def PackTy.code : PackTy → Nat
  | .i32 => 0
  | .ui32 => 1
  | .i16x2 => 2
  | .ui16x2 => 3
  | .i8x4 => 4
  | .ui8x4 => 5

/-- The PackTy of a code; none for an undefined code. -/
def PackTy.ofCode : Nat → Option PackTy
  | 0 => some .i32
  | 1 => some .ui32
  | 2 => some .i16x2
  | 3 => some .ui16x2
  | 4 => some .i8x4
  | 5 => some .ui8x4
  | _ => none

/-- The code of MulTy. -/
def MulTy.code : MulTy → Nat
  | .i32 => 0
  | .ui32 => 1
  | .mix32 => 2

/-- The MulTy of a code; none for an undefined code. -/
def MulTy.ofCode : Nat → Option MulTy
  | 0 => some .i32
  | 1 => some .ui32
  | 2 => some .mix32
  | _ => none

/-- The code of Sgn. -/
def Sgn.code : Sgn → Nat
  | .i32 => 0
  | .ui32 => 1

/-- The Sgn of a code; none for an undefined code. -/
def Sgn.ofCode : Nat → Option Sgn
  | 0 => some .i32
  | 1 => some .ui32
  | _ => none

/-- The code of CmpCond. -/
def CmpCond.code : CmpCond → Nat
  | .eq => 0
  | .ne => 1
  | .lt => 2
  | .le => 3
  | .gt => 4
  | .ge => 5

/-- The CmpCond of a code; none for an undefined code. -/
def CmpCond.ofCode : Nat → Option CmpCond
  | 0 => some .eq
  | 1 => some .ne
  | 2 => some .lt
  | 3 => some .le
  | 4 => some .gt
  | 5 => some .ge
  | _ => none

/-- The code of Comb. -/
def Comb.code : Comb → Nat
  | .none => 0
  | .and => 1
  | .or => 2

/-- The Comb of a code; none for an undefined code. -/
def Comb.ofCode : Nat → Option Comb
  | 0 => some .none
  | 1 => some .and
  | 2 => some .or
  | _ => none

/-- The code of SaluOp. -/
def SaluOp.code : SaluOp → Nat
  | .add => 0
  | .sub => 1
  | .mullo => 2
  | .mulhiI => 3
  | .mulhiU => 4
  | .and => 5
  | .or => 6
  | .xor => 7
  | .andn => 8
  | .shl => 9
  | .shr => 10
  | .sar => 11
  | .minI => 12
  | .maxI => 13
  | .minU => 14
  | .maxU => 15
  | .add64 => 16
  | .sub64 => 17
  | .mov => 18
  | .popc => 19
  | .clz => 20
  | .idivI => 21
  | .idivU => 22
  | .iremI => 23
  | .iremU => 24

/-- The SaluOp of a code; none for an undefined code. -/
def SaluOp.ofCode : Nat → Option SaluOp
  | 0 => some .add
  | 1 => some .sub
  | 2 => some .mullo
  | 3 => some .mulhiI
  | 4 => some .mulhiU
  | 5 => some .and
  | 6 => some .or
  | 7 => some .xor
  | 8 => some .andn
  | 9 => some .shl
  | 10 => some .shr
  | 11 => some .sar
  | 12 => some .minI
  | 13 => some .maxI
  | 14 => some .minU
  | 15 => some .maxU
  | 16 => some .add64
  | 17 => some .sub64
  | 18 => some .mov
  | 19 => some .popc
  | 20 => some .clz
  | 21 => some .idivI
  | 22 => some .idivU
  | 23 => some .iremI
  | 24 => some .iremU
  | _ => none

/-- The code of ScmpTy. -/
def ScmpTy.code : ScmpTy → Nat
  | .i32 => 0
  | .ui32 => 1
  | .i64 => 2
  | .ui64 => 3

/-- The ScmpTy of a code; none for an undefined code. -/
def ScmpTy.ofCode : Nat → Option ScmpTy
  | 0 => some .i32
  | 1 => some .ui32
  | 2 => some .i64
  | 3 => some .ui64
  | _ => none

/-- The code of Rnd. -/
def Rnd.code : Rnd → Nat
  | .mode => 0
  | .rne => 1
  | .rtz => 2
  | .rup => 3
  | .rdn => 4
  | .rna => 5
  | .sr => 6

/-- The Rnd of a code; none for an undefined code. -/
def Rnd.ofCode : Nat → Option Rnd
  | 0 => some .mode
  | 1 => some .rne
  | 2 => some .rtz
  | 3 => some .rup
  | 4 => some .rdn
  | 5 => some .rna
  | 6 => some .sr
  | _ => none

/-- The code of FTy. -/
def FTy.code : FTy → Nat
  | .f32 => 0
  | .f16x2 => 1
  | .bf16x2 => 2
  | .f64 => 3

/-- The FTy of a code; none for an undefined code. -/
def FTy.ofCode : Nat → Option FTy
  | 0 => some .f32
  | 1 => some .f16x2
  | 2 => some .bf16x2
  | 3 => some .f64
  | _ => none

/-- The code of FMovOp. -/
def FMovOp.code : FMovOp → Nat
  | .mov => 0
  | .neg => 1
  | .abs => 2
  | .cpsgn => 3

/-- The FMovOp of a code; none for an undefined code. -/
def FMovOp.ofCode : Nat → Option FMovOp
  | 0 => some .mov
  | 1 => some .neg
  | 2 => some .abs
  | 3 => some .cpsgn
  | _ => none

/-- The code of FCond. -/
def FCond.code : FCond → Nat
  | .eq => 0
  | .ne => 1
  | .lt => 2
  | .le => 3
  | .gt => 4
  | .ge => 5
  | .un => 6
  | .ord => 7

/-- The FCond of a code; none for an undefined code. -/
def FCond.ofCode : Nat → Option FCond
  | 0 => some .eq
  | 1 => some .ne
  | 2 => some .lt
  | 3 => some .le
  | 4 => some .gt
  | 5 => some .ge
  | 6 => some .un
  | 7 => some .ord
  | _ => none

/-- The code of DfmaOp. -/
def DfmaOp.code : DfmaOp → Nat
  | .fma => 0
  | .add => 1
  | .sub => 2
  | .mul => 3
  | .min => 4
  | .max => 5

/-- The DfmaOp of a code; none for an undefined code. -/
def DfmaOp.ofCode : Nat → Option DfmaOp
  | 0 => some .fma
  | 1 => some .add
  | 2 => some .sub
  | 3 => some .mul
  | 4 => some .min
  | 5 => some .max
  | _ => none

/-- The code of CvtTy. -/
def CvtTy.code : CvtTy → Nat
  | .f32 => 0
  | .f16 => 1
  | .bf16 => 2
  | .f64 => 3
  | .e4m3 => 4
  | .e5m2 => 5
  | .s32 => 6
  | .u32 => 7
  | .s16 => 8
  | .u16 => 9
  | .s8 => 10
  | .u8 => 11

/-- The CvtTy of a code; none for an undefined code. -/
def CvtTy.ofCode : Nat → Option CvtTy
  | 0 => some .f32
  | 1 => some .f16
  | 2 => some .bf16
  | 3 => some .f64
  | 4 => some .e4m3
  | 5 => some .e5m2
  | 6 => some .s32
  | 7 => some .u32
  | 8 => some .s16
  | 9 => some .u16
  | 10 => some .s8
  | 11 => some .u8
  | _ => none

/-- The code of ShflKind. -/
def ShflKind.code : ShflKind → Nat
  | .idx => 0
  | .up => 1
  | .down => 2
  | .xor => 3

/-- The ShflKind of a code; none for an undefined code. -/
def ShflKind.ofCode : Nat → Option ShflKind
  | 0 => some .idx
  | 1 => some .up
  | 2 => some .down
  | 3 => some .xor
  | _ => none

/-- The code of ShflW. -/
def ShflW.code : ShflW → Nat
  | .w32 => 0
  | .w16 => 1
  | .w8 => 2
  | .w4 => 3
  | .w2 => 4

/-- The ShflW of a code; none for an undefined code. -/
def ShflW.ofCode : Nat → Option ShflW
  | 0 => some .w32
  | 1 => some .w16
  | 2 => some .w8
  | 3 => some .w4
  | 4 => some .w2
  | _ => none

/-- The code of VoteOp. -/
def VoteOp.code : VoteOp → Nat
  | .any => 0
  | .all => 1
  | .uni => 2
  | .ballot => 3

/-- The VoteOp of a code; none for an undefined code. -/
def VoteOp.ofCode : Nat → Option VoteOp
  | 0 => some .any
  | 1 => some .all
  | 2 => some .uni
  | 3 => some .ballot
  | _ => none

/-- The code of RedOp. -/
def RedOp.code : RedOp → Nat
  | .add => 0
  | .minI => 1
  | .maxI => 2
  | .minU => 3
  | .maxU => 4
  | .and => 5
  | .or => 6
  | .xor => 7
  | .minidxI => 8
  | .maxidxI => 9
  | .minidxU => 10
  | .maxidxU => 11
  | .fadd => 12
  | .fmin => 13
  | .fmax => 14

/-- The RedOp of a code; none for an undefined code. -/
def RedOp.ofCode : Nat → Option RedOp
  | 0 => some .add
  | 1 => some .minI
  | 2 => some .maxI
  | 3 => some .minU
  | 4 => some .maxU
  | 5 => some .and
  | 6 => some .or
  | 7 => some .xor
  | 8 => some .minidxI
  | 9 => some .maxidxI
  | 10 => some .minidxU
  | 11 => some .maxidxU
  | 12 => some .fadd
  | 13 => some .fmin
  | 14 => some .fmax
  | _ => none

/-- The code of ScanOp. -/
def ScanOp.code : ScanOp → Nat
  | .add => 0
  | .minI => 1
  | .maxI => 2
  | .minU => 3
  | .maxU => 4
  | .and => 5
  | .or => 6
  | .xor => 7

/-- The ScanOp of a code; none for an undefined code. -/
def ScanOp.ofCode : Nat → Option ScanOp
  | 0 => some .add
  | 1 => some .minI
  | 2 => some .maxI
  | 3 => some .minU
  | 4 => some .maxU
  | 5 => some .and
  | 6 => some .or
  | 7 => some .xor
  | _ => none

/-- The code of LidSel. -/
def LidSel.code : LidSel → Nat
  | .lane => 0
  | .slice => 1
  | .gidlo => 2
  | .gidhi => 3
  | .active => 4
  | .dead => 5

/-- The LidSel of a code; none for an undefined code. -/
def LidSel.ofCode : Nat → Option LidSel
  | 0 => some .lane
  | 1 => some .slice
  | 2 => some .gidlo
  | 3 => some .gidhi
  | 4 => some .active
  | 5 => some .dead
  | _ => none

/-- The code of LdTy. -/
def LdTy.code : LdTy → Nat
  | .u8 => 0
  | .s8 => 1
  | .u16 => 2
  | .s16 => 3
  | .w => 4
  | .d => 5
  | .q => 6

/-- The LdTy of a code; none for an undefined code. -/
def LdTy.ofCode : Nat → Option LdTy
  | 0 => some .u8
  | 1 => some .s8
  | 2 => some .u16
  | 3 => some .s16
  | 4 => some .w
  | 5 => some .d
  | 6 => some .q
  | _ => none

/-- The code of StTy. -/
def StTy.code : StTy → Nat
  | .b => 0
  | .h => 2
  | .w => 4
  | .d => 5
  | .q => 6

/-- The StTy of a code; none for an undefined code. -/
def StTy.ofCode : Nat → Option StTy
  | 0 => some .b
  | 2 => some .h
  | 4 => some .w
  | 5 => some .d
  | 6 => some .q
  | _ => none

/-- The code of LdsSp. -/
def LdsSp.code : LdsSp → Nat
  | .core => 0
  | .ts => 1
  | .ws => 2

/-- The LdsSp of a code; none for an undefined code. -/
def LdsSp.ofCode : Nat → Option LdsSp
  | 0 => some .core
  | 1 => some .ts
  | 2 => some .ws
  | _ => none

/-- The code of PSp. -/
def PSp.code : PSp → Nat
  | .glob => 0
  | .core => 1
  | .ts => 2
  | .priv => 3

/-- The PSp of a code; none for an undefined code. -/
def PSp.ofCode : Nat → Option PSp
  | 0 => some .glob
  | 1 => some .core
  | 2 => some .ts
  | 3 => some .priv
  | _ => none

/-- The code of Sp4. -/
def Sp4.code : Sp4 → Nat
  | .glob => 0
  | .core => 1
  | .ts => 2
  | .ws => 3

/-- The Sp4 of a code; none for an undefined code. -/
def Sp4.ofCode : Nat → Option Sp4
  | 0 => some .glob
  | 1 => some .core
  | 2 => some .ts
  | 3 => some .ws
  | _ => none

/-- The code of AtomOp. -/
def AtomOp.code : AtomOp → Nat
  | .add => 0
  | .and => 1
  | .or => 2
  | .xor => 3
  | .minI => 4
  | .maxI => 5
  | .minU => 6
  | .maxU => 7
  | .exch => 8
  | .cas => 9
  | .fadd => 10
  | .add64 => 11
  | .exch64 => 12
  | .cas64 => 13
  | .inc => 14

/-- The AtomOp of a code; none for an undefined code. -/
def AtomOp.ofCode : Nat → Option AtomOp
  | 0 => some .add
  | 1 => some .and
  | 2 => some .or
  | 3 => some .xor
  | 4 => some .minI
  | 5 => some .maxI
  | 6 => some .minU
  | 7 => some .maxU
  | 8 => some .exch
  | 9 => some .cas
  | 10 => some .fadd
  | 11 => some .add64
  | 12 => some .exch64
  | 13 => some .cas64
  | 14 => some .inc
  | _ => none

/-- The code of Scope. -/
def Scope.code : Scope → Nat
  | .block => 0
  | .lower => 1
  | .launch => 2
  | .ext => 3

/-- The Scope of a code; none for an undefined code. -/
def Scope.ofCode : Nat → Option Scope
  | 0 => some .block
  | 1 => some .lower
  | 2 => some .launch
  | 3 => some .ext
  | _ => none

/-- The code of Sp3. -/
def Sp3.code : Sp3 → Nat
  | .glob => 0
  | .core => 1
  | .ts => 2

/-- The Sp3 of a code; none for an undefined code. -/
def Sp3.ofCode : Nat → Option Sp3
  | 0 => some .glob
  | 1 => some .core
  | 2 => some .ts
  | _ => none

/-- The code of PrefLvl. -/
def PrefLvl.code : PrefLvl → Nat
  | .l1 => 0
  | .dc => 1
  | .hc => 2

/-- The PrefLvl of a code; none for an undefined code. -/
def PrefLvl.ofCode : Nat → Option PrefLvl
  | 0 => some .l1
  | 1 => some .dc
  | 2 => some .hc
  | _ => none

/-- The code of FlushAct. -/
def FlushAct.code : FlushAct → Nat
  | .wb => 0
  | .inv => 1
  | .mem => 2

/-- The FlushAct of a code; none for an undefined code. -/
def FlushAct.ofCode : Nat → Option FlushAct
  | 0 => some .wb
  | 1 => some .inv
  | 2 => some .mem
  | _ => none

/-- The code of Twin. -/
def Twin.code : Twin → Nat
  | .single => 0
  | .kj => 1
  | .nj => 2

/-- The Twin of a code; none for an undefined code. -/
def Twin.ofCode : Nat → Option Twin
  | 0 => some .single
  | 1 => some .kj
  | 2 => some .nj
  | _ => none

/-- The code of McblSp. -/
def McblSp.code : McblSp → Nat
  | .core => 0
  | .ts => 1
  | .ws => 2

/-- The McblSp of a code; none for an undefined code. -/
def McblSp.ofCode : Nat → Option McblSp
  | 0 => some .core
  | 1 => some .ts
  | 2 => some .ws
  | _ => none

/-- The code of BrMode. -/
def BrMode.code : BrMode → Nat
  | .any => 0
  | .all => 1
  | .uni => 2

/-- The BrMode of a code; none for an undefined code. -/
def BrMode.ofCode : Nat → Option BrMode
  | 0 => some .any
  | 1 => some .all
  | 2 => some .uni
  | _ => none

/-- The code of BarOp. -/
def BarOp.code : BarOp → Nat
  | .arrive => 0
  | .wait => 1
  | .sync => 2

/-- The BarOp of a code; none for an undefined code. -/
def BarOp.ofCode : Nat → Option BarOp
  | 0 => some .arrive
  | 1 => some .wait
  | 2 => some .sync
  | _ => none

/-- The code of CsrwOp. -/
def CsrwOp.code : CsrwOp → Nat
  | .write => 0
  | .set => 1
  | .clr => 2

/-- The CsrwOp of a code; none for an undefined code. -/
def CsrwOp.ofCode : Nat → Option CsrwOp
  | 0 => some .write
  | 1 => some .set
  | 2 => some .clr
  | _ => none

/-- The code of TlbSz. -/
def TlbSz.code : TlbSz → Nat
  | .k64 => 0
  | .m2 => 1
  | .g1 => 2

/-- The TlbSz of a code; none for an undefined code. -/
def TlbSz.ofCode : Nat → Option TlbSz
  | 0 => some .k64
  | 1 => some .m2
  | 2 => some .g1
  | _ => none

/-- The code of SigSel. -/
def SigSel.code : SigSel → Nat
  | .sigs => 0
  | .sigl => 1
  | .sigk => 2

/-- The SigSel of a code; none for an undefined code. -/
def SigSel.ofCode : Nat → Option SigSel
  | 0 => some .sigs
  | 1 => some .sigl
  | 2 => some .sigk
  | _ => none

/-- The fields of an instruction of major 0x00 to 0x0F, whose words are `w0` and `w1` (04 R93). -/
def extract0 (m w0 w1 : Nat) : Option Instr :=
  match m with
  | 1 => some (.nop)
  | 2 => some (.mov (BitVec.ofNat 8 (fld w0 8 8)) (BitVec.ofNat 8 (fld w0 16 8)))
  | 3 => some (.movi (BitVec.ofNat 8 (fld w0 8 8)) (BitVec.ofNat 16 (fld w0 16 16)))
  | 4 => some (.movh (BitVec.ofNat 8 (fld w0 8 8)) (BitVec.ofNat 16 (fld w0 16 16)))
  | 5 => some (.movl (BitVec.ofNat 8 (fld w0 8 8)) (BitVec.ofNat 32 (fld w1 0 32)))
  | 6 => some (.add (BitVec.ofNat 8 (fld w0 8 8)) (BitVec.ofNat 8 (fld w0 16 8)) (BitVec.ofNat 8 (fld w0 24 8)))
  | 7 => some (.addi (BitVec.ofNat 8 (fld w0 8 8)) (BitVec.ofNat 8 (fld w0 16 8)) (BitVec.ofNat 8 (fld w0 24 8)))
  | 8 => some (.sub (BitVec.ofNat 8 (fld w0 8 8)) (BitVec.ofNat 8 (fld w0 16 8)) (BitVec.ofNat 8 (fld w0 24 8)))
  | 9 => some (.neg (BitVec.ofNat 8 (fld w0 8 8)) (BitVec.ofNat 8 (fld w0 16 8)))
  | 10 => (PackTy.ofCode (fld w1 14 5)).bind fun ty => some (.addsat (BitVec.ofNat 8 (fld w0 8 8)) (BitVec.ofNat 8 (fld w0 16 8)) (BitVec.ofNat 8 (fld w0 24 8)) ty (Guard.ofWord w1))
  | 11 => (PackTy.ofCode (fld w1 14 5)).bind fun ty => some (.subsat (BitVec.ofNat 8 (fld w0 8 8)) (BitVec.ofNat 8 (fld w0 16 8)) (BitVec.ofNat 8 (fld w0 24 8)) ty (Guard.ofWord w1))
  | 12 => some (.mullo (BitVec.ofNat 8 (fld w0 8 8)) (BitVec.ofNat 8 (fld w0 16 8)) (BitVec.ofNat 8 (fld w0 24 8)))
  | 13 => (MulTy.ofCode (fld w1 14 5)).bind fun ty => some (.mulhi (BitVec.ofNat 8 (fld w0 8 8)) (BitVec.ofNat 8 (fld w0 16 8)) (BitVec.ofNat 8 (fld w0 24 8)) ty (Guard.ofWord w1))
  | 14 => (Sgn.ofCode (fld w1 14 5)).bind fun ty => some (.mad (BitVec.ofNat 8 (fld w0 8 8)) (BitVec.ofNat 8 (fld w0 16 8)) (BitVec.ofNat 8 (fld w0 24 8)) (BitVec.ofNat 8 (fld w1 0 8)) (natb (fld w1 13 1)) ty (Guard.ofWord w1))
  | 15 => (Sgn.ofCode (fld w1 14 5)).bind fun ty => some (.madw (BitVec.ofNat 8 (fld w0 8 8)) (BitVec.ofNat 8 (fld w0 16 8)) (BitVec.ofNat 8 (fld w0 24 8)) (BitVec.ofNat 8 (fld w1 0 8)) ty (Guard.ofWord w1))
  | _ => none

/-- The fields of an instruction of major 0x10 to 0x1F, whose words are `w0` and `w1` (04 R93). -/
def extract1 (m w0 w1 : Nat) : Option Instr :=
  match m with
  | 16 => some (.abs (BitVec.ofNat 8 (fld w0 8 8)) (BitVec.ofNat 8 (fld w0 16 8)))
  | 17 => (PackTy.ofCode (fld w1 14 5)).bind fun ty => some (.min (BitVec.ofNat 8 (fld w0 8 8)) (BitVec.ofNat 8 (fld w0 16 8)) (BitVec.ofNat 8 (fld w0 24 8)) ty (Guard.ofWord w1))
  | 18 => (PackTy.ofCode (fld w1 14 5)).bind fun ty => some (.max (BitVec.ofNat 8 (fld w0 8 8)) (BitVec.ofNat 8 (fld w0 16 8)) (BitVec.ofNat 8 (fld w0 24 8)) ty (Guard.ofWord w1))
  | 19 => some (.and (BitVec.ofNat 8 (fld w0 8 8)) (BitVec.ofNat 8 (fld w0 16 8)) (BitVec.ofNat 8 (fld w0 24 8)))
  | 20 => some (.or (BitVec.ofNat 8 (fld w0 8 8)) (BitVec.ofNat 8 (fld w0 16 8)) (BitVec.ofNat 8 (fld w0 24 8)))
  | 21 => some (.xor (BitVec.ofNat 8 (fld w0 8 8)) (BitVec.ofNat 8 (fld w0 16 8)) (BitVec.ofNat 8 (fld w0 24 8)))
  | 22 => some (.andn (BitVec.ofNat 8 (fld w0 8 8)) (BitVec.ofNat 8 (fld w0 16 8)) (BitVec.ofNat 8 (fld w0 24 8)))
  | 23 => some (.andi (BitVec.ofNat 8 (fld w0 8 8)) (BitVec.ofNat 8 (fld w0 16 8)) (BitVec.ofNat 8 (fld w0 24 8)))
  | 24 => some (.ori (BitVec.ofNat 8 (fld w0 8 8)) (BitVec.ofNat 8 (fld w0 16 8)) (BitVec.ofNat 8 (fld w0 24 8)))
  | 25 => some (.xori (BitVec.ofNat 8 (fld w0 8 8)) (BitVec.ofNat 8 (fld w0 16 8)) (BitVec.ofNat 8 (fld w0 24 8)))
  | 26 => some (.shl (BitVec.ofNat 8 (fld w0 8 8)) (BitVec.ofNat 8 (fld w0 16 8)) (BitVec.ofNat 8 (fld w0 24 8)))
  | 27 => some (.shr (BitVec.ofNat 8 (fld w0 8 8)) (BitVec.ofNat 8 (fld w0 16 8)) (BitVec.ofNat 8 (fld w0 24 8)))
  | 28 => some (.sar (BitVec.ofNat 8 (fld w0 8 8)) (BitVec.ofNat 8 (fld w0 16 8)) (BitVec.ofNat 8 (fld w0 24 8)))
  | 29 => some (.shli (BitVec.ofNat 8 (fld w0 8 8)) (BitVec.ofNat 8 (fld w0 16 8)) (BitVec.ofNat 8 (fld w0 24 8)))
  | 30 => some (.shri (BitVec.ofNat 8 (fld w0 8 8)) (BitVec.ofNat 8 (fld w0 16 8)) (BitVec.ofNat 8 (fld w0 24 8)))
  | 31 => some (.sari (BitVec.ofNat 8 (fld w0 8 8)) (BitVec.ofNat 8 (fld w0 16 8)) (BitVec.ofNat 8 (fld w0 24 8)))
  | _ => none

/-- The fields of an instruction of major 0x20 to 0x2F, whose words are `w0` and `w1` (04 R93). -/
def extract2 (m w0 w1 : Nat) : Option Instr :=
  match m with
  | 32 => some (.rotl (BitVec.ofNat 8 (fld w0 8 8)) (BitVec.ofNat 8 (fld w0 16 8)) (BitVec.ofNat 8 (fld w0 24 8)))
  | 33 => some (.popc (BitVec.ofNat 8 (fld w0 8 8)) (BitVec.ofNat 8 (fld w0 16 8)))
  | 34 => some (.clz (BitVec.ofNat 8 (fld w0 8 8)) (BitVec.ofNat 8 (fld w0 16 8)))
  | 35 => some (.brev (BitVec.ofNat 8 (fld w0 8 8)) (BitVec.ofNat 8 (fld w0 16 8)))
  | 36 => some (.bfe (BitVec.ofNat 8 (fld w0 8 8)) (BitVec.ofNat 8 (fld w0 16 8)) (natb (fld (fld w1 14 5) 0 1)) (BitVec.ofNat 8 (fld w1 0 8)) (BitVec.ofNat 8 (fld w1 24 8)) (Guard.ofWord w1))
  | 37 => some (.bfi (BitVec.ofNat 8 (fld w0 8 8)) (BitVec.ofNat 8 (fld w0 16 8)) (BitVec.ofNat 8 (fld w0 24 8)) (BitVec.ofNat 8 (fld w1 0 8)) (BitVec.ofNat 8 (fld w1 24 8)) (Guard.ofWord w1))
  | 38 => some (.lea (BitVec.ofNat 8 (fld w0 8 8)) (BitVec.ofNat 8 (fld w0 16 8)) (BitVec.ofNat 8 (fld w0 24 8)) (BitVec.ofNat 8 (fld w1 0 8)) (BitVec.ofNat 2 (fld (fld w1 24 8) 0 2)) (Guard.ofWord w1))
  | 39 => some (.sel (BitVec.ofNat 8 (fld w0 8 8)) (BitVec.ofNat 8 (fld w0 16 8)) (BitVec.ofNat 8 (fld w0 24 8)) (BitVec.ofNat 3 (fld (fld w1 0 8) 0 3)) (Guard.ofWord w1))
  | 40 => (Sgn.ofCode (fld w1 14 5)).bind fun ty => (CmpCond.ofCode (fld (fld w1 24 8) 0 4)).bind fun cond => (Comb.ofCode (fld (fld w1 24 8) 4 2)).bind fun comb => some (.cmp (BitVec.ofNat 3 (fld (fld w0 8 8) 0 3)) (BitVec.ofNat 8 (fld w0 16 8)) (BitVec.ofNat 8 (fld w0 24 8)) (BitVec.ofNat 3 (fld (fld w1 0 8) 0 3)) ty cond comb (Guard.ofWord w1))
  | 41 => (Sgn.ofCode (fld w1 14 5)).bind fun ty => (CmpCond.ofCode (fld (fld w1 24 8) 0 4)).bind fun cond => (Comb.ofCode (fld (fld w1 24 8) 4 2)).bind fun comb => some (.cmpi (BitVec.ofNat 3 (fld (fld w0 8 8) 0 3)) (BitVec.ofNat 8 (fld w0 16 8)) (BitVec.ofNat 8 (fld w0 24 8)) (BitVec.ofNat 3 (fld (fld w1 0 8) 0 3)) ty cond comb (Guard.ofWord w1))
  | 42 => (Sgn.ofCode (fld w1 14 5)).bind fun ty => some (.idiv (BitVec.ofNat 8 (fld w0 8 8)) (BitVec.ofNat 8 (fld w0 16 8)) (BitVec.ofNat 8 (fld w0 24 8)) ty (Guard.ofWord w1))
  | 43 => (Sgn.ofCode (fld w1 14 5)).bind fun ty => some (.irem (BitVec.ofNat 8 (fld w0 8 8)) (BitVec.ofNat 8 (fld w0 16 8)) (BitVec.ofNat 8 (fld w0 24 8)) ty (Guard.ofWord w1))
  | 44 => some (.sxt (BitVec.ofNat 8 (fld w0 8 8)) (BitVec.ofNat 8 (fld w0 16 8)) (BitVec.ofNat 8 (fld w0 24 8)))
  | 45 => some (.zxt (BitVec.ofNat 8 (fld w0 8 8)) (BitVec.ofNat 8 (fld w0 16 8)) (BitVec.ofNat 8 (fld w0 24 8)))
  | 46 => some (.bperm (BitVec.ofNat 8 (fld w0 8 8)) (BitVec.ofNat 8 (fld w0 16 8)) (BitVec.ofNat 8 (fld w0 24 8)) (BitVec.ofNat 8 (fld w1 0 8)) (Guard.ofWord w1))
  | 47 => some (.add64 (BitVec.ofNat 8 (fld w0 8 8)) (BitVec.ofNat 8 (fld w0 16 8)) (BitVec.ofNat 8 (fld w0 24 8)) (natb (fld (fld w1 14 5) 0 1)) (Guard.ofWord w1))
  | _ => none

/-- The fields of an instruction of major 0x30 to 0x3F, whose words are `w0` and `w1` (04 R93). -/
def extract3 (m w0 w1 : Nat) : Option Instr :=
  match m with
  | 48 => some (.shf (BitVec.ofNat 8 (fld w0 8 8)) (BitVec.ofNat 8 (fld w0 16 8)) (BitVec.ofNat 8 (fld w0 24 8)) (BitVec.ofNat 8 (fld w1 0 8)) (natb (fld (fld w1 14 5) 0 1)) (Guard.ofWord w1))
  | 50 => some (.pand (BitVec.ofNat 3 (fld (fld w0 8 8) 0 3)) (BitVec.ofNat 3 (fld (fld w0 16 8) 0 3)) (BitVec.ofNat 3 (fld (fld w0 24 8) 0 3)))
  | 51 => some (.por (BitVec.ofNat 3 (fld (fld w0 8 8) 0 3)) (BitVec.ofNat 3 (fld (fld w0 16 8) 0 3)) (BitVec.ofNat 3 (fld (fld w0 24 8) 0 3)))
  | 52 => some (.pxor (BitVec.ofNat 3 (fld (fld w0 8 8) 0 3)) (BitVec.ofNat 3 (fld (fld w0 16 8) 0 3)) (BitVec.ofNat 3 (fld (fld w0 24 8) 0 3)))
  | 53 => some (.pnot (BitVec.ofNat 3 (fld (fld w0 8 8) 0 3)) (BitVec.ofNat 3 (fld (fld w0 16 8) 0 3)))
  | 54 => some (.pmov (BitVec.ofNat 3 (fld (fld w0 8 8) 0 3)) (BitVec.ofNat 3 (fld (fld w0 16 8) 0 3)))
  | 55 => some (.vfromp (BitVec.ofNat 8 (fld w0 8 8)) (BitVec.ofNat 3 (fld (fld w0 16 8) 0 3)))
  | 56 => (SaluOp.ofCode (fld w1 14 5)).bind fun op => some (.salu (BitVec.ofNat 6 (fld (fld w0 8 8) 0 6)) (BitVec.ofNat 6 (fld (fld w0 16 8) 0 6)) (BitVec.ofNat 6 (fld (fld w0 24 8) 0 6)) op (Guard.ofWord w1))
  | 57 => (SaluOp.ofCode (fld w0 24 8)).bind fun op => some (.salui (BitVec.ofNat 6 (fld (fld w0 8 8) 0 6)) (BitVec.ofNat 6 (fld (fld w0 16 8) 0 6)) op (BitVec.ofNat 32 (fld w1 0 32)))
  | 58 => some (.smovi (BitVec.ofNat 6 (fld (fld w0 8 8) 0 6)) (BitVec.ofNat 16 (fld w0 16 16)))
  | 59 => some (.bcast (BitVec.ofNat 8 (fld w0 8 8)) (BitVec.ofNat 6 (fld (fld w0 16 8) 0 6)))
  | 60 => some (.rdlane (BitVec.ofNat 6 (fld (fld w0 8 8) 0 6)) (BitVec.ofNat 8 (fld w0 16 8)) (BitVec.ofNat 6 (fld (fld w0 24 8) 0 6)) (BitVec.ofNat 8 (fld w1 0 8)) (natb (fld (fld w1 24 8) 0 1)) (Guard.ofWord w1))
  | 61 => some (.wrlane (BitVec.ofNat 8 (fld w0 8 8)) (BitVec.ofNat 6 (fld (fld w0 16 8) 0 6)) (BitVec.ofNat 6 (fld (fld w0 24 8) 0 6)) (BitVec.ofNat 8 (fld w1 0 8)) (natb (fld (fld w1 24 8) 0 1)) (Guard.ofWord w1))
  | 62 => some (.elect (BitVec.ofNat 3 (fld (fld w0 8 8) 0 3)) (BitVec.ofNat 6 (fld (fld w0 16 8) 0 6)) (natb (fld (fld w0 24 8) 0 1)))
  | 63 => (ScmpTy.ofCode (fld w1 14 5)).bind fun ty => (CmpCond.ofCode (fld (fld w1 24 8) 0 4)).bind fun cond => (Comb.ofCode (fld (fld w1 24 8) 4 2)).bind fun comb => some (.scmp (BitVec.ofNat 3 (fld (fld w0 8 8) 0 3)) (BitVec.ofNat 6 (fld (fld w0 16 8) 0 6)) (BitVec.ofNat 6 (fld (fld w0 24 8) 0 6)) (BitVec.ofNat 3 (fld (fld w1 0 8) 0 3)) ty cond comb (Guard.ofWord w1))
  | _ => none

/-- The fields of an instruction of major 0x40 to 0x4F, whose words are `w0` and `w1` (04 R93). -/
def extract4 (m w0 w1 : Nat) : Option Instr :=
  match m with
  | 64 => some (.fadd (BitVec.ofNat 8 (fld w0 8 8)) (BitVec.ofNat 8 (fld w0 16 8)) (BitVec.ofNat 8 (fld w0 24 8)))
  | 65 => some (.fsub (BitVec.ofNat 8 (fld w0 8 8)) (BitVec.ofNat 8 (fld w0 16 8)) (BitVec.ofNat 8 (fld w0 24 8)))
  | 66 => some (.fmul (BitVec.ofNat 8 (fld w0 8 8)) (BitVec.ofNat 8 (fld w0 16 8)) (BitVec.ofNat 8 (fld w0 24 8)))
  | 67 => (Rnd.ofCode (fld w1 8 3)).bind fun rnd => (FTy.ofCode (fld (fld w1 14 5) 0 2)).bind fun ty => some (.ffma (BitVec.ofNat 8 (fld w0 8 8)) (BitVec.ofNat 8 (fld w0 16 8)) (BitVec.ofNat 8 (fld w0 24 8)) (BitVec.ofNat 8 (fld w1 0 8)) rnd (natb (fld w1 11 1)) (natb (fld w1 12 1)) ty (natb (fld (fld w1 14 5) 2 1)) (natb (fld (fld w1 14 5) 3 1)) (Guard.ofWord w1))
  | 68 => (Rnd.ofCode (fld w1 8 3)).bind fun rnd => (FTy.ofCode (fld (fld w1 14 5) 0 2)).bind fun ty => some (.faddx (BitVec.ofNat 8 (fld w0 8 8)) (BitVec.ofNat 8 (fld w0 16 8)) (BitVec.ofNat 8 (fld w0 24 8)) rnd (natb (fld w1 11 1)) (natb (fld w1 12 1)) ty (natb (fld (fld w1 14 5) 2 1)) (Guard.ofWord w1))
  | 69 => (Rnd.ofCode (fld w1 8 3)).bind fun rnd => (FTy.ofCode (fld (fld w1 14 5) 0 2)).bind fun ty => some (.fmulx (BitVec.ofNat 8 (fld w0 8 8)) (BitVec.ofNat 8 (fld w0 16 8)) (BitVec.ofNat 8 (fld w0 24 8)) rnd (natb (fld w1 11 1)) (natb (fld w1 12 1)) ty (Guard.ofWord w1))
  | 70 => (FTy.ofCode (fld (fld w1 14 5) 0 2)).bind fun ty => some (.fmin (BitVec.ofNat 8 (fld w0 8 8)) (BitVec.ofNat 8 (fld w0 16 8)) (BitVec.ofNat 8 (fld w0 24 8)) (natb (fld w1 11 1)) ty (Guard.ofWord w1))
  | 71 => (FTy.ofCode (fld (fld w1 14 5) 0 2)).bind fun ty => some (.fmax (BitVec.ofNat 8 (fld w0 8 8)) (BitVec.ofNat 8 (fld w0 16 8)) (BitVec.ofNat 8 (fld w0 24 8)) (natb (fld w1 11 1)) ty (Guard.ofWord w1))
  | 72 => (FTy.ofCode (fld (fld w1 14 5) 0 2)).bind fun ty => (FMovOp.ofCode (fld (fld w1 14 5) 2 2)).bind fun op => some (.fmov (BitVec.ofNat 8 (fld w0 8 8)) (BitVec.ofNat 8 (fld w0 16 8)) (BitVec.ofNat 8 (fld w0 24 8)) ty op (Guard.ofWord w1))
  | 73 => (FTy.ofCode (fld (fld w1 14 5) 0 2)).bind fun ty => (FCond.ofCode (fld (fld w1 24 8) 0 4)).bind fun cond => (Comb.ofCode (fld (fld w1 24 8) 4 2)).bind fun comb => some (.fcmp (BitVec.ofNat 3 (fld (fld w0 8 8) 0 3)) (BitVec.ofNat 8 (fld w0 16 8)) (BitVec.ofNat 8 (fld w0 24 8)) (BitVec.ofNat 3 (fld (fld w1 0 8) 0 3)) (natb (fld w1 11 1)) ty (natb (fld (fld w1 14 5) 2 1)) cond comb (Guard.ofWord w1))
  | 74 => (FTy.ofCode (fld (fld w1 14 5) 0 2)).bind fun ty => some (.fclass (BitVec.ofNat 3 (fld (fld w0 8 8) 0 3)) (BitVec.ofNat 8 (fld w0 16 8)) (BitVec.ofNat 8 (fld w1 0 8)) (BitVec.ofNat 2 (fld (fld w1 24 8) 0 2)) ty (natb (fld (fld w1 14 5) 2 1)) (Guard.ofWord w1))
  | 75 => (Rnd.ofCode (fld w1 8 3)).bind fun rnd => (FTy.ofCode (fld (fld w1 14 5) 0 2)).bind fun ty => some (.frnd (BitVec.ofNat 8 (fld w0 8 8)) (BitVec.ofNat 8 (fld w0 16 8)) rnd (natb (fld w1 11 1)) ty (natb (fld (fld w1 14 5) 2 1)) (Guard.ofWord w1))
  | 76 => (Rnd.ofCode (fld w1 8 3)).bind fun rnd => (DfmaOp.ofCode (fld w1 14 5)).bind fun op => some (.dfma (BitVec.ofNat 8 (fld w0 8 8)) (BitVec.ofNat 8 (fld w0 16 8)) (BitVec.ofNat 8 (fld w0 24 8)) (BitVec.ofNat 8 (fld w1 0 8)) rnd (natb (fld w1 11 1)) (natb (fld w1 12 1)) op (Guard.ofWord w1))
  | _ => none

/-- The fields of an instruction of major 0x50 to 0x5F, whose words are `w0` and `w1` (04 R93). -/
def extract5 (m w0 w1 : Nat) : Option Instr :=
  match m with
  | 80 => (Rnd.ofCode (fld w1 8 3)).bind fun rnd => (CvtTy.ofCode (fld (fld w1 24 8) 0 4)).bind fun sty => (CvtTy.ofCode (fld (fld w1 24 8) 4 4)).bind fun dty => some (.cvt (BitVec.ofNat 8 (fld w0 8 8)) (BitVec.ofNat 8 (fld w0 16 8)) rnd (natb (fld w1 11 1)) (natb (fld w1 12 1)) (natb (fld w1 13 1)) (BitVec.ofNat 2 (fld (fld w1 14 5) 0 2)) (BitVec.ofNat 2 (fld (fld w1 14 5) 2 2)) sty dty (Guard.ofWord w1))
  | 81 => (Rnd.ofCode (fld w1 8 3)).bind fun rnd => (CvtTy.ofCode (fld (fld w1 24 8) 4 4)).bind fun dty => some (.cvtpk (BitVec.ofNat 8 (fld w0 8 8)) (BitVec.ofNat 8 (fld w0 16 8)) (BitVec.ofNat 8 (fld w0 24 8)) (BitVec.ofNat 8 (fld w1 0 8)) rnd (natb (fld w1 11 1)) (natb (fld w1 12 1)) (natb (fld w1 13 1)) (natb (fld (fld w1 14 5) 0 1)) (natb (fld (fld w1 14 5) 1 1)) dty (Guard.ofWord w1))
  | 82 => (Rnd.ofCode (fld w1 8 3)).bind fun rnd => (CvtTy.ofCode (fld (fld w1 24 8) 0 4)).bind fun sty => (CvtTy.ofCode (fld (fld w1 24 8) 4 4)).bind fun dty => some (.cvtup (BitVec.ofNat 8 (fld w0 8 8)) (BitVec.ofNat 8 (fld w0 16 8)) (BitVec.ofNat 8 (fld w1 0 8)) rnd (natb (fld w1 11 1)) (natb (fld w1 12 1)) (natb (fld w1 13 1)) (natb (fld (fld w1 14 5) 0 1)) (natb (fld (fld w1 14 5) 1 1)) sty dty (Guard.ofWord w1))
  | 83 => (Rnd.ofCode (fld w1 8 3)).bind fun rnd => some (.cbenc (BitVec.ofNat 8 (fld w0 8 8)) (BitVec.ofNat 8 (fld w0 16 8)) (BitVec.ofNat 2 (fld (fld w1 0 8) 0 2)) rnd (natb (fld w1 11 1)) (BitVec.ofNat 3 (fld (fld w1 14 5) 0 3)) (Guard.ofWord w1))
  | 84 => some (.cbdec (BitVec.ofNat 8 (fld w0 8 8)) (BitVec.ofNat 8 (fld w0 16 8)) (BitVec.ofNat 2 (fld (fld w1 0 8) 0 2)) (BitVec.ofNat 3 (fld (fld w1 14 5) 0 3)) (Guard.ofWord w1))
  | 88 => some (.rcp (BitVec.ofNat 8 (fld w0 8 8)) (BitVec.ofNat 8 (fld w0 16 8)))
  | 89 => some (.rsq (BitVec.ofNat 8 (fld w0 8 8)) (BitVec.ofNat 8 (fld w0 16 8)))
  | 90 => some (.sqrt (BitVec.ofNat 8 (fld w0 8 8)) (BitVec.ofNat 8 (fld w0 16 8)))
  | 91 => some (.exp2 (BitVec.ofNat 8 (fld w0 8 8)) (BitVec.ofNat 8 (fld w0 16 8)))
  | 92 => some (.log2 (BitVec.ofNat 8 (fld w0 8 8)) (BitVec.ofNat 8 (fld w0 16 8)))
  | 93 => some (.sinpi (BitVec.ofNat 8 (fld w0 8 8)) (BitVec.ofNat 8 (fld w0 16 8)))
  | 94 => some (.cospi (BitVec.ofNat 8 (fld w0 8 8)) (BitVec.ofNat 8 (fld w0 16 8)))
  | 95 => (Rnd.ofCode (fld w1 8 3)).bind fun rnd => some (.fdiv (BitVec.ofNat 8 (fld w0 8 8)) (BitVec.ofNat 8 (fld w0 16 8)) (BitVec.ofNat 8 (fld w0 24 8)) rnd (natb (fld w1 11 1)) (natb (fld w1 12 1)) (Guard.ofWord w1))
  | _ => none

/-- The fields of an instruction of major 0x60 to 0x6F, whose words are `w0` and `w1` (04 R93). -/
def extract6 (m w0 w1 : Nat) : Option Instr :=
  match m with
  | 96 => some (.tanh (BitVec.ofNat 8 (fld w0 8 8)) (BitVec.ofNat 8 (fld w0 16 8)))
  | 97 => some (.sigm (BitVec.ofNat 8 (fld w0 8 8)) (BitVec.ofNat 8 (fld w0 16 8)))
  | _ => none

/-- The fields of an instruction of major 0x70 to 0x7F, whose words are `w0` and `w1` (04 R93). -/
def extract7 (m w0 w1 : Nat) : Option Instr :=
  match m with
  | 112 => (ShflKind.ofCode (fld w1 14 5)).bind fun kind => (ShflW.ofCode (fld (fld w1 24 8) 1 3)).bind fun w => some (.shfl (BitVec.ofNat 8 (fld w0 8 8)) (BitVec.ofNat 8 (fld w0 16 8)) (BitVec.ofNat 8 (fld w0 24 8)) kind (BitVec.ofNat 5 (fld (fld w1 0 8) 0 5)) (natb (fld (fld w1 24 8) 0 1)) w (Guard.ofWord w1))
  | 113 => (VoteOp.ofCode (fld w1 14 5)).bind fun op => some (.vote (BitVec.ofNat 6 (fld (fld w0 8 8) 0 6)) (BitVec.ofNat 3 (fld (fld w0 16 8) 0 3)) op (natb (fld (fld w1 24 8) 0 1)) (Guard.ofWord w1))
  | 114 => (Rnd.ofCode (fld w1 8 3)).bind fun rnd => (RedOp.ofCode (fld w1 14 5)).bind fun op => some (.redx (BitVec.ofNat 8 (fld w0 8 8)) (BitVec.ofNat 8 (fld w0 16 8)) rnd (natb (fld w1 11 1)) (natb (fld w1 12 1)) op (natb (fld (fld w1 24 8) 0 1)) (Guard.ofWord w1))
  | 115 => (ScanOp.ofCode (fld w1 14 5)).bind fun op => some (.scanx (BitVec.ofNat 8 (fld w0 8 8)) (BitVec.ofNat 8 (fld w0 16 8)) op (natb (fld (fld w1 24 8) 0 1)) (Guard.ofWord w1))
  | 116 => (LidSel.ofCode (fld w0 16 8)).bind fun what => some (.lid (BitVec.ofNat 8 (fld w0 8 8)) what)
  | 117 => some (.matchLanes (BitVec.ofNat 8 (fld w0 8 8)) (BitVec.ofNat 8 (fld w0 16 8)) (natb (fld (fld w1 14 5) 0 1)) (Guard.ofWord w1))
  | _ => none

/-- The fields of an instruction of major 0x80 to 0x8F, whose words are `w0` and `w1` (04 R93). -/
def extract8 (m w0 w1 : Nat) : Option Instr :=
  match m with
  | 128 => (LdTy.ofCode (fld (fld w1 14 5) 0 3)).bind fun ty => some (.ld (BitVec.ofNat 8 (fld w0 8 8)) (BitVec.ofNat 6 (fld (fld w0 16 8) 0 6)) (BitVec.ofNat 8 (fld w0 24 8)) (BitVec.ofNat 14 (fld w1 0 14)) ty (natb (fld (fld w1 14 5) 3 1)) (natb (fld (fld w1 14 5) 4 1)) (BitVec.ofNat 2 (fld (fld w1 24 8) 0 2)) (natb (fld (fld w1 24 8) 2 1)) (Guard.ofWord w1))
  | 129 => (StTy.ofCode (fld (fld w1 14 5) 0 3)).bind fun ty => some (.st (BitVec.ofNat 8 (fld w0 8 8)) (BitVec.ofNat 6 (fld (fld w0 16 8) 0 6)) (BitVec.ofNat 8 (fld w0 24 8)) (BitVec.ofNat 14 (fld w1 0 14)) ty (natb (fld (fld w1 14 5) 3 1)) (natb (fld (fld w1 14 5) 4 1)) (BitVec.ofNat 2 (fld (fld w1 24 8) 0 2)) (natb (fld (fld w1 24 8) 2 1)) (Guard.ofWord w1))
  | 130 => (LdTy.ofCode (fld (fld w1 14 5) 0 3)).bind fun ty => (LdsSp.ofCode (fld (fld w1 14 5) 3 2)).bind fun sp => some (.lds (BitVec.ofNat 8 (fld w0 8 8)) (BitVec.ofNat 8 (fld w0 24 8)) (BitVec.ofNat 14 (fld w1 0 14)) ty sp (Guard.ofWord w1))
  | 131 => (StTy.ofCode (fld (fld w1 14 5) 0 3)).bind fun ty => (LdsSp.ofCode (fld (fld w1 14 5) 3 2)).bind fun sp => some (.sts (BitVec.ofNat 8 (fld w0 8 8)) (BitVec.ofNat 8 (fld w0 24 8)) (BitVec.ofNat 14 (fld w1 0 14)) ty sp (Guard.ofWord w1))
  | 132 => (Sp4.ofCode (fld (fld w1 14 5) 2 2)).bind fun sp => some (.ldw (BitVec.ofNat 8 (fld w0 8 8)) (BitVec.ofNat 6 (fld (fld w0 16 8) 0 6)) (BitVec.ofNat 14 (fld w1 0 14)) (BitVec.ofNat 2 (fld (fld w1 14 5) 0 2)) sp (natb (fld (fld w1 14 5) 4 1)) (Guard.ofWord w1))
  | 133 => (PSp.ofCode (fld (fld w1 14 5) 3 2)).bind fun sp => some (.ldp (BitVec.ofNat 8 (fld w0 8 8)) (BitVec.ofNat 6 (fld (fld w0 16 8) 0 6)) (BitVec.ofNat 8 (fld w0 24 8)) (BitVec.ofNat 14 (fld w1 0 14)) (natb (fld (fld w1 14 5) 0 1)) (BitVec.ofNat 2 (fld (fld w1 14 5) 1 2)) sp (BitVec.ofNat 2 (fld (fld w1 24 8) 0 2)) (natb (fld (fld w1 24 8) 2 1)) (Guard.ofWord w1))
  | 134 => (PSp.ofCode (fld (fld w1 14 5) 3 2)).bind fun sp => some (.stp (BitVec.ofNat 8 (fld w0 8 8)) (BitVec.ofNat 6 (fld (fld w0 16 8) 0 6)) (BitVec.ofNat 8 (fld w0 24 8)) (BitVec.ofNat 14 (fld w1 0 14)) (natb (fld (fld w1 14 5) 0 1)) (BitVec.ofNat 2 (fld (fld w1 14 5) 1 2)) sp (BitVec.ofNat 2 (fld (fld w1 24 8) 0 2)) (natb (fld (fld w1 24 8) 2 1)) (Guard.ofWord w1))
  | 135 => (Sp4.ofCode (fld (fld w1 14 5) 1 2)).bind fun sp => some (.sld (BitVec.ofNat 6 (fld (fld w0 8 8) 0 6)) (BitVec.ofNat 6 (fld (fld w0 16 8) 0 6)) (BitVec.ofNat 14 (fld w1 0 14)) (natb (fld (fld w1 14 5) 0 1)) sp (Guard.ofWord w1))
  | 136 => (Sp4.ofCode (fld (fld w1 14 5) 1 2)).bind fun sp => some (.sst (BitVec.ofNat 6 (fld (fld w0 8 8) 0 6)) (BitVec.ofNat 6 (fld (fld w0 16 8) 0 6)) (BitVec.ofNat 14 (fld w1 0 14)) (natb (fld (fld w1 14 5) 0 1)) sp (Guard.ofWord w1))
  | 137 => (Rnd.ofCode (fld w1 8 3)).bind fun rnd => (AtomOp.ofCode (fld w1 14 5)).bind fun op => some (.atom (BitVec.ofNat 8 (fld w0 8 8)) (BitVec.ofNat 6 (fld (fld w0 16 8) 0 6)) (BitVec.ofNat 8 (fld w0 24 8)) (BitVec.ofNat 8 (fld w1 0 8)) rnd op (BitVec.ofNat 2 (fld (fld w1 24 8) 0 2)) (natb (fld (fld w1 24 8) 2 1)) (Guard.ofWord w1))
  | 138 => (Rnd.ofCode (fld w1 8 3)).bind fun rnd => (AtomOp.ofCode (fld w1 14 5)).bind fun op => some (.red (BitVec.ofNat 6 (fld (fld w0 16 8) 0 6)) (BitVec.ofNat 8 (fld w0 24 8)) (BitVec.ofNat 8 (fld w1 0 8)) rnd op (BitVec.ofNat 2 (fld (fld w1 24 8) 0 2)) (natb (fld (fld w1 24 8) 2 1)) (Guard.ofWord w1))
  | 139 => (Rnd.ofCode (fld w1 8 3)).bind fun rnd => (AtomOp.ofCode (fld w1 14 5)).bind fun op => some (.atoms (BitVec.ofNat 8 (fld w0 8 8)) (BitVec.ofNat 8 (fld w0 24 8)) (BitVec.ofNat 8 (fld w1 0 8)) rnd op (natb (fld (fld w1 24 8) 0 1)) (natb (fld (fld w1 24 8) 1 1)) (Guard.ofWord w1))
  | 140 => (Scope.ofCode (fld (fld w1 14 5) 0 2)).bind fun scope => (Sp3.ofCode (fld (fld w1 14 5) 2 2)).bind fun sp => (CmpCond.ofCode (fld (fld w1 24 8) 0 3)).bind fun cond => some (.waitv (BitVec.ofNat 6 (fld (fld w0 8 8) 0 6)) (BitVec.ofNat 6 (fld (fld w0 16 8) 0 6)) (BitVec.ofNat 6 (fld (fld w0 24 8) 0 6)) (BitVec.ofNat 6 (fld (fld w1 0 8) 0 6)) scope sp cond (natb (fld (fld w1 24 8) 3 1)) (natb (fld (fld w1 24 8) 4 1)) (Guard.ofWord w1))
  | 141 => some (.tbegin (BitVec.ofNat 8 (fld w0 8 8)) (BitVec.ofNat 3 (fld (fld w0 16 8) 0 3)))
  | 142 => some (.tend)
  | 143 => some (.tabort (BitVec.ofNat 8 (fld w0 24 8)))
  | _ => none

/-- The fields of an instruction of major 0x90 to 0x9F, whose words are `w0` and `w1` (04 R93). -/
def extract9 (m w0 w1 : Nat) : Option Instr :=
  match m with
  | 144 => (PrefLvl.ofCode (fld (fld w1 14 5) 0 2)).bind fun lvl => some (.pref (BitVec.ofNat 6 (fld (fld w0 16 8) 0 6)) (BitVec.ofNat 8 (fld w0 24 8)) (BitVec.ofNat 14 (fld w1 0 14)) lvl (BitVec.ofNat 2 (fld (fld w1 24 8) 0 2)) (natb (fld (fld w1 24 8) 2 1)) (Guard.ofWord w1))
  | 145 => (FlushAct.ofCode (fld (fld w1 14 5) 0 2)).bind fun act => some (.cflush (BitVec.ofNat 6 (fld (fld w0 16 8) 0 6)) (BitVec.ofNat 8 (fld w0 24 8)) (BitVec.ofNat 14 (fld w1 0 14)) act (BitVec.ofNat 2 (fld (fld w1 24 8) 0 2)) (natb (fld (fld w1 24 8) 2 1)) (Guard.ofWord w1))
  | 146 => some (.rel)
  | 147 => some (.fence (natb (fld (fld w0 24 8) 0 1)) (natb (fld (fld w0 24 8) 1 1)))
  | _ => none

/-- The fields of an instruction of major 0xA0 to 0xAF, whose words are `w0` and `w1` (04 R93). -/
def extractA (m w0 w1 : Nat) : Option Instr :=
  match m with
  | 160 => (Twin.ofCode (fld (fld w1 14 5) 0 2)).bind fun tw => some (.mldw (BitVec.ofNat 2 (fld (fld w0 8 8) 0 2)) (BitVec.ofNat 4 (fld (fld w0 16 8) 0 4)) tw (Guard.ofWord w1))
  | 161 => some (.mswap)
  | 162 => (Twin.ofCode (fld (fld w1 14 5) 0 2)).bind fun tw => some (.mma (BitVec.ofNat 6 (fld (fld w0 8 8) 0 6)) (BitVec.ofNat 4 (fld (fld w0 16 8) 0 4)) tw (natb (fld (fld w1 14 5) 2 1)) (Guard.ofWord w1))
  | 163 => (Twin.ofCode (fld (fld w1 14 5) 0 2)).bind fun tw => some (.mmab (BitVec.ofNat 6 (fld (fld w0 8 8) 0 6)) (BitVec.ofNat 4 (fld (fld w0 16 8) 0 4)) tw (natb (fld (fld w1 14 5) 2 1)) (natb (fld (fld w1 14 5) 3 1)) (Guard.ofWord w1))
  | 164 => some (.mzero (BitVec.ofNat 6 (fld (fld w0 8 8) 0 6)) (BitVec.ofNat 6 (fld (fld w0 16 8) 0 6)) (natb (fld (fld w0 24 8) 0 1)))
  | 165 => some (.mrd (BitVec.ofNat 8 (fld w0 8 8)) (BitVec.ofNat 6 (fld (fld w0 16 8) 0 6)) (natb (fld (fld w1 14 5) 0 1)) (Guard.ofWord w1))
  | 166 => some (.mwr (BitVec.ofNat 6 (fld (fld w0 8 8) 0 6)) (BitVec.ofNat 8 (fld w0 16 8)) (natb (fld (fld w1 14 5) 0 1)) (Guard.ofWord w1))
  | 167 => (Rnd.ofCode (fld w1 8 3)).bind fun rnd => some (.mst (BitVec.ofNat 4 (fld (fld w0 8 8) 0 4)) (BitVec.ofNat 6 (fld (fld w0 16 8) 0 6)) rnd (natb (fld w1 12 1)) (natb (fld w1 13 1)) (natb (fld (fld w1 14 5) 0 1)) (natb (fld (fld w1 24 8) 0 1)) (Guard.ofWord w1))
  | 168 => (McblSp.ofCode (fld (fld w1 14 5) 0 2)).bind fun sp => some (.mcbl (BitVec.ofNat 2 (fld (fld w0 8 8) 0 2)) (BitVec.ofNat 6 (fld (fld w0 16 8) 0 6)) sp (Guard.ofWord w1))
  | 169 => some (.omset (BitVec.ofNat 4 (fld (fld w0 8 8) 0 4)) (BitVec.ofNat 6 (fld (fld w0 16 8) 0 6)) (Guard.ofWord w1))
  | 170 => some (.mnanr (BitVec.ofNat 6 (fld (fld w0 8 8) 0 6)))
  | _ => none

/-- The fields of an instruction of major 0xB0 to 0xBF, whose words are `w0` and `w1` (04 R93). -/
def extractB (m w0 w1 : Nat) : Option Instr :=
  match m with
  | 176 => (Sp4.ofCode (fld (fld w1 14 5) 0 2)).bind fun dsp => (Sp4.ofCode (fld (fld w1 14 5) 2 2)).bind fun ssp => some (.cpy (BitVec.ofNat 6 (fld (fld w0 8 8) 0 6)) (BitVec.ofNat 6 (fld (fld w0 16 8) 0 6)) (BitVec.ofNat 6 (fld (fld w0 24 8) 0 6)) dsp ssp (BitVec.ofNat 2 (fld (fld w1 24 8) 0 2)) (Guard.ofWord w1))
  | 177 => some (.tcpy (BitVec.ofNat 6 (fld (fld w0 8 8) 0 6)) (BitVec.ofNat 6 (fld (fld w0 16 8) 0 6)) (natb (fld (fld w1 14 5) 0 1)) (natb (fld (fld w1 14 5) 1 1)) (natb (fld (fld w1 14 5) 2 1)) (BitVec.ofNat 2 (fld (fld w1 24 8) 0 2)) (Guard.ofWord w1))
  | 178 => some (.gather (BitVec.ofNat 6 (fld (fld w0 8 8) 0 6)) (BitVec.ofNat 6 (fld (fld w0 16 8) 0 6)) (BitVec.ofNat 8 (fld w0 24 8)) (BitVec.ofNat 8 (fld w1 0 8)) (natb (fld (fld w1 14 5) 0 1)) (BitVec.ofNat 2 (fld (fld w1 24 8) 0 2)) (BitVec.ofNat 2 (fld (fld w1 24 8) 2 2)) (Guard.ofWord w1))
  | 179 => some (.scatter (BitVec.ofNat 6 (fld (fld w0 8 8) 0 6)) (BitVec.ofNat 6 (fld (fld w0 16 8) 0 6)) (BitVec.ofNat 8 (fld w0 24 8)) (BitVec.ofNat 8 (fld w1 0 8)) (natb (fld (fld w1 14 5) 0 1)) (BitVec.ofNat 2 (fld (fld w1 24 8) 0 2)) (BitVec.ofNat 2 (fld (fld w1 24 8) 2 2)) (Guard.ofWord w1))
  | 180 => some (.rginit (BitVec.ofNat 4 (fld (fld w0 8 8) 0 4)) (BitVec.ofNat 6 (fld (fld w0 16 8) 0 6)) (BitVec.ofNat 4 (fld (fld w1 0 8) 0 4)) (BitVec.ofNat 8 (fld w1 24 8)) (natb (fld (fld w1 14 5) 0 1)) (Guard.ofWord w1))
  | 181 =>
    if fld w1 14 1 = 0 then some (.rgacqC (BitVec.ofNat 6 (fld (fld w0 8 8) 0 6)) (BitVec.ofNat 4 (fld (fld w0 16 8) 0 4)) (BitVec.ofNat 6 (fld (fld w0 24 8) 0 6)) (BitVec.ofNat 3 (fld (fld w1 0 8) 0 3)) (natb (fld (fld w1 14 5) 1 1)) (Guard.ofWord w1)) else
    if fld w1 14 1 = 1 then some (.rgacqP (BitVec.ofNat 6 (fld (fld w0 8 8) 0 6)) (BitVec.ofNat 4 (fld (fld w0 16 8) 0 4)) (BitVec.ofNat 3 (fld (fld w1 0 8) 0 3)) (Guard.ofWord w1)) else
    none
  | 182 =>
    if fld w1 14 1 = 0 then some (.rgrelC (BitVec.ofNat 4 (fld (fld w0 16 8) 0 4)) (Guard.ofWord w1)) else
    if fld w1 14 1 = 1 then some (.rgrelP (BitVec.ofNat 4 (fld (fld w0 16 8) 0 4)) (Guard.ofWord w1)) else
    none
  | 183 => (Sp4.ofCode (fld (fld w1 14 5) 0 2)).bind fun ssp => some (.rgput (BitVec.ofNat 4 (fld (fld w0 8 8) 0 4)) (BitVec.ofNat 6 (fld (fld w0 16 8) 0 6)) (BitVec.ofNat 6 (fld (fld w0 24 8) 0 6)) ssp (BitVec.ofNat 2 (fld (fld w1 24 8) 0 2)) (Guard.ofWord w1))
  | 185 => some (.qpush (BitVec.ofNat 6 (fld (fld w0 8 8) 0 6)) (BitVec.ofNat 6 (fld (fld w0 16 8) 0 6)) (BitVec.ofNat 6 (fld (fld w0 24 8) 0 6)) (Guard.ofWord w1))
  | 186 => (Scope.ofCode (fld (fld w1 14 5) 1 2)).bind fun scope => some (.qpop (BitVec.ofNat 6 (fld (fld w0 8 8) 0 6)) (BitVec.ofNat 6 (fld (fld w1 0 8) 0 6)) (natb (fld (fld w1 14 5) 0 1)) scope (Guard.ofWord w1))
  | 187 =>
    if fld w1 16 3 = 0 then some (.launch (BitVec.ofNat 6 (fld (fld w0 8 8) 0 6)) (BitVec.ofNat 6 (fld (fld w0 16 8) 0 6)) (BitVec.ofNat 6 (fld (fld w0 24 8) 0 6)) (BitVec.ofNat 6 (fld (fld w1 0 8) 0 6)) (BitVec.ofNat 2 (fld (fld w1 14 5) 0 2)) (natb (fld (fld w1 24 8) 0 1)) (Guard.ofWord w1)) else
    if fld w1 14 5 = 4 then some (.launchPre (BitVec.ofNat 6 (fld (fld w0 8 8) 0 6)) (BitVec.ofNat 6 (fld (fld w0 16 8) 0 6)) (BitVec.ofNat 6 (fld (fld w0 24 8) 0 6)) (Guard.ofWord w1)) else
    if fld w1 14 5 = 8 then some (.launchKill (BitVec.ofNat 6 (fld (fld w0 8 8) 0 6)) (BitVec.ofNat 6 (fld (fld w0 16 8) 0 6)) (BitVec.ofNat 6 (fld (fld w0 24 8) 0 6)) (BitVec.ofNat 6 (fld (fld w1 0 8) 0 6)) (Guard.ofWord w1)) else
    if fld w1 14 5 = 12 then some (.launchCtx (BitVec.ofNat 6 (fld (fld w0 8 8) 0 6)) (BitVec.ofNat 6 (fld (fld w0 16 8) 0 6)) (Guard.ofWord w1)) else
    if fld w1 14 5 = 16 then some (.launchRes (BitVec.ofNat 6 (fld (fld w0 8 8) 0 6)) (BitVec.ofNat 6 (fld (fld w0 16 8) 0 6)) (Guard.ofWord w1)) else
    none
  | 188 => some (.wsld (BitVec.ofNat 6 (fld (fld w0 8 8) 0 6)) (BitVec.ofNat 6 (fld (fld w0 16 8) 0 6)) (BitVec.ofNat 6 (fld (fld w0 24 8) 0 6)) (Guard.ofWord w1))
  | _ => none

/-- The fields of an instruction of major 0xC0 to 0xCF, whose words are `w0` and `w1` (04 R93). -/
def extractC (m w0 w1 : Nat) : Option Instr :=
  match m with
  | 192 => some (.br (BitVec.ofNat 16 (fld w0 16 16)))
  | 193 => (BrMode.ofCode (fld (fld w0 8 8) 4 2)).bind fun mode => some (.brc (BitVec.ofNat 3 (fld (fld w0 8 8) 0 3)) (natb (fld (fld w0 8 8) 3 1)) mode (natb (fld (fld w0 8 8) 6 1)) (BitVec.ofNat 16 (fld w0 16 16)) (BitVec.ofNat 32 (fld w1 0 32)))
  | 194 => some (.call (BitVec.ofNat 16 (fld w0 16 16)))
  | 195 => some (.callt (BitVec.ofNat 16 (fld w0 16 16)))
  | 196 => some (.calli (BitVec.ofNat 8 (fld w0 16 8)) (natb (fld (fld w0 24 8) 0 1)))
  | 197 => some (.ret (BitVec.ofNat 8 (fld w0 16 8)))
  | 198 => some (.jmpi (BitVec.ofNat 8 (fld w0 16 8)) (natb (fld (fld w0 24 8) 0 1)))
  | 199 => some (.regang (BitVec.ofNat 8 (fld w1 0 8)) (Guard.ofWord w1))
  | 200 => some (.exit)
  | 201 => some (.lexit)
  | 202 => some (.yield)
  | 203 => some (.idem (BitVec.ofNat 6 (fld (fld w0 16 8) 0 6)))
  | 204 => some (.trap (BitVec.ofNat 16 (fld w0 16 16)))
  | 205 => some (.tret)
  | 206 => some (.wait (BitVec.ofNat 6 (fld w1 0 6)) (BitVec.ofNat 6 (fld (fld w1 0 32) 6 6)) (BitVec.ofNat 6 (fld (fld w1 0 32) 12 6)) (BitVec.ofNat 6 (fld (fld w1 0 32) 18 6)))
  | 207 => (BarOp.ofCode (fld (fld w1 14 5) 0 2)).bind fun op => some (.bar (BitVec.ofNat 5 (fld (fld w0 8 8) 0 5)) (BitVec.ofNat 6 (fld (fld w0 16 8) 0 6)) (BitVec.ofNat 8 (fld w1 0 8)) op (natb (fld (fld w1 24 8) 0 1)) (Guard.ofWord w1))
  | _ => none

/-- The fields of an instruction of major 0xD0 to 0xDF, whose words are `w0` and `w1` (04 R93). -/
def extractD (m w0 w1 : Nat) : Option Instr :=
  match m with
  | 208 => some (.csrr (BitVec.ofNat 6 (fld (fld w0 8 8) 0 6)) (BitVec.ofNat 8 (fld w1 0 8)) (BitVec.ofNat 4 (fld (fld w1 24 8) 0 4)) (Guard.ofWord w1))
  | 209 => (CsrwOp.ofCode (fld w1 14 5)).bind fun op => some (.csrw (BitVec.ofNat 6 (fld (fld w0 16 8) 0 6)) (BitVec.ofNat 8 (fld w1 0 8)) op (BitVec.ofNat 4 (fld (fld w1 24 8) 0 4)) (Guard.ofWord w1))
  | 210 => some (.grow (BitVec.ofNat 6 (fld (fld w0 8 8) 0 6)) (BitVec.ofNat 8 (fld w0 24 8)))
  | 211 => some (.shrink (BitVec.ofNat 6 (fld (fld w0 8 8) 0 6)) (BitVec.ofNat 8 (fld w0 24 8)))
  | 212 => some (.query (BitVec.ofNat 6 (fld (fld w0 8 8) 0 6)) (BitVec.ofNat 6 (fld (fld w0 16 8) 0 6)) (BitVec.ofNat 8 (fld w1 0 8)) (Guard.ofWord w1))
  | 213 => some (.hops (BitVec.ofNat 6 (fld (fld w0 8 8) 0 6)) (BitVec.ofNat 6 (fld (fld w0 16 8) 0 6)) (BitVec.ofNat 6 (fld (fld w0 24 8) 0 6)) (Guard.ofWord w1))
  | 214 =>
    if fld w1 16 3 = 0 then (TlbSz.ofCode (fld (fld w1 14 5) 0 2)).bind fun sz => some (.tlbw (BitVec.ofNat 6 (fld (fld w0 8 8) 0 6)) (BitVec.ofNat 6 (fld (fld w0 16 8) 0 6)) (BitVec.ofNat 6 (fld (fld w0 24 8) 0 6)) sz (Guard.ofWord w1)) else
    if fld w1 14 5 = 4 then some (.tlbwFault (BitVec.ofNat 6 (fld (fld w0 8 8) 0 6)) (BitVec.ofNat 6 (fld (fld w0 16 8) 0 6)) (BitVec.ofNat 6 (fld (fld w0 24 8) 0 6)) (Guard.ofWord w1)) else
    none
  | 215 =>
    if fld w1 14 5 = 0 then some (.tlbiPage (BitVec.ofNat 6 (fld (fld w0 8 8) 0 6)) (BitVec.ofNat 6 (fld (fld w0 16 8) 0 6)) (BitVec.ofNat 6 (fld (fld w1 0 8) 0 6)) (Guard.ofWord w1)) else
    if fld w1 14 5 = 1 then some (.tlbiCtx (BitVec.ofNat 6 (fld (fld w0 8 8) 0 6)) (BitVec.ofNat 6 (fld (fld w0 16 8) 0 6)) (BitVec.ofNat 6 (fld (fld w1 0 8) 0 6)) (Guard.ofWord w1)) else
    if fld w1 14 5 = 2 then some (.tlbiAll (BitVec.ofNat 6 (fld (fld w0 8 8) 0 6)) (BitVec.ofNat 6 (fld (fld w1 0 8) 0 6)) (Guard.ofWord w1)) else
    if fld w1 14 5 = 3 then some (.tlbiFq (BitVec.ofNat 6 (fld (fld w0 8 8) 0 6)) (BitVec.ofNat 6 (fld (fld w0 16 8) 0 6)) (BitVec.ofNat 6 (fld (fld w0 24 8) 0 6)) (Guard.ofWord w1)) else
    none
  | 216 =>
    if fld w1 14 5 = 0 then some (.ndsrcTime (BitVec.ofNat 6 (fld (fld w0 8 8) 0 6)) (Guard.ofWord w1)) else
    if fld w1 14 5 = 1 then some (.ndsrcRand (BitVec.ofNat 6 (fld (fld w0 8 8) 0 6)) (Guard.ofWord w1)) else
    none
  | 217 => (SigSel.ofCode (fld w0 16 8)).bind fun what => some (.sigrd (BitVec.ofNat 6 (fld (fld w0 8 8) 0 6)) what)
  | 218 =>
    if fld w1 14 5 = 0 then some (.getm (BitVec.ofNat 6 (fld (fld w0 8 8) 0 6)) (Guard.ofWord w1)) else
    if fld w1 14 5 = 1 then some (.setm (BitVec.ofNat 6 (fld (fld w0 16 8) 0 6)) (BitVec.ofNat 6 (fld (fld w1 24 8) 0 6)) (Guard.ofWord w1)) else
    none
  | 219 =>
    if fld w1 14 5 = 0 then some (.dbgHalt (BitVec.ofNat 6 (fld (fld w0 8 8) 0 6)) (BitVec.ofNat 6 (fld (fld w0 24 8) 0 6)) (Guard.ofWord w1)) else
    if fld w1 14 5 = 1 then some (.dbgRun (BitVec.ofNat 6 (fld (fld w0 8 8) 0 6)) (BitVec.ofNat 6 (fld (fld w0 24 8) 0 6)) (Guard.ofWord w1)) else
    if fld w1 14 5 = 2 then some (.dbgStep (BitVec.ofNat 6 (fld (fld w0 8 8) 0 6)) (BitVec.ofNat 6 (fld (fld w0 24 8) 0 6)) (Guard.ofWord w1)) else
    if fld w1 14 5 = 3 then some (.dbgBp (BitVec.ofNat 6 (fld (fld w0 8 8) 0 6)) (BitVec.ofNat 6 (fld (fld w0 16 8) 0 6)) (BitVec.ofNat 6 (fld (fld w0 24 8) 0 6)) (BitVec.ofNat 2 (fld (fld w1 0 8) 0 2)) (Guard.ofWord w1)) else
    if fld w1 14 5 = 4 then some (.dbgWp (BitVec.ofNat 6 (fld (fld w0 8 8) 0 6)) (BitVec.ofNat 6 (fld (fld w0 16 8) 0 6)) (BitVec.ofNat 6 (fld (fld w0 24 8) 0 6)) (BitVec.ofNat 1 (fld (fld w1 0 8) 0 1)) (BitVec.ofNat 2 (fld (fld w1 0 8) 1 2)) (BitVec.ofNat 4 (fld (fld w1 0 8) 3 4)) (Guard.ofWord w1)) else
    if fld w1 14 5 = 5 then some (.dbgDump (BitVec.ofNat 6 (fld (fld w0 8 8) 0 6)) (BitVec.ofNat 6 (fld (fld w0 16 8) 0 6)) (BitVec.ofNat 6 (fld (fld w0 24 8) 0 6)) (Guard.ofWord w1)) else
    none
  | 220 =>
    if fld w1 14 5 = 0 then some (.codepubNew (BitVec.ofNat 6 (fld (fld w0 8 8) 0 6)) (BitVec.ofNat 6 (fld (fld w0 16 8) 0 6)) (Guard.ofWord w1)) else
    if fld w1 14 5 = 1 then some (.codepubPub (BitVec.ofNat 6 (fld (fld w0 8 8) 0 6)) (BitVec.ofNat 6 (fld (fld w0 16 8) 0 6)) (BitVec.ofNat 6 (fld (fld w0 24 8) 0 6)) (Guard.ofWord w1)) else
    if fld w1 14 5 = 2 then some (.codepubRet (BitVec.ofNat 6 (fld (fld w0 8 8) 0 6)) (BitVec.ofNat 6 (fld (fld w0 16 8) 0 6)) (Guard.ofWord w1)) else
    none
  | 221 =>
    if fld w1 14 5 = 0 then some (.frmigCopy (BitVec.ofNat 6 (fld (fld w0 8 8) 0 6)) (BitVec.ofNat 6 (fld (fld w0 16 8) 0 6)) (Guard.ofWord w1)) else
    if fld w1 14 5 = 1 then some (.frmigCommit (BitVec.ofNat 6 (fld (fld w0 8 8) 0 6)) (BitVec.ofNat 6 (fld (fld w0 16 8) 0 6)) (BitVec.ofNat 6 (fld (fld w0 24 8) 0 6)) (Guard.ofWord w1)) else
    if fld w1 14 5 = 2 then some (.frmigEnd (BitVec.ofNat 6 (fld (fld w0 8 8) 0 6)) (BitVec.ofNat 6 (fld (fld w0 16 8) 0 6)) (Guard.ofWord w1)) else
    if fld w1 14 5 = 3 then some (.frmigBad (BitVec.ofNat 6 (fld (fld w0 8 8) 0 6)) (BitVec.ofNat 6 (fld (fld w0 16 8) 0 6)) (Guard.ofWord w1)) else
    none
  | _ => none

/-- The fields of the instruction whose words are `w0` and `w1`, by its major (04 R89, R93). -/
def extract (w0 w1 : Nat) : Option Instr :=
  match w0 % 256 / 16 with
  | 0 => extract0 (w0 % 256) w0 w1
  | 1 => extract1 (w0 % 256) w0 w1
  | 2 => extract2 (w0 % 256) w0 w1
  | 3 => extract3 (w0 % 256) w0 w1
  | 4 => extract4 (w0 % 256) w0 w1
  | 5 => extract5 (w0 % 256) w0 w1
  | 6 => extract6 (w0 % 256) w0 w1
  | 7 => extract7 (w0 % 256) w0 w1
  | 8 => extract8 (w0 % 256) w0 w1
  | 9 => extract9 (w0 % 256) w0 w1
  | 10 => extractA (w0 % 256) w0 w1
  | 11 => extractB (w0 % 256) w0 w1
  | 12 => extractC (w0 % 256) w0 w1
  | 13 => extractD (w0 % 256) w0 w1
  | _ => none

/-- The words of an instruction, from the fields of its form (04 R89); an event has none, and the step that takes
RESERVED_OPCODE stands for the word it names. -/
def encode : Instr → List Nat
  | .nop => [wordR 1 0 0 0]
  | .mov d a => [wordR 2 d.toNat a.toNat 0]
  | .movi d i => [wordJ 3 d.toNat i.toNat]
  | .movh d i => [wordJ 4 d.toNat i.toNat]
  | .movl d i => [wordR 5 d.toNat 0 0, i.toNat]
  | .add d a b => [wordR 6 d.toNat a.toNat b.toNat]
  | .addi d a i => [wordR 7 d.toNat a.toNat i.toNat]
  | .sub d a b => [wordR 8 d.toNat a.toNat b.toNat]
  | .neg d a => [wordR 9 d.toNat a.toNat 0]
  | .addsat d a b ty x => [wordR 10 d.toNat a.toNat b.toNat, wordX 0 0 ty.code 0 x]
  | .subsat d a b ty x => [wordR 11 d.toNat a.toNat b.toNat, wordX 0 0 ty.code 0 x]
  | .mullo d a b => [wordR 12 d.toNat a.toNat b.toNat]
  | .mulhi d a b ty x => [wordR 13 d.toNat a.toNat b.toNat, wordX 0 0 ty.code 0 x]
  | .mad d a b c sat ty x => [wordR 14 d.toNat a.toNat b.toNat, wordX c.toNat (wordF 0 0 0 (bnat sat)) ty.code 0 x]
  | .madw d a b c ty x => [wordR 15 d.toNat a.toNat b.toNat, wordX c.toNat 0 ty.code 0 x]
  | .abs d a => [wordR 16 d.toNat a.toNat 0]
  | .min d a b ty x => [wordR 17 d.toNat a.toNat b.toNat, wordX 0 0 ty.code 0 x]
  | .max d a b ty x => [wordR 18 d.toNat a.toNat b.toNat, wordX 0 0 ty.code 0 x]
  | .and d a b => [wordR 19 d.toNat a.toNat b.toNat]
  | .or d a b => [wordR 20 d.toNat a.toNat b.toNat]
  | .xor d a b => [wordR 21 d.toNat a.toNat b.toNat]
  | .andn d a b => [wordR 22 d.toNat a.toNat b.toNat]
  | .andi d a i => [wordR 23 d.toNat a.toNat i.toNat]
  | .ori d a i => [wordR 24 d.toNat a.toNat i.toNat]
  | .xori d a i => [wordR 25 d.toNat a.toNat i.toNat]
  | .shl d a b => [wordR 26 d.toNat a.toNat b.toNat]
  | .shr d a b => [wordR 27 d.toNat a.toNat b.toNat]
  | .sar d a b => [wordR 28 d.toNat a.toNat b.toNat]
  | .shli d a i => [wordR 29 d.toNat a.toNat i.toNat]
  | .shri d a i => [wordR 30 d.toNat a.toNat i.toNat]
  | .sari d a i => [wordR 31 d.toNat a.toNat i.toNat]
  | .rotl d a b => [wordR 32 d.toNat a.toNat b.toNat]
  | .popc d a => [wordR 33 d.toNat a.toNat 0]
  | .clz d a => [wordR 34 d.toNat a.toNat 0]
  | .brev d a => [wordR 35 d.toNat a.toNat 0]
  | .bfe d a sx pos len x => [wordR 36 d.toNat a.toNat 0, wordX pos.toNat 0 (bnat sx) len.toNat x]
  | .bfi d a b pos len x => [wordR 37 d.toNat a.toNat b.toNat, wordX pos.toNat 0 0 len.toNat x]
  | .lea d a b i sh x => [wordR 38 d.toNat a.toNat b.toNat, wordX i.toNat 0 0 sh.toNat x]
  | .sel d a b c x => [wordR 39 d.toNat a.toNat b.toNat, wordX c.toNat 0 0 0 x]
  | .cmp d a b c ty cond comb x => [wordR 40 d.toNat a.toNat b.toNat, wordX c.toNat 0 ty.code (cond.code + comb.code * 16) x]
  | .cmpi d a i c ty cond comb x => [wordR 41 d.toNat a.toNat i.toNat, wordX c.toNat 0 ty.code (cond.code + comb.code * 16) x]
  | .idiv d a b ty x => [wordR 42 d.toNat a.toNat b.toNat, wordX 0 0 ty.code 0 x]
  | .irem d a b ty x => [wordR 43 d.toNat a.toNat b.toNat, wordX 0 0 ty.code 0 x]
  | .sxt d a n => [wordR 44 d.toNat a.toNat n.toNat]
  | .zxt d a n => [wordR 45 d.toNat a.toNat n.toNat]
  | .bperm d a b c x => [wordR 46 d.toNat a.toNat b.toNat, wordX c.toNat 0 0 0 x]
  | .add64 d a b sub x => [wordR 47 d.toNat a.toNat b.toNat, wordX 0 0 (bnat sub) 0 x]
  | .shf d a b c right x => [wordR 48 d.toNat a.toNat b.toNat, wordX c.toNat 0 (bnat right) 0 x]
  | .pand d a b => [wordR 50 d.toNat a.toNat b.toNat]
  | .por d a b => [wordR 51 d.toNat a.toNat b.toNat]
  | .pxor d a b => [wordR 52 d.toNat a.toNat b.toNat]
  | .pnot d a => [wordR 53 d.toNat a.toNat 0]
  | .pmov d a => [wordR 54 d.toNat a.toNat 0]
  | .vfromp d a => [wordR 55 d.toNat a.toNat 0]
  | .salu d a b op x => [wordR 56 d.toNat a.toNat b.toNat, wordX 0 0 op.code 0 x]
  | .salui d a op i => [wordR 57 d.toNat a.toNat op.code, i.toNat]
  | .smovi d i => [wordJ 58 d.toNat i.toNat]
  | .bcast d a => [wordR 59 d.toNat a.toNat 0]
  | .rdlane d a b n reg x => [wordR 60 d.toNat a.toNat b.toNat, wordX n.toNat 0 0 (bnat reg) x]
  | .wrlane d a b n reg x => [wordR 61 d.toNat a.toNat b.toNat, wordX n.toNat 0 0 (bnat reg) x]
  | .elect d a ws => [wordR 62 d.toNat a.toNat (bnat ws)]
  | .scmp d a b c ty cond comb x => [wordR 63 d.toNat a.toNat b.toNat, wordX c.toNat 0 ty.code (cond.code + comb.code * 16) x]
  | .fadd d a b => [wordR 64 d.toNat a.toNat b.toNat]
  | .fsub d a b => [wordR 65 d.toNat a.toNat b.toNat]
  | .fmul d a b => [wordR 66 d.toNat a.toNat b.toNat]
  | .ffma d a b c rnd fi fo ty np nc x => [wordR 67 d.toNat a.toNat b.toNat, wordX c.toNat (wordF rnd.code (bnat fi) (bnat fo) 0) (ty.code + bnat np * 4 + bnat nc * 8) 0 x]
  | .faddx d a b rnd fi fo ty sub x => [wordR 68 d.toNat a.toNat b.toNat, wordX 0 (wordF rnd.code (bnat fi) (bnat fo) 0) (ty.code + bnat sub * 4) 0 x]
  | .fmulx d a b rnd fi fo ty x => [wordR 69 d.toNat a.toNat b.toNat, wordX 0 (wordF rnd.code (bnat fi) (bnat fo) 0) ty.code 0 x]
  | .fmin d a b fi ty x => [wordR 70 d.toNat a.toNat b.toNat, wordX 0 (wordF 0 (bnat fi) 0 0) ty.code 0 x]
  | .fmax d a b fi ty x => [wordR 71 d.toNat a.toNat b.toNat, wordX 0 (wordF 0 (bnat fi) 0 0) ty.code 0 x]
  | .fmov d a b ty op x => [wordR 72 d.toNat a.toNat b.toNat, wordX 0 0 (ty.code + op.code * 4) 0 x]
  | .fcmp d a b c fi ty hi cond comb x => [wordR 73 d.toNat a.toNat b.toNat, wordX c.toNat (wordF 0 (bnat fi) 0 0) (ty.code + bnat hi * 4) (cond.code + comb.code * 16) x]
  | .fclass d a mlo mhi ty hi x => [wordR 74 d.toNat a.toNat 0, wordX mlo.toNat 0 (ty.code + bnat hi * 4) mhi.toNat x]
  | .frnd d a rnd fi ty nx x => [wordR 75 d.toNat a.toNat 0, wordX 0 (wordF rnd.code (bnat fi) 0 0) (ty.code + bnat nx * 4) 0 x]
  | .dfma d a b c rnd fi fo op x => [wordR 76 d.toNat a.toNat b.toNat, wordX c.toNat (wordF rnd.code (bnat fi) (bnat fo) 0) op.code 0 x]
  | .cvt d a rnd fi fo sat si di sty dty x => [wordR 80 d.toNat a.toNat 0, wordX 0 (wordF rnd.code (bnat fi) (bnat fo) (bnat sat)) (si.toNat + di.toNat * 4) (sty.code + dty.code * 16) x]
  | .cvtpk d a b c rnd fi fo sat h bs dty x => [wordR 81 d.toNat a.toNat b.toNat, wordX c.toNat (wordF rnd.code (bnat fi) (bnat fo) (bnat sat)) (bnat h + bnat bs * 2) (dty.code * 16) x]
  | .cvtup d a c rnd fi fo sat h bs sty dty x => [wordR 82 d.toNat a.toNat 0, wordX c.toNat (wordF rnd.code (bnat fi) (bnat fo) (bnat sat)) (bnat h + bnat bs * 2) (sty.code + dty.code * 16) x]
  | .cbenc d a c rnd fi j x => [wordR 83 d.toNat a.toNat 0, wordX c.toNat (wordF rnd.code (bnat fi) 0 0) j.toNat 0 x]
  | .cbdec d a c j x => [wordR 84 d.toNat a.toNat 0, wordX c.toNat 0 j.toNat 0 x]
  | .rcp d a => [wordR 88 d.toNat a.toNat 0]
  | .rsq d a => [wordR 89 d.toNat a.toNat 0]
  | .sqrt d a => [wordR 90 d.toNat a.toNat 0]
  | .exp2 d a => [wordR 91 d.toNat a.toNat 0]
  | .log2 d a => [wordR 92 d.toNat a.toNat 0]
  | .sinpi d a => [wordR 93 d.toNat a.toNat 0]
  | .cospi d a => [wordR 94 d.toNat a.toNat 0]
  | .fdiv d a b rnd fi fo x => [wordR 95 d.toNat a.toNat b.toNat, wordX 0 (wordF rnd.code (bnat fi) (bnat fo) 0) 0 0 x]
  | .tanh d a => [wordR 96 d.toNat a.toNat 0]
  | .sigm d a => [wordR 97 d.toNat a.toNat 0]
  | .shfl d a b kind k reg w x => [wordR 112 d.toNat a.toNat b.toNat, wordX k.toNat 0 kind.code (bnat reg + w.code * 2) x]
  | .vote d a op sc x => [wordR 113 d.toNat a.toNat 0, wordX 0 0 op.code (bnat sc) x]
  | .redx d a rnd fi fo op sc x => [wordR 114 d.toNat a.toNat 0, wordX 0 (wordF rnd.code (bnat fi) (bnat fo) 0) op.code (bnat sc) x]
  | .scanx d a op ex x => [wordR 115 d.toNat a.toNat 0, wordX 0 0 op.code (bnat ex) x]
  | .lid d what => [wordR 116 d.toNat what.code 0]
  | .matchLanes d a b64 x => [wordR 117 d.toNat a.toNat 0, wordX 0 0 (bnat b64) 0 x]
  | .ld d a b off ty p strm k lo x => [wordR 128 d.toNat a.toNat b.toNat, wordM off.toNat (ty.code + bnat p * 8 + bnat strm * 16) (k.toNat + bnat lo * 4) x]
  | .st d a b off ty p strm k lo x => [wordR 129 d.toNat a.toNat b.toNat, wordM off.toNat (ty.code + bnat p * 8 + bnat strm * 16) (k.toNat + bnat lo * 4) x]
  | .lds d b off ty sp x => [wordR 130 d.toNat 0 b.toNat, wordM off.toNat (ty.code + sp.code * 8) 0 x]
  | .sts d b off ty sp x => [wordR 131 d.toNat 0 b.toNat, wordM off.toNat (ty.code + sp.code * 8) 0 x]
  | .ldw d a off n sp strm x => [wordR 132 d.toNat a.toNat 0, wordM off.toNat (n.toNat + sp.code * 4 + bnat strm * 16) 0 x]
  | .ldp d a b off h j sp k lo x => [wordR 133 d.toNat a.toNat b.toNat, wordM off.toNat (bnat h + j.toNat * 2 + sp.code * 8) (k.toNat + bnat lo * 4) x]
  | .stp d a b off h j sp k lo x => [wordR 134 d.toNat a.toNat b.toNat, wordM off.toNat (bnat h + j.toNat * 2 + sp.code * 8) (k.toNat + bnat lo * 4) x]
  | .sld d a off w64 sp x => [wordR 135 d.toNat a.toNat 0, wordM off.toNat (bnat w64 + sp.code * 2) 0 x]
  | .sst d a off w64 sp x => [wordR 136 d.toNat a.toNat 0, wordM off.toNat (bnat w64 + sp.code * 2) 0 x]
  | .atom d a b c rnd op k lo x => [wordR 137 d.toNat a.toNat b.toNat, wordX c.toNat (wordF rnd.code 0 0 0) op.code (k.toNat + bnat lo * 4) x]
  | .red a b c rnd op k lo x => [wordR 138 0 a.toNat b.toNat, wordX c.toNat (wordF rnd.code 0 0 0) op.code (k.toNat + bnat lo * 4) x]
  | .atoms d b c rnd op ts nr x => [wordR 139 d.toNat 0 b.toNat, wordX c.toNat (wordF rnd.code 0 0 0) op.code (bnat ts + bnat nr * 2) x]
  | .waitv d a b c scope sp cond u nd x => [wordR 140 d.toNat a.toNat b.toNat, wordX c.toNat 0 (scope.code + sp.code * 4) (cond.code + bnat u * 8 + bnat nd * 16) x]
  | .tbegin d a => [wordR 141 d.toNat a.toNat 0]
  | .tend => [wordR 142 0 0 0]
  | .tabort i => [wordR 143 0 0 i.toNat]
  | .pref a b off lvl k lo x => [wordR 144 0 a.toNat b.toNat, wordM off.toNat lvl.code (k.toNat + bnat lo * 4) x]
  | .cflush a b off act k lo x => [wordR 145 0 a.toNat b.toNat, wordM off.toNat act.code (k.toNat + bnat lo * 4) x]
  | .rel => [wordR 146 0 0 0]
  | .fence fl fs => [wordR 147 0 0 (bnat fl + bnat fs * 2)]
  | .mldw cb a tw x => [wordR 160 cb.toNat a.toNat 0, wordX 0 0 tw.code 0 x]
  | .mswap => [wordR 161 0 0 0]
  | .mma d a tw ow x => [wordR 162 d.toNat a.toNat 0, wordX 0 0 (tw.code + bnat ow * 4) 0 x]
  | .mmab d a tw ow andOp x => [wordR 163 d.toNat a.toNat 0, wordX 0 0 (tw.code + bnat ow * 4 + bnat andOp * 8) 0 x]
  | .mzero d n1 fol => [wordR 164 d.toNat n1.toNat (bnat fol)]
  | .mrd d a fol x => [wordR 165 d.toNat a.toNat 0, wordX 0 0 (bnat fol) 0 x]
  | .mwr d a fol x => [wordR 166 d.toNat a.toNat 0, wordX 0 0 (bnat fol) 0 x]
  | .mst d a rnd fo sat fol s32 x => [wordR 167 d.toNat a.toNat 0, wordX 0 (wordF rnd.code 0 (bnat fo) (bnat sat)) (bnat fol) (bnat s32) x]
  | .mcbl d a sp x => [wordR 168 d.toNat a.toNat 0, wordX 0 0 sp.code 0 x]
  | .omset d a x => [wordR 169 d.toNat a.toNat 0, wordX 0 0 0 0 x]
  | .mnanr d => [wordR 170 d.toNat 0 0]
  | .cpy d a b dsp ssp cmd x => [wordR 176 d.toNat a.toNat b.toNat, wordX 0 0 (dsp.code + ssp.code * 4) cmd.toNat x]
  | .tcpy d a out ts rsc cmd x => [wordR 177 d.toNat a.toNat 0, wordX 0 0 (bnat out + bnat ts * 2 + bnat rsc * 4) cmd.toNat x]
  | .gather d a b r ts cmd k x => [wordR 178 d.toNat a.toNat b.toNat, wordX r.toNat 0 (bnat ts) (cmd.toNat + k.toNat * 4) x]
  | .scatter d a b r ts cmd k x => [wordR 179 d.toNat a.toNat b.toNat, wordX r.toNat 0 (bnat ts) (cmd.toNat + k.toNat * 4) x]
  | .rginit d a n1 slotb ts x => [wordR 180 d.toNat a.toNat 0, wordX n1.toNat 0 (bnat ts) slotb.toNat x]
  | .rgacqC d a b c ph x => [wordR 181 d.toNat a.toNat b.toNat, wordX c.toNat 0 (bnat ph * 2) 0 x]
  | .rgacqP d a c x => [wordR 181 d.toNat a.toNat 0, wordX c.toNat 0 1 0 x]
  | .rgrelC a x => [wordR 182 0 a.toNat 0, wordX 0 0 0 0 x]
  | .rgrelP a x => [wordR 182 0 a.toNat 0, wordX 0 0 1 0 x]
  | .rgput d a b ssp cmd x => [wordR 183 d.toNat a.toNat b.toNat, wordX 0 0 ssp.code cmd.toNat x]
  | .qpush d a b x => [wordR 185 d.toNat a.toNat b.toNat, wordX 0 0 0 0 x]
  | .qpop d c w scope x => [wordR 186 d.toNat 0 0, wordX c.toNat 0 (bnat w + scope.code * 2) 0 x]
  | .launch d a b c q cx x => [wordR 187 d.toNat a.toNat b.toNat, wordX c.toNat 0 q.toNat (bnat cx) x]
  | .launchPre d a b x => [wordR 187 d.toNat a.toNat b.toNat, wordX 0 0 4 0 x]
  | .launchKill d a b c x => [wordR 187 d.toNat a.toNat b.toNat, wordX c.toNat 0 8 0 x]
  | .launchCtx d a x => [wordR 187 d.toNat a.toNat 0, wordX 0 0 12 0 x]
  | .launchRes d a x => [wordR 187 d.toNat a.toNat 0, wordX 0 0 16 0 x]
  | .wsld d a b x => [wordR 188 d.toNat a.toNat b.toNat, wordX 0 0 0 0 x]
  | .br i => [wordJ 192 0 i.toNat]
  | .brc c n mode rv rcv tgt => [wordJ 193 (c.toNat + bnat n * 8 + mode.code * 16 + bnat rv * 64) rcv.toNat, tgt.toNat]
  | .call i => [wordJ 194 0 i.toNat]
  | .callt i => [wordJ 195 0 i.toNat]
  | .calli a xv => [wordR 196 0 a.toNat (bnat xv)]
  | .ret a => [wordR 197 0 a.toNat 0]
  | .jmpi a xv => [wordR 198 0 a.toNat (bnat xv)]
  | .regang m x => [wordR 199 0 0 0, wordX m.toNat 0 0 0 x]
  | .exit => [wordR 200 0 0 0]
  | .lexit => [wordR 201 0 0 0]
  | .yield => [wordR 202 0 0 0]
  | .idem a => [wordR 203 0 a.toNat 0]
  | .trap i => [wordJ 204 0 i.toNat]
  | .tret => [wordR 205 0 0 0]
  | .wait tLd tSt tCp tTl => [wordR 206 0 0 0, tLd.toNat + tSt.toNat * 64 + tCp.toNat * 4096 + tTl.toNat * 262144]
  | .bar d a n op sreg x => [wordR 207 d.toNat a.toNat 0, wordX n.toNat 0 op.code (bnat sreg) x]
  | .csrr d nlo nhi x => [wordR 208 d.toNat 0 0, wordX nlo.toNat 0 0 nhi.toNat x]
  | .csrw a nlo op nhi x => [wordR 209 0 a.toNat 0, wordX nlo.toNat 0 op.code nhi.toNat x]
  | .grow d k => [wordR 210 d.toNat 0 k.toNat]
  | .shrink d k => [wordR 211 d.toNat 0 k.toNat]
  | .query d a item x => [wordR 212 d.toNat a.toNat 0, wordX item.toNat 0 0 0 x]
  | .hops d a b x => [wordR 213 d.toNat a.toNat b.toNat, wordX 0 0 0 0 x]
  | .tlbw d a b sz x => [wordR 214 d.toNat a.toNat b.toNat, wordX 0 0 sz.code 0 x]
  | .tlbwFault d a b x => [wordR 214 d.toNat a.toNat b.toNat, wordX 0 0 4 0 x]
  | .tlbiPage d a c x => [wordR 215 d.toNat a.toNat 0, wordX c.toNat 0 0 0 x]
  | .tlbiCtx d a c x => [wordR 215 d.toNat a.toNat 0, wordX c.toNat 0 1 0 x]
  | .tlbiAll d c x => [wordR 215 d.toNat 0 0, wordX c.toNat 0 2 0 x]
  | .tlbiFq d a b x => [wordR 215 d.toNat a.toNat b.toNat, wordX 0 0 3 0 x]
  | .ndsrcTime d x => [wordR 216 d.toNat 0 0, wordX 0 0 0 0 x]
  | .ndsrcRand d x => [wordR 216 d.toNat 0 0, wordX 0 0 1 0 x]
  | .sigrd d what => [wordR 217 d.toNat what.code 0]
  | .getm d x => [wordR 218 d.toNat 0 0, wordX 0 0 0 0 x]
  | .setm a m x => [wordR 218 0 a.toNat 0, wordX 0 0 1 m.toNat x]
  | .dbgHalt d b x => [wordR 219 d.toNat 0 b.toNat, wordX 0 0 0 0 x]
  | .dbgRun d b x => [wordR 219 d.toNat 0 b.toNat, wordX 0 0 1 0 x]
  | .dbgStep d b x => [wordR 219 d.toNat 0 b.toNat, wordX 0 0 2 0 x]
  | .dbgBp d a b slot x => [wordR 219 d.toNat a.toNat b.toNat, wordX slot.toNat 0 3 0 x]
  | .dbgWp d a b slot kind len x => [wordR 219 d.toNat a.toNat b.toNat, wordX (slot.toNat + kind.toNat * 2 + len.toNat * 8) 0 4 0 x]
  | .dbgDump d a b x => [wordR 219 d.toNat a.toNat b.toNat, wordX 0 0 5 0 x]
  | .codepubNew d a x => [wordR 220 d.toNat a.toNat 0, wordX 0 0 0 0 x]
  | .codepubPub d a b x => [wordR 220 d.toNat a.toNat b.toNat, wordX 0 0 1 0 x]
  | .codepubRet d a x => [wordR 220 d.toNat a.toNat 0, wordX 0 0 2 0 x]
  | .frmigCopy d a x => [wordR 221 d.toNat a.toNat 0, wordX 0 0 0 0 x]
  | .frmigCommit d a b x => [wordR 221 d.toNat a.toNat b.toNat, wordX 0 0 1 0 x]
  | .frmigEnd d a x => [wordR 221 d.toNat a.toNat 0, wordX 0 0 2 0 x]
  | .frmigBad d a x => [wordR 221 d.toNat a.toNat 0, wordX 0 0 3 0 x]
  | .waypWrite _ _ => []
  | .vdtbWrite _ => []
  | .retnWrite _ _ => []
  | .smplcfgWrite _ _ _ => []
  | .clauseHeader _ => []
  | .headerWaitMet => []
  | .reconvergenceRelease _ _ => []
  | .gangExit => []
  | .resultWriteback _ _ => []
  | .loadComplete _ _ => []
  | .storeAccepted _ _ => []
  | .quarantineRelease _ _ => []
  | .homeLoadFault _ _ => []
  | .deferredStoreFault _ _ => []
  | .engineAccessFault _ _ _ _ => []
  | .remoteTimeout _ => []
  | .inboundRemoteAccess _ _ => []
  | .tlbMiss _ _ _ _ _ => []
  | .translationRetry _ _ _ _ _ => []
  | .walkerStart _ => []
  | .copyComplete _ _ _ => []
  | .shadowPlaneReady _ _ => []
  | .streamRowWritten _ _ => []
  | .mstComplete _ _ => []
  | .growGrant _ _ _ => []
  | .boost _ _ => []
  | .starvationTimerExpiry => []
  | .pinEndFlush => []
  | .blockRestart => []
  | .launchAppend _ _ _ => []
  | .dependencePoll _ => []
  | .admission _ => []
  | .blockDeal _ => []
  | .blockStart _ => []
  | .launchCompletion _ => []
  | .balanceTick _ => []
  | .balanceArrival _ _ => []
  | .lclkTick => []
  | .repartitionComplete _ => []
  | .wsRefreshWindow => []
  | .retentionEntry _ _ _ => []
  | .retentionExit _ _ _ => []
  | .homeCacheWriteback _ _ => []
  | .frmigCopyDone _ => []
  | .versionFree _ _ => []
  | .marginMonitorReport _ _ _ => []
  | .halfWidthSwitch _ _ => []
  | .crossingCheckError _ _ _ => []
  | .strikeReport _ _ _ => []
  | .replicaVote _ _ _ => []
  | .verdictArrival => []
  | .resyncImageArrival _ => []
  | .replicaRecordTimeout _ _ _ => []
  | .forwardArrival _ _ => []
  | .lifetimeFold => []
  | .dieReset _ => []
  | .homeReset _ => []
  | .powerUp => []
  | .mgmtStatus => []
  | .mgmtLoad _ _ => []
  | .mgmtLife _ _ _ => []
  | .mgmtToken _ _ => []
  | .lifecycleAdvance _ _ => []
  | .flitArrival _ _ => []
  | .linkRetrain _ => []
  | .replayInject _ => []
  | .reservedOpcodeIssue w => [w.toNat]
  | .applicationCoreAccess _ => []
  | .powerLoss => []
  | .orderlyShutdown => []
  | .moduleReset => []
  | .logFreeze => []
  | .waitvReloadTimeout => []
  | .recallArrival _ _ _ _ _ => []
  | .codebookReady _ _ => []
  | .abailTranslation _ => []

/-- The major opcode of an instruction (04 R93); 0 for an event. -/
def Instr.major : Instr → Nat
  | .nop => 1
  | .mov .. => 2
  | .movi .. => 3
  | .movh .. => 4
  | .movl .. => 5
  | .add .. => 6
  | .addi .. => 7
  | .sub .. => 8
  | .neg .. => 9
  | .addsat .. => 10
  | .subsat .. => 11
  | .mullo .. => 12
  | .mulhi .. => 13
  | .mad .. => 14
  | .madw .. => 15
  | .abs .. => 16
  | .min .. => 17
  | .max .. => 18
  | .and .. => 19
  | .or .. => 20
  | .xor .. => 21
  | .andn .. => 22
  | .andi .. => 23
  | .ori .. => 24
  | .xori .. => 25
  | .shl .. => 26
  | .shr .. => 27
  | .sar .. => 28
  | .shli .. => 29
  | .shri .. => 30
  | .sari .. => 31
  | .rotl .. => 32
  | .popc .. => 33
  | .clz .. => 34
  | .brev .. => 35
  | .bfe .. => 36
  | .bfi .. => 37
  | .lea .. => 38
  | .sel .. => 39
  | .cmp .. => 40
  | .cmpi .. => 41
  | .idiv .. => 42
  | .irem .. => 43
  | .sxt .. => 44
  | .zxt .. => 45
  | .bperm .. => 46
  | .add64 .. => 47
  | .shf .. => 48
  | .pand .. => 50
  | .por .. => 51
  | .pxor .. => 52
  | .pnot .. => 53
  | .pmov .. => 54
  | .vfromp .. => 55
  | .salu .. => 56
  | .salui .. => 57
  | .smovi .. => 58
  | .bcast .. => 59
  | .rdlane .. => 60
  | .wrlane .. => 61
  | .elect .. => 62
  | .scmp .. => 63
  | .fadd .. => 64
  | .fsub .. => 65
  | .fmul .. => 66
  | .ffma .. => 67
  | .faddx .. => 68
  | .fmulx .. => 69
  | .fmin .. => 70
  | .fmax .. => 71
  | .fmov .. => 72
  | .fcmp .. => 73
  | .fclass .. => 74
  | .frnd .. => 75
  | .dfma .. => 76
  | .cvt .. => 80
  | .cvtpk .. => 81
  | .cvtup .. => 82
  | .cbenc .. => 83
  | .cbdec .. => 84
  | .rcp .. => 88
  | .rsq .. => 89
  | .sqrt .. => 90
  | .exp2 .. => 91
  | .log2 .. => 92
  | .sinpi .. => 93
  | .cospi .. => 94
  | .fdiv .. => 95
  | .tanh .. => 96
  | .sigm .. => 97
  | .shfl .. => 112
  | .vote .. => 113
  | .redx .. => 114
  | .scanx .. => 115
  | .lid .. => 116
  | .matchLanes .. => 117
  | .ld .. => 128
  | .st .. => 129
  | .lds .. => 130
  | .sts .. => 131
  | .ldw .. => 132
  | .ldp .. => 133
  | .stp .. => 134
  | .sld .. => 135
  | .sst .. => 136
  | .atom .. => 137
  | .red .. => 138
  | .atoms .. => 139
  | .waitv .. => 140
  | .tbegin .. => 141
  | .tend => 142
  | .tabort .. => 143
  | .pref .. => 144
  | .cflush .. => 145
  | .rel => 146
  | .fence .. => 147
  | .mldw .. => 160
  | .mswap => 161
  | .mma .. => 162
  | .mmab .. => 163
  | .mzero .. => 164
  | .mrd .. => 165
  | .mwr .. => 166
  | .mst .. => 167
  | .mcbl .. => 168
  | .omset .. => 169
  | .mnanr .. => 170
  | .cpy .. => 176
  | .tcpy .. => 177
  | .gather .. => 178
  | .scatter .. => 179
  | .rginit .. => 180
  | .rgacqC .. => 181
  | .rgacqP .. => 181
  | .rgrelC .. => 182
  | .rgrelP .. => 182
  | .rgput .. => 183
  | .qpush .. => 185
  | .qpop .. => 186
  | .launch .. => 187
  | .launchPre .. => 187
  | .launchKill .. => 187
  | .launchCtx .. => 187
  | .launchRes .. => 187
  | .wsld .. => 188
  | .br .. => 192
  | .brc .. => 193
  | .call .. => 194
  | .callt .. => 195
  | .calli .. => 196
  | .ret .. => 197
  | .jmpi .. => 198
  | .regang .. => 199
  | .exit => 200
  | .lexit => 201
  | .yield => 202
  | .idem .. => 203
  | .trap .. => 204
  | .tret => 205
  | .wait .. => 206
  | .bar .. => 207
  | .csrr .. => 208
  | .csrw .. => 209
  | .grow .. => 210
  | .shrink .. => 211
  | .query .. => 212
  | .hops .. => 213
  | .tlbw .. => 214
  | .tlbwFault .. => 214
  | .tlbiPage .. => 215
  | .tlbiCtx .. => 215
  | .tlbiAll .. => 215
  | .tlbiFq .. => 215
  | .ndsrcTime .. => 216
  | .ndsrcRand .. => 216
  | .sigrd .. => 217
  | .getm .. => 218
  | .setm .. => 218
  | .dbgHalt .. => 219
  | .dbgRun .. => 219
  | .dbgStep .. => 219
  | .dbgBp .. => 219
  | .dbgWp .. => 219
  | .dbgDump .. => 219
  | .codepubNew .. => 220
  | .codepubPub .. => 220
  | .codepubRet .. => 220
  | .frmigCopy .. => 221
  | .frmigCommit .. => 221
  | .frmigEnd .. => 221
  | .frmigBad .. => 221
  | .waypWrite .. => 0
  | .vdtbWrite .. => 0
  | .retnWrite .. => 0
  | .smplcfgWrite .. => 0
  | .clauseHeader .. => 0
  | .headerWaitMet => 0
  | .reconvergenceRelease .. => 0
  | .gangExit => 0
  | .resultWriteback .. => 0
  | .loadComplete .. => 0
  | .storeAccepted .. => 0
  | .quarantineRelease .. => 0
  | .homeLoadFault .. => 0
  | .deferredStoreFault .. => 0
  | .engineAccessFault .. => 0
  | .remoteTimeout .. => 0
  | .inboundRemoteAccess .. => 0
  | .tlbMiss .. => 0
  | .translationRetry .. => 0
  | .walkerStart .. => 0
  | .copyComplete .. => 0
  | .shadowPlaneReady .. => 0
  | .streamRowWritten .. => 0
  | .mstComplete .. => 0
  | .growGrant .. => 0
  | .boost .. => 0
  | .starvationTimerExpiry => 0
  | .pinEndFlush => 0
  | .blockRestart => 0
  | .launchAppend .. => 0
  | .dependencePoll .. => 0
  | .admission .. => 0
  | .blockDeal .. => 0
  | .blockStart .. => 0
  | .launchCompletion .. => 0
  | .balanceTick .. => 0
  | .balanceArrival .. => 0
  | .lclkTick => 0
  | .repartitionComplete .. => 0
  | .wsRefreshWindow => 0
  | .retentionEntry .. => 0
  | .retentionExit .. => 0
  | .homeCacheWriteback .. => 0
  | .frmigCopyDone .. => 0
  | .versionFree .. => 0
  | .marginMonitorReport .. => 0
  | .halfWidthSwitch .. => 0
  | .crossingCheckError .. => 0
  | .strikeReport .. => 0
  | .replicaVote .. => 0
  | .verdictArrival => 0
  | .resyncImageArrival .. => 0
  | .replicaRecordTimeout .. => 0
  | .forwardArrival .. => 0
  | .lifetimeFold => 0
  | .dieReset .. => 0
  | .homeReset .. => 0
  | .powerUp => 0
  | .mgmtStatus => 0
  | .mgmtLoad .. => 0
  | .mgmtLife .. => 0
  | .mgmtToken .. => 0
  | .lifecycleAdvance .. => 0
  | .flitArrival .. => 0
  | .linkRetrain .. => 0
  | .replayInject .. => 0
  | .reservedOpcodeIssue .. => 0
  | .applicationCoreAccess .. => 0
  | .powerLoss => 0
  | .orderlyShutdown => 0
  | .moduleReset => 0
  | .logFreeze => 0
  | .waitvReloadTimeout => 0
  | .recallArrival .. => 0
  | .codebookReady .. => 0
  | .abailTranslation .. => 0

/-- Engine classes of clauses and instructions (04 R85, R91). -/
inductive EngClass where
  | gen | mem | mtx | cpy | sys
deriving DecidableEq, Repr

/-- The code of an engine class (04 R85). -/
def EngClass.code : EngClass → Nat
  | .gen => 0 | .mem => 1 | .mtx => 2 | .cpy => 3 | .sys => 4

/-- The engine class of a code (04 R85). -/
def EngClass.ofCode : Nat → Option EngClass
  | 0 => some .gen | 1 => some .mem | 2 => some .mtx | 3 => some .cpy | 4 => some .sys
  | _ => none

/-- The engine class of a major (04 R91). -/
def classOf (m : Nat) : EngClass :=
  if 0x80 ≤ m && m ≤ 0x93 then .mem
  else if m == 0xA9 then .gen
  else if 0xA0 ≤ m && m ≤ 0xAA then .mtx
  else if (0xB0 ≤ m && m ≤ 0xB3) || m == 0xB7 then .cpy
  else if 0xB4 ≤ m && m ≤ 0xB6 then .gen
  else if (0xB9 ≤ m && m ≤ 0xBC) || (0xD0 ≤ m && m ≤ 0xDD) then .sys
  else .gen

/-- BR, BRC, CALL, CALLT, CALLI, RET, JMPI, REGANG, EXIT, IDEM, TRAP and TRET end their clause (04 R92). -/
def endsClause (m : Nat) : Bool := (0xC0 ≤ m && m ≤ 0xC8) || m == 0xCB || m == 0xCC || m == 0xCD

/-- Why a word sequence is no instruction (04 R94). -/
inductive DecodeError where
  /-- Undefined field value, set must-be-zero bit, register outside its namespace, or another breach of an entry. -/
  | illegalEncoding
deriving DecidableEq, Repr

/-- The instruction of a word `w0` and the word `w1` after it, with its length in words. A word of a reserved major is
the step that raises RESERVED_OPCODE (04 R94). Total; a word it refuses is refused by name. -/
def decode (w0 w1 : Nat) : Except DecodeError (Instr × Nat) :=
  match wordsOf (w0 % 256) with
  | none => .ok (.reservedOpcodeIssue (BitVec.ofNat 32 w0), 1)
  | some n =>
    match extract w0 w1 with
    | none => .error .illegalEncoding
    | some i =>
      if i.wf && encode i == (if n == 2 then [w0, w1] else [w0]) then .ok (i, n) else .error .illegalEncoding

/-- The little-endian number of a list of bytes (00 R3). -/
def leNat : List Byte → Nat
  | [] => 0
  | b :: bs => b.toNat + 256 * leNat bs

/-- The `n` little-endian bytes of a number (00 R3). -/
def leBytes : Nat → Nat → List Byte
  | 0, _ => []
  | n + 1, w => BitVec.ofNat 8 w :: leBytes n (w / 256)

/-- The instruction that begins a list of bytes, with the bytes that follow it. Bytes that the list lacks read as zero
(04 R88 gives the end of an image its own fate, before any decoding). -/
def decodeBytes (bs : List Byte) : Except DecodeError (Instr × List Byte) :=
  match decode (leNat (bs.take 4)) (leNat ((bs.drop 4).take 4)) with
  | .ok (i, n) => .ok (i, bs.drop (4 * n))
  | .error e => .error e

/-- The bytes of an instruction as memory holds them (00 R3). -/
def encodeBytes (i : Instr) : List Byte := (encode i).flatMap (leBytes 4)

/-- What the decoder reads from the words of one opcode-table row: bit 0 is the least significant bit of the first word,
and every bit above `nbits` is zero. -/
def decodeTableWord (nbits w : Nat) : Option Instr :=
  match decodeBytes (leBytes 8 (w % 2 ^ nbits)) with
  | .ok (i, _) => some i
  | .error _ => none

end Sys2Proof
end

