-- ==== Sys2Proof/Machine/State.lean ====
section
/-! DEFINITION. The state of a Cegil module as plain data: every item of state the spec gives the machine, by scope
(00 R9), and the state after reset. The gang, block, core and die in focus are fields of their own; all others stand in
lists. A core, die or home that no list names is as reset leaves it. -/

namespace Sys2Proof.Machine

/-- Privilege levels (05 R124). -/
inductive Level where
  | kernel | supervisor | firmware
deriving DecidableEq, Repr

/-- Roles of gangs (02 R44). -/
inductive Role where
  | general | vector | matrix | copy
deriving DecidableEq, Repr

/-- Progress classes (02 R50). -/
inductive ProgClass where
  | c | p | w
deriving DecidableEq, Repr

/-- Slice states ST (02 R33, 15 R332). -/
inductive SplitSt where
  | ready | blocked | recon | regang | ended
deriving DecidableEq, Repr

/-- The spaces that WAITV reads (12 R281). -/
inductive WaitSpace where
  | glob | core | ts
deriving DecidableEq, Repr

/-- What a gang's BAR has done to the barrier that it waits on (17 R380): nothing; it arrived again; or it counted the gang. -/
inductive Arrival where
  | none | again | counted
deriving DecidableEq, Repr

/-- What the instruction or header at which a slice stands waits for (02 R52, 17 R382); the gang's starvation timer runs
while a slice waits. -/
inductive WaitOn where
  /-- Not in a wait. -/
  | none
  /-- A clause-header wait (04 R87). -/
  | header
  /-- WAIT, with its thresholds (17 R377): it has issued, and ends by itself. -/
  | counters (ld st cp tl : Nat)
  /-- BAR .wait or .sync on barrier `n`, since phase `ph` (17 R380), with its arrival: it has issued, and ends by itself. -/
  | bar (n : Nat) (ph : BitVec 16) (arr : Arrival)
  /-- WAITV (12 R282). In global memory `key` is the LCLK from which its copy is read no more; in a scratch space it is the
  word or sector waited on, and `due` the clk of the next load, 0 once a store has reached it; `ext` for scope EXTERNAL; `held` while
  that load stalls (17 R382). -/
  | value (on : WaitSpace) (key due : Nat) (ext held : Bool)
  /-- RGACQ or RGPUT on ring `n` (14 R324, R326); RGACQ .c with the slot and token it took at its issue. -/
  | ring (n : Nat) (slot : Option (Nat × BitVec 16))
  /-- The kitty bits of lane registers read and written, in the lanes of a mask (02 R48). -/
  | kitty (rd wr : List Nat) (m : Word)
  /-- REGANG or IDEM (15 R341, R344). -/
  | regang
  /-- GROW by `k` blocks, granted or not, of the fragment whose lowest slice was `low` (09 R219). -/
  | grow (k : Nat) (granted : Bool) (low : Nat)
  /-- QPOP .w (13 R303); `ext` for scope EXTERNAL; `own` unless it stalls for what the primary pops (19 R419). -/
  | task (ext own : Bool)
deriving DecidableEq, Repr

/-- A split-table entry (02 R33, 15 R332) with the slice's place inside its clause (04 R85, 09 R226). -/
structure SplitEntry where
  /-- Code position of the header of the clause the slice stands in or comes to next. -/
  pc : Word
  /-- Reconvergence position, 0xFFFF_FFFF for none. -/
  rpc : Word
  fu : Bool
  st : SplitSt
  /-- REGANG mask while waiting at REGANG. -/
  rgm : BitVec 8
  /-- Words of the clause already passed; 0 before the header. -/
  ix : Nat
  /-- Instructions of the clause not yet issued. -/
  left : Nat
  /-- The clause's header word. -/
  hdr : Word
  /-- Slice instruction count of stochastic rounding (03 R75). -/
  sic : Nat
  wait : WaitOn
  /-- clk at which the slice reached its clause header (13 R306). -/
  since : Nat
  /-- Consecutive clk eligible and not issued (13 R306). -/
  elig : Nat
  /-- clk of the boost (13 R306). -/
  boost : Option Nat
deriving DecidableEq, Repr

/-- A register of a gang by name space and number, as pending tags name it (05 R121, 20 R437). -/
inductive RegName where
  | v (n : Nat)
  | s (n : Nat)
  | p (n : Nat)
deriving DecidableEq, Repr

/-- The pending tag of a register whose write has issued and is not complete (05 R121). -/
structure Tag where
  reg : RegName
  /-- Producing instruction, and its execution mask. -/
  pos : Word
  mask : Word
  /-- clk from which the register is readable. -/
  clk : Nat
  /-- The instruction can set a bit of MODE (09 R217). -/
  flags : Bool
deriving DecidableEq, Repr

/-- An accumulator tile that an MWR or MZERO has still to write (08 R205, R210). -/
structure TileTag where
  tile : Nat
  pos : Word
  gang : GangKey
  /-- clk at which the instruction completes. -/
  clk : Nat
deriving DecidableEq, Repr

/-- A register write of an instruction that has issued and not completed (05 R121). -/
inductive RegWrite where
  | lane (r l : Nat) (v : Word)
  | scal (r : Nat) (v : Word)
  | pred (p : Nat) (m v : Word)
deriving DecidableEq, Repr

/-- Outstanding classes (17 R374); `none` for a pending result that no counter counts. -/
inductive Cls where
  | ld | st | cp | tl | none
deriving DecidableEq, Repr

/-- The spaces (10 R229, 14 R310). -/
inductive Space where
  | glob | core | ts | ws
deriving DecidableEq, Repr

/-- The tagged lines among the requests of an instruction that a home makes wait (17 R387): slice and position of the instruction, the clk in
which it first issued, and the lines by their addresses. -/
structure Tagged where
  slice : Nat
  pos : Word
  clk : Nat
  lines : List Nat
deriving DecidableEq, Repr

/-- A tagged request whose sample record is not written yet (17 R387, R388). -/
structure Sample where
  gang : GangKey
  /-- Line of its address, and clk of its issue. -/
  line : Nat
  start : Nat
  /-- Bytes 0 to 23 of the record. -/
  head : List Byte
  /-- Its eight stage times, in the order of the record. -/
  stages : List Nat
  flags : Nat
  /-- clk at which its response returns; none while that is not known. -/
  due : Option Nat
  /-- A store's held entries: their place among the gang's outstanding entries, and their line. -/
  held : Option (Nat × Nat)
  /-- Its requests to peer modules that are not answered. -/
  tags : List Nat
deriving DecidableEq, Repr

/-- An entry of the outstanding counters, or a pending result (17 R375, 05 R121). -/
structure Pend where
  id : Nat
  cls : Cls
  /-- Its operation has completed; the entry stays until every older entry of its class has (17 R375). -/
  fin : Bool
  /-- Parts still to complete. -/
  parts : Nat
  /-- Register writes made at completion. -/
  writes : List RegWrite
  /-- Bytes an MST writes at completion: space, offset, byte (08 R206). -/
  bytes : List (Space × Nat × Byte)
  /-- Code position of the instruction. -/
  pos : Word
  /-- Its result can set a MODE bit, so GETM and SETM wait for it (09 R217). -/
  modeSet : Bool
  /-- Physical lines that a CFLUSH pushes: line and action 0 .wb, 1 .inv, 2 .mem (12 R288). For an MST of a redundant
  gang: not empty once its trick has matched (19 R416). For a LAUNCH variant: name, and replica and index of the blocks whose
flush it awaits (18 R401). -/
  flush : List (Nat × Nat)
  /-- Requests to homes that its completion answers (18 R403). -/
  reqs : Nat
  /-- Its result goes to the other replicas as it completes (19 R419). -/
  tells : Bool
deriving DecidableEq, Repr

/-- A lane's transaction (11 R261, 12 R283). -/
structure TxnLane where
  lane : Nat
  /-- Start time. -/
  start : Nat
  /-- Lines read and lines written. -/
  rd : List Nat
  wr : List Nat
  /-- Buffered bytes, by physical key, and the global address that each was stored to: TEND translates it again (16 R363). -/
  buf : List (Nat × Byte)
  vas : List (Nat × DWord)
  /-- Abort code once aborted. -/
  code : Option Word
deriving DecidableEq, Repr

/-- An open transaction of a gang (12 R283). -/
structure Txn where
  vd : Nat
  pd : Nat
  lanes : List TxnLane
deriving DecidableEq, Repr

/-- The trap frame (09 R226). -/
structure Frame where
  entries : List SplitEntry
  /-- Slices of the trapping fragment. -/
  slices : BitVec 8
  trappc : Word
  /-- Kind re-execute, else continue. -/
  reexec : Bool
  /-- The trap was taken at a header. -/
  atHeader : Bool
deriving DecidableEq, Repr

/-- A delivery bound to a header (18 R393). -/
structure Delivery where
  code : Nat
  addr : DWord
  info : Word
deriving DecidableEq, Repr

/-- A group of deferred store records of one instruction, not all resolved (12 R267, 16 R366). -/
structure DeferGroup where
  /-- The gang's outstanding entry. -/
  id : Nat
  /-- Records not yet resolved. -/
  left : Nat
  /-- Code to deliver when all are resolved. -/
  code : Option Nat
  addr : DWord
  pos : Word
deriving DecidableEq, Repr

/-- A parked gang (12 R266, R475, R476). -/
structure Park where
  /-- Outstanding entry that stays open; none for a load of R475. -/
  id : Option Nat
  slices : BitVec 8
  /-- Unfinished mask. -/
  mask : Word
  code : Nat
  addr : DWord
deriving DecidableEq, Repr

/-- What a home answered about a granule a gang's access missed on (16 R361): the fault code. -/
structure XAnswer where
  home : Nat
  ctx : Nat
  striped : Bool
  gran : Nat
  code : Nat
deriving DecidableEq, Repr

/-- An element whose error code is uncorrectable (05 R120). -/
inductive ErrMark where
  | lane (r l : Nat)
  | pred (p l : Nat)
  | scal (r : Nat)
  | mode
  | split (k : Nat)
  | mask
deriving DecidableEq, Repr

/-- Where a gang of a redundant launch stands at a release point (19 R414). -/
inductive RelState where
  | none
  /-- Record sent by the fragment of a lowest slice; the gang stalls until its verdict. -/
  | sent (kind slice : Nat)
  /-- The verdict was a match, and that fragment goes on; this replica performs the trick's once-performed effects, or
  takes them forwarded. -/
  | matched (performs : Bool) (slice : Nat)
deriving DecidableEq, Repr

/-- A gang in its slot. -/
structure Gang where
  key : GangKey
  /-- The slot holds a gang. -/
  live : Bool
  blk : BlockKey
  /-- Gang number in the block, 0 to 31 (02 R42). -/
  gno : Nat
  ctx : BitVec 16
  level : Level
  role : Role
  /-- Slices, 1 to 8 (02 R29). -/
  slices : Nat
  /-- Allocation in blocks of 16 lane registers (02 R46). -/
  regs : Nat
  /-- Registers of its kitty window, 0 for none (02 R47). -/
  kit : Nat
  prio : Nat
  /-- Lane registers by 32 × register + lane (05 R115). -/
  v : SMap 32
  /-- Scalar registers. -/
  s : SMap 32
  /-- Predicates P1 to P7, a lane mask each. -/
  p : SMap 32
  mode : DWord
  active : Word
  dead : Word
  split : List SplitEntry
  pend : List Pend
  /-- Classes of the entries that have retired in this clk: a wait made in it still counts them (17 R375). -/
  late : List Cls
  /-- Pending tags of results of fixed latency (05 R121); those of loads stand in `pend`. -/
  tags : List Tag
  /-- Starvation timer and count (17 R374). -/
  timer : Nat
  starve : Nat
  sigs : DWord
  sigl : DWord
  sigk : BitVec 6
  trapvec : Word
  trapcause : Word
  trappc : Word
  trapaddr : DWord
  trapinfo : Word
  frame : Option Frame
  deliver : List Delivery
  defer : List DeferGroup
  park : Option Park
  /-- The parked load that issues again, and its unfinished lanes (12 R266). -/
  redo : Option Park
  answers : List XAnswer
  /-- Tagged lines of its instructions that wait at a home (17 R387). -/
  tagged : List Tagged
  /-- Entries that every replica of the gang has held since its start (19 R416). -/
  holds : Nat
  pinned : Bool
  /-- Latest resume entry's PC and ARG (02 R55, R56). -/
  resumePc : Word
  resumeArg : Word
  txn : Option Txn
  /-- Consecutive aborts by lane and lane's first TBEGIN time (11 R261, 12 R285). -/
  aborts : SMap 8
  firstTx : SMap 64
  errs : List ErrMark
  /-- LCLK at the latest verdict (19 R420). -/
  lclkV : DWord
  rel : RelState
  /-- Values forwarded from the primary and not yet taken, oldest first, each behind the code position of its
  instruction (19 R419, R420). -/
  fwd : List (List Word)
  /-- Data that peers returned for a load made on behalf of a whole instruction: address and bytes (12 R475). -/
  got : List (DWord × List Byte)
  /-- FENCE holds later memory instructions for remote loads, for remote stores (12 R290). -/
  fenceLd : Bool
  fenceSt : Bool
  /-- The last slice has ended; the gang leaves once its LD entries complete (15 R342). -/
  leaving : Bool
deriving DecidableEq, Repr

/-- A named barrier (17 R378). -/
structure Barrier where
  ph : BitVec 16
  cnt : Nat
  arr : Nat
  curm : Word
  lastm : Word
  dec : Nat
  pend : Nat
  /-- clk at which its latest phase completed (17 R380). -/
  fin : Nat
deriving DecidableEq, Repr

/-- Life of a block (02 R43, R58). -/
inductive BlockSt where
  /-- No block. -/
  | vacant
  /-- Dealt; its scratch is being zeroed (10 R234). -/
  | starting
  | resident
  /-- Flushed, waiting to be dealt again. -/
  | flushed
  | ended
deriving DecidableEq, Repr

/-- A block of a launch, one of its replicas (02 R42, 19 R408). -/
structure Block where
  key : BlockKey
  st : BlockSt
  die : Nat
  core : Nat
  /-- Gang numbers that have not ended, as a mask. -/
  gangs : Word
  /-- Core scratch by byte, and its size (10 R234). -/
  scratch : SMap 8
  size : Nat
  bars : List Barrier
  /-- Core-scratch stores that are not complete: the clk in which each completes, its gang's number, and the bytes that it replaced
  (08 R206, 14 R325). -/
  fresh : List (Nat × Nat × List (Nat × Byte))
  /-- Kitty registers by 32 × index + lane, and the full masks by index (02 R47, R48). -/
  kv : SMap 32
  kfull : SMap 32
  /-- The block holds array state, of both cores of its twin (05 R116, 08 R188). -/
  array : Bool
  twin : Bool
  /-- A flush waits for the end of a pin (02 R57). -/
  flushReq : Bool
  /-- Rolled back since its gangs' latest IDEM: gangs that have not passed one since (19 R417). -/
  rolled : Word
  /-- Ring members: gangs that named ring r since its RGINIT (17 R384). -/
  ringMem : SMap 32
  /-- Present replica number, live replicas and DEGR (19 R409, R421). -/
  repl : Nat
  nrep : Nat
  degr : Bool
  /-- In a forwarded replay (19 R420). -/
  replay : Bool
  /-- Struck replica waiting for resynchronisation (19 R422). -/
  struck : Bool
  /-- A replica that was lost (19 R421). -/
  lost : Bool
  /-- Its resume record is written (02 R55). -/
  recorded : Bool
deriving DecidableEq, Repr

/-- An uncorrectable element of a core's array state (05 R120): of a tile, by its key; of the live or the shadow plane, a codebook or an
operand map. -/
inductive ArrayMark where
  | tile (key : Nat)
  | live
  | shadow
  | codebook (n : Nat)
  | map (n : Nat)
deriving DecidableEq, Repr

/-- A line of an L1 data cache (10 R236, 11 R252). -/
structure L1Line where
  line : Nat
  /-- LCLK at which its lease ends, and the write time of its data. -/
  lease : DWord
  wt : DWord
  /-- Its sectors held: physical sector, clk from which it counts as present (12 R287), and bytes. -/
  sects : List (Nat × Nat × List Byte)
deriving DecidableEq, Repr

/-- A line of a die cache (10 R237, R238). -/
structure DieLine where
  line : Nat
  way : Nat
  /-- Its sectors held, each with the clk from which it counts as present (12 R287). -/
  sects : List (Nat × Nat)
  /-- Latest end of a lease granted for it (11 R252). -/
  lease : DWord
  /-- Filled by a streaming access: replaced first (12 R272). -/
  low : Bool
deriving DecidableEq, Repr

/-- A line of a home cache (10 R243), with the clk from which it counts as present (12 R287). -/
structure HomeLine where
  line : Nat
  from' : Nat
deriving DecidableEq, Repr

/-- A weight plane with its latches (08 R187). -/
structure Plane where
  /-- Cells by 16 × k + n. -/
  cells : SMap 32
  fmt : BitVec 5
  twin : BitVec 2
  sel : CbReg
  /-- BS8 scales by 2 × n + half. -/
  scales : SMap 8
deriving DecidableEq, Repr

/-- A matrix stream whose rows are still to write (08 R196, R205). -/
structure Stream where
  id : Nat
  tile : Nat
  twin : BitVec 2
  ow : Bool
  /-- Operator of MMAB; none for MMA. -/
  bin : Option Bool
  fmt : BitVec 5
  /-- Live planes as at issue: leader and follower. -/
  pl : Plane
  pf : Plane
  /-- Codebook selected as at issue, of both cores. -/
  cbl : List (BitVec 16)
  cbf : List (BitVec 16)
  nanz : Bool
  /-- clk at which its last row enters the array (08 R205, R210). -/
  last : Nat
  /-- Next row, and the rows as read: element bits and scale bytes. -/
  next : Nat
  rows : List (List Nat × List Nat)
  /-- clk at which each of these rows is written, and the instruction that streams them (20 R437). -/
  times : List Nat
  gang : GangKey
  pos : Word
deriving DecidableEq, Repr

/-- A held entry of the quarantine buffer (18 R397): one sector written by one instruction. -/
structure Held where
  /-- Team scratch, else global memory. -/
  ts : Bool
  /-- Sector number: physical key / 32, or team-scratch offset / 32. -/
  sector : Nat
  /-- Bytes by physical key or team-scratch offset. -/
  bytes : List (Nat × Byte)
  /-- Logical write time (11 R253). -/
  wtime : Nat
  /-- clk at which it was held. -/
  clk : Nat
  gang : GangKey
  blk : BlockKey
  /-- Outstanding entry of the gang; none for a resume-entry write. -/
  id : Option Nat
  /-- A resume-entry write of IDEM: was a pin in force at its issue (18 R400). -/
  idem : Option Bool
  /-- The release point ending its trick has matched, or none is needed; and this replica writes it (19 R416). -/
  matched : Bool
  writes : Bool
  /-- It goes to a remote window: link, and its requests, each with its tag, its first byte and its bytes (11 R258). -/
  remote : Option (Nat × List (Nat × Nat × Nat))
  /-- Written to the home over OWNER and translation: home, for the transit (12 R277). -/
  home : Nat
  /-- An atomic performed at the home slice (11 R255). -/
  trump : Bool
  /-- Its place among the gang's outstanding entries: the number of the next when it was held (12 R288). -/
  ord : Nat
  /-- A streaming store: its line takes the lowest replacement priority (12 R272). -/
  strm : Bool
  /-- Its gang of the block and its number among the entries that every replica of the gang holds (19 R416). -/
  seq : Option (Nat × Nat)
deriving DecidableEq, Repr

/-- A task entry (13 R302). -/
structure Task where
  toff : Word
  targ : DWord
  lref : Nat
  /-- The gang that popped it provisionally, and its place in the order of the pops (13 R304). -/
  prov : Option (GangKey × Nat)
deriving DecidableEq, Repr

/-- A ring descriptor (14 R322). -/
structure Ring where
  base : Nat
  slotb : Nat
  n : Nat
  ts : Bool
  valid : Bool
  pi : Nat
  ci : Nat
  free : Nat
  filled : Nat
  ph : BitVec 16
  pmask : BitVec 16
  phases : List (BitVec 16)
deriving DecidableEq, Repr

/-- A place in a space (14 R310). -/
structure Loc where
  sp : Space
  addr : Nat
deriving DecidableEq, Repr

/-- One contiguous move of a copy operation: from a place or of constant bytes (14 R316 to R320). -/
structure Move where
  src : Option Loc
  const : List Byte
  dst : Loc
  len : Nat
deriving DecidableEq, Repr

/-- A command of a stream of the copy engine (14 R311). -/
structure Cmd where
  gang : GangKey
  blk : BlockKey
  ctx : BitVec 16
  id : Nat
  moves : List Move
  /-- Ring and slot an RGPUT fills. -/
  ring : Option (Nat × Nat)
  pos : Word
  /-- Number of the issuing gang in its block. -/
  gno : Nat
  /-- WSLD. -/
  ws : Bool
  /-- Stopped at a fault whose record waits for the supervisor: code and address (14 R313). -/
  stopped : Option (Nat × DWord)
  /-- Tags of its requests to peer modules that are not answered (14 R321). -/
  far : List Nat
  /-- Gangs of other replicas that take the completion of an operation performed once (19 R419). -/
  peers : List GangKey
  /-- Major opcode and SUB of its instruction (19 R410). -/
  op : Nat × Nat
  /-- clk from which the source of its next granule is read; none before it starts (14 R311, R315). -/
  start : Option Nat
  /-- Longest transit of its global writes; and the clk of its completion, once its last granule has left the engine (14 R315). -/
  way : Nat
  till : Nat
  /-- Latest time of its writes (11 R257). -/
  wt : DWord
  /-- Its next granule waits for a walk (16 R359). -/
  asked : Bool
  /-- clk in which its next granule first met a home that had no entry for it (17 R388). -/
  since : Option Nat
  /-- The primary's data has been taken (19 R420). -/
  fed : Bool
  /-- In a redundant launch, the bytes read from global memory and team scratch for scratch, by destination, and the racy ones by
  their address in a fold record (19 R420). -/
  got : List (Nat × Byte)
  racy : List (Nat × Byte)
deriving DecidableEq, Repr

/-- A partition (05 R123 DBGCTL and DBGST, 09 R228, 13 R306). -/
structure Part where
  halted : Bool
  /-- A single step is armed. -/
  stepping : Bool
  bpen : Bool
  wpen : Bool
  /-- Breakpoints: offset, version, enabled. -/
  bps : List (Word × Nat × Bool)
  /-- Waiting GROWs in issue order: slot, lowest slice, blocks, destination (09 R219). -/
  growq : List (Nat × Nat × Nat × Nat)
  /-- Fragment that issued last: slot and lowest slice; and whether its clause end yields (13 R306). -/
  last : Option (Nat × Nat)
  yld : Bool
  /-- Fragment that YIELD has the partition skip, and the clk (15 R343). -/
  skip : Option (Nat × Nat × Nat)
  /-- clk until which the scalar divider accepts no division (06 R156). -/
  sdiv : Nat
  /-- TIME at which it halted (20 R437). -/
  haltAt : Nat
deriving DecidableEq, Repr

/-- Retention of an array (10 R245): clk of the last access, and whether it is retained, entering or leaving until. -/
structure Retain where
  last : Nat
  retained : Bool
  /-- clk at which an entry or an exit in progress ends. -/
  busy : Option Nat
deriving DecidableEq, Repr

/-- A logical core (01 R15). -/
structure Core where
  die : Nat
  core : Nat
  /-- COREST.PORTS and INSVC (01 R20). -/
  ports : BitVec 2
  insvc : Bool
  /-- clk until which a half-width switch pauses issue (01 R19). -/
  pause : Nat
  lclk : DWord
  nancnt : Word
  stalecnt : Word
  perf : List DWord
  perfsel : DWord
  smplcfg : Word
  smplring : DWord
  /-- Requests counted since EN was set (17 R387). -/
  smpln : Nat
  /-- Tagged requests under way (17 R387). -/
  samples : List Sample
  muck : List Held
  taskq : List Task
  /-- Tasks under way to this core: arrival clk and entry (13 R305). -/
  coming : List (Nat × Task)
  live : Plane
  shadow : Plane
  shadowReady : Bool
  /-- Tile elements by 256 × tile + 16 × row + column (08 R187). -/
  acc : SMap 32
  /-- Codebook entries by 16 × codebook + code (03 R68). -/
  cb : SMap 16
  /-- Codebooks loaded and not yet ready, with the clk of each (08 R210). -/
  cbWait : List (CbReg × Nat)
  om : SMap 128
  streams : List Stream
  nextStream : Nat
  tiles : List TileTag
  rings : List Ring
  /-- Command streams 0 to 3, and the supervisor stream (14 R308); the stream whose granule the engine served last (14 R315). -/
  cmds : List (List Cmd)
  engLast : Nat
  /-- Watchpoints: address, kind, log2 length (09 R228). -/
  wps : List (DWord × Nat × Nat)
  /-- L1 lines, most recent first (10 R236, 11 R252). -/
  l1 : List L1Line
  /-- Array structures with an uncorrectable element (05 R120). -/
  marks : List ArrayMark
  scr : Retain
  accr : Retain
  /-- clk of the core reset, from which the order of its partitions counts (08 R209). -/
  born : Nat
  /-- The scoreboard: reserved up lanes and down lanes, each with the clk (08 R207, R208). -/
  up : List (Nat × Nat)
  down : List (Nat × Nat)
  /-- clk until which the lane divider, the FP64 datapath and the special-function unit accept nothing (06 R156, 07 R184, R185). -/
  div : Nat
  fp64 : Nat
  sfu : Nat
  /-- Partition from which the special-function unit last accepted, and the fragments that leave it in this clk to another partition,
  by their lowest slices (07 R184). -/
  sfuLast : Nat
  sfuAsk : List (GangKey × Nat)
  /-- clk in which the special-function unit and the matrix engine last accepted an instruction (13 R306). -/
  sfuAt : Nat
  mmAt : Nat
  parts : List Part
deriving DecidableEq, Repr

/-- A re-partition in progress (10 R239): ways given to team scratch before and after, and for a grow the lines that its walk
has visited of the ways that it gives, and the clk that a write-back still takes. -/
structure Repart where
  old : Nat
  new : Nat
  walked : Nat
  busy : Nat
deriving DecidableEq, Repr

/-- A compute die (01 R14). -/
structure Die where
  die : Nat
  /-- WAYP and TSCR (10 R238, R239). -/
  wayp : Nat
  tsize : Nat
  repart : Option Repart
  /-- Team scratch by byte; write and read times by sector; poisoned words (10 R238, 11 R250). -/
  ts : SMap 8
  tsw : SMap 64
  tsr : SMap 64
  tsPoison : List Nat
  /-- Weight store by byte, and its bad words (10 R240). -/
  ws : SMap 8
  wsBad : List Nat
  /-- clk of the die reset, from which WSREF.PHASE counts (10 R241). -/
  wsOrigin : Nat
  /-- WSLDs running (10 R242). -/
  wsld : Nat
  retnScr : Bool
  retnAccs : Bool
  lease : Word
  strvt : Word
  pinmax : Word
  balcfg : Word
  stalersp : Word
  /-- clk at which responses to requests of an earlier incarnation come (18 R403). -/
  stale : List Nat
  incarn : BitVec 16
  /-- Launch queues 4 × priority + number, as launch names, oldest first (13 R294). -/
  queues : List (List Nat)
  /-- Queue served last, by priority (13 R298). -/
  rot : List Nat
  /-- Dependence counters of its queue heads as last read: launch, dependence, and whether it was met; none while a peer is asked
  (13 R298). -/
  afters : List (Nat × Nat × Option Bool)
  /-- Next die-local launch number (13 R302). -/
  nextLref : Nat
  /-- Dirty sectors of the die cache by physical sector, with the bytes the home holds (10 R237). -/
  dirty : List (Nat × List Byte)
  /-- Die-cache lines, most recent first (10 R237). -/
  lines : List DieLine
  /-- Contention predictor by line, most recent first (11 R255). -/
  predictor : List (Nat × BitVec 2)
  fqBase : DWord
  dqBase : DWord
  /-- Its supervisor crew runs (13 R307). -/
  crew : Bool
deriving DecidableEq, Repr

/-- A TLB entry of a home (16 R358, R364). -/
structure TlbEntry where
  ctx : Nat
  striped : Bool
  /-- First byte of the OFF range and log2 of its size. -/
  off : Nat
  sz : Nat
  /-- The leaf: physical base, R, W, X; or a remote window's peer base. -/
  pa : Nat
  r : Bool
  w : Bool
  x : Bool
  /-- A remote window: link, peer context, PSET (20 R431). -/
  remote : Option (Nat × Nat × DWord)
  /-- By die, the clk past which every read lease granted to it through this entry has ended (16 R364). -/
  leases : List (Nat × Nat)
deriving DecidableEq, Repr

/-- A miss record (16 R359). -/
structure MissRec where
  num : Nat
  ctx : Nat
  striped : Bool
  gran : Nat
  waiters : List Waiter
  /-- Walker slot in which it walks. -/
  slot : Option Nat
  stale : Bool
deriving DecidableEq, Repr

/-- A frame migration (16 R368). -/
structure Migration where
  old : Nat
  spare : Nat
  /-- Lines copied so far, of 512, in ascending order. -/
  lines : Nat
  /-- The home has said that the copy is done. -/
  copied : Bool
  committed : Bool
deriving DecidableEq, Repr

/-- Translations that TLBI or FRMIG has removed and whose copies are not all settled (16 R363, R364). -/
structure Settle where
  /-- The issuing gang and its fragment's lowest slice; slice 8 once that gang has left its slot. -/
  who : GangKey × Nat
  /-- The removed entry. -/
  ent : TlbEntry
  /-- The physical range, as first byte and length. -/
  lo : Nat
  len : Nat
  /-- By die, the clk past which every read lease granted to it through them has ended. -/
  till : List (Nat × Nat)
  /-- Dies whose acknowledgement of the recall is awaited. -/
  acks : List Nat
  /-- Link of a removed remote window (20 R431). -/
  link : Option Nat
deriving DecidableEq, Repr

/-- A home (01 R14). -/
structure Home where
  home : Nat
  tlb : List TlbEntry
  recs : List MissRec
  /-- Order of the walk queue, as record numbers. -/
  walkq : List Nat
  /-- Refusals so far of a request: context, window, granule, requester and count (16 R359); of one that a full fault queue refuses, its
  address stands for the granule (16 R365). -/
  tries : List (Nat × Bool × Nat × Waiter × Nat)
  /-- Dirty lines of the home cache by physical line, with the bytes the stack holds (10 R243). -/
  dirty : List (Nat × List Byte)
  /-- Its lines, most recent first (10 R230, R233). -/
  lines : List HomeLine
  /-- Launches whose stores stand in dirty sectors: sector and launch name (10 R246). -/
  writers : List (Nat × Nat)
  /-- Write time by physical line, and the latest read lease granted to each die by 256 × line + die (11 R250, 10 R246). -/
  wt : SMap 64
  rl : SMap 64
  mig : Option Migration
  /-- Spare frames taken (16 R368). -/
  spares : List Nat
  /-- Corrected errors by frame, most recent first (16 R367). -/
  corr : List (Nat × Nat)
  /-- Frames in which an uncorrectable error was found (16 R367, R369). -/
  lost : List Nat
  /-- Bad-frame list: frame and cause (16 R369). -/
  bad : List (Nat × Nat)
  /-- Bound frames: frame, context, version (15 R349). -/
  bound : List (Nat × Nat × Nat)
  /-- Index of fault records still live: index, issuing gang's outstanding entry and requester (16 R365). -/
  live : List (Nat × HomeFault × GangKey × BitVec 16)
  /-- Removed translations whose copies are not settled. -/
  settling : List Settle
  /-- Records of KIND 4 and 5 still to append, oldest first (16 R365, R367). -/
  owed : List HomeFault
deriving DecidableEq, Repr

/-- The fields of a launch record (13 R295). -/
structure LaunchRec where
  cls : ProgClass
  prio : Nat
  regs : Nat
  crew : Nat
  block : Nat
  nrep : Nat
  team : Nat
  rings : Nat
  twin : Bool
  prologue : Bool
  lpriv : Bool
  scratch : Nat
  priv : Nat
  kita : Nat
  kitb : Nat
  kitn : Nat
  roles : Nat
  codev : Nat
  entry : Word
  trapv : Word
  arg : Word
  mode : DWord
  uarg : List Word
  resume : DWord
  privb : DWord
  sink : DWord
  done : DWord
  podset : DWord
  slices : Nat
  alanes : Nat
  /-- AFTER dependences in use: counter address and threshold. -/
  afters : List (DWord × DWord)
  /-- May-wait-on handles in use. -/
  mays : List DWord
deriving DecidableEq, Repr

/-- Life of a launch (02 R61). -/
inductive LaunchSt where
  | queued | admitted | complete
deriving DecidableEq, Repr

/-- A launch (13 R297). -/
structure Launch where
  /-- Launch name (13 R477). -/
  name : Nat
  ctx : BitVec 16
  mask : DWord
  info : LaunchRec
  recAddr : DWord
  st : LaunchSt
  /-- Target dies in ascending VD order. -/
  dies : List Nat
  /-- Die-local numbers: die and number (13 R302). -/
  lrefs : List (Nat × Nat)
  /-- Versions held, the bound one first (15 R347). -/
  vers : List Nat
  /-- Blocks started so far of each team (13 R299). -/
  started : List Nat
  /-- Blocks ended. -/
  ended : Nat
  /-- The capacity of every block is reserved (class C). -/
  reserved : Bool
  /-- Blocks that never start: killed before their start. -/
  barred : List Nat
  /-- An unreadable AFTER counter has been reported (13 R298). -/
  afterBad : Bool
  /-- Order of admission. -/
  seq : Nat
  /-- A supervisor crew (13 R307). -/
  crewOf : Option Nat
  /-- Core and partition of a supervisor crew. -/
  place : Nat × Nat
  /-- Slots that a supervisor crew keeps, gang by gang, each with the gang's kitty (13 R307). -/
  kept : List (GangKey × Nat)
  /-- Latest logical time that a core has reached with a block of it, or a copy of it has written at (13 R301). -/
  time : DWord
deriving DecidableEq, Repr

/-- A code version entry (15 R346). -/
structure Ver where
  num : Nat
  base : DWord
  words : Nat
  cur : Nat
  ltab : DWord
  ltn : Nat
  /-- STATE: 1 unpublished, 2 published, 3 retiring; a free entry is not listed. -/
  state : Nat
  hdl : Bool
  secv : BitVec 16
  /-- Physical 64 KiB frames of a bound image, as home × 2^36 / 2^16 + frame (15 R349). -/
  frames : List Nat
deriving DecidableEq, Repr

/-- The installed virtual die table of a context (16 R354, R355). -/
structure Vdt where
  addr : DWord
  /-- Dies bound to VD 0 upwards, and homes bound to VH 0 to 39. -/
  vds : List Nat
  vhs : List Nat
  /-- Level-3 tables of VH h's own window and of its striped part. -/
  roots : List (Option Nat)
  sroots : List (Option Nat)
deriving DecidableEq, Repr

/-- A context. -/
structure Context where
  ctx : Nat
  vdt : Option Vdt
  vers : List Ver
  /-- Next launch serial (13 R297). -/
  serial : Nat
  suspended : Bool
deriving DecidableEq, Repr

/-- A comparison record of a replica's gang (19 R414). -/
structure VoteRec where
  rep : Nat
  sigs : DWord
  sigl : DWord
  sigk : BitVec 6
  kind : Nat
  pos : Word
  /-- clk at which it arrives at the primary's core. -/
  arrives : Nat
deriving DecidableEq, Repr

/-- An open vote: launch name, block index, gang number and the records sent (19 R414). -/
structure Vote where
  name : Nat
  blk : Nat
  gno : Nat
  recs : List VoteRec
  /-- Outcome per replica once decided: 0 match and performs, 1 match and takes forwarded results, 2 outvoted; each until it
  has reached its replica. -/
  verdict : List (Nat × Nat)
  /-- clk that the vote has waited since its first record arrived (19 R421). -/
  waited : Nat
deriving DecidableEq, Repr

/-- The image of a block whose source has stopped for a resynchronisation (19 R418). -/
structure Image where
  gangs : List Gang
  blk : Block
  /-- Its cores, of which the array state is carried. -/
  cores : List Core
  /-- clk at which the source resumes. -/
  resume : Nat
deriving DecidableEq, Repr

/-- A resynchronisation under way (19 R418): the loser, its source, and the image once it is read. -/
structure Resync where
  dst : BlockKey
  src : BlockKey
  image : Option Image
deriving DecidableEq, Repr

/-- Where the bytes of a load go (12 R272 to R276). -/
inductive LoadDst where
  /-- Nowhere: a store. -/
  | none
  /-- Lane register and lane, size in bytes, and sign: consecutive registers above four bytes. -/
  | lane (r l size : Nat) (signed : Bool)
  /-- Element `j` of bytes or halves of a lane register (LDP). -/
  | elem (r l : Nat) (half : Bool) (j : Nat)
  /-- A scalar, or a pair. -/
  | scal (r : Nat) (wide : Bool)
  /-- A place in a space, and a number of bytes: a copy's data (14 R321). -/
  | place (sp : Space) (addr len : Nat)
  /-- The instruction itself, which issues again (12 R475). -/
  | whole
  /-- A die scheduler, for a dependence of a launch (13 R298). -/
  | after (name i : Nat)
deriving DecidableEq, Repr

/-- An outstanding request to a peer module (11 R258, 12 R268). -/
structure Remote where
  tag : Nat
  link : Nat
  gang : GangKey
  id : Nat
  write : Bool
  /-- Lane, as the unfinished mask names it, 32 for a sector that .replay wrote; and where a load's data goes. -/
  lane : Nat
  dst : LoadDst
  addr : DWord
  pos : Word
  /-- A copy's request: die, core and command stream (14 R321). -/
  engine : Option (Nat × Nat × Nat)
  /-- Bytes of a store, for its fault record (12 R267). -/
  bytes : List Byte
  /-- clk at which it left its port. -/
  sent : Nat
  /-- Its die has been reset since: its tag carries an earlier incarnation (18 R403). -/
  old : Bool
deriving DecidableEq, Repr

/-- A pod link (20 R429). -/
structure Link where
  link : Nat
  trained : Bool
  /-- Logical time of the port as a party of the order (11 R258). -/
  lclk : DWord
  /-- Next sequence numbers sent, on the ordered channel and on the unordered one; and the next awaited on the ordered one (20 R430). -/
  txSeq : BitVec 16
  txSeqU : BitVec 16
  rxSeq : BitVec 16
  /-- Messages sent and not acknowledged, by channel (true: unordered) and sequence number; at most 4,096. -/
  unacked : List (Bool × BitVec 16 × FlitMsg)
  /-- Messages that wait for one of these to be acknowledged. -/
  queued : List (Bool × FlitMsg)
  /-- Link control that the port sends in this clk: acknowledgements and repeat requests (20 R429). -/
  control : List FlitMsg
  /-- Sequence numbers taken of late on the unordered channel (14 R321). -/
  taken : List (BitVec 16)
  /-- Buffer slots that the peer has returned (20 R429). -/
  slots : Nat
  /-- Good ordered flits that wait behind a missing one. -/
  waiting : List Flit
  /-- Requests made of each channel's sequence number. -/
  repeats : List (Bool × BitVec 16 × Nat)
  /-- Corrected symbols, flits that failed, repeats, retrainings (17 R389). -/
  fixed : Nat
  failed : Nat
  repeated : Nat
  retrained : Nat
deriving DecidableEq, Repr

/-- An entry of the translation cache (16 R370). -/
structure XCache where
  digest : List Byte
  gen : BitVec 16
  image : List Word
  /-- Offset of each Abail instruction's Giric word. -/
  map : List Nat
  secv : BitVec 16
  sig : List Byte
deriving DecidableEq, Repr

/-- An error that a check code finds (02 R40, 05 R120, 10 R229, R236 to R243); no table gives these events a row of their own. -/
inductive Upset where
  /-- A single-bit error, corrected, of a store named by the offset of its lifetime count. -/
  | corrected (off : Nat)
  /-- An uncorrectable element of a gang. -/
  | gang (k : GangKey) (e : ErrMark)
  /-- An uncorrectable element of a structure of a core's array. -/
  | array (die core : Nat) (e : ArrayMark)
  /-- A parity error in a line of an L1. -/
  | l1 (die core line : Nat)
  /-- An uncorrectable error in a die-cache sector. -/
  | dieCache (die sector : Nat)
  /-- An uncorrectable word of team scratch or of the weight store, by its byte. -/
  | team (die byte : Nat)
  | weights (die byte : Nat)
  /-- A sector of a home: corrected, or detected and not corrected. -/
  | homeCorrected (sector : Nat)
  | homeLost (sector : Nat)
deriving DecidableEq, Repr

/-- A CSRW that has issued and not taken effect (09 R214, R215): the clk of its effect, the gang, its block, the number, the operation and the
source. -/
structure CsrWrite where
  clk : Nat
  gang : GangKey
  blk : BlockKey
  num : Nat
  op : CsrwOp
  src : DWord
deriving DecidableEq, Repr

/-- The subject of a due event. -/
inductive Subj where
  | none
  | gang (k : GangKey)
  | block (b : BlockKey)
  | core (die core : Nat)
deriving DecidableEq, Repr

/-- An internal event that happens at a clk. -/
structure Due where
  clk : Nat
  subj : Subj
  ev : Instr
deriving DecidableEq, Repr

/-- The state of a module. -/
structure State where
  /-- The gang in focus, and its fragment's slices that the current step issues for. -/
  gang : Gang
  frag : BitVec 8
  block : Block
  core : Core
  die : Die
  gangs : List Gang
  /-- Registers, MODE and masks of gangs that have exited, while no other gang has taken registers of their partitions (15 R342). -/
  exited : List Gang
  /-- Blocks of complete launches, while no other block has come to their cores (17 R374). -/
  past : List Block
  blocks : List Block
  cores : List Core
  dies : List Die
  homes : List Home
  launches : List Launch
  contexts : List Context
  /-- Bytes of the stacks by home × 2^36 + offset (00 R5); an unlisted byte reads 0 (log 2). -/
  mem : List Host.Cell
  /-- Poisoned sectors by physical sector (10 R237). -/
  poison : List Nat
  /-- clk since power-up, and the clk of the latest module reset, from which TIME counts (05 R123, 20 R435). -/
  clk : Nat
  timeBase : Nat
  /-- Lane-die profile D, and the compute sites a Cegil-36 disables (01 R21, R23). -/
  profD : Bool
  disabled : List Nat
  /-- BOOTST: stage, error, REPLAY (20 R427); stage 0 stands for no supply. -/
  stage : BitVec 4
  bootErr : BitVec 4
  replay : Bool
  /-- Anti-rollback fuse counter (16 R371). -/
  fuse : BitVec 16
  /-- Life-cycle fuses, and the state that the next power-up takes (20 R434). -/
  lcs : BitVec 2
  lcsNext : BitVec 2
  /-- Debug and replay features opened by a token (20 R435). -/
  tokDebug : Bool
  tokReplay : Bool
  /-- The device identity key is erased (20 R434). -/
  idErased : Bool
  /-- Lifetime record by byte, and counts not yet folded by offset of their 8 bytes (17 R389, R390). -/
  life : SMap 8
  counts : SMap 64
  links : List Link
  remotes : List Remote
  /-- Next request tag, and next number of an outstanding entry. -/
  nextTag : Nat
  votes : List Vote
  resyncs : List Resync
  /-- Arrival log: next record, frozen, TIME of the mark (20 R432). -/
  logNext : Nat
  logFrozen : Bool
  /-- clk up to which the powered seconds of the lifetime record are counted (17 R389). -/
  foldAt : Nat
  /-- Records of the good flits of this clk, by their links: the log takes them as the clk ends (20 R432). -/
  logWait : List (Nat × List Byte)
  logMark : Nat
  /-- Replay: its own mark TIME, seed, and draws made (09 R222, 20 R433). -/
  replayMark : Nat
  seed : DWord
  draws : Nat
  xcache : List XCache
  /-- Walker routine's entry, and bring-up image under way (20 R428, 16 R360). -/
  walker : Word
  image : Option FwImage
  /-- Answer last given at a management port or to an application core. -/
  answer : List Byte
  /-- Counter from which free values are drawn (the model's own, log 6). -/
  free : Nat
  /-- Internal events that are due later, and external events not yet taken (the model's own, log 3). -/
  agenda : List Due
  inbox : List Instr
  /-- Errors that the check codes find, not yet taken (the model's own, log 70). -/
  upsets : List Upset
  /-- CSR writes that have not taken effect, oldest first (09 R215). -/
  csrq : List CsrWrite
  /-- Partitions that have issued in this clk, and fragments that gave up: die, core, partition, slot, slice
  (the model's own, log 4). -/
  spent : List (Nat × Nat × Nat)
  gaveUp : List (GangKey × Nat)
  /-- Of these, fragments that the scoreboard refused (08 R209). -/
  refused : List (GangKey × Nat)
  /-- Slices that have issued in this clk (13 R306; the model's own, log 4). -/
  went : List (GangKey × Nat)
  /-- The step in progress must not retire or count as an issue: the fragment stalls or waits (the model's own). -/
  stalled : Bool
deriving DecidableEq, Repr

/-- Why a step stops with a fault. Every stop is safe: the module takes no step there that a claim could describe. -/
inductive Fault where
  /-- Raised by an event whose argument names a die, core, home, link, port or context that no module has. Safe. -/
  | noSuchUnit
deriving DecidableEq, Repr

/-- Why a step is refused. Every refusal is safe. -/
inductive Refusal where
  /-- Raised by an arm of `exec` whose instruction has no meaning yet. Safe. -/
  | notModelled (mnemonic : String)
deriving DecidableEq, Repr

/-- A named barrier at block start (17 R378). -/
def Barrier.reset : Barrier := ⟨0, 0, 0, 0, 0, 0, 0, 0⟩

/-- A weight plane at block start (08 R187): every cell 0, BF16, single, CB0. -/
def Plane.reset : Plane := ⟨[], 0, 0, 0, []⟩

/-- A ring descriptor at block start (14 R308). -/
def Ring.reset : Ring := ⟨0, 0, 1, false, false, 0, 0, 0, 0, 0, 0, List.replicate 16 0⟩

/-- A partition after reset (05 R123). -/
def Part.reset : Part := ⟨false, false, false, false, List.replicate 4 (0, 0, false), [], none, false, none, 0, 0⟩

/-- Slot without a gang (log 13: registers of an empty slot show 0). -/
def Gang.vacant (k : GangKey) : Gang where
  key := k
  live := false
  blk := ⟨0, 0, 0⟩
  gno := 0
  ctx := 0
  level := .kernel
  role := .general
  slices := 8
  regs := 1
  kit := 0
  prio := 0
  v := []
  s := []
  p := []
  mode := 0
  active := 0
  dead := 0
  split := []
  pend := []
  late := []
  tags := []
  timer := 0
  starve := 0
  sigs := 0
  sigl := 0
  sigk := 0
  trapvec := 0
  trapcause := 0
  trappc := 0
  trapaddr := 0
  trapinfo := 0
  frame := none
  deliver := []
  defer := []
  park := none
  redo := none
  answers := []
  tagged := []
  holds := 0
  pinned := false
  resumePc := 0
  resumeArg := 0
  txn := none
  aborts := []
  firstTx := []
  errs := []
  lclkV := 0
  rel := .none
  fwd := []
  got := []
  fenceLd := false
  fenceSt := false
  leaving := false

/-- No block. -/
def Block.vacant : Block where
  key := ⟨0, 0, 0⟩
  st := .vacant
  die := 0
  core := 0
  gangs := 0
  scratch := []
  size := 0
  bars := List.replicate 32 Barrier.reset
  fresh := []
  kv := []
  kfull := []
  array := false
  twin := false
  flushReq := false
  rolled := 0
  ringMem := []
  repl := 0
  nrep := 1
  degr := false
  replay := false
  struck := false
  lost := false
  recorded := false

/-- A core after a die reset (05 R123, 10 R246, 11 R250); every port is taken as good (log 13). -/
def Core.reset (d c : Nat) (clk : Nat) : Core where
  die := d
  core := c
  ports := 0
  insvc := false
  pause := 0
  lclk := 0
  nancnt := 0
  stalecnt := 0
  perf := List.replicate 8 0
  perfsel := 0
  smplcfg := 0
  smplring := 0
  smpln := 0
  samples := []
  muck := []
  taskq := []
  coming := []
  live := Plane.reset
  shadow := Plane.reset
  shadowReady := true
  acc := []
  cb := []
  cbWait := []
  om := []
  streams := []
  nextStream := 0
  tiles := []
  rings := List.replicate 16 Ring.reset
  cmds := List.replicate 5 []
  engLast := 4
  wps := List.replicate 2 (0, 0, 0)
  l1 := []
  marks := []
  scr := ⟨clk, false, none⟩
  accr := ⟨clk, false, none⟩
  born := clk
  up := []
  down := []
  div := 0
  fp64 := 0
  sfu := 0
  sfuLast := 3
  sfuAsk := []
  sfuAt := 0
  mmAt := 0
  parts := List.replicate 4 Part.reset

/-- A die after a die reset at a clk (05 R123, 10 R246); INCARN as given. -/
def Die.reset (d : Nat) (incarn : BitVec 16) (clk : Nat) : Die where
  die := d
  wayp := 0
  tsize := 0
  repart := none
  ts := []
  tsw := []
  tsr := []
  tsPoison := []
  ws := []
  wsBad := []
  wsOrigin := clk
  wsld := 0
  retnScr := false
  retnAccs := false
  lease := 8
  strvt := 0x01000000
  pinmax := 0x00400000
  balcfg := 0x00081000
  stalersp := 0
  stale := []
  incarn := incarn
  queues := List.replicate 16 []
  rot := List.replicate 4 3
  afters := []
  nextLref := 0
  dirty := []
  lines := []
  predictor := []
  fqBase := 0
  dqBase := 0
  crew := false

/-- A home after power-up. -/
def Home.reset (h : Nat) : Home where
  home := h
  tlb := []
  recs := []
  walkq := []
  tries := []
  dirty := []
  lines := []
  writers := []
  wt := []
  rl := []
  mig := none
  spares := []
  corr := []
  lost := []
  bad := []
  bound := []
  live := []
  settling := []
  owed := []

/-- A context in which nothing is installed. -/
def Context.fresh (c : Nat) : Context := ⟨c, none, [], 1, false⟩

/-- A pod link after power-up (20 R428): not trained. -/
def Link.reset (l : Nat) : Link := ⟨l, false, 0, 0, 0, 0, [], [], [], [], 0, [], [], 0, 0, 0, 0⟩

/-- A Cegil-40 D right after reset (20 R428): the boot ROM waits for an image, no gang is resident, TIME is 0. The
variant is log 1; the values the spec does not give are log 13. -/
def State.reset : State where
  gang := Gang.vacant ⟨0, 0, 0, 0⟩
  frag := 0
  block := Block.vacant
  core := Core.reset 0 0 0
  die := Die.reset 0 0 0
  gangs := []
  exited := []
  past := []
  blocks := []
  cores := []
  dies := []
  homes := []
  launches := []
  contexts := []
  mem := []
  poison := []
  clk := 0
  timeBase := 0
  profD := true
  disabled := []
  stage := 1
  bootErr := 0
  replay := false
  fuse := 0
  lcs := 0
  lcsNext := 0
  tokDebug := false
  tokReplay := false
  idErased := false
  life := []
  counts := []
  links := []
  remotes := []
  nextTag := 0
  votes := []
  resyncs := []
  logNext := 0
  logFrozen := false
  foldAt := 0
  logWait := []
  logMark := 0
  replayMark := 0
  seed := 0
  draws := 0
  xcache := []
  walker := 0
  image := none
  answer := []
  free := 0
  agenda := []
  inbox := []
  upsets := []
  csrq := []
  spent := []
  gaveUp := []
  refused := []
  went := []
  stalled := false

end Sys2Proof.Machine
end

