-- ==== Sys2Proof/Machine/Store.lean ====
section
/-! DEFINITION. Sparse stores in canonical form, the memory of the stacks, and moving the focus between the gangs, blocks,
cores and dies of a state. -/

namespace Sys2Proof.Machine

/-- The cell of a key; an unlisted key reads zero. -/
def look {w : Nat} : SMap w → Nat → BitVec w
  | [], _ => 0
  | (a, x) :: t, k => if a = k then x else look t k

/-- The store with a cell that is not zero set, in the place its key gives it. -/
def insertCell {w : Nat} : SMap w → Nat → BitVec w → SMap w
  | [], k, v => [(k, v)]
  | (a, x) :: t, k, v =>
    if k < a then (k, v) :: (a, x) :: t
    else if k = a then (k, v) :: t
    else (a, x) :: insertCell t k v

/-- The store with one cell set, kept canonical: a zero is not listed. -/
def put {w : Nat} (m : SMap w) (k : Nat) (v : BitVec w) : SMap w :=
  if v = 0 then m.filter fun c => c.1 != k else insertCell m k v

/-- Every key of a store rises above `lo`, strictly, and no cell is zero. -/
def wfFrom {w : Nat} : Nat → SMap w → Bool
  | _, [] => true
  | lo, (a, x) :: t => decide (lo ≤ a) && x != 0 && wfFrom (a + 1) t

/-- The canonical form of a store. -/
def Memory.wf {w : Nat} (m : SMap w) : Bool := wfFrom 0 m

/-- The store with the cells of a list set, in order. -/
def putAll {w : Nat} (m : SMap w) (l : List (Nat × BitVec w)) : SMap w := l.foldl (fun m c => put m c.1 c.2) m

/-- The canonical store that holds the cells of a list, of which a later one of the same key wins. -/
def canon {w : Nat} (l : List (Nat × BitVec w)) : SMap w := putAll [] l

/-- A store that is not canonical put into canonical form; a canonical store is left as it is. -/
def normal {w : Nat} (m : SMap w) : SMap w := if Memory.wf m then m else canon m.reverse

/-- The `n` cells from a key upwards. -/
def readBytes (m : SMap 8) (k n : Nat) : List Byte := (List.range n).map fun i => look m (k + i)

/-- The store with bytes written from a key upwards. -/
def writeBytes (m : SMap 8) (k : Nat) (bs : List Byte) : SMap 8 := putAll m ((List.range bs.length).zip bs |>.map fun c => (k + c.1, c.2))

/-- The cells of keys outside `[lo, hi)`. -/
def dropRange {w : Nat} (m : SMap w) (lo hi : Nat) : SMap w := m.filter fun c => decide (c.1 < lo) || decide (hi ≤ c.1)

/-- Element `n` of a list of bit vectors, zero where it has none. -/
def nth {α : Type} (d : α) (l : List α) (n : Nat) : α := l.getD n d

/-- The list with element `n` changed. -/
def modNth {α : Type} (l : List α) (n : Nat) (f : α → α) : List α := l.modify n f

/-- The elements of a list, each once, at its last place. -/
def uniq : List Nat → List Nat
  | [] => []
  | a :: t => if t.contains a then uniq t else a :: uniq t

/-- The first element of a list that meets a test, and the list with `cur` in its place. -/
def swapIn {α : Type} (p : α → Bool) (cur : α) : List α → Option (α × List α)
  | [] => none
  | a :: t => if p a then some (a, cur :: t) else (swapIn p cur t).map fun r => (r.1, a :: r.2)

/-- Bring a block into focus, where the state has it. -/
def focusBlock (b : BlockKey) (s : State) : State :=
  if s.block.key = b ∧ s.block.st ≠ .vacant then s else
  match swapIn (fun x => decide (x.key = b) && decide (x.st ≠ .vacant)) s.block s.blocks with
  | some (x, l) => { s with block := x, blocks := l }
  | none => { s with block := Block.vacant, blocks := s.block :: s.blocks }

/-- TIME (05 R123): clk since the module reset. -/
def timeOf (s : State) : Nat := s.clk - s.timeBase

/-- Every die that has left its reset state. -/
def allDies (s : State) : List Die := s.die :: s.dies

/-- A die, wherever it stands. -/
def dieOf (d : Nat) (s : State) : Die := ((allDies s).find? fun x => decide (x.die = d)).getD (Die.reset d 0 0)

/-- clk between ticks of LCLK: the spec asks for one at least every 64 clk, and for the bound of 11 R254 (log 71). -/
def tickClk : Nat := 32

/-- A core that no list names: as the reset of its die left it, with the ticks of its logical clock since (11 R251). -/
def freshCore (d c : Nat) (s : State) : Core :=
  let t := (dieOf d s).wsOrigin
  { Core.reset d c t with lclk := BitVec.ofNat 64 (s.clk / tickClk - t / tickClk) }

/-- Bring a core into focus. -/
def focusCore (d c : Nat) (s : State) : State :=
  if s.core.die = d ∧ s.core.core = c then s else
  match swapIn (fun x => decide (x.die = d) && decide (x.core = c)) s.core s.cores with
  | some (x, l) => { s with core := x, cores := l }
  | none => { s with core := freshCore d c s, cores := s.core :: s.cores }

/-- Bring a die into focus; one that no list names is as reset leaves it. -/
def focusDie (d : Nat) (s : State) : State :=
  if s.die.die = d then s else
  match swapIn (fun x => decide (x.die = d)) s.die s.dies with
  | some (x, l) => { s with die := x, dies := l }
  | none => { s with die := Die.reset d 0 0, dies := s.die :: s.dies }

/-- Bring a gang into focus with its block, core and die; a slot without a gang comes as vacant. -/
def focusGang (k : GangKey) (s : State) : State :=
  let s :=
    if s.gang.key = k then s else
    match swapIn (fun x => decide (x.key = k)) s.gang s.gangs with
    | some (x, l) => { s with gang := x, gangs := l }
    | none => { s with gang := Gang.vacant k, gangs := if s.gang.live then s.gang :: s.gangs else s.gangs }
  focusDie k.die (focusCore k.die k.core (focusBlock s.gang.blk s))

/-- Run an action on a gang and bring back the gang that had the focus. -/
def onGang (k : GangKey) (f : State → State) (s : State) : State := focusGang s.gang.key (f (focusGang k s))

/-- Run an action on a die and bring back the die that had the focus. -/
def onDie (d : Nat) (f : State → State) (s : State) : State := focusDie s.die.die (f (focusDie d s))

/-- Run an action on a core and bring back the core that had the focus. -/
def onCore (d c : Nat) (f : State → State) (s : State) : State := focusCore s.core.die s.core.core (f (focusCore d c s))

/-- Run an action on a block and bring back the block that had the focus. -/
def onBlock (b : BlockKey) (f : State → State) (s : State) : State := focusBlock s.block.key (f (focusBlock b s))

/-- Every gang that holds a slot. -/
def allGangs (s : State) : List Gang := (s.gang :: s.gangs).filter (·.live)

/-- Another gang takes registers of a partition's pool: what gangs that have exited left there is no longer known. -/
def takePool (k : GangKey) (s : State) : State :=
  { s with exited := s.exited.filter fun g => !(g.key.die == k.die && g.key.core == k.core && g.key.part == k.part) }

/-- Every block. -/
def allBlocks (s : State) : List Block := (s.block :: s.blocks).filter fun b => decide (b.st ≠ .vacant)

/-- Every core that has left its reset state. -/
def allCores (s : State) : List Core := s.core :: s.cores

/-- A core, wherever it stands. -/
def coreOf (d c : Nat) (s : State) : Core := ((allCores s).find? fun x => decide (x.die = d) && decide (x.core = c)).getD (freshCore d c s)

/-- A block, wherever it stands. -/
def blockOf (b : BlockKey) (s : State) : Option Block := (allBlocks s).find? fun x => decide (x.key = b)

/-- The gangs of a block. -/
def gangsOf (b : BlockKey) (s : State) : List Gang := (allGangs s).filter fun g => decide (g.blk = b)

/-- A home; one that no list names is as power-up leaves it. -/
def homeOf (h : Nat) (s : State) : Home := (s.homes.find? fun x => decide (x.home = h)).getD (Home.reset h)

/-- The state with one home changed. -/
def modHome (h : Nat) (f : Home → Home) (s : State) : State :=
  { s with homes := f (homeOf h s) :: s.homes.filter fun x => decide (x.home ≠ h) }

/-- A context; one that no list names has nothing installed. -/
def ctxOf (c : Nat) (s : State) : Context := (s.contexts.find? fun x => decide (x.ctx = c)).getD (Context.fresh c)

/-- The state with one context changed. -/
def modCtx (c : Nat) (f : Context → Context) (s : State) : State :=
  { s with contexts := f (ctxOf c s) :: s.contexts.filter fun x => decide (x.ctx ≠ c) }

/-- A launch by its name. -/
def launchOf (n : Nat) (s : State) : Option Launch := s.launches.find? fun x => decide (x.name = n)

/-- The state with one launch changed. -/
def modLaunch (n : Nat) (f : Launch → Launch) (s : State) : State :=
  { s with launches := s.launches.map fun x => if x.name = n then f x else x }

/-- A pod link. -/
def linkOf (l : Nat) (s : State) : Link := (s.links.find? fun x => decide (x.link = l)).getD (Link.reset l)

/-- The state with one pod link changed. -/
def modLink (l : Nat) (f : Link → Link) (s : State) : State :=
  { s with links := f (linkOf l s) :: s.links.filter fun x => decide (x.link ≠ l) }

/-- The state with the gang in focus changed. -/
def modGang (f : Gang → Gang) (s : State) : State := { s with gang := f s.gang }

/-- The state with the block in focus changed. -/
def modBlock (f : Block → Block) (s : State) : State := { s with block := f s.block }

/-- The state with the core in focus changed. -/
def modCore (f : Core → Core) (s : State) : State := { s with core := f s.core }

/-- The state with the die in focus changed. -/
def modDie (f : Die → Die) (s : State) : State := { s with die := f s.die }

/-- Insert an event after every event that is due no later. -/
def insertDue (d : Due) : List Due → List Due
  | [] => [d]
  | a :: t => if a.clk ≤ d.clk then a :: insertDue d t else d :: a :: t

/-- Put an internal event on the agenda, due `n` clk from now. -/
def later (n : Nat) (u : Subj) (e : Instr) (s : State) : State :=
  { s with agenda := insertDue ⟨s.clk + n, u, e⟩ s.agenda }

/-- The next free value, and the state that has used it (log 6). -/
def drawFree (s : State) : DWord × State := (Config.freeValue s.free, { s with free := s.free + 1 })

/-- Add to a lifetime count that firmware folds later (17 R390); a count saturates at all ones. -/
def tally (off n : Nat) (s : State) : State :=
  { s with counts := put s.counts off (BitVec.ofNat 64 (min ((look s.counts off).toNat + n) (2 ^ 64 - 1))) }

/-- Add to the counters PERF0 to PERF7 of a core that select an event (17 R386); `f` is the filter value of the gang. -/
def perfAdd (e f n : Nat) (c : Core) : Core :=
  { c with perf := (List.range 8).map fun i =>
      let b := fld c.perfsel.toNat (8 * i) 8
      let v := nth 0 c.perf i
      if b % 32 = e ∧ (b / 32 = 0 ∨ b / 32 = f ∨ (b / 32 = 5 ∧ f = 5)) then v + BitVec.ofNat 64 n else v }

end Sys2Proof.Machine
end

