-- ==== Sys2Proof/Machine/Board.lean ====
section
/-! DEFINITION. The vertical operand ports of a core (01 R17, R18) and the scoreboard that reserves their lanes (08 R207 to R209). -/

namespace Sys2Proof.Machine

/-- Extra clk of a crossing at half width (08 R207). -/
def halfWidth (s : State) : Nat := if s.core.ports = 0 then 0 else 1

/-- clk for which a crossing holds its lane (08 R207). -/
def crossTime (s : State) : Nat := 1 + halfWidth s

/-- A lane is free for the clk that a crossing would hold it. -/
def laneFree (b : List (Nat × Nat)) (h c l : Nat) : Bool :=
  !b.any fun r => r.1 == l && decide (c ≤ r.2) && decide (r.2 < c + h)

/-- The earliest clk from `c`, of at most `n`, at which some of the first `lanes` lanes is free, and the lowest such lane. -/
def crossOne (b : List (Nat × Nat)) (lanes h : Nat) : Nat → Nat → Option (Nat × Nat)
  | 0, _ => none
  | n + 1, c => match (List.range lanes).find? (laneFree b h c) with
    | some l => some (l, c)
    | none => crossOne b lanes h n (c + 1)

/-- Place crossings in order, each from its own earliest clk and from the clk of the one before; the reservations, and the clk at
which each starts. None where one does not end before the clk `lim` to which the scoreboard reaches (08 R208). -/
def crossAll (lanes h lim : Nat) : List Nat → Nat → List (Nat × Nat) → Option (List (Nat × Nat) × List Nat)
  | [], _, b => some (b, [])
  | e :: es, c, b =>
    match crossOne b lanes h (lim - max c e) (max c e) with
    | none => none
    | some (l, c') =>
      if lim < c' + h then none
      else (crossAll lanes h lim es c' ((List.range h).map (fun i => (l, c' + i)) ++ b)).map fun r => (r.1, c' :: r.2)

/-- What an instruction asks of the ports: for each up crossing the clk from its issue before which it does not cross, the number
of down crossings, and the clk between them (08 R208, R210). -/
structure Use where
  up : List Nat
  down : Nat
  exec : Nat

/-- Where the scoreboard places an instruction (08 R208). -/
structure Plan where
  up : List (Nat × Nat)
  down : List (Nat × Nat)
  /-- clk at which each up crossing starts, and the last clk that one holds. -/
  starts : List Nat
  uend : Nat
  /-- clk from which the results are readable. -/
  ready : Nat

/-- THE ADMISSION of an instruction offered in this clk by the scoreboard of the core in focus (08 R208); none where it is not
eligible. -/
def planOf (u : Use) (s : State) : Option Plan :=
  let t := s.clk
  let h := crossTime s
  let own := u.up.map (t + ·)
  match crossAll 4 h (t + 128) own t s.core.up with
  | none => none
  | some (ub, starts) =>
    if starts.head? ≠ own.head? then none
    else
      let uend := match starts.getLast? with
        | some c => c + h - 1
        | none => t
      let r := uend + 1 + u.exec
      match crossAll 2 h (t + 128) (List.replicate u.down r) r s.core.down with
      | none => none
      | some (db, ds) =>
        if ds.head? ≠ none ∧ ds.head? ≠ some r then none
        else some ⟨ub, db, starts, uend, match ds.getLast? with
          | some c => c + h
          | none => r⟩

/-- Reserve the lanes of a plan, and count the port-slots: two for each crossing (08 R207, 17 R386); `f` is the filter value of
the gang. -/
def takeLanes (u : Use) (p : Plan) (f : Nat) (s : State) : State :=
  modCore (fun c => perfAdd 8 f (2 * u.down) (perfAdd 7 f (2 * u.up.length) { c with up := p.up, down := p.down })) s

/-- What a core keeps of its scoreboard from a clk on; a stream whose last row the clk before wrote is over (08 R210). -/
def Core.prune (c : Core) (clk : Nat) : Core :=
  { c with up := c.up.filter fun r => decide (clk ≤ r.2), down := c.down.filter fun r => decide (clk ≤ r.2),
           tiles := c.tiles.filter fun t => decide (clk < t.clk), sfuAsk := [], streams := c.streams.filter fun x => !x.rows.isEmpty }

end Sys2Proof.Machine
end

