-- ==== Sys2Proof/Machine/Regs.lean ====
section
/-! DEFINITION. The registers of the gang in focus, its execution masks and the lanes of an instruction. -/

namespace Sys2Proof.Machine

/-- The lane `l` of a mask. -/
def lane (m : Word) (l : Nat) : Bool := m.getLsbD l

/-- The lanes set in a mask, ascending (00 R6). -/
def lanesOf (m : Word) : List Nat := (List.range 32).filter (lane m)

/-- The mask of the lanes that meet a test. -/
def maskOf (f : Nat → Bool) : Word := BitVec.ofNat 32 ((List.range 32).foldl (fun n l => n + bnat (f l) * 2 ^ l) 0)

/-- The lanes of a set of slices (02 R29). -/
def sliceLanes (fr : BitVec 8) : Word := maskOf fun l => fr.getLsbD (l / 4)

/-- The kitty index of lane register `r`, when it lies in the gang's kitty window (02 R47). -/
def kittyIx (g : Gang) (r : Nat) : Option Nat :=
  if g.kit ≠ 0 ∧ 16 * g.regs ≤ r + g.kit ∧ r < 16 * g.regs then some (r + g.kit - 16 * g.regs) else none

/-- Lane register `r` in lane `l`. -/
def rdV (s : State) (r l : Nat) : Word :=
  match kittyIx s.gang r with
  | none => look s.gang.v (32 * r + l)
  | some i => look s.block.kv (32 * i + l)

/-- The 64-bit pair of lane registers `r`, `r + 1` in lane `l` (00 R3). -/
def rdVV (s : State) (r l : Nat) : DWord := rdV s (r + 1) l ++ rdV s r l

/-- Scalar register `r`. -/
def rdS (s : State) (r : Nat) : Word := look s.gang.s r

/-- The scalar pair `r`, `r + 1` (00 R3). -/
def rdSS (s : State) (r : Nat) : DWord := rdS s (r + 1) ++ rdS s r

/-- Predicate `p` as a lane mask; P0 reads true in every lane (02 R29). -/
def rdP (s : State) (p : Nat) : Word := if p = 0 then BitVec.allOnes 32 else look s.gang.p p

/-- A write re-encodes the elements that it covers: their marks go (05 R120). -/
def unmark (p : ErrMark → Bool) (g : Gang) : List ErrMark := g.errs.filter fun e => !p e

/-- An element mark of lane register `r` in a lane of a mask. -/
def ErrMark.ofLane (r : Nat) (m : Word) : ErrMark → Bool
  | .lane q l => q == r && m.getLsbD l
  | _ => false

/-- An element mark of predicate `p` in a lane of a mask. -/
def ErrMark.ofPred (p : Nat) (m : Word) : ErrMark → Bool
  | .pred q l => q == p && m.getLsbD l
  | _ => false

/-- A mark of a split-table entry. -/
def ErrMark.ofSplit : ErrMark → Bool
  | .split _ => true
  | _ => false

/-- Write lane register `r` in the lanes of a mask; the others keep it (02 R39, 05 R120). -/
def wrV (r : Nat) (m : Word) (f : Nat → Word) (s : State) : State :=
  let cells := fun b => (lanesOf m).map fun l => (32 * b + l, f l)
  match kittyIx s.gang r with
  | none => modGang (fun g => { g with v := putAll g.v (cells r), errs := unmark (ErrMark.ofLane r m) g }) s
  | some i => modGang (fun g => { g with errs := unmark (ErrMark.ofLane r m) g }) (modBlock (fun b => { b with kv := putAll b.kv (cells i) }) s)

/-- Write a pair of lane registers in the lanes of a mask. -/
def wrVV (r : Nat) (m : Word) (f : Nat → DWord) (s : State) : State :=
  wrV (r + 1) m (fun l => (f l).extractLsb' 32 32) (wrV r m (fun l => (f l).extractLsb' 0 32) s)

/-- Write a scalar register (02 R29). -/
def wrS (r : Nat) (v : Word) (s : State) : State := modGang (fun g => { g with s := put g.s r v, errs := unmark (· == .scal r) g }) s

/-- Write a scalar pair (00 R3). -/
def wrSS (r : Nat) (v : DWord) (s : State) : State := wrS (r + 1) (v.extractLsb' 32 32) (wrS r (v.extractLsb' 0 32) s)

/-- Write predicate `p` in the lanes of a mask; P0 ignores writes (02 R29), and the others keep it (02 R39). -/
def wrP (p : Nat) (m v : Word) (s : State) : State :=
  if p = 0 then s else modGang (fun g => { g with p := put g.p p ((look g.p p &&& ~~~m) ||| (v &&& m)), errs := unmark (ErrMark.ofPred p m) g }) s

/-- An ended split-table entry. -/
def SplitEntry.over : SplitEntry := ⟨0, 0xFFFFFFFF, true, .ended, 0, 0, 0, 0, 0, .none, 0, 0, none⟩

/-- The split-table entry of slice `k`. -/
def entryOf (g : Gang) (k : Nat) : SplitEntry := nth SplitEntry.over g.split k

/-- The slices of a set, ascending. -/
def slicesOf (fr : BitVec 8) : List Nat := (List.range 8).filter fun k => fr.getLsbD k

/-- The set of slices that meet a test. -/
def sliceSet (f : Nat → Bool) : BitVec 8 := BitVec.ofNat 8 ((List.range 8).foldl (fun n k => n + bnat (f k) * 2 ^ k) 0)

/-- The lowest slice of a fragment, 0 for none. -/
def lowSlice (fr : BitVec 8) : Nat := (slicesOf fr).headD 0

/-- The entry that every slice of the issuing fragment shares the position of. -/
def cur (s : State) : SplitEntry := entryOf s.gang (lowSlice s.frag)

/-- The split table with the entries of a set of slices changed. -/
def modSplit (fr : BitVec 8) (f : SplitEntry → SplitEntry) (s : State) : State :=
  let change := fun (g : Gang) (k : Nat) => if fr.getLsbD k then f (entryOf g k) else entryOf g k
  modGang (fun g => { g with split := (List.range g.split.length).map (change g) }) s

/-- GRD and GN of a clause header (04 R85). -/
def hdrGrd (h : Word) : Nat := fld h.toNat 23 3
/-- GN of a clause header (04 R85). -/
def hdrGn (h : Word) : Bool := natb (fld h.toNat 26 1)
/-- LEN of a clause header (04 R85). -/
def hdrLen (h : Word) : Nat := fld h.toNat 8 4
/-- ECLS of a clause header (04 R85). -/
def hdrCls (h : Word) : Nat := fld h.toNat 12 3
/-- GEN of a clause header (04 R85). -/
def hdrGen (h : Word) : Nat := fld h.toNat 0 4
/-- YLD of a clause header (04 R85). -/
def hdrYld (h : Word) : Bool := natb (fld h.toNat 27 1)

/-- The lanes where a guard is true (02 R31). -/
def guardMask (s : State) (p : Nat) (n : Bool) : Word := if n then ~~~rdP s p else rdP s p

/-- The guard of an instruction: its own when GO is 1, else its clause's (02 R31). -/
def guardOf (s : State) (x : Option Guard) : Word :=
  match x with
  | some g => if g.go then guardMask s g.grd.toNat g.gn else guardMask s (hdrGrd (cur s).hdr) (hdrGn (cur s).hdr)
  | none => guardMask s (hdrGrd (cur s).hdr) (hdrGn (cur s).hdr)

/-- The execution mask of an instruction (02 R31). -/
def execMask (s : State) (x : Option Guard) : Word :=
  s.gang.active &&& ~~~s.gang.dead &&& sliceLanes s.frag &&& guardOf s x

/-- A pending result that reaches a kitty register fills its bit (02 R48). -/
def kittyArrive (r l : Nat) (s : State) : State :=
  match kittyIx s.gang r with
  | some i => modBlock (fun b => { b with kfull := put b.kfull i (look b.kfull i ||| maskOf fun k => k == l) }) s
  | none => s

/-- Apply a register write of a pending result; a dead lane is frozen (02 R39). -/
def applyWrite (w : RegWrite) (s : State) : State :=
  match w with
  | .lane r l v => if lane s.gang.dead l then s else kittyArrive r l (wrV r (maskOf fun k => k == l) (fun _ => v) s)
  | .scal r v => wrS r v s
  | .pred p m v => wrP p (m &&& ~~~s.gang.dead) v s

/-- OR sticky bits into MODE (05 R117). -/
def orMode (m : DWord) (s : State) : State := modGang (fun g => { g with mode := g.mode ||| m }) s

/-- MODE.XLDEAD (05 R117). -/
def xldead : DWord := 0x40

/-- Set MODE.XLDEAD where a cross-lane read reached a dead lane (02 R40). -/
def setXldead (b : Bool) (s : State) : State := if b then orMode xldead s else s

/-- The lanes the gang has (02 R29). -/
def hasLane (g : Gang) (l : Nat) : Bool := decide (l < 4 * g.slices)

/-- Global lane id of lane `l` of the gang in focus (02 R30). -/
def globalLane (s : State) (l : Nat) : Nat := (s.gang.blk.idx * 32 + s.gang.gno) * 32 + l

end Sys2Proof.Machine
end

