-- ==== Sys2Proof/Machine/Fabric.lean ====
section
/-! DEFINITION. The fabric and the memories: sites and distances, translation at the homes, what a party sees of memory
while stores are held, the quarantine buffer, logical time, and the records the homes keep. -/

namespace Sys2Proof.Machine

/-- Row and column of the compute site of die `d` (01 R11); of the home site for the service cores of a home. -/
def dieSite (d : Nat) : Nat × Nat :=
  if 128 ≤ d then ((d - 128) / 5, 2 * ((d - 128) % 5) + (d - 128) / 5 % 2)
  else (d / 5, 2 * (d % 5) + (1 - d / 5 % 2))

/-- Row and column of home `h` (01 R11). -/
def homeSite (h : Nat) : Nat × Nat := (h / 5, 2 * (h % 5) + h / 5 % 2)

/-- Bridge crossings between two sites (01 R27). -/
def meshDist (a b : Nat × Nat) : Nat := (a.1 - b.1) + (b.1 - a.1) + ((a.2 - b.2) + (b.2 - a.2))

/-- Compute dies that the grade enables, in row-major order (01 R23). -/
def enabledDies (s : State) : List Nat := (List.range 40).filter fun d => !s.disabled.contains d

/-- The dies bound to VD 0 upwards in a context (01 R25, 16 R352). -/
def vdsOf (s : State) (c : Nat) : List Nat :=
  if c = 0 then enabledDies s else match (ctxOf c s).vdt with
  | some t => t.vds
  | none => []

/-- The home bound to VH `h` in a context (16 R352, R354). -/
def vhHome (s : State) (c h : Nat) : Option Nat :=
  if 40 ≤ h then none
  else if c = 0 then some h else (ctxOf c s).vdt.map fun t => nth h t.vhs h

/-- The site of a site code of a context, when it is bound (01 R26). -/
def siteOf (s : State) (c code : Nat) : Option (Nat × Nat) :=
  if code / 256 = 0 then (vdsOf s c)[code]?.map dieSite
  else if code < 512 then (vhHome s c (code % 256)).map homeSite
  else none

/-- The site code of the die a gang runs on, in its context (01 R28). -/
def ownSite (s : State) (g : Gang) : Nat :=
  if 128 ≤ g.key.die then
    256 + ((List.range 40).find? fun h => decide (vhHome s g.ctx.toNat h = some (g.key.die - 128))).getD 0
  else ((List.range 40).find? fun v => decide ((vdsOf s g.ctx.toNat)[v]? = some g.key.die)).getD 0

/-- What an access asks of a leaf (16 R356). -/
inductive Access where
  | load | store | atomic | fetch
deriving DecidableEq, Repr

/-- What a home answers about an access (10 R231, 16 R356, R359). -/
inductive Xlate where
  /-- The address belongs to no home; found at the issuing instruction. -/
  | noHome
  /-- No TLB entry covers the 64 KiB granule. -/
  | miss (home : Nat) (striped : Bool) (gran : Nat)
  | fault (home code : Nat)
  /-- The physical byte, as home × 2^36 + offset. -/
  | ok (home key : Nat)
  /-- A remote window: link, peer context, peer address (20 R431). -/
  | remote (home link pctx : Nat) (pva : DWord)
deriving DecidableEq, Repr

/-- OWNER of a global address (10 R231). -/
def ownerOf (va : DWord) : Nat := fld va.toNat 50 7
/-- OFF of a global address (10 R231). -/
def offOf (va : DWord) : Nat := fld va.toNat 0 50

/-- The owning virtual home of an address, and whether it lies in the striped window (10 R231, R232). -/
def ownerVh (va : DWord) : Option (Nat × Bool) :=
  if fld va.toNat 57 7 ≠ 0 then none
  else if ownerOf va < 40 then some (ownerOf va, false)
  else if ownerOf va = 0x7F then some (fld (offOf va) 16 16 % 40, true)
  else none

/-- The TLB entry of a home that covers an offset (16 R358). -/
def tlbFind (h : Home) (c : Nat) (striped : Bool) (off : Nat) : Option TlbEntry :=
  h.tlb.find? fun e => decide (e.ctx = c) && (e.striped == striped) && decide (e.off ≤ off) && decide (off < e.off + 2 ^ e.sz)

/-- The permission an access needs (16 R356). -/
def permits (r w x : Bool) : Access → Bool
  | .load => r
  | .store => w
  | .atomic => r && w
  | .fetch => x

/-- A launch's pod-set handle (13 R295). -/
def podsetOf (s : State) (name : Nat) : DWord := ((launchOf name s).map (·.info.podset)).getD 0

/-- The answer a leaf gives to an access (16 R356, 20 R431). -/
def leafAnswer (home : Nat) (e : TlbEntry) (off : Nat) (a : Access) (podset : DWord) : Xlate :=
  match e.remote with
  | none => if permits e.r e.w e.x a then .ok home (home * Config.stackBytes + e.pa + (off - e.off)) else .fault home 0x11
  | some (link, pctx, pset) =>
    if a = .atomic ∨ ¬permits e.r e.w false a ∨ (pset ≠ 0 ∧ pset ≠ podset) then .fault home 0x11
    else .remote home link pctx (BitVec.ofNat 64 (e.pa + (off - e.off)))

/-- The remote window that covers an offset of a home's remote half, as its table in memory stands (20 R431). -/
def remoteLeaf (s : State) (home c off : Nat) : Option TlbEntry :=
  let w := fld off 45 4
  let at' := home * Config.stackBytes + Config.reservedBase + 0x04000000 + 512 * c + 32 * w
  let b0 := (look s.mem at').toNat
  if natb b0 then
    some ⟨c, false, 2 ^ 49 + w * 2 ^ 45, 45, leNat (readBytes s.mem (at' + 8) 8), natb (b0 / 2), natb (b0 / 4), false,
      some ((look s.mem (at' + 1)).toNat % 16, leNat (readBytes s.mem (at' + 2) 2), BitVec.ofNat 64 (leNat (readBytes s.mem (at' + 16) 8))), []⟩
  else none

/-- Translation at the owning home (10 R231 to R233, 16 R352, R356, R359). -/
def xlate (s : State) (c : Nat) (podset : DWord) (va : DWord) (a : Access) : Xlate :=
  match ownerVh va with
  | none => .noHome
  | some (vh, striped) =>
    if c = 0 then
      if striped ∨ Config.stackBytes ≤ offOf va then .noHome else .ok vh (vh * Config.stackBytes + offOf va)
    else match vhHome s c vh with
    | none => .noHome
    | some home =>
      match tlbFind (homeOf home s) c striped (offOf va) with
      | some e => leafAnswer home e (offOf va) a podset
      | none =>
        if !striped ∧ fld (offOf va) 49 1 = 1 then
          match remoteLeaf s home c (offOf va) with
          | none => .fault home 0x10
          | some e => leafAnswer home e (offOf va) a podset
        else .miss home striped (offOf va / 2 ^ 16)

/-- One walk of a page table from a level, by the shifts and index widths of its levels (16 R356). -/
def walkFrom (s : State) (home off : Nat) : List (Nat × Nat) → Nat → Option (Nat × Nat × Nat)
  | [], _ => none
  | (sh, n) :: rest, table =>
    let e := leNat (readBytes s.mem (home * Config.stackBytes + table + 8 * fld off sh n) 8)
    if ¬natb e then none
    else if natb (e / 2) then walkFrom s home off rest (fld e 8 28 * 256)
    else if sh = 39 then none
    else some (fld e 16 20 * 65536, sh, e)

/-- The first bytes of the entries that a walk reads, by the shifts and index widths of its levels (16 R356). -/
def walkKeys (s : State) (home off : Nat) : List (Nat × Nat) → Nat → List Nat
  | [], _ => []
  | (sh, n) :: rest, table =>
    let k := home * Config.stackBytes + table + 8 * fld off sh n
    let e := leNat (readBytes s.mem k 8)
    k :: if natb e && natb (e / 2) then walkKeys s home off rest (fld e 8 28 * 256) else []

/-- The leaf of an address as the page tables in memory stand: physical base, log2 size, entry (16 R356). -/
def walk (s : State) (c home vh : Nat) (striped : Bool) (off : Nat) : Option (Nat × Nat × Nat) :=
  match (ctxOf c s).vdt with
  | none => none
  | some t =>
    match nth none (if striped then t.sroots else t.roots) vh with
    | none => none
    | some root => walkFrom s home off [(39, 11), (30, 9), (21, 9), (16, 5)] root

/-- A leaf that a walk refuses (16 R361, R356, R369, 10 R232, R244). -/
def leafBad (s : State) (home sz : Nat) (striped : Bool) (e : Nat) : Bool :=
  let pfn := fld e 16 20
  let h := homeOf home s
  let frames := 2 ^ (sz - 16)
  let reserved := Config.reservedBase / 65536
  let overlaps := decide (reserved < pfn + frames)
  !natb e || natb (e / 2) || pfn % frames != 0 || (striped && sz != 16) || decide (2 ^ 20 < pfn + frames) ||
  (overlaps && !(sz == 16 && h.spares.contains pfn)) || h.bad.any fun b => decide (pfn ≤ b.1) && decide (b.1 < pfn + frames)

/-- Translation of a module unit's own access: as `xlate`, but a miss is walked at once (log 19); a leaf that TLBW
would refuse translates nothing. -/
def xlateUnit (s : State) (c : Nat) (va : DWord) (a : Access) : Xlate :=
  match xlate s c 0 va a with
  | .miss home striped _ =>
    match ownerVh va with
    | none => .noHome
    | some (vh, _) =>
      match walk s c home vh striped (offOf va) with
      | none => .fault home 0x10
      | some (pa, sz, e) =>
        if leafBad s home sz striped e then .fault home 0x10
        else if permits (natb (e / 4)) (natb (e / 8)) (natb (e / 16)) a then
          .ok home (home * Config.stackBytes + pa + offOf va % 2 ^ sz)
        else .fault home 0x11
  | r => r

/-- The walk that a module unit makes for an address meets a table entry with some property. -/
def walkMeets (held : Nat → Bool) (s : State) (c : Nat) (va : DWord) : Bool :=
  match ownerVh va with
  | none => false
  | some (vh, striped) => match vhHome s c vh, (ctxOf c s).vdt with
    | some home, some t =>
      if (tlbFind (homeOf home s) c striped (offOf va)).isSome then false
      else match nth none (if striped then t.sroots else t.roots) vh with
      | none => false
      | some root => (walkKeys s home (offOf va) [(39, 11), (30, 9), (21, 9), (16, 5)] root).any held
    | _, _ => false

/-- The physical sector of a byte, its line and its home. -/
def sectorOf (k : Nat) : Nat := k / 32
/-- The physical line of a byte. -/
def lineOf (k : Nat) : Nat := k / 128
/-- The home of a physical byte. -/
def homeOfKey (k : Nat) : Nat := k / Config.stackBytes

/-- The frame of a physical byte is bound to a published or retiring image (15 R349). -/
def boundFrame (s : State) (k : Nat) : Bool :=
  (homeOf (homeOfKey k) s).bound.any fun b => b.1 == k % Config.stackBytes / 65536

/-- Change every die. -/
def mapDies (f : Die → Die) (s : State) : State := { s with die := f s.die, dies := s.dies.map f }
/-- Change every core. -/
def mapCores (f : Core → Core) (s : State) : State := { s with core := f s.core, cores := s.cores.map f }
/-- Change every gang. -/
def mapGangs (f : Gang → Gang) (s : State) : State := { s with gang := f s.gang, gangs := s.gangs.map f }
/-- Change every block. -/
def mapBlocks (f : Block → Block) (s : State) : State := { s with block := f s.block, blocks := s.blocks.map f }

/-- The dirty bitmap's byte and bit of a physical byte (16 R357). -/
def dirtyBit (k : Nat) : Nat × Nat :=
  let pa := k % Config.stackBytes
  (homeOfKey k * Config.stackBytes + Config.reservedBase + 0x00100000 + 64 * (pa / 2 ^ 21) + pa / 2 ^ 12 % 512 / 8, pa / 2 ^ 12 % 8)

/-- A 64-bit maximum. -/
def max64 (a b : DWord) : DWord := if a.toNat ≤ b.toNat then b else a

/-- Write time of a physical line, and the latest end of a read lease granted for it (11 R250). -/
def wtOf (s : State) (l : Nat) : DWord := look (homeOf (homeOfKey (128 * l)) s).wt l
/-- The latest end of a read lease granted for a line (11 R250). -/
def rlOf (s : State) (l : Nat) : DWord :=
  ((homeOf (homeOfKey (128 * l)) s).rl.filter fun x => x.1 / 256 == l).foldl (fun m x => max64 m x.2) 0

/-- Write times of the held entries of a line, or of a team-scratch sector of the die in focus (11 R253). -/
def heldTimes (s : State) (ts : Bool) (n : Nat) : List Nat :=
  (allCores s).flatMap fun c => (c.muck.filter fun e => e.writes && e.ts == ts && e.remote.isNone && (!ts || c.die == s.core.die) &&
    (if ts then e.sector == n else e.sector / 4 == n)).map (·.wtime)

/-- A write of the module's own units, of an engine or of a peer that stands at a logical time takes a later time, and one later than every
lease and write of its lines, held ones too (11 R252, R257, R258); the state has that time for the lines, and the latest is told. -/
def stampLines (t : DWord) (cells : List (Nat × Byte)) (s : State) : DWord × State :=
  (uniq (cells.map fun c => lineOf c.1)).foldl (fun (r : DWord × State) l =>
    let w := max64 (max64 t (BitVec.ofNat 64 ((heldTimes r.2 false l).max?.getD 0))) (max64 (wtOf r.2 l) (rlOf r.2 l)) + 1
    (max64 r.1 w, modHome (homeOfKey (128 * l)) (fun h => { h with wt := put h.wt l w }) r.2)) (t, s)

/-- Set bits of a byte as one atomic OR of the order, later than every lease and store of its line (16 R357): the bytes that held entries have
still to write take the bits too, so that none of them loses what the OR has set. -/
def orByte (k : Nat) (m : Byte) (s : State) : State :=
  let s := (stampLines 0 [(k, 0)] s).2
  let held := fun (e : Held) => if e.ts || e.remote.isSome then e else { e with bytes := e.bytes.map fun c => if c.1 = k then (k, c.2 ||| m) else c }
  mapCores (fun c => { c with muck := c.muck.map held }) { s with mem := put s.mem k (look s.mem k ||| m) }

/-- Write a home-cache line back to its stack, which sets its bit of the dirty bitmap (10 R243, 16 R357). -/
def homeWriteBack (line : Nat) (s : State) : State :=
  let h := homeOfKey (128 * line)
  if (homeOf h s).dirty.any (fun c => c.1 / 4 == line) then
    let (k, b) := dirtyBit (128 * line)
    let held := fun (sec : Nat) => (allDies s).any fun d => d.dirty.any fun c => c.1 == sec
    let s := modHome h (fun x => { x with
      dirty := x.dirty.filter (fun c => c.1 / 4 != line), writers := x.writers.filter fun w => w.1 / 4 != line || held w.1 }) s
    orByte k (1 <<< b) s
  else s

/-- The home-cache slice of a physical byte (10 R233). -/
def sliceOf (k : Nat) : Nat := fld k 7 3

/-- Lines of a home-cache slice: 64 MiB in 8 slices of 128-byte lines (10 R230). -/
def sliceLines : Nat := 65536

/-- The home cache holds a line, the most recent of its slice; the least recent leaves a full slice, and is written back (10 R230,
R243; log 12). -/
def homeTouch (l at' : Nat) (s : State) : State :=
  let h := homeOf (homeOfKey (128 * l)) s
  match h.lines.find? fun x => x.line == l with
  | some x => modHome h.home (fun h => { h with lines := x :: h.lines.filter fun y => y.line != l }) s
  | none =>
    let mine := h.lines.filter fun x => sliceOf (128 * x.line) == sliceOf (128 * l)
    let out := if sliceLines ≤ mine.length then mine.getLast? else none
    let s := match out with
      | some v => homeWriteBack v.line s
      | none => s
    modHome h.home (fun h => { h with lines := ⟨l, at'⟩ :: h.lines.filter fun y => some y.line != out.map (·.line) }) s

/-- The home cache takes a sector as dirty, remembering what the stack holds, unless it is dirty already (10 R243). -/
def homeDirty (c : Nat × List Byte) (s : State) : State :=
  let s := homeTouch (c.1 / 4) s.clk s
  modHome (homeOfKey (32 * c.1)) (fun h => if h.dirty.any (fun x => x.1 == c.1) then h else { h with dirty := c :: h.dirty }) s

/-- A poisoned sector has been written back: its home owes a record of KIND 5 (10 R237, 16 R365). -/
def notePoison (x : Nat) (s : State) : State :=
  if s.poison.contains x then
    let h := homeOfKey (32 * x)
    modHome h (fun y => { y with owed := y.owed ++ [⟨h, 0, 5, 0x32, 0, 0, 0, BitVec.ofNat 64 (32 * x % Config.stackBytes), 0, []⟩] }) s
  else s

/-- Write back to their homes the dirty die-cache sectors that meet a test (10 R237). -/
def writeBack (p : Nat → Nat → Bool) (s : State) : State :=
  let out := (allDies s).flatMap fun d => d.dirty.filter fun c => p d.die c.1
  out.foldl (fun s c => notePoison c.1 (homeDirty c s)) (mapDies (fun d => { d with dirty := d.dirty.filter fun c => !p d.die c.1 }) s)

/-- The ways that a die cache may fill: those that team scratch does not hold and no growing re-partition takes; a shrinking one gives its
ways back at its effect (10 R238, R239). -/
def fillWays (d : Die) : Nat := 16 - match d.repart with
  | some r => r.new
  | none => d.wayp

/-- A die-cache line leaves; its dirty sectors go to their home (10 R237). The die is in focus. -/
def evictDie (l : Nat) (s : State) : State :=
  let d := s.die.die
  modDie (fun y => { y with lines := y.lines.filter fun x => x.line != l }) (writeBack (fun e x => e == d && x / 4 == l) s)

/-- The way that a new line of a die cache takes, and the line that leaves it: the lowest free way of its set, else the way of the
least recent line, a streamed one before the others (10 R230, 12 R272; log 12). -/
def dieRoom (d : Die) (l : Nat) : Nat × Option Nat :=
  let set := d.lines.filter fun x => x.line % 8192 == l % 8192 && decide (x.way < fillWays d)
  match (List.range (fillWays d)).find? fun w => !set.any fun x => x.way == w with
  | some w => (w, none)
  | none => (((set.filter (·.low)).getLast?).or set.getLast?).elim (0, none) fun v => (v.way, some v.line)

/-- The die cache of the die in focus holds a sector from a clk on, as its most recent line, with a lease granted for the line
(10 R237, 11 R252); a service core's accesses reach its home without one. A line in a way that a growing re-partition takes serves what it
holds, and takes no other sector (10 R239). -/
def dieTouch (x at' : Nat) (lease : DWord) (low : Bool) (s : State) : State :=
  let l := x / 4
  if 128 ≤ s.die.die then s
  else match s.die.lines.find? fun y => y.line == l with
  | some y => modDie (fun d => { d with lines := { y with
      sects := if y.sects.any (fun z => z.1 == x) || decide (fillWays s.die ≤ y.way) then y.sects else (x, at') :: y.sects,
      lease := if y.lease.toNat ≤ lease.toNat then lease else y.lease, low := y.low && low } :: d.lines.filter fun z => z.line != l }) s
  | none =>
    let (w, out) := dieRoom s.die l
    let s := match out with
      | some v => evictDie v s
      | none => s
    modDie (fun d => { d with lines := ⟨l, w, [(x, at')], lease, low⟩ :: d.lines }) s

/-- Where a physical byte is also written while a frame migrates: the spare, once its line is copied (16 R368). -/
def mirror (s : State) (k : Nat) : Option Nat :=
  match (homeOf (homeOfKey k) s).mig with
  | some m => if k % 65536 / 128 < m.lines ∧ k % Config.stackBytes / 65536 = m.old then some (homeOfKey k * Config.stackBytes + m.spare * 65536 + k % 65536) else none
  | none => none

/-- Write physical bytes: each to its place, and to the spare of a migrating frame (16 R368). A poisoned sector all of
whose bytes are written is poisoned no longer (10 R237). -/
def physWrite (cells : List (Nat × Byte)) (s : State) : State :=
  let more := cells.filterMap fun c => (mirror s c.1).map fun k => (k, c.2)
  let whole := fun (x : Nat) => (List.range 32).all fun i => cells.any fun c => c.1 == 32 * x + i
  let s := (uniq (more.map fun c => sectorOf c.1)).foldl (fun s x => homeDirty (x, readBytes s.mem (32 * x) 32) s) s
  { s with mem := putAll s.mem (cells ++ more), poison := s.poison.filter fun x => !whole x }

/-- The sectors of a list of bytes, each once. -/
def sectorsOf (cells : List (Nat × Byte)) : List Nat := uniq (cells.map fun c => sectorOf c.1)

/-- A die's write to global memory: its die cache holds the sectors dirty, and every other die's dirty copy goes to the
home first (10 R237); a service core writes at its home. A line that a streaming store brings in is replaced first (12 R272). -/
def dieStore (d : Nat) (cells : List (Nat × Byte)) (s : State) (low : Bool := false) : State :=
  let sects := sectorsOf cells
  let s := writeBack (fun e x => e != d && sects.contains x) s
  let old := sects.map fun x => (x, readBytes s.mem (32 * x) 32)
  let s :=
    if 128 ≤ d then old.foldl (fun s c => homeDirty c s) s
    else onDie d (fun s => modDie (fun y => { y with dirty := (old.filter fun c => !y.dirty.any fun e => e.1 == c.1) ++ y.dirty })
      (sects.foldl (fun s x => dieTouch x s.clk 0 low s) s)) s
  physWrite cells s

/-- Note the launch whose store or copy wrote bytes (10 R246). -/
def noteWriter (name : Nat) (cells : List (Nat × Byte)) (s : State) : State :=
  (sectorsOf cells).foldl (fun s x => modHome (homeOfKey (32 * x)) (fun h =>
    { h with writers := if h.writers.contains (x, name) then h.writers else (x, name) :: h.writers }) s) s

/-- The latest value that a block's held entries give a byte (11 R253). -/
def heldByte (muck : List Held) (b : BlockKey) (ts : Bool) (k : Nat) : Option Byte :=
  muck.foldl (fun r e => if e.blk = b ∧ e.ts = ts ∧ e.remote = none then
    match e.bytes.find? fun c => c.1 == k with
    | some c => some c.2
    | none => r
    else r) none

/-- A byte of global memory or team scratch as the block of the gang in focus sees it (11 R248, R253). -/
def viewByte (s : State) (ts : Bool) (k : Nat) : Byte :=
  match heldByte s.core.muck s.gang.blk ts k with
  | some b => b
  | none => if ts then look s.die.ts k else look s.mem k

/-- `n` bytes as the block of the gang in focus sees them. -/
def viewBytes (s : State) (ts : Bool) (k n : Nat) : List Byte := (List.range n).map fun i => viewByte s ts (k + i)

/-- The valid copy that the L1 of the core in focus holds of a byte's sector at a logical time: its bytes (11 R252). -/
def l1Copy (s : State) (t : DWord) (k : Nat) : Option (List Byte) :=
  (s.core.l1.find? fun x => x.line == lineOf k && decide (t.toNat ≤ x.lease.toNat)).bind fun x =>
    (x.sects.find? fun y => y.1 == sectorOf k).map (·.2.2)

/-- A byte of global memory as a load of the gang in focus finds it: forwarded from its block's held entries, else in a valid copy,
else as memory stands (11 R252, R253). -/
def loadByte (s : State) (k : Nat) : Byte :=
  match heldByte s.core.muck s.gang.blk false k with
  | some b => b
  | none => match l1Copy s s.core.lclk k with
    | some bs => bs.getD (k % 32) 0
    | none => look s.mem k

/-- A held entry of another party makes an access of these bytes wait: a load at a logical time not below the entry's
write time, an atomic (no time) at any (11 R253). Of the entries of the other replicas of its own block those alone make it wait that
have matched and will be written (log 20). -/
def heldElsewhere (s : State) (ts : Bool) (k n : Nat) (t : Option DWord) : Bool :=
  (allCores s).any fun c => (!ts || c.die == s.core.die) && c.muck.any fun e =>
    e.writes && e.ts == ts && e.remote.isNone && e.blk != s.gang.blk &&
    (e.matched || !(e.blk.name == s.gang.blk.name && e.blk.idx == s.gang.blk.idx)) &&
    (match t with | some t => decide (e.wtime ≤ t.toNat) | none => true) && e.bytes.any fun b => decide (k ≤ b.1) && decide (b.1 < k + n)

/-- A held entry of any party touches these bytes, so an access of the module's own units or of a peer waits (11 R253, R258). -/
def heldAny (s : State) (k n : Nat) : Bool :=
  (allCores s).any fun c => c.muck.any fun e =>
    e.writes && !e.ts && e.remote.isNone && e.bytes.any fun b => decide (k ≤ b.1) && decide (b.1 < k + n)

/-- A module unit's walk meets a table entry that a held store writes: the reads of a walk wait for its release (11 R260). -/
def unitWaits (s : State) (c : Nat) (va : DWord) : Bool := walkMeets (fun k => heldAny s k 8) s c va

/-- A held entry makes a load of these bytes by a party of its own at a logical time wait (11 R253, R258). -/
def heldBefore (s : State) (k n : Nat) (t : DWord) : Bool :=
  (allCores s).any fun c => c.muck.any fun e =>
    e.writes && !e.ts && e.remote.isNone && decide (e.wtime ≤ t.toNat) && e.bytes.any fun b => decide (k ≤ b.1) && decide (b.1 < k + n)

/-- The home records a read lease of a line that it grants to a die (11 R252). -/
def grantLease (l d : Nat) (fin : DWord) (s : State) : State :=
  modHome (homeOfKey (128 * l)) (fun h => { h with rl := put h.rl (256 * l + d % 256) (max64 (look h.rl (256 * l + d % 256)) fin) }) s

/-- A read lease of a physical byte is granted to a die through the TLB entry that translated it, the most recent that covers it: the entry
holds by die the clk past which such leases have ended (16 R364). -/
def noteLease (k d till : Nat) (h : Home) : Home :=
  let covers := fun (e : TlbEntry) => e.remote.isNone && decide (e.pa ≤ k % Config.stackBytes) && decide (k % Config.stackBytes < e.pa + 2 ^ e.sz)
  let note := fun (l : List (Nat × Nat)) =>
    (d, max till (((l.find? fun x => x.1 == d).map (·.2)).getD 0)) :: l.filter fun x => x.1 != d
  match h.tlb.findIdx? covers with
  | some i => { h with tlb := h.tlb.modify i fun e => { e with leases := note e.leases } }
  | none => h

/-- The home of an address translates a request (16 R358): the entry that covers it becomes the most recent; a remote window is cached as a
leaf, whatever it answers (20 R431); a leaf that a unit of the module walks at once is installed (log 19). -/
def useEntry (unit : Bool) (c : Nat) (va : DWord) (s : State) : State :=
  if c = 0 then s
  else match ownerVh va with
  | none => s
  | some (vh, striped) => match vhHome s c vh with
    | none => s
    | some home =>
      let fresh := fun (e : TlbEntry) => modHome home (fun h => { h with tlb := (e :: h.tlb.filter (· != e)).take 16384 }) s
      match tlbFind (homeOf home s) c striped (offOf va) with
      | some e => fresh e
      | none =>
        if !striped ∧ fld (offOf va) 49 1 = 1 then (remoteLeaf s home c (offOf va)).elim s fresh
        else if !unit then s
        else match walk s c home vh striped (offOf va) with
        | none => s
        | some (pa, sz, e) => if leafBad s home sz striped e then s else
            fresh ⟨c, striped, offOf va / 2 ^ sz * 2 ^ sz, sz, pa, natb (e / 4), natb (e / 8), natb (e / 16), none, []⟩

/-- The logical time to which a load of a byte takes a core that stands at `t`: that at which the value was written, of a valid copy or
of the line (11 R251, R252). -/
def loadTime (s : State) (t : DWord) (k : Nat) : DWord :=
  match s.core.l1.find? fun x => x.line == lineOf k && (l1Copy s t k).isSome with
  | some x => max64 t x.wt
  | none => max64 t (wtOf s (lineOf k))

/-- The end of a lease granted at a logical time: LEASE ticks later, and below the time of a store that holds the line (11 R252,
R253). -/
def leaseEnd (s : State) (l : Nat) (t : DWord) : DWord :=
  let fin := t + BitVec.ofNat 64 (s.die.lease.toNat % 256)
  match ((heldTimes s false l).filter fun w => decide (t.toNat < w)).min? with
  | some w => if w ≤ fin.toNat then BitVec.ofNat 64 (w - 1) else fin
  | none => fin

/-- The lines of an L1 with one line at their head: 8 ways of 32 sets, the least recent of a full set leaves (10 R230; log 12). -/
def l1Put (x : L1Line) (ls : List L1Line) : List L1Line :=
  let rest := ls.filter fun y => y.line != x.line
  let set := rest.filter fun y => y.line % 32 == x.line % 32
  x :: if 8 ≤ set.length then rest.filter fun y => some y.line != (set.getLast?).map (·.line) else rest

/-- A sector is fetched with a lease for a core at a logical time (11 R252): into the L1 unless the load streams (12 R272), into the die cache
and at the home, where it counts as present from the clk in which the fetch completes (12 R287). A renewal brings the data that the line
has now to every sector that stays. -/
def fillLine (strm : Bool) (t : DWord) (lat k : Nat) (s : State) : State :=
  let l := lineOf k
  let wt := wtOf s l
  let fin := leaseEnd s l t
  let now := fun (x : Nat) => readBytes s.mem (32 * x) 32
  let keep := match s.core.l1.find? fun x => x.line == l with
    | some x => if x.wt = wt then (x.sects.filter fun y => y.1 != sectorOf k).map fun y => (y.1, y.2.1, now y.1) else []
    | none => []
  let new : L1Line := ⟨l, fin, wt, (sectorOf k, s.clk + lat, now (sectorOf k)) :: keep⟩
  let s := modCore (fun c => { c with l1 := if strm then c.l1.filter (fun x => x.line != l) else l1Put new c.l1 }) s
  let s := grantLease l s.core.die fin (homeTouch l (s.clk + lat) (dieTouch (sectorOf k) (s.clk + lat) fin strm s))
  modHome (homeOfKey k) (noteLease k s.core.die (s.clk + 64 * (s.die.lease.toNat % 256))) s

/-- A LOAD OF A LINE (11 R251, R252): a valid copy is read again; any other load takes the core to the line's write time and fetches the
sector with a lease. -/
def leaseLine (strm : Bool) (lat k : Nat) (s : State) : State :=
  let l := lineOf k
  match s.core.l1.find? fun x => x.line == l && (l1Copy s s.core.lclk k).isSome with
  | some x => modCore (fun c => { c with lclk := max64 c.lclk x.wt, l1 := l1Put x c.l1 }) s
  | none =>
    let t := max64 s.core.lclk (wtOf s l)
    fillLine strm t lat k (modCore (fun c => { c with lclk := t }) s)

/-- A sector prefetched into the L1 (12 R287): the core reads nothing, so that its lease ends LEASE ticks from the logical time at which
the core stands (11 R252, R254). -/
def prefLine (lat k : Nat) (s : State) : State := if (l1Copy s s.core.lclk k).isSome then s else fillLine false s.core.lclk lat k s

/-- A load reads these bytes in a poisoned sector (10 R237): none that its block's held entries forward, and none that a valid copy gives. -/
def readsPoison (s : State) (ks : List Nat) : Bool :=
  ks.any fun k => s.poison.contains (sectorOf k) && (heldByte s.core.muck s.gang.blk false k).isNone && (l1Copy s s.core.lclk k).isNone

/-- An atomic reads these bytes of global memory in a poisoned sector (10 R237): it finds them in no L1. -/
def atomPoison (s : State) (ks : List Nat) : Bool :=
  ks.any fun k => s.poison.contains (sectorOf k) && (heldByte s.core.muck s.gang.blk false k).isNone

/-- An access reads these bytes of team scratch in a poisoned word (10 R237, R238). -/
def teamPoison (s : State) (a n : Nat) : Bool :=
  (List.range n).any fun i => s.die.tsPoison.contains ((a + i) / 32) && (heldByte s.core.muck s.gang.blk true (a + i)).isNone

/-- A load of a team-scratch sector (11 R250, R251). -/
def touchSector (k : Nat) (s : State) : State :=
  let x := sectorOf k
  let t := max64 s.core.lclk (look s.die.tsw x)
  modDie (fun d => { d with tsr := put d.tsr x (max64 (look d.tsr x) t) }) (modCore (fun c => { c with lclk := t }) s)

/-- Some byte that a load takes, in order, lies at or past the time of another party's held entry (11 R253): keys and sizes of its
elements. -/
def loadWaits (s : State) (ts : Bool) (ks : List (Nat × Nat)) : Bool :=
  (ks.foldl (fun (r : DWord × Bool) x =>
    let t := if ts then max64 r.1 (look s.die.tsw (sectorOf x.1)) else loadTime s r.1 x.1
    (t, r.2 || heldElsewhere s ts x.1 x.2 (some t))) (s.core.lclk, false)).2

/-- The write time of a store: later than every lease and write of its lines or sectors, held ones too, and than the core's logical
time (11 R252, R253). -/
def writeTime (s : State) (ts : Bool) (cells : List (Nat × Byte)) : DWord :=
  let held := fun (n : Nat) => BitVec.ofNat 64 ((heldTimes s ts n).max?.getD 0)
  (if ts then (uniq (cells.map fun c => sectorOf c.1)).foldl (fun w x => max64 w (max64 (held x) (max64 (look s.die.tsw x) (look s.die.tsr x)))) s.core.lclk
    else (uniq (cells.map fun c => lineOf c.1)).foldl (fun w l => max64 w (max64 (held l) (max64 (wtOf s l) (rlOf s l)))) s.core.lclk) + 1

/-- A home's own write to its stack. -/
def homeStore (cells : List (Nat × Byte)) (s : State) : State :=
  dieStore (128 + homeOfKey ((cells.map (·.1)).headD 0)) cells (stampLines 0 cells s).2

/-- A write that takes its place now replaces the bytes that entries held from earlier have still to write (11 R248, R257, R259); the
counterparts of its own entry in the other replicas of its block stay (19 R416). -/
def trimHeld (ts : Bool) (d w : Nat) (own : Option BlockKey) (cells : List (Nat × Byte)) (s : State) : State :=
  let twin := fun (e : Held) => own.any fun b => e.blk.name == b.name && e.blk.idx == b.idx && e.blk.rep != b.rep
  let cut := fun (e : Held) => if e.ts == ts && e.remote.isNone && decide (e.wtime < w) && !twin e then
    { e with bytes := e.bytes.filter fun b => !cells.any fun c => c.1 == b.1 } else e
  mapCores (fun c => if ts && c.die != d then c else { c with muck := c.muck.map cut }) s

/-- A WAITV that waits on one of these words of core scratch, or sectors of team scratch, loads again (12 R282). -/
def wakeValues (on : WaitSpace) (p : Gang → Bool) (keys : List Nat) (s : State) : State :=
  let turn := fun (e : SplitEntry) => match e.wait with
    | .value o key _ ext held => if o = on ∧ keys.contains key then { e with wait := .value o key 0 ext held } else e
    | _ => e
  mapGangs (fun g => if g.live && p g then { g with split := g.split.map turn } else g) s

/-- Stores to team scratch of the die in focus have been performed, or released: who waits on their sectors loads again (12 R282). -/
def wakeTeam (sects : List Nat) (s : State) : State := wakeValues .ts (fun g => g.key.die == s.die.die) sects s

/-- Sectors of team scratch all of whose bytes a write covers are poisoned no longer (10 R237, R238). -/
def cleanTeam (cells : List (Nat × Byte)) (d : Die) : Die :=
  { d with tsPoison := d.tsPoison.filter fun x => !(List.range 32).all fun i => cells.any fun c => c.1 == 32 * x + i }

/-- The bytes of team scratch that its ways hold: while a shrink runs, accesses issued before it complete into the ways that it gives back
(10 R238, R239). -/
def teamRoom (d : Die) : Nat := match d.repart with
  | some r => max d.tsize (r.old * 2 ^ 20)
  | none => d.tsize

/-- Bytes of team scratch of the die in focus, written in their place; those whose ways have gone are dropped (10 R238, R239). -/
def teamStore (cells : List (Nat × Byte)) (s : State) : State :=
  wakeTeam (sectorsOf cells) (modDie (fun d => cleanTeam cells { d with ts := putAll d.ts (cells.filter fun c => decide (c.1 < teamRoom d)) }) s)

/-- The quarantine buffer of the core in focus can take `n` more entries (12 R270). -/
def muckRoom (s : State) (n : Nat) : Bool := decide (s.core.muck.length + n ≤ Config.muckSize)

/-- Hold a write of the gang in focus: one entry a sector, at one write time (11 R253, 12 R270). `id` is the gang's
outstanding entry; `single` says that no vote must match before it is released (19 R416). -/
def holdWrite (ts : Bool) (cells : List (Nat × Byte)) (id : Option Nat) (idem : Option Bool) (s : State) : State :=
  let w := writeTime s ts cells
  let single := decide (s.block.nrep < 2) || idem.isSome
  let seq := fun (x : Nat) => if idem.isSome then none else some (s.gang.gno, s.gang.holds + (sectorsOf cells).idxOf x)
  let es := (sectorsOf cells).map fun x => (⟨ts, x, cells.filter fun c => sectorOf c.1 == x, w.toNat, s.clk, s.gang.key,
    s.gang.blk, id, idem, single, single || s.block.repl == 0 || ts, none, if ts then 0 else homeOfKey (32 * x), false, s.nextTag, false, seq x⟩ : Held)
  let s := if idem.isSome then s else modGang (fun g => { g with holds := g.holds + es.length }) s
  let s := if ts then wakeTeam (sectorsOf cells) s else s
  modCore (fun c => { c with muck := c.muck ++ es, lclk := max64 c.lclk w }) s

/-- Mark parts of an outstanding entry of the gang in focus as complete; when none is left, its results are written and
it retires behind every older entry of its class (17 R375). -/
def completePart (id n : Nat) (s : State) : State :=
  match s.gang.pend.find? fun p => p.id == id with
  | none => s
  | some p =>
    if n < p.parts then
      modGang (fun g => { g with pend := g.pend.map fun q => if q.id = id then { q with parts := q.parts - n } else q }) s
    else
      let s := p.writes.foldl (fun s w => applyWrite w s) s
      modGang (fun g => { g with pend := g.pend.map fun q => if q.id = id then { q with parts := 0, fin := true, writes := [] } else q }) s

/-- Remove every complete entry that no older incomplete entry of its class precedes (17 R375). -/
def retireDone : List Pend → List Cls → List Pend
  | [], _ => []
  | p :: t, open' =>
    if p.fin ∧ (p.cls = .none ∨ ¬open'.contains p.cls) then retireDone t open'
    else p :: retireDone t (p.cls :: open')

/-- Retire the entries of the gang in focus, and note their classes for the rest of the clk (17 R375). -/
def retireGang (s : State) : State :=
  modGang (fun g =>
    let kept := retireDone g.pend []
    { g with pend := kept, late := g.late ++ (g.pend.filter fun p => p.cls != .none && !kept.any fun q => q.id == p.id).map (·.cls) }) s

/-- Entries of a class that have not retired: the outstanding counter (17 R375). -/
def counter (g : Gang) (c : Cls) : Nat := (g.pend.filter fun p => p.cls == c).length

/-- Clk from a die to a home and back over the bridges, with the home cache's 40 (12 R277). -/
def homeTrip (d h : Nat) : Nat := 64 + 2 * Config.hop * meshDist (dieSite d) (homeSite h) + 40

/-- A released entry reaches the copies of its line that were filled while it was held, at logical times from its own on: every copy whose
lease ends there or later, of any core (10 R236, 11 R252, R253). A copy granted before the store is of an earlier time, and stays. -/
def patchL1 (w : Nat) (cells : List (Nat × Byte)) (s : State) : State :=
  let fix := fun (y : Nat × Nat × List Byte) =>
    (y.1, y.2.1, (List.range 32).map fun i => ((cells.find? fun c => c.1 == 32 * y.1 + i).map (·.2)).getD (y.2.2.getD i 0))
  let lines := uniq (cells.map fun c => lineOf c.1)
  let turn := fun (x : L1Line) => if lines.contains x.line && decide (w ≤ x.lease.toNat) then
    { x with wt := max64 x.wt (BitVec.ofNat 64 w), sects := x.sects.map fix } else x
  mapCores (fun c => { c with l1 := c.l1.map turn }) s

/-- Write one released entry to its memory (18 R398): team scratch, or global memory with its line's write time; bytes of entries of
earlier times that it writes too have gone before it. -/
def landHeld (e : Held) (s : State) : State :=
  let s := trimHeld e.ts s.core.die e.wtime (some e.blk) e.bytes s
  let w := BitVec.ofNat 64 e.wtime
  if e.ts then
    wakeTeam [e.sector] (teamStore e.bytes (modDie (fun d => { d with tsw := put d.tsw e.sector (max64 (look d.tsw e.sector) w) }) s))
  else
    let who := if e.trump then 128 + e.home else s.core.die
    let s := patchL1 e.wtime e.bytes (noteWriter e.blk.name e.bytes (dieStore who e.bytes s e.strm))
    modHome (homeOfKey (32 * e.sector)) (fun h => { h with
      wt := put h.wt (e.sector / 4) (max64 (look h.wt (e.sector / 4)) w) }) s

/-- The held entries of a block that are no longer wanted, discarded; returns the core without them (18 R398). -/
def discardHeld (p : Held → Bool) (s : State) : State :=
  let tags := (allCores s).flatMap fun c => (c.muck.filter p).flatMap fun e => (e.remote.map fun r => r.2.map (·.1)).getD []
  let s := { s with remotes := s.remotes.filter fun r => !tags.contains r.tag }
  mapCores (fun c => perfAdd 20 0 (c.muck.filter p).length { c with muck := c.muck.filter fun e => !p e }) s

/-- Little-endian bytes at a place. -/
def cellsAt (k : Nat) (bs : List Byte) : List (Nat × Byte) := ((List.range bs.length).zip bs).map fun c => (k + c.1, c.2)

/-- A unit's read of `n` bytes of a context's memory (log 19). -/
def unitRead (s : State) (c : Nat) (va : DWord) (n : Nat) : Option (List Byte) :=
  match xlateUnit s c va .load with
  | .ok _ k => some (readBytes s.mem k n)
  | _ => none

/-- A unit's write of bytes of a context's memory (log 19), at a later time than `t`; a home refuses it in a bound frame (15 R349). -/
def unitWrite (c : Nat) (va : DWord) (bs : List Byte) (s : State) (t : DWord := 0) : Option State :=
  match xlateUnit s c va .store with
  | .ok h k => if boundFrame s k then none else some (dieStore (128 + h) (cellsAt k bs) (stampLines t (cellsAt k bs) (useEntry true c va s)).2)
  | _ => none

/-- Add to a little-endian 64-bit word of a context's memory as one atomic of the order, at a later time than `t`; none where it cannot be
reached. -/
def unitAdd (c : Nat) (va : DWord) (n : Nat) (s : State) (t : DWord := 0) : Option State :=
  match unitRead s c va 8 with
  | none => none
  | some b => unitWrite c va (leBytes 8 ((leNat b + n) % 2 ^ 64)) s t

/-- Physical byte of an offset in a home's reserved region (16 R353). -/
def reservedAt (h off : Nat) : Nat := h * Config.stackBytes + Config.reservedBase + off

/-- TAIL and HEAD of a home's fault queue (16 R353). -/
def fqTail (s : State) (h : Nat) : Nat := leNat (readBytes s.mem (reservedAt h 0x40000) 4)
/-- HEAD of a home's fault queue (16 R353). -/
def fqHead (s : State) (h : Nat) : Nat := leNat (readBytes s.mem (reservedAt h 0x40008) 4)

/-- The home's fault queue is full: TAIL − HEAD is 4,096 (16 R365). -/
def fqFull (s : State) (h : Nat) : Bool := (fqTail s h + 2 ^ 32 - fqHead s h) % 2 ^ 32 == 4096

/-- The 64 bytes of a home fault record (16 R365). -/
def faultRecord (f : HomeFault) (vd core part slot : Nat) : List Byte :=
  [BitVec.ofNat 8 f.kind, BitVec.ofNat 8 f.code, BitVec.ofNat 8 f.flags, 0] ++ leBytes 2 vd ++ leBytes 2 core ++
  [BitVec.ofNat 8 part, BitVec.ofNat 8 slot] ++ leBytes 2 f.ctx.toNat ++ leBytes 4 f.pos.toNat ++ leBytes 8 f.addr.toNat ++
  leBytes 4 f.mask.toNat ++ leBytes 4 0 ++ ((f.data ++ List.replicate 32 0).take 32)

/-- The home appends a fault record at TAIL (16 R365), remembering whose it is. -/
def appendFault (f : HomeFault) (k : GangKey) (vd core part slot : Nat) (inc : BitVec 16) (s : State) : State :=
  let t := fqTail s f.home
  let s := homeStore (cellsAt (reservedAt f.home (64 * (t % 4096))) (faultRecord f vd core part slot)) s
  let s := homeStore (cellsAt (reservedAt f.home 0x40000) (leBytes 8 ((t + 1) % 2 ^ 32))) s
  if f.kind ≤ 3 then modHome f.home (fun h => { h with live := (t % 4096, f, k, inc) :: h.live.filter fun x => x.1 != t % 4096 }) s else s

/-- Append a record to one of the die rings in context-0 memory; one that finds its ring full is dropped (18 R396). -/
def appendDie (base : DWord) (rec : List Byte) (s : State) : State :=
  match xlate s 0 0 base .store with
  | .ok h k =>
    let t := leNat (readBytes s.mem (k + 0x40000) 4)
    let hd := leNat (readBytes s.mem (k + 0x40008) 4)
    if (t + 2 ^ 32 - hd) % 2 ^ 32 = 4096 then s
    else dieStore (128 + h) (cellsAt (k + 0x40000) (leBytes 8 ((t + 1) % 2 ^ 32))) (dieStore (128 + h) (cellsAt (k + 64 * (t % 4096)) rec) s)
  | _ => s

/-- The VD number of a die in context 0 (16 R352), by which fault records name requesters. -/
def vdZero (s : State) (d : Nat) : Nat := if 128 ≤ d then d + 128 else ((enabledDies s).takeWhile (· != d)).length

/-- The record of a die ring, laid out as a home fault record (18 R396). -/
def dieRecord (s : State) (kind code flags : Nat) (g : Gang) (pos : Word) (addr : DWord) (info : Word) : List Byte :=
  faultRecord ⟨0, 0, kind, code, flags, g.ctx, pos, addr, info, []⟩ (vdZero s g.key.die) g.key.core g.key.part g.key.slot

end Sys2Proof.Machine
end

