-- ==== Sys2Proof/Machine/Pick.lean ====
section
/-! DEFINITION. Fetching (04 R89, 15 R349), and which fragment issues next (13 R306): the fragments of the gangs, what keeps one
from issuing, and their ranks. -/

namespace Sys2Proof.Machine

/-- The version of a code position, in the context of the gang in focus (15 R331, R346). -/
def verOf (s : State) (c n : Nat) : Option Ver := (ctxOf c s).vers.find? fun v => decide (v.num = n)

/-- Physical byte of a word of a version's image: in its bound frames once published, which were tested for X as they were bound, else where
its address translates with X (15 R349, 16 R356). -/
def codeByte (s : State) (c : Nat) (v : Ver) (off : Nat) : Option Nat :=
  match v.frames[4 * off / 65536]? with
  | some f => some (f * 65536 + 4 * off % 65536)
  | none =>
    match xlateUnit s c (v.base + BitVec.ofNat 64 (4 * off)) .fetch with
    | .ok _ k => some k
    | _ => none

/-- The word at a code position; none where the image has ended (04 R88, 15 R334). -/
def fetchWord (s : State) (c : Nat) (pos : Word) : Option Nat :=
  match verOf s c (pos.toNat / 2 ^ 20) with
  | none => none
  | some v =>
    if v.words ≤ pos.toNat % 2 ^ 20 then none
    else (codeByte s c v (pos.toNat % 2 ^ 20)).map fun k => leNat (readBytes s.mem k 4)

/-- A role may issue clauses of a class (02 R44). -/
def roleMay (r : Role) (cls : Nat) : Bool :=
  match cls with
  | 2 => r == .matrix
  | 3 => r == .copy
  | _ => true

/-- The outstanding counters as they stand are at or below thresholds for LD, ST, CP and TL (17 R377). -/
def countersNow (g : Gang) (ld st cp tl : Nat) : Bool :=
  decide (counter g .ld ≤ ld) && decide (counter g .st ≤ st) && decide (counter g .cp ≤ cp) && decide (counter g .tl ≤ tl)

/-- As `countersNow`, for a wait that is made in this clk: it still counts the entries that retire in it (17 R375). -/
def countersAt (g : Gang) (ld st cp tl : Nat) : Bool :=
  let seen := fun (c : Cls) => counter g c + (g.late.filter (· == c)).length
  decide (seen .ld ≤ ld) && decide (seen .st ≤ st) && decide (seen .cp ≤ cp) && decide (seen .tl ≤ tl)

/-- A wait code of a clause header (04 R87): its threshold; 63 waits for nothing. -/
def waitCode (c : Nat) : Nat := match c with
  | 0 => 0
  | 1 => 1
  | 2 => 3
  | _ => 63

/-- The waits of a clause header are met (04 R87). -/
def headerMet (g : Gang) (h : Word) : Bool :=
  let t := fun (pos : Nat) => waitCode (fld h.toNat pos 2)
  countersAt g (t 15) (t 17) (t 19) (t 21)

/-- Who waits for the end of a phase goes on in the clk after it, so that its next instruction is eligible 2 clk after the arrival that
completes the phase (17 R380, log 83). -/
def Barrier.holds (b : Barrier) (ph : BitVec 16) (clk : Nat) : Bool := b.ph == ph || (b.ph == ph + 1 && decide (clk ≤ b.fin))

/-- The kitty bits, with the full masks `full`, do not allow a gang to read and write these lane registers yet (02 R48). -/
def kittyShut (g : Gang) (full : SMap 32) (rd wr : List Nat) (m : Word) : Bool :=
  (rd.any fun r => match kittyIx g r with
    | some i => look full i &&& m != m
    | none => false) ||
  (wr.any fun r => match kittyIx g r with
    | some i => look full i &&& m != 0
    | none => false)

/-- The die-local number of a gang's own launch (13 R302). -/
def lrefOf (s : State) (g : Gang) : Nat :=
  (((launchOf g.blk.name s).bind fun l => l.lrefs.find? fun x => x.1 == g.key.die).map (·.2)).getD 0

/-- What a slice of a gang waits for has come, or it waits for nothing: its wait has ended, whether or not its instruction has gone on
since (17 R382). A WAITV's ends with its load, and one at REGANG or IDEM with the last of its set. -/
def waitOver (s : State) (g : Gang) (e : SplitEntry) : Bool :=
  match e.wait with
  | .none => true
  | .header => headerMet g (BitVec.ofNat 32 ((fetchWord s g.ctx.toNat e.pc).getD 0))
  | .counters ld st cp tl => countersNow g ld st cp tl
  | .bar n ph _ => !(blockOf g.blk s).any fun b => (nth Barrier.reset b.bars n).ph == ph
  | .value .. => false
  | .ring n want =>
    let r := nth Ring.reset (coreOf g.key.die g.key.core s).rings n
    match want with
    | some (i, t) => nth 0 r.phases i != t
    | none => decide (r.free ≠ 0)
  | .kitty rd wr m => !(blockOf g.blk s).any fun b => kittyShut g b.kfull rd wr m
  | .regang => false
  | .grow _ granted _ => granted
  | .task _ own => own && (coreOf g.key.die g.key.core s).taskq.any fun t => t.prov.isNone && t.lref == lrefOf s g

/-- The instruction of a slice has taken its issue and ends by itself, without another: WAIT, BAR and GROW (17 R377, R380, 09 R219). -/
def SplitEntry.stands (e : SplitEntry) : Bool := match e.wait with
  | .counters .. => true
  | .bar .. => true
  | .grow .. => true
  | _ => false

/-- The gang belongs to a supervisor crew (13 R307). -/
def isCrew (s : State) (g : Gang) : Bool := ((launchOf g.blk.name s).bind (·.crewOf)).isSome

/-- Two slices belong to one fragment (02 R33): ready, with the same position, FU and wait. -/
def sameFrag (a b : SplitEntry) : Bool :=
  decide (a.st = .ready) && decide (b.st = .ready) && a.pc == b.pc && a.fu == b.fu && a.ix == b.ix && a.left == b.left && a.wait == b.wait

/-- The fragments of a gang, by their lowest slice. -/
def fragsOf (g : Gang) : List (Nat × BitVec 8) :=
  (List.range g.slices).filterMap fun k =>
    let fr := sliceSet fun j => decide (j < g.slices) && sameFrag (entryOf g k) (entryOf g j)
    if fr.getLsbD k ∧ lowSlice fr = k then some (k, fr) else none

/-- The gang's block is the source or the loser of a resynchronisation and has stopped (19 R418); a gang whose trick has matched
first goes past its release point, and a parked load completes. -/
def imageStops (s : State) (g : Gang) : Bool :=
  (match g.rel with | .matched .. => false | _ => true) && g.redo.isNone && s.resyncs.any fun r =>
    r.dst == g.blk || (r.src == g.blk && (match r.image with
      | none => !(blockOf r.dst s).any fun b => b.st == .flushed
      | some i => decide (s.clk < i.resume)))

/-- The gang's fragments may issue (13 R306), but for an issue of its partition in this clk: it is not parked, halted, leaving or at a
release point, and its core is not offline (01 R20). -/
def gangAble (s : State) (g : Gang) : Bool :=
  let c := coreOf g.key.die g.key.core s
  let p := nth Part.reset c.parts g.key.part
  g.live && c.ports != 3 && g.park.isNone && !g.leaving && (!p.halted || p.stepping) && decide (c.pause ≤ s.clk) &&
  (match g.rel with | .sent .. => false | _ => true) && !imageStops s g &&
  (match blockOf g.blk s with | some b => b.st == .resident | none => true)

/-- The gang's fragments may issue in this clk. -/
def gangRuns (s : State) (g : Gang) : Bool := gangAble s g && !s.spent.contains (g.key.die, g.key.core, g.key.part)

/-- Place of a partition in the rotation of the special-function unit of a core (07 R184). -/
def sfuTurn (c : Core) (p : Nat) : Nat := (p + 3 - c.sfuLast) % 4

/-- Rank of a fragment among all candidates: lower goes first (13 R306, 07 R184, 08 R209). -/
def rankOf (s : State) (g : Gang) (k : Nat) : List Nat :=
  let e := entryOf g k
  let c := coreOf g.key.die g.key.core s
  let p := nth Part.reset c.parts g.key.part
  let yielded := p.yld
  let turn := if c.sfuAsk.contains (g.key, k) then 4 + sfuTurn c g.key.part else (g.key.part + 4 - (s.clk - c.born) % 4) % 4
  [g.key.die, g.key.core, turn, if p.skip = some (g.key.slot, k, s.clk) then 1 else 0] ++
  (match e.boost with | some b => [0, b] | none => [1, 0]) ++
  [if p.last = some (g.key.slot, k) ∧ !yielded then 0 else 1, if isCrew s g then 0 else 4 - g.prio, e.since, g.key.slot, k]

/-- Lexicographic order of ranks. -/
def rankLt : List Nat → List Nat → Bool
  | [], [] => false
  | [], _ => true
  | _, [] => false
  | a :: s, b :: t => decide (a < b) || (a == b && rankLt s t)

/-- The fragments of a gang that may go on: while a load of a parked gang issues again that load's slices alone (12 R266),
and behind a verdict the fragment that stood at the release point alone (19 R414). -/
def readyFrags (g : Gang) : List (Nat × BitVec 8) :=
  match g.redo with
  | some p => [(lowSlice p.slices, p.slices)]
  | none =>
    match g.rel with
    | .matched _ k => (fragsOf g).filter fun f => f.2.getLsbD k
    | _ => fragsOf g

/-- Every fragment that may issue in this clk. -/
def candidates (s : State) : List (GangKey × Nat × BitVec 8 × List Nat) :=
  (allGangs s).flatMap fun g =>
    if gangRuns s g then (readyFrags g).filterMap fun f =>
      if s.gaveUp.contains (g.key, f.1) ∨ (entryOf g f.1).stands ∨ s.clk < (entryOf g f.1).since then none else some (g.key, f.1, f.2, rankOf s g f.1)
    else []

/-- The first of some candidates, by their ranks. -/
def firstOf (l : List (GangKey × Nat × BitVec 8 × List Nat)) : Option (GangKey × Nat × BitVec 8 × List Nat) :=
  l.foldl (fun (b : Option (GangKey × Nat × BitVec 8 × List Nat)) c =>
    match b with
    | none => some c
    | some d => if rankLt c.2.2.2 d.2.2.2 then some c else b) none

/-- The fragment that issues next. -/
def pick (s : State) : Option (GangKey × BitVec 8) := (firstOf (candidates s)).map fun c => (c.1, c.2.2.1)

/-- Whether a major opcode belongs to the special-function unit, and the passes it makes over the lanes (07 R184). -/
def sfuTimes (maj : Nat) : Nat :=
  if maj = 0x5A ∨ maj = 0x5F then 2 else if 0x58 ≤ maj ∧ maj ≤ 0x61 then 1 else 0

/-- The major opcode at which slice `k` of a gang stands; none at a header. -/
def nextMaj (s : State) (g : Gang) (k : Nat) : Option Nat :=
  let e := entryOf g k
  if e.ix = 0 then none else (fetchWord s g.ctx.toNat (BitVec.ofNat 32 (e.pc.toNat + e.ix))).map (· % 256)

/-- The instruction at which slice `k` of a gang stands is a scalar division (06 R156). -/
def nextDivides (s : State) (g : Gang) (k : Nat) : Bool :=
  let e := entryOf g k
  let word := fun (i : Nat) => (fetchWord s g.ctx.toNat (BitVec.ofNat 32 (e.pc.toNat + e.ix + i))).getD 0
  (nextMaj s g k == some 0x38 || nextMaj s g k == some 0x39) && match decode (word 0) (word 1) with
    | .ok (.salu _ _ _ op _, _) => op == .idivI || op == .idivU || op == .iremI || op == .iremU
    | .ok (.salui _ _ op _, _) => op == .idivI || op == .idivU || op == .iremI || op == .iremU
    | _ => false

/-- The engine of a core that an instruction needs is free, its SUB and partition told (06 R156, 07 R184, R185, 08 R205). -/
def coreTakes (c : Core) (clk part maj : Nat) (scalDiv : Bool) : Bool :=
  if maj = 0x2A ∨ maj = 0x2B then decide (c.div ≤ clk)
  else if maj = 0x4C then decide (c.fp64 ≤ clk)
  else if 0 < sfuTimes maj then decide (c.sfu ≤ clk)
  else if maj = 0xA2 ∨ maj = 0xA3 then c.streams.all fun x => decide (x.last < clk)
  else if scalDiv then decide ((nth Part.reset c.parts part).sdiv ≤ clk)
  else true

/-- The engines of a core as the clk found them: what one has accepted in this clk does not count (13 R306). -/
def enginesAt (c : Core) (clk : Nat) : Core :=
  { c with
    div := if c.div = clk + 8 then clk else c.div
    fp64 := if c.fp64 = clk + 4 then clk else c.fp64
    sfu := if c.sfuAt = clk then clk else c.sfu
    streams := if c.mmAt = clk then c.streams.dropLast else c.streams
    parts := c.parts.map fun p => if p.sdiv = clk + 4 then { p with sdiv := clk } else p }

/-- The first three conditions of eligibility hold of slice `k` (13 R306): it waits for nothing, its header's waits are met, and the
engine that it needs was free as the clk began. -/
def couldIssue (s : State) (g : Gang) (k : Nat) : Bool :=
  let e := entryOf g k
  decide (e.st = .ready) && decide (e.since ≤ s.clk) &&
  (e.wait == .none || e.wait == .header) &&
  (if e.ix = 0 then headerMet g (BitVec.ofNat 32 ((fetchWord s g.ctx.toNat e.pc).getD 0)) else e.wait == .none &&
    coreTakes (enginesAt (coreOf g.key.die g.key.core s) s.clk) s.clk g.key.part ((nextMaj s g k).getD 0) (nextDivides s g k))

end Sys2Proof.Machine
end

