-- ==== Sys2Proof/Machine/Ops.lean ====
section
/-! DEFINITION. The shared operations of the machine: sink records and kills (18 R394, R395), flushes (02 R58), taking a
trap and returning from one (09 R226, R227), reconvergence (02 R35), and the issue of an instruction: the checks of
04 R95, the stalls of 05 R121 and 02 R48, its admission by the scoreboard (08 R208), and its retirement. -/

namespace Sys2Proof.Machine

/-- What a fault-sink record says (18 R395). -/
structure SinkInfo where
  code : Nat
  kind : Nat
  flags : Nat
  rep : Nat
  blk : Nat
  gang : Nat
  part : Nat
  core : Nat
  site : Nat
  pos : Word
  info : Word
  addr : DWord
  count : Nat

/-- The 64 bytes of a fault-sink record (18 R395). -/
def sinkBytes (i : SinkInfo) (name clk : Nat) : List Byte :=
  [BitVec.ofNat 8 i.code, BitVec.ofNat 8 i.kind, BitVec.ofNat 8 i.flags, BitVec.ofNat 8 i.rep] ++ leBytes 4 i.blk ++
  [BitVec.ofNat 8 i.gang, BitVec.ofNat 8 i.part] ++ leBytes 2 i.core ++ leBytes 2 i.site ++ leBytes 2 0 ++
  leBytes 4 i.pos.toNat ++ leBytes 4 i.info.toNat ++ leBytes 8 i.addr.toNat ++ leBytes 8 clk ++ leBytes 8 name ++
  leBytes 4 i.count ++ leBytes 12 0

/-- The die scheduler writes a record to a launch's fault sink (18 R395): at TAIL when there is room, else LOST rises;
QUIET withholds information records but for LANE_DEAD (02 R41). The walker routine's launches have no sink. -/
def sinkRecord (name : Nat) (i : SinkInfo) (s : State) : State :=
  match launchOf name s with
  | none => s
  | some l =>
    let c := l.ctx.toNat
    let a := l.info.sink
    match (if l.crewOf.isSome ∧ a = 0 then none else unitRead s c a 32) with
    | none => s
    | some h =>
      let cap := (h.getD 0 0).toNat
      let quiet := natb ((h.getD 1 0).toNat / 2)
      let tail := leNat ((h.drop 8).take 8)
      let head := leNat ((h.drop 16).take 8)
      if quiet ∧ (i.kind = 3 ∨ i.kind = 5) ∧ i.code ≠ 0x30 then s
      else
        let lost := (unitAdd c (a + 24) 1 s).getD s
        if cap < 4 ∨ 16 < cap ∨ (tail + 2 ^ 64 - head) % 2 ^ 64 = 2 ^ cap then lost
        else
          match unitWrite c (a + 64 + BitVec.ofNat 64 (64 * (tail % 2 ^ cap))) (sinkBytes i name (timeOf s)) s with
          | none => lost
          | some s' => (unitAdd c (a + 8) 1 s').getD s'

/-- A sink record about a gang (18 R395). -/
def gangSink (s : State) (g : Gang) (code kind flags : Nat) (pos info : Word) (addr : DWord) : SinkInfo :=
  ⟨code, kind, flags, (blockOf g.blk s).elim g.blk.rep (·.repl), g.blk.idx, g.gno, g.key.part, g.key.core, ownSite s g, pos, info, addr, 0⟩

/-- A sink record about a block (18 R395). -/
def blockSink (s : State) (b : Block) (code kind flags : Nat) (info : Word) : SinkInfo :=
  match gangsOf b.key s with
  | g :: _ => { gangSink s g code kind flags 0 info 0 with rep := b.repl, gang := 0, part := 0 }
  | [] => ⟨code, kind, flags, b.repl, b.key.idx, 0, 0, b.core, 0, 0, info, 0, 0⟩

/-- Insert a task entry before those that were popped later. -/
def insertTask (t : Task) : List Task → List Task
  | [] => [t]
  | x :: l => if (t.prov.map (·.2)).getD 0 ≤ (x.prov.map (·.2)).getD 0 then t :: x :: l else x :: insertTask t l

/-- Give back to the head of the task queue, in the order they were popped, the entries that gangs meeting a test hold
provisionally (13 R304). -/
def returnTasks (p : GangKey → Bool) (c : Core) : Core :=
  let mine := fun t : Task => match t.prov with | some k => p k.1 | none => false
  { c with taskq := (((c.taskq.filter mine).foldr insertTask []).map fun t => { t with prov := none }) ++ c.taskq.filter fun t => !mine t }

/-- The gangs of supervisor crews whose slots and registers are kept while they do not run (13 R307). -/
def keptGangs (s : State) : List Gang :=
  s.launches.flatMap fun l => (l.kept.filter fun k => !(allGangs s).any fun g => g.key == k.1).map fun k =>
    { Gang.vacant k.1 with blk := ⟨l.name, 0, 0⟩, regs := l.info.regs, kit := k.2 }

/-- Register blocks that the gangs of a partition hold: a kitty window counts for the lowest of its gangs there alone (02 R46). -/
def usedBlocks (s : State) (d c p : Nat) : Nat :=
  let gs := (allGangs s ++ keptGangs s).filter fun g => g.key.die == d && g.key.core == c && g.key.part == p
  let shared := fun (g : Gang) => decide (g.kit ≠ 0) && gs.any fun h => h.blk == g.blk && decide (h.kit ≠ 0) && decide (h.key.slot < g.key.slot)
  (gs.map fun g => g.regs - if shared g then g.kit / 16 else 0).sum

/-- Free register blocks of a partition's pool (09 R219). -/
def freeBlocks (s : State) (d c p : Nat) : Nat := 16 - usedBlocks s d c p

/-- Copies that the gangs of a block have issued and that are not complete: until then its scratch stays (02 R58, 14 R327). -/
def copiesPending (s : State) (b : BlockKey) : Bool := (allCores s).any fun c => c.cmds.any fun q => q.any fun x => x.blk == b

/-- Free bytes of core scratch (09 R220). -/
def freeScratch (s : State) (d c : Nat) : Nat :=
  98304 - (((allBlocks s).filter fun b => b.die == d && b.core == c &&
    (b.st == .starting || b.st == .resident || copiesPending s b.key || (launchOf b.key.name s).any fun l => !l.kept.isEmpty)).map fun b => b.size).sum

/-- Land the bytes that issued MSTs to team scratch have still to write (02 R58, 08 R211). -/
def landMst (g : Gang) (s : State) : State :=
  let bs := g.pend.flatMap fun p => p.bytes.filterMap fun b => if b.1 = .ts then some (b.2.1, b.2.2) else none
  if bs.isEmpty then s else onDie g.key.die (teamStore bs) s

/-- CFLUSH pushes one line (12 R288): dirty sectors of the die in focus go to the home; `1` also drops its copies in the
die, and `2` also writes the home's line to the stack. DESIGN CHOICE (log 90): `2` drops the copies too, as the `also` of its row follows the
row of `1`. -/
def pushLine (line act : Nat) (s : State) : State :=
  let d := s.die.die
  let s := writeBack (fun e x => e == d && x / 4 == line) s
  if act = 0 then s
  else
    let s := modDie (fun y => { y with lines := y.lines.filter fun x => x.line != line })
      (mapCores (fun c => if c.die = d then { c with l1 := c.l1.filter fun x => x.line != line } else c) s)
    if act = 1 then s else homeWriteBack line s

/-- Push the lines of the CFLUSHes that a gang has issued and that have not completed (02 R58). -/
def landFlush (g : Gang) (s : State) : State :=
  (g.pend.flatMap fun p => if p.cls = .st ∧ p.bytes.isEmpty then p.flush else []).foldl
    (fun s x => onDie g.key.die (pushLine x.1 x.2) s) s

/-- A write of a CSR of scope gang (05 R123). -/
def CsrWrite.ofGang (w : CsrWrite) : Bool := decide (0x80 ≤ w.num) && decide (w.num ≤ 0x84)

/-- An event that concerns a gang among some that leave their slots. -/
def concerns (keys : List GangKey) (d : Due) : Bool :=
  (match d.subj with | .gang k => keys.contains k | _ => false) ||
  (match d.ev with | .forwardArrival k _ => keys.contains k | _ => false)

/-- Abandon what the array of a core has under way for a block that holds it (08 R211). -/
def dropArray (x : Block) (s : State) : State :=
  if !x.array then s
  else
    let ev := fun (d : Due) => d.ev == .streamRowWritten x.die x.core || d.ev == .shadowPlaneReady x.die x.core || d.ev == .codebookReady x.die x.core
    onCore x.die x.core (modCore fun c => { c with streams := [], tiles := [], shadowReady := true, cbWait := [] })
      { s with agenda := s.agenda.filter fun d => !ev d }

/-- The copies of a stopped block go on (02 R58); its ring descriptors take no fill from them any more. -/
def orphanCmds (b : BlockKey) (c : Core) : Core :=
  { c with cmds := c.cmds.map fun q => q.map fun x => if x.blk = b then { x with ring := none } else x }

/-- The dies that may admit a launch or deal a block try to in the next clk (13 R299): something has become free. -/
def wakeDies (s : State) : State :=
  let dies := uniq (((allDies s).filter fun d => d.queues.any fun q => !q.isEmpty).map (·.die) ++ s.launches.flatMap fun l => if l.st = .admitted then l.dies else [])
  dies.foldl (fun s d => if s.agenda.any fun x => x.ev == .admission d && decide (x.clk ≤ s.clk + 1) then s else later 1 .none (.admission d) s) s

/-- A launch's writes have reached a logical time (13 R301). -/
def noteTime (name : Nat) (t : DWord) (s : State) : State := modLaunch name (fun l => { l with time := max64 l.time t }) s

/-- The logical time of a block's core, which no write of its gangs exceeds (11 R251, 13 R301). -/
def noteBlock (b : BlockKey) (s : State) : State :=
  match blockOf b s with
  | some x => noteTime b.name (coreOf x.die x.core s).lclk s
  | none => s

/-- What a gang that leaves its slot still waits for at the homes goes on without it: its places in miss records are nobody's (16 R359), its
requests are not made again, and what it removed from the TLBs is still settled (16 R363). -/
def orphanWaits (k : GangKey) (s : State) : State :=
  let gone : GangKey := { k with slot := 8 }
  let mine := fun (w : Waiter) => w.gang == k && w.engine.isNone
  { s with
    homes := s.homes.map fun h => { h with
      settling := h.settling.map fun x => if x.who.1 = k then { x with who := (k, 8) } else x
      recs := h.recs.map fun r => { r with waiters := r.waiters.map fun w => if mine w then ⟨gone, none⟩ else w }
      tries := h.tries.filter fun x => !mine x.2.2.2.1 }
    agenda := s.agenda.filter fun d => match d.ev with
      | .tlbMiss _ _ _ _ w => !mine w
      | .translationRetry _ _ _ _ w => !mine w
      | _ => true }

/-- Stop every gang of a block at once and free its slots (02 R58, 18 R394): outstanding loads are dropped, issued
stores complete, provisional tasks return, and held entries are discarded when asked for. -/
def stopBlock (b : BlockKey) (discard : Bool) (s : State) : State :=
  let gs := gangsOf b s
  let keys := gs.map (·.key)
  let s := gs.foldl (fun s g => landFlush g (landMst g s)) (noteBlock b s)
  let s := { s with
    agenda := s.agenda.filter fun d => !concerns keys d
    remotes := s.remotes.filter fun r => r.write || r.engine.isSome || !keys.contains r.gang
    csrq := s.csrq.filter fun w => !(w.ofGang && keys.contains w.gang) }
  let s := if discard then discardHeld (fun e => e.blk == b) s else s
  let s := match blockOf b s with
    | some x => dropArray x s
    | none => s
  let s := mapCores (fun c => returnTasks (fun k => keys.contains k) <| orphanCmds b
    { c with parts := c.parts.mapIdx fun p x => { x with growq := x.growq.filter fun q => !keys.contains ⟨c.die, c.core, p, q.1⟩ } }) s
  let s := mapGangs (fun g => if g.blk = b ∧ g.live then Gang.vacant g.key else g) s
  let s := keys.foldl (fun s k => orphanWaits k s) s
  (List.range 4).foldl (fun s p => match keys.find? fun k => k.part == p with
    | some k => later 0 .none (.growGrant k.die k.core k.part) s
    | none => s) s

/-- Empty the scratch of a block that has ended or has been flushed, once no copy of it is pending (02 R58, 14 R327). -/
def reapBlock (b : BlockKey) (s : State) : State :=
  let gone := fun (x : Block) => decide (x.key = b ∧ (x.st = .ended ∨ x.st = .flushed))
  if copiesPending s b || !(allBlocks s).any gone then s
  else wakeDies (mapBlocks (fun x => if gone x then { x with scratch := [], fresh := [] } else x) s)

/-- End a block for its launch's completion (18 R394, 13 R301). -/
def endBlock (b : BlockKey) (s : State) : State :=
  let s := wakeDies (noteBlock b s)
  let s := match blockOf b s with
    | some x => dropArray x s
    | none => s
  let s := reapBlock b (mapBlocks (fun x => if x.key = b then { x with st := .ended, gangs := 0, array := false, twin := false } else x) s)
  let s := modLaunch b.name (fun l => { l with ended := l.ended + 1 }) s
  later 1 .none (.launchCompletion b.name) s

/-- The replicas of a block that vote: neither lost nor struck (19 R414, R421, R422). -/
def voters (s : State) (name idx : Nat) : List Block :=
  (allBlocks s).filter fun b => b.key.name == name && b.key.idx == idx && !b.lost && !b.struck

/-- The site of the core of a block. -/
def blockSite (b : Block) : Nat × Nat := dieSite b.die

/-- Transit in clk between the cores of two blocks (19 R414). -/
def transit (a b : Block) : Nat := Config.hop * meshDist (blockSite a) (blockSite b)

/-- The replica of the lowest number in a list. -/
def lowest (l : List Block) : Option Block := l.find? fun b => l.all fun c => decide (b.repl ≤ c.repl)

/-- The primary's block (19 R407); while the primary is struck, the lowest of the two that go on (19 R415, R422). -/
def primaryOf (s : State) (name idx : Nat) : Option Block := lowest (voters s name idx)

/-- A block's pin is in force while any gang of it is pinned (02 R57). -/
def blockPinned (s : State) (b : BlockKey) : Bool := (gangsOf b s).any (·.pinned)

/-- The pinned flag of the record of a kill (18 R395): a redundant block's follows its primary (19 R423). -/
def pinFlag (s : State) (b : BlockKey) : Nat := 2 * bnat (blockPinned s ((primaryOf s b.name b.idx).elim b (·.key)))

/-- A sink record with the pinned flag of its block. -/
def SinkInfo.pinned (s : State) (b : BlockKey) (i : SinkInfo) : SinkInfo := { i with flags := i.flags ||| pinFlag s b }

/-- Kill one block: stop it, record the kill, and count it as ended (18 R394). -/
def killOne (b : BlockKey) (i : SinkInfo) (discard : Bool) (s : State) : State :=
  match blockOf b s with
  | none => s
  | some x => if x.st = .ended then s else sinkRecord b.name (i.pinned s b) (endBlock b (stopBlock b discard s))

/-- The blocks of a launch other than one, with the records of their kills as the launch stands: they have the whole-launch flag (18 R394). -/
def restOf (s : State) (b : BlockKey) (code : Nat) (info : Word) : List (BlockKey × SinkInfo) :=
  ((allBlocks s).filter fun x => x.key.name == b.name && x.key != b && x.st != .ended).map fun x =>
    (x.key, (blockSink s x code 2 8 info).pinned s x.key)

/-- Kill the rest of a launch; its queued copies leave their queues and its unstarted blocks never start (18 R394). -/
def killRest (b : BlockKey) (others : List (BlockKey × SinkInfo)) (s : State) : State :=
  let s := others.foldl (fun s x => killOne x.1 x.2 false s) s
  let s := mapDies (fun d => { d with queues := d.queues.map fun q => q.filter (· != b.name) }) s
  modLaunch b.name (fun l => { l with started := l.started.map fun _ => l.info.team }) s

/-- Kill a block (18 R394): with KILLALL or in class C, the rest of its launch too. -/
def killBlock (b : BlockKey) (i : SinkInfo) (discard : Bool) (s : State) : State :=
  match launchOf b.name s with
  | none => stopBlock b discard s
  | some l =>
    let all : Bool := match unitRead s l.ctx.toNat (l.info.sink + 1) 1 with
      | some p => natb ((p.getD 0 0).toNat)
      | none => false
    let rest := restOf s b i.code i.info
    let s := killOne b i discard s
    if all || decide (l.info.cls = .c) then killRest b rest s else s

/-- Ask for a vote 4 clk after the last of its records has arrived (19 R414). -/
def askVote (v : Vote) (s : State) : State :=
  later (((v.recs.map (·.arrives)).max?.getD s.clk) - s.clk + 4) .none (.replicaVote v.name v.blk v.gno) s

/-- The gangs of a replica whose trick has matched and whose once-performed effect it has still to perform. -/
def unperformed (s : State) (b : BlockKey) : List Nat :=
  (gangsOf b s).filterMap fun g => match g.rel with
    | .matched true _ => some g.gno
    | .sent .. => if s.votes.any fun v => v.name == b.name && v.blk == b.idx && v.gno == g.gno && v.verdict.any fun x => x.1 == b.rep && x.2 == 0 then some g.gno else none
    | _ => none

/-- A replica can be no party to a resynchronisation any more (19 R418, R422): another becomes the source. -/
def sourceGone (b : BlockKey) (s : State) : State :=
  let other := fun (k : BlockKey) => (((allBlocks s).find? fun x =>
    x.key.name == b.name && x.key.idx == b.idx && !x.lost && !x.struck && x.key != k && x.key != b).map (·.key)).getD k
  let turn := fun (r : Resync) => if r.src = b ∧ r.image.isNone then { r with src := other r.dst } else r
  { s with resyncs := (s.resyncs.filter fun (r : Resync) => r.dst != b).map turn }

/-- A replica votes no more (19 R421, R422): its records are gone from the votes, and the lowest of those that go on performs what it had not
performed, of the effects of the gangs in `todo` and of the entries that it had not released. A survivor alone releases its entries after SW. -/
def handOver (b : BlockKey) (todo : List Nat) (s : State) : State :=
  let mine := fun (k : BlockKey) => k.name == b.name && k.idx == b.idx
  let heir := (primaryOf s b.name b.idx).map (·.key)
  let alone := (allBlocks s).any fun x => mine x.key && !x.lost && decide (x.nrep < 2)
  let take := fun (e : Held) => if heir = some e.blk then { e with writes := true, matched := e.matched || alone } else e
  let goOn := fun (r : RelState) => match r with
    | .matched _ k => .matched true k
    | r => r
  let s := mapCores (fun c => { c with muck := c.muck.map take }) s
  let s := mapGangs (fun g => if g.live ∧ heir = some g.blk ∧ todo.contains g.gno then { g with rel := goOn g.rel } else g) s
  let heirRep := (heir.map (·.rep)).getD 0
  let verd : Vote → List (Nat × Nat) := fun v => (v.verdict.filter fun x => x.1 != b.rep).map fun (x : Nat × Nat) =>
    if x.1 == heirRep && todo.contains v.gno then (x.1, 0) else x
  let turn := fun (v : Vote) => if v.name = b.name ∧ v.blk = b.idx then
    { v with recs := v.recs.filter fun r => r.rep != b.rep, verdict := verd v } else v
  let kept := (s.votes.filter fun v => !(v.name == b.name && v.blk == b.idx && !v.verdict.isEmpty && (verd v).isEmpty)).map turn
  let votes : List Vote := kept.filter fun v => !v.recs.isEmpty
  let s : State := sourceGone b { s with votes := votes }
  (s.votes.filter fun v => v.name == b.name && v.blk == b.idx && v.verdict.isEmpty).foldl (fun s v => askVote v s) s

/-- The survivors of a lost replica go on (19 R421), renumbered in their order. -/
def closeRanks (b : BlockKey) (lost : Nat) (todo : List Nat) (s : State) : State :=
  let mine := fun (k : BlockKey) => k.name == b.name && k.idx == b.idx
  let s := mapBlocks (fun x => if mine x.key then
    (if x.key = b then { x with lost := true, struck := false } else
      { x with nrep := x.nrep - 1, degr := true, repl := if lost < x.repl then x.repl - 1 else x.repl }) else x) s
  let lone := fun (k : BlockKey) => mine k && (allBlocks s).any fun x => x.key == k && !x.lost && decide (x.nrep < 2)
  handOver b todo (mapGangs (fun g => if g.live ∧ lone g.blk then { g with sigs := 0, sigl := 0, sigk := 0 } else g) s)

/-- A replica is lost (19 R421): its block is killed with its entries discarded, one record says so, and the others go on. -/
def loseReplica (b : BlockKey) (s : State) : State :=
  match blockOf b s with
  | none => s
  | some x =>
    if x.lost then s
    else
      let todo := unperformed s b
      closeRanks b x.repl todo (killOne b { blockSink s x 0x42 2 0 (BitVec.ofNat 32 x.repl) with rep := x.repl } true s)

/-- A position `n` words further in the same version (15 R331). -/
def posAdd (p : Word) (n : Int) : Word :=
  BitVec.ofNat 32 (p.toNat / 2 ^ 20 * 2 ^ 20 + ((p.toNat % 2 ^ 20 : Nat) + n : Int).toNat % 2 ^ 20)

/-- No position (15 R331). -/
def noPos : Word := 0xFFFFFFFF

/-- Code position of the instruction or header at which the issuing fragment stands (09 R226). -/
def herePos (s : State) : Word := posAdd (cur s).pc (cur s).ix

/-- Abort code word of a transaction lane (12 R285). -/
def abortCode (cause detail count : Nat) (esc : Bool) : Word :=
  BitVec.ofNat 32 (cause + detail * 2 ^ 8 + count * 2 ^ 16 + bnat esc * 2 ^ 24)

/-- Abort one lane of the open transaction: its code and its false predicate are written, its buffered writes discarded,
and its consecutive aborts counted; from the ninth attempt on the code has ESC (12 R284, R285). -/
def abortLane (l cause detail : Nat) (s : State) : State :=
  match s.gang.txn with
  | none => s
  | some t =>
    match t.lanes.find? fun x => x.lane == l && x.code.isNone with
    | none => s
    | some _ =>
      let old := (look s.gang.aborts l).toNat
      let n := min (old + 1) 255
      let code := abortCode cause detail n (decide (8 ≤ old))
      let m := maskOf (· == l)
      let s := if lane s.gang.dead l then s else wrP t.pd m 0 (wrV t.vd m (fun _ => code) s)
      modGang (fun g => { g with
        aborts := put g.aborts l (BitVec.ofNat 8 n),
        txn := some { t with lanes := t.lanes.map fun x => if x.lane = l then { x with code := some code, buf := [] } else x } }) s

/-- Abort every open lane of the gang's transaction (12 R284). -/
def abortAll (cause detail : Nat) (s : State) : State :=
  match s.gang.txn with
  | none => s
  | some t => t.lanes.foldl (fun s x => abortLane x.lane cause detail s) s

/-- Bound version of a launch (15 R347). -/
def boundVer (s : State) (name : Nat) : Nat := ((launchOf name s).map fun l => l.vers.headD 0).getD 0

/-- The one issue of a single step has come, at a TIME: the partition halts again (09 R228). -/
def Part.stepped (t : Nat) (p : Part) : Part := { p with stepping := false, haltAt := if p.stepping then t else p.haltAt }

/-- TAKING A TRAP (09 R226) in the issuing fragment, with a code, TRAPINFO and TRAPADDR; `resumeAt` replaces the saved
position for TRAP. The fragment's slices start the handler, fused; every other slice is blocked. No handler, or a fault
while the handler runs, kills the block. -/
def takeTrapAt (code : Nat) (info : Word) (addr : DWord) (pc : Word) (s : State) : State :=
  let s := abortAll 10 0 s
  let g := s.gang
  if g.frame.isSome ∨ g.trapvec = noPos then
    killBlock g.blk (gangSink s g code 1 (bnat g.frame.isSome) pc info addr) false s
  else
    let fr : Frame := ⟨g.split, s.frag, pc, code != 0x54, (cur s).ix == 0⟩
    let vec := BitVec.ofNat 32 (boundVer s g.blk.name * 2 ^ 20 + g.trapvec.toNat % 2 ^ 20)
    let start := fun (k : Nat) =>
      let e := entryOf g k
      if s.frag.getLsbD k then { e with pc := vec, rpc := noPos, fu := true, st := SplitSt.ready, rgm := 0, ix := 0, left := 0, hdr := 0, wait := .none, since := s.clk, elig := 0, boost := none }
      else if e.st = .ended then e else { e with st := .blocked, wait := .none }
    let s := { s with spent := (g.key.die, g.key.core, g.key.part) :: s.spent }
    let s := modCore (fun c => { c with parts := modNth c.parts g.key.part (Part.stepped (timeOf s)) }) s
    modGang (fun g => { g with
      rel := .none, frame := some fr, trapcause := BitVec.ofNat 32 code, trappc := pc, trapaddr := addr, trapinfo := info, timer := 0,
      split := (List.range g.split.length).map start }) s

/-- Taking a trap at the instruction or header where the issuing fragment stands (09 R226). -/
def takeTrap (code : Nat) (info : Word) (addr : DWord) (s : State) : State := takeTrapAt code info addr (herePos s) s

/-- An entry that comes to a header; a slice with FU = 0 whose PC reaches its RPC waits at reconvergence (02 R34). -/
def SplitEntry.goTo (e : SplitEntry) (pc : Word) (clk : Nat) : SplitEntry :=
  { e with pc := pc, ix := 0, left := 0, hdr := 0, wait := .none, since := clk,
           st := if !e.fu && e.rpc == pc then .recon else .ready, rgm := 0 }

/-- RETURN FROM A TRAP (09 R227). The caller has checked that a frame is held. A frame of kind continue reaches its position as any
header is reached; every entry is written again, which ends its error marks (05 R120). -/
def returnTrap (s : State) : State :=
  match s.gang.frame with
  | none => s
  | some f =>
    let g := s.gang
    let same := g.trappc == f.trappc
    let ent := fun (k : Nat) => nth SplitEntry.over f.entries k
    let back := fun (k : Nat) =>
      let e := ent k
      if f.slices.getLsbD k then
        if same && f.reexec then { e with sic := (entryOf g k).sic, wait := .none, ix := if f.atHeader then 0 else e.ix }
        else if same then { (e.goTo g.trappc s.clk) with sic := (entryOf g k).sic }
        else { e with pc := g.trappc, rpc := noPos, fu := true, st := SplitSt.ready, rgm := 0, ix := 0, left := 0, hdr := 0, sic := (entryOf g k).sic, wait := .none, since := s.clk }
      else e
    modGang (fun g => { g with frame := none, split := (List.range g.split.length).map back, errs := unmark ErrMark.ofSplit g }) s

/-- The slices that wait at reconvergence with a position. -/
def reconSet (g : Gang) (rpc : Word) : BitVec 8 :=
  sliceSet fun k => decide ((entryOf g k).st = .recon) && (entryOf g k).rpc == rpc

/-- The release condition of 02 R35: every other unended slice with that RPC waits at reconvergence, or every such
other slice is blocked or waits at REGANG. -/
def reconReady (g : Gang) (rpc : Word) : Bool :=
  let others := (List.range g.slices).filter fun k =>
    decide ((entryOf g k).st ≠ .ended) && decide ((entryOf g k).st ≠ .recon) && (entryOf g k).rpc == rpc
  reconSet g rpc != 0 && others.all fun k =>
    decide ((entryOf g k).st = .blocked) || decide ((entryOf g k).st = .regang) || decide ((entryOf g k).wait ≠ .none) ||
    (match g.park with | some p => p.slices.getLsbD k | none => false)

/-- The reconvergence positions of a gang whose release is due (02 R35). -/
def reconDue (g : Gang) : List Nat :=
  (uniq ((List.range g.slices).filterMap fun k =>
    if (entryOf g k).st = .recon then some (entryOf g k).rpc.toNat else none)).filter fun r => reconReady g (BitVec.ofNat 32 r)

/-- Ask for the reconvergence releases that are due in the gang in focus (02 R35). -/
def askRecon (s : State) : State :=
  (reconDue s.gang).foldl
    (fun s r => later 0 (.gang s.gang.key) (.reconvergenceRelease s.gang.key (BitVec.ofNat 32 r)) s) s

/-- The position of the header after the clause in which the issuing instruction of `n` words stands last. -/
def nextHeader (s : State) (n : Nat) : Word := posAdd (cur s).pc ((cur s).ix + n)

/-- The filter value of a gang's performance events: its role, or 5 for a supervisor crew (17 R386). -/
def gangFilter (s : State) (g : Gang) : Nat :=
  if ((launchOf g.blk.name s).bind (·.crewOf)).isSome then 5
  else match g.role with
    | .general => 1
    | .vector => 2
    | .matrix => 3
    | .copy => 4

/-- Note that the issuing fragment has issued: it leads its partition's next pick, unless it has ended a clause that yields, and its
boost ends (13 R306). -/
def noteIssue (n : Nat) (yields : Bool) (s : State) : State :=
  let k := s.gang.key
  let me := (k.slot, lowSlice s.frag)
  let mine := (slicesOf s.frag).map fun j => (k, j)
  let y := fun (p : Part) => yields || p.skip == some (k.slot, lowSlice s.frag, s.clk + 1)
  let s := modCore (fun c => { c with parts := modNth c.parts k.part fun p => { p.stepped (timeOf s) with last := some me, yld := y p } }) s
  let s := { s with spent := (k.die, k.core, k.part) :: s.spent, gaveUp := mine ++ s.gaveUp, went := mine ++ s.went }
  modCore (perfAdd 2 (gangFilter s s.gang) n) (modSplit s.frag (fun e => { e with elig := 0, boost := none }) s)

/-- An entry behind the instruction of `n` words at which it stood: at the next instruction of the clause, or at the header after it
(04 R88), with its slice instruction count risen (03 R75). -/
def SplitEntry.behind (e : SplitEntry) (n clk : Nat) : SplitEntry :=
  if e.left ≤ 1 then { (e.goTo (posAdd e.pc (e.ix + n)) clk) with sic := e.sic + 1 }
  else { e with ix := e.ix + n, left := e.left - 1, sic := e.sic + 1, wait := .none }

/-- The issuing instruction ends a clause whose header has YLD (13 R306). -/
def endYields (s : State) : Bool := decide ((cur s).left ≤ 1) && hdrYld (cur s).hdr

/-- The issuing instruction of `n` words is done: the fragment passes it. -/
def retire (n : Nat) (s : State) : State :=
  askRecon (modSplit s.frag (fun e => if e.st = .ended then e else e.behind n s.clk) (noteIssue 1 (endYields s) s))

/-- What an instruction comes to at its issue. -/
inductive Eff where
  /-- It takes effect, and its fragment goes on behind it. -/
  | done (s : State)
  /-- It takes effect and has set its slices' positions; with or without counting in the slice instruction count. -/
  | moved (count : Bool) (s : State)
  /-- It does not issue in this clk, and no timer runs (00 R8). -/
  | stall (s : State)
  /-- It is in a wait, and the starvation timer runs (00 R8). -/
  | wait (w : WaitOn) (s : State)
  /-- It takes its issue, and is then in a wait that ends by itself (17 R377, R380). -/
  | hold (w : WaitOn) (s : State)
  /-- It traps precisely: code, TRAPINFO, TRAPADDR. -/
  | trap (code : Nat) (info : Word) (addr : DWord)

/-- What an instruction asks of the checks before its own (04 R95). -/
structure Req where
  maj : Nat
  /-- Length in words. -/
  words : Nat
  /-- Guard fields of an X form. -/
  x : Option Guard
  /-- Lowest level, and TRAPINFO of PRIVILEGE. -/
  level : Level := .kernel
  /-- An FP64 instruction, and whether it names an odd pair (07 R162). -/
  fp64 : Bool := false
  odd : Bool := false
  /-- Lane registers, scalars and predicates it reads and writes. -/
  vr : List Nat := []
  vw : List Nat := []
  sr : List Nat := []
  sw : List Nat := []
  pr : List Nat := []
  pw : List Nat := []
  /-- clk until the result is readable, where the major opcode does not say it and no port is crossed (06 R155, 09 R215, R220). -/
  lat : Nat := 2
  /-- Whether it can set a MODE bit, where the major opcode does not say it (09 R217). -/
  flags : Bool := false
  /-- Whether it reads MODE without a flag to set (09 R216). -/
  mode : Bool := false
  /-- The elements of lane registers, by register and lane, that it consumes under an execution mask, where they are not those of the
  mask's lanes (02 R40). -/
  picks : Option (State → Word → List (Nat × Nat)) := none
  /-- Registers that it may write besides: it stalls on their tags alone (05 R121). -/
  also : List RegName := []

/-- Levels in ascending order (05 R124). -/
def Level.rank : Level → Nat
  | .kernel => 0
  | .supervisor => 1
  | .firmware => 2

/-- The lowest lane register named at or above the allocation (02 R46, 18 R392). -/
def unallocated (g : Gang) (l : List Nat) : Option Nat := (l.filter fun r => decide (16 * g.regs ≤ r)).min?

/-- The checks 2 (a clause-ending instruction that is not last, 04 R92) to 6 of 04 R95: the first that fails gives the
trap's code and TRAPINFO. -/
def preCheck (q : Req) (s : State) : Option (Nat × Word) :=
  let maj := BitVec.ofNat 32 q.maj
  if endsClause q.maj ∧ 1 < (cur s).left then some (0x03, 0)
  else if classOf q.maj ≠ .gen ∧ (classOf q.maj).code ≠ hdrCls (cur s).hdr then some (0x04, maj)
  else if q.fp64 ∧ !s.profD then some (0x09, 0)
  else if q.odd then some (0x03, 0)
  else if s.gang.level.rank < q.level.rank then some (0x0B, maj)
  else (unallocated s.gang (q.vr ++ q.vw)).map fun r => (0x0A, BitVec.ofNat 32 r)

/-- An instruction reads or writes a register. -/
def Req.names (q : Req) (r : RegName) : Bool :=
  q.also.contains r || match r with
  | .v n => (q.vr ++ q.vw).contains n
  | .s n => (q.sr ++ q.sw).contains n
  | .p n => (q.pr ++ q.pw).contains n

/-- A write of a gang that has issued and is not complete meets a register that the instruction reads or writes (05 R121). -/
def heldBy (q : Req) (clk : Nat) (skip : Option Nat) (g : Gang) : Bool :=
  (g.tags.any fun t => decide (clk < t.clk) && t.reg != .p 0 && q.names t.reg) || g.pend.any fun p => skip != some p.id && p.writes.any fun w => match w with
    | .lane r _ _ => q.names (.v r)
    | .scal r _ => q.names (.s r)
    | .pred r _ _ => q.names (.p r)

/-- The kitty registers of an instruction, as the gang that shares its window numbers them (02 R47). -/
def kittyTwin (q : Req) (g h : Gang) : Req :=
  let turn := fun (l : List Nat) => l.filterMap fun r => (kittyIx g r).map fun i => i + 16 * h.regs - h.kit
  { maj := q.maj, words := q.words, x := none, vr := turn q.vr, vw := turn q.vw }

/-- A pending tag guards a register that the instruction reads or writes (05 R121), or its kitty partner's tag one that the two share
(02 R47); a parked load that issues again is not held by its own (12 R266). -/
def tagged (q : Req) (s : State) : Bool :=
  heldBy q s.clk (s.gang.redo.bind (·.id)) s.gang ||
  (decide (s.gang.kit ≠ 0) && (allGangs s).any fun h => h.key != s.gang.key && h.blk == s.gang.blk && decide (h.kit ≠ 0) &&
    heldBy (kittyTwin q s.gang h) s.clk none h)

/-- The kitty bits do not allow the access yet (02 R48). An instruction that reads and writes one register tests the write's
condition behind its read, which leaves the bits full: no encoding carries the read that empties them (log 10). A parked load that
issues again has passed them, and its own results have filled some (12 R266). -/
def kittyHolds (q : Req) (m : Word) (s : State) : Bool := s.gang.redo.isNone && kittyShut s.gang s.block.kfull q.vr q.vw m

/-- Some outstanding entry of the gang will write the register. -/
def awaited (g : Gang) (r : RegName) : Bool :=
  g.pend.any fun p => p.writes.any fun w => match w with
    | .lane n _ _ => r == .v n
    | .scal n _ => r == .s n
    | .pred n _ _ => r == .p n

/-- The kitty bits after the writes of an instruction (02 R48); those of a load's results are set as they arrive. -/
def kittyFill (q : Req) (m : Word) (s : State) : State :=
  (q.vw.filter fun r => !awaited s.gang (.v r)).foldl (fun s r => match kittyIx s.gang r with
    | some i => modBlock (fun b => { b with kfull := put b.kfull i (look b.kfull i ||| m) }) s
    | none => s) s

/-- Slices that wait at a REGANG or IDEM whose set has come together, after slices ended, stand ready and fused at it, so
that it issues for all of them (02 R36, 15 R341). -/
def releaseRegang (s : State) : State :=
  let g := s.gang
  let ok := fun (k : Nat) =>
    let e := entryOf g k
    decide (e.st = .regang) && (List.range g.slices).all fun j =>
      let x := entryOf g j
      !e.rgm.getLsbD j || decide (x.st = .ended) || (decide (x.st = .regang) && x.rgm == e.rgm && x.pc == e.pc)
  modSplit (sliceSet ok) (fun e => { e with st := .ready, fu := true, rpc := noPos, rgm := 0, wait := .none }) s

/-- A slice left with no active, undead lane ends (15 R342); the others keep their entry. -/
def endDead (s : State) : State :=
  let gone := fun (k : Nat) => decide ((entryOf s.gang k).st ≠ .ended) &&
    (s.gang.active &&& ~~~s.gang.dead &&& sliceLanes (sliceSet (· == k))) == 0
  releaseRegang (modSplit (sliceSet gone) (fun e => { e with st := .ended, rgm := 0, wait := .none }) s)

/-- Every slice of the gang has ended. -/
def allEnded (g : Gang) : Bool := (List.range g.slices).all fun k => decide ((entryOf g k).st = .ended)

/-- The gang whose last slice has ended begins to leave (15 R342). -/
def askLeave (s : State) : State :=
  if s.gang.live ∧ allEnded s.gang ∧ !s.gang.leaving then
    later 0 (.gang s.gang.key) .gangExit (modGang (fun g => { g with leaving := true }) s)
  else s

/-- Physical byte of an entry of a block's resume record (02 R55, 19 R408), in the launch's context. -/
def resumeAddr (l : Launch) (b : BlockKey) (gno : Nat) : DWord :=
  l.info.resume + BitVec.ofNat 64 (512 * (b.idx + b.rep * (l.info.team * (l.dies.length / max l.info.nrep 1))) + 16 * gno)

/-- Hold a write to the gang's resume entry (02 R56); one whose address does not translate is dropped. -/
def holdResume (off : Nat) (bs : List Byte) (idem : Option Bool) (s : State) : State :=
  match launchOf s.gang.blk.name s with
  | none => s
  | some l =>
    match xlateUnit s l.ctx.toNat (resumeAddr l s.gang.blk s.gang.gno + BitVec.ofNat 64 off) .store with
    | .ok _ k => if boundFrame s k then s else holdWrite false (cellsAt k bs) none (some (idem.getD false)) s
    | _ => s

/-- The lanes in which an instruction consumes an uncorrectable element of a lane register or predicate (02 R40): its own mask's
lanes, but for the elements that it names itself; and its guard in every lane that it might have run in. 06 R148 does not say whether SHFL or
RDLANE reads the element of a source lane that is dead or missing: DESIGN CHOICE (log 96), it does, and the record of that lane is made
once more. -/
def deadlyLanes (q : Req) (m : Word) (s : State) : Word :=
  let able := s.gang.active &&& ~~~s.gang.dead &&& sliceLanes s.frag
  maskOf fun l => s.gang.errs.any fun e => match e with
    | .lane r k => k == l && (match q.picks with
      | some f => (f s m).contains (r, l)
      | none => lane m l && q.vr.contains r)
    | .pred p k => k == l && ((lane able l && q.pr.head? == some p) || (lane m l && (q.pr.drop 1).contains p))
    | _ => false

/-- Lanes that consume an uncorrectable element die: their dead bits are set, a LANE_DEAD record goes to the die fault
queue and the resume entry's DEAD is written (02 R40, R56); the element's mark is spent. The death of the gang's last lane is
reported to the sink (02 R41). A replica that loses a lane is lost (19 R421). -/
def laneDeaths (q : Req) (m : Word) (s : State) : State :=
  let dies := deadlyLanes q m s
  if dies = 0 then s
  else
    let g := s.gang
    let rec1 := fun l => dieRecord s 7 0x30 0 g (herePos s) 0 (BitVec.ofNat 32 l)
    let s := (lanesOf dies).foldl (fun s l => appendDie (dieOf g.key.die s).fqBase (rec1 l) s) s
    if 2 ≤ s.block.nrep then loseReplica g.blk s
    else
      let spent := fun (e : ErrMark) => match e with
        | .lane _ k => lane dies k
        | .pred _ k => lane dies k
        | _ => false
      let txn := fun (t : Txn) => { t with lanes := t.lanes.filter fun x => !lane dies x.lane }
      let s := modGang (fun g => { g with dead := g.dead ||| dies, txn := g.txn.map txn, errs := unmark spent g }) s
      let s := endDead (holdResume 12 (leBytes 4 s.gang.dead.toNat) none s)
      let last := ((lanesOf dies).getLast?).getD 0
      let s := if allEnded s.gang then sinkRecord g.blk.name (gangSink s g 0x30 3 0 (herePos s) (BitVec.ofNat 32 last) 0) s else s
      askLeave s

/-- The instruction can set a bit of MODE, whatever its operands (09 R217). -/
def setsMode (q : Req) : Bool := q.flags || decide (0x40 ≤ q.maj ∧ q.maj ≤ 0x61) || q.maj == 0x70 || q.maj == 0x3C

/-- The instruction reads MODE: its result or its flags depend on it, or it is one of GETM and SETM that keeps some of it (03 R75, R78,
08 R188, 09 R216). -/
def readsMode (q : Req) : Bool := setsMode q || q.mode || q.maj == 0xA0 || q.maj == 0xA1 || q.maj == 0xA2

/-- The instruction consumes an uncorrectable scalar, MODE, split-table entry or mask (05 R120): each that it reads. DESIGN CHOICE (log 87):
it reads its sources even under an empty execution mask, and every instruction but NOP reads the masks. -/
def controlErr (q : Req) (s : State) : Bool :=
  s.gang.errs.any fun e => match e with
    | .scal r => q.sr.contains r
    | .lane _ _ => false
    | .pred _ _ => false
    | .split k => s.frag.getLsbD k
    | .mode => readsMode q
    | .mask => q.maj != 0x01

/-- The fragment gives up its issue in this clk. -/
def giveUp (s : State) : State := { s with gaveUp := (s.gang.key, lowSlice s.frag) :: s.gaveUp, stalled := true }

/-- Note that the scoreboard refuses the fragment's instruction in this clk (08 R209, 17 R386). -/
def noteRefused (s : State) : State :=
  { modCore (perfAdd 4 (gangFilter s s.gang) 1) s with refused := (s.gang.key, lowSlice s.frag) :: s.refused }

/-- clk for which the special-function unit takes the fragment's lanes, eight at a time (07 R183). -/
def sfuPasses (s : State) : Nat := (4 * (slicesOf s.frag).length + 7) / 8

/-- The execute time E of an instruction that crosses the ports by its registers (06 R155, 07 R183, 08 R208, R210); none where it
crosses none or places its crossings itself. -/
def crossExec (maj k : Nat) : Option Nat :=
  if maj = 0x2A ∨ maj = 0x2B then some 22
  else if 0x06 ≤ maj ∧ maj ≤ 0x30 then some 4
  else if maj = 0x70 ∨ maj = 0x72 ∨ maj = 0x73 ∨ maj = 0x75 then some 6
  else if maj = 0x4C then some 8
  else if maj = 0x53 ∨ maj = 0x54 then some 6
  else if 0x40 ≤ maj ∧ maj ≤ 0x52 then some 4
  else match sfuTimes maj with
    | 1 => some (14 + (k - 1))
    | 2 => some (22 + 2 * (k - 1))
    | _ => if maj = 0xA5 then some 2 else if maj = 0xA6 then some 0 else none

/-- clk until the result of an instruction that crosses no port is readable (06 R155, 08 R210, 09 R220 to R223, R228, 16 R361). -/
def fixedLat (q : Req) : Nat :=
  if 0x32 ≤ q.maj ∧ q.maj ≤ 0x36 then 1 else if q.maj = 0xD5 ∨ q.maj = 0xD6 ∨ q.maj = 0xD8 ∨ q.maj = 0xDB then 8 else q.lat

/-- What an instruction asks of the ports: one up crossing for each lane register it reads; one down crossing for each it writes, and
one for a predicate or scalar result (06 R155, 08 R207, R210). One that crosses none asks for its latency alone. -/
def useOf (q : Req) (s : State) : Use :=
  match crossExec q.maj (sfuPasses s) with
  | none => ⟨[], 0, fixedLat q - 1⟩
  | some e => ⟨q.vr.map fun _ => 0, q.vw.length + bnat (!q.pw.isEmpty) + bnat (!q.sw.isEmpty), e⟩

/-- A scalar division: its latency says so (06 R155). -/
def scalarDiv (q : Req) : Bool := decide ((q.maj = 0x38 ∨ q.maj = 0x39) ∧ q.lat = 20)

/-- The engine that an instruction needs is free (06 R156, 07 R184, R185); a stream's turn is tested with its tiles (08 R205). -/
def engineFree (q : Req) (s : State) : Bool :=
  q.maj == 0xA2 || q.maj == 0xA3 || coreTakes s.core s.clk s.gang.key.part q.maj (scalarDiv q)

/-- The fragment leaves the special-function unit to another partition in this clk, unless the scoreboard refuses that one (07 R184). -/
def sfuWait (s : State) : State :=
  { modCore (fun c => { c with sfuAsk := (s.gang.key, lowSlice s.frag) :: c.sfuAsk }) s with stalled := true }

/-- The engine takes the instruction (06 R156, 07 R184, R185). -/
def takeEngine (q : Req) (s : State) : State :=
  if q.maj = 0x2A ∨ q.maj = 0x2B then modCore (fun c => { c with div := s.clk + 8 }) s
  else if q.maj = 0x4C then modCore (fun c => { c with fp64 := s.clk + 4 }) s
  else if 0 < sfuTimes q.maj then
    modCore (fun c => { c with sfu := s.clk + sfuTimes q.maj * sfuPasses s, sfuLast := s.gang.key.part, sfuAt := s.clk }) s
  else if scalarDiv q then modCore (fun c => { c with parts := modNth c.parts s.gang.key.part fun p => { p with sdiv := s.clk + 4 } }) s
  else s

/-- The results of an instruction have a latency of their own (06 R155, 07 R183, 08 R210, 09 R215 to R228, 16 R361; 2 clk where the spec gives none,
log 5); the others are written when what they wait for arrives. -/
def hasLatency (maj : Nat) : Bool :=
  decide (maj < 0x80) || [0x8D, 0xA5, 0xAA, 0xB5, 0xB9, 0xBA, 0xD0, 0xD2, 0xD3, 0xD4, 0xD5, 0xD6, 0xD7, 0xD8, 0xD9, 0xDA, 0xDB, 0xDC, 0xDD].contains maj

/-- The pending tags of an instruction's results (05 R121). P0 holds no result: its tag says only that a MODE bit may come (09 R217). -/
def putTags (q : Req) (m : Word) (ready : Nat) (s : State) : State :=
  if !hasLatency q.maj then s
  else
    let rs := (q.vw.map RegName.v ++ q.sw.map RegName.s ++ q.pw.map RegName.p).filter fun r => (r != .p 0 || setsMode q) && !awaited s.gang r
    modGang (fun g => { g with tags := g.tags ++ rs.map fun r => ⟨r, herePos s, m, ready, setsMode q⟩ }) s

/-- Book an instruction as it issues: its lanes, its engine and the tags of its results (05 R121, 08 R208). -/
def book (q : Req) (m : Word) (s : State) : State :=
  let u := useOf q s
  match planOf u s with
  | none => s
  | some p => takeEngine q (putTags q m p.ready (takeLanes u p (gangFilter s s.gang) s))

/-- Carry out what an instruction came to. -/
def settle (q : Req) (m : Word) (old : State) : Eff → State
  | .done s => retire q.words (kittyFill q m (book q m s))
  | .moved count s =>
    let s := kittyFill q m (book q m s)
    let fr := s.frag
    askLeave (askRecon (noteIssue 1 (endYields old) (if count then modSplit fr (fun e => { e with sic := e.sic + 1 }) s else s)))
  | .stall s => giveUp s
  | .wait w s => askRecon (giveUp (modSplit s.frag (fun e => { e with wait := w }) s))
  | .hold w s => askRecon (modSplit s.frag (fun e => { e with wait := w }) (noteIssue 1 (endYields s) s))
  | .trap code info addr => takeTrap code info addr old

/-- The predicate that guards an instruction (02 R31). -/
def guardPred (s : State) (x : Option Guard) : Nat :=
  match x with
  | some g => if g.go then g.grd.toNat else hdrGrd (cur s).hdr
  | none => hdrGrd (cur s).hdr

/-- THE ISSUE OF AN INSTRUCTION of the gang in focus by its fragment: the checks of 04 R95 in their order, the stalls of
pending tags (05 R121), the kitty waits (02 R48), the engines and the scoreboard (13 R306, 08 R208), the death of lanes that consume an uncorrectable element (02 R40), and
then the instruction's own meaning `k`, which is given its execution mask (02 R31). -/
def issue (q : Req) (s : State) (k : Word → State → Eff) : State :=
  match preCheck q s with
  | some (code, info) => takeTrap code info 0 s
  | none =>
    let q := { q with pr := guardPred s q.x :: q.pr }
    let m := execMask s q.x
    if tagged q s then giveUp s
    else if kittyHolds q m s then settle q m s (.wait (.kitty q.vr q.vw m) s)
    else if !engineFree q s then giveUp s
    else if (planOf (useOf q s) s).isNone then giveUp (noteRefused s)
    else if controlErr q s then killBlock s.gang.blk (gangSink s s.gang 0x32 2 0 (herePos s) (Config.arrayNumber 1) 0) true s
    else
      let s := laneDeaths q m s
      let m := m &&& ~~~s.gang.dead
      if !s.gang.live then s else settle q m s (k m s)

/-- A new outstanding entry of the gang in focus: its number, and the state that holds it (17 R375). -/
def newPend (cls : Cls) (parts : Nat) (writes : List RegWrite) (modeSet : Bool) (s : State) : Nat × State :=
  let p : Pend := ⟨s.nextTag, cls, false, parts, writes, [], herePos s, modeSet, [], 1, false⟩
  (s.nextTag, modGang (fun g => { g with pend := g.pend ++ [p] }) { s with nextTag := s.nextTag + 1 })

/-- The counter of a class is at 63, so one more entry stalls (12 R269). -/
def full (s : State) (c : Cls) : Bool := decide (63 ≤ counter s.gang c)

/-- Pin the gang in focus (02 R57). -/
def pin (s : State) : State := modGang (fun g => { g with pinned := true }) s

end Sys2Proof.Machine
end

