-- ==== Sys2Proof/Machine/Operands.lean ====
section
/-! DEFINITION. Operand forms: requests of instructions by the registers they name, addresses of the memory forms
(12 R263, 04 R112), and elements of packed registers (03 R67). -/

namespace Sys2Proof.Machine

/-- A pair of registers. -/
def pair (r : Nat) : List Nat := [r, r + 1]

/-- `n` consecutive registers. -/
def regs (r n : Nat) : List Nat := (List.range n).map (r + ·)

/-- The request of a one-word instruction. -/
def req1 (maj : Nat) : Req := { maj := maj, words := 1, x := none }

/-- The request of an L form: two words, guarded by its clause (04 R99). -/
def reqL (maj : Nat) : Req := { maj := maj, words := 2, x := none }

/-- The request of an X form: two words and a guard of its own (04 R89). -/
def reqX (maj : Nat) (x : Guard) : Req := { maj := maj, words := 2, x := some x }

/-- The low `n` bits of a number, sign-extended (00 R7). -/
def sextN (x n : Nat) : Int := if n = 0 then 0 else if x % 2 ^ n < 2 ^ (n - 1) then (x % 2 ^ n : Nat) else (x % 2 ^ n : Nat) - 2 ^ n

/-- The value of a bit vector read as two's complement. -/
def sgn {w : Nat} (x : BitVec w) : Int := x.toInt

/-- Element `i` of a word in elements of `w` bits (03 R67). -/
def elemOf (x : Word) (w i : Nat) : Nat := fld x.toNat (w * i) w

/-- A word with element `i` of `w` bits replaced (03 R67). -/
def setElem (x : Word) (w i : Nat) (v : Nat) : Word :=
  BitVec.ofNat 32 (x.toNat - elemOf x w i * 2 ^ (w * i) + v % 2 ^ w * 2 ^ (w * i))

/-- The word whose elements of `w` bits are given by their index (03 R67). -/
def packElems (w : Nat) (f : Nat → Nat) : Word :=
  BitVec.ofNat 32 ((List.range (32 / w)).foldl (fun n i => n + f i % 2 ^ w * 2 ^ (w * i)) 0)

/-- The global address of lane `l` (12 R263). -/
def globalAddr (s : State) (a b : Nat) (off : Int) (k : Nat) (lo : Bool) (l : Nat) : DWord :=
  rdSS s a + (if lo then BitVec.ofNat 64 ((rdV s b l).toNat * 2 ^ k) else 0) + BitVec.ofInt 64 off

/-- The scratch or private offset of lane `l`: exact, it does not wrap (12 R263). -/
def laneOffset (s : State) (b : Nat) (off : Int) (l : Nat) : Int := ((rdV s b l).toNat : Int) + off

/-- The uniform base of global memory (12 R263). -/
def uniGlobal (s : State) (a : Nat) (off : Int) : DWord := rdSS s a + BitVec.ofInt 64 off

/-- The uniform base in a scratch space (12 R263): exact. -/
def uniOffset (s : State) (a : Nat) (off : Int) : Int := ((rdS s a).toNat : Int) + off

/-- The global address of private byte `o` of lane `l` (04 R112); S6:S7 as the gang started is the window's base. -/
def privateAddr (win : DWord) (o l : Nat) : DWord := win + BitVec.ofNat 64 (o / 4 * 128 + l * 4 + o % 4)

/-- OFF14 as a signed offset (12 R262). -/
def off14 (o : BitVec 14) : Int := sgn o

/-- The base of the private window of the gang in focus, and its bytes per lane (13 R295, 04 R112). -/
def privateWindow (s : State) : DWord × Nat :=
  match launchOf s.gang.blk.name s with
  | none => (0, 0)
  | some l => (l.info.privb + BitVec.ofNat 64 ((32 * s.gang.blk.idx + s.gang.gno) * l.info.priv * 32), l.info.priv)

/-- The bytes of scratch that the block in focus holds (10 R234). -/
def scratchSize (s : State) : Nat := s.block.size

/-- The gangs a block of the launch has (02 R42). -/
def blockGangs (l : Launch) : List Nat := (List.range 32).filter fun g => decide (g % 8 < l.info.crew) && decide (g / 8 < l.info.block)

/-- The launch of the gang in focus. -/
def ownLaunch (s : State) : Option Launch := launchOf s.gang.blk.name s

/-- The launch's progress class (02 R50); a supervisor crew's block counts as its record says. -/
def classOfLaunch (s : State) : ProgClass := ((ownLaunch s).map (·.info.cls)).getD .w

/-- Legality of a wait's scope (02 R51, R53). `ix` is the index of an EXTERNAL producer. -/
def scopeLegal (s : State) (sc : Scope) (ix : Nat) : Bool :=
  match sc with
  | .block => true
  | .lower => classOfLaunch s != .w
  | .launch => classOfLaunch s == .c
  | .ext =>
    match ownLaunch s with
    | none => false
    | some l =>
      match l.info.mays[ix]? with
      | none => false
      | some h => s.launches.any fun x =>
          decide (x.ctx = l.ctx) && decide (x.name % 2 ^ 48 = h.toNat % 2 ^ 48) && decide (x.info.cls = .c) &&
          decide (x.st = .admitted) && (allBlocks s).any fun b => b.key.name == x.name && (b.st == .resident || b.st == .starting)

/-- The scope's code, TRAPINFO of ILLEGAL_WAIT (18 R392). -/
def scopeInfo (sc : Scope) : Word := BitVec.ofNat 32 sc.code

/-- The outcome of an instruction: it issues by `issue` (04 R95). -/
def runs (q : Req) (s : State) (k : Word → State → Eff) : Host.Outcome State Fault Refusal := .next (issue q s k)

/-- An instruction that reads lane registers `rs` and writes one lane register in every lane of the execution mask; every
source is read before the destination is written (06 R126). -/
def laneOp (q : Req) (rs : List Nat) (d : Nat) (f : State → Nat → Word) (s : State) : Host.Outcome State Fault Refusal :=
  runs { q with vr := rs, vw := [d] } s fun m s => .done (wrV d m (f s) s)

/-- As `laneOp`, writing a pair. -/
def lanePairOp (q : Req) (rs : List Nat) (d : Nat) (f : State → Nat → DWord) (s : State) : Host.Outcome State Fault Refusal :=
  runs { q with vr := rs, vw := pair d } s fun m s => .done (wrVV d m (f s) s)

/-- An instruction that writes one predicate in every lane of the execution mask from lane registers and predicates. -/
def predOp (q : Req) (rs ps : List Nat) (d : Nat) (f : State → Nat → Bool) (s : State) : Host.Outcome State Fault Refusal :=
  runs { q with vr := rs, pr := ps, pw := [d] } s fun m s => .done (wrP d m (maskOf (f s)) s)

/-- An instruction that writes one scalar for the gang, when its execution mask holds a lane (05 R119). -/
def scalOp (q : Req) (d : Nat) (f : State → Word) (s : State) : Host.Outcome State Fault Refusal :=
  runs { q with sw := [d] } s fun m s => .done (if m = 0 then s else wrS d (f s) s)

/-- As `scalOp`, writing a pair. -/
def scalPairOp (q : Req) (d : Nat) (f : State → DWord) (s : State) : Host.Outcome State Fault Refusal :=
  runs { q with sw := pair d } s fun m s => .done (if m = 0 then s else wrSS d (f s) s)

end Sys2Proof.Machine
end

