-- ==== Sys2Proof/Machine/Flags.lean ====
section
/-! DEFINITION. Flag computations: the sticky bits of MODE (05 R117), integer conditions and their combination with a
predicate (06 R141), and clamping to an element type (06 R129). -/

namespace Sys2Proof.Machine

/-- The five IEEE flags of an operation (03 R78). -/
structure Fl where
  nv : Bool := false
  dz : Bool := false
  of : Bool := false
  uf : Bool := false
  nx : Bool := false
deriving DecidableEq, Repr

/-- No flag. -/
def Fl.nil : Fl := { nv := false, dz := false, of := false, uf := false, nx := false }

/-- The flags of two operations. -/
def Fl.or (a b : Fl) : Fl := ⟨a.nv || b.nv, a.dz || b.dz, a.of || b.of, a.uf || b.uf, a.nx || b.nx⟩

/-- MODE with the flags set: NV [7], DZ [8], OF [9], UF [10], NX [11] (05 R117). -/
def Fl.bits (f : Fl) : DWord :=
  BitVec.ofNat 64 (bnat f.nv * 2 ^ 7 + bnat f.dz * 2 ^ 8 + bnat f.of * 2 ^ 9 + bnat f.uf * 2 ^ 10 + bnat f.nx * 2 ^ 11)

/-- OR the flags of every element into MODE (03 R78). -/
def orFlags (fs : List Fl) (s : State) : State := orMode ((fs.foldl Fl.or Fl.nil).bits) s

/-- An integer condition on two exact values (06 R141). -/
def condHolds (c : CmpCond) (a b : Int) : Bool :=
  match c with
  | .eq => a == b
  | .ne => a != b
  | .lt => decide (a < b)
  | .le => decide (a ≤ b)
  | .gt => decide (b < a)
  | .ge => decide (b ≤ a)

/-- A word as a signed or unsigned value (06 R136). -/
def valOf (ty : Sgn) (x : Word) : Int :=
  match ty with
  | .i32 => sgn x
  | .ui32 => (x.toNat : Int)

/-- How a comparison combines with Pc (06 R141). -/
def combine (cb : Comb) (cond pc : Word) : Word :=
  match cb with
  | .none => cond
  | .and => cond &&& pc
  | .or => cond ||| pc

/-- Bits of an element type, and whether it is signed (06 R129). -/
def packShape : PackTy → Nat × Bool
  | .i32 => (32, true)
  | .ui32 => (32, false)
  | .i16x2 => (16, true)
  | .ui16x2 => (16, false)
  | .i8x4 => (8, true)
  | .ui8x4 => (8, false)

/-- The value of an element of `w` bits. -/
def elemVal (w : Nat) (signed : Bool) (n : Nat) : Int := if signed then sextN n w else (n % 2 ^ w : Nat)

/-- Clamp to the range of `w` bits, signed or unsigned. -/
def clampTo (w : Nat) (signed : Bool) (x : Int) : Int :=
  let lo : Int := if signed then -(2 ^ (w - 1)) else 0
  let hi : Int := if signed then 2 ^ (w - 1) - 1 else 2 ^ w - 1
  if x < lo then lo else if hi < x then hi else x

/-- The low `w` bits of an integer. -/
def wrapTo (w : Nat) (x : Int) : Nat := (x % (2 ^ w : Nat)).toNat

/-- Apply an operation to each element pair of two packed words (06 R129). -/
def packedMap (ty : PackTy) (f : Int → Int → Int) (a b : Word) : Word :=
  let (w, sg) := packShape ty
  packElems w fun i => wrapTo w (f (elemVal w sg (elemOf a w i)) (elemVal w sg (elemOf b w i)))

/-- Division as 03 R79 gives it: quotient and remainder; a zero divisor gives all ones and the dividend, and signed
overflow wraps. -/
def divRem (signed : Bool) (a b : Word) : Word × Word :=
  if b = 0 then (0xFFFFFFFF, a)
  else if signed then (BitVec.ofInt 32 (a.toInt.tdiv b.toInt), BitVec.ofInt 32 (a.toInt.tmod b.toInt))
  else (a / b, a % b)

end Sys2Proof.Machine
end

