-- ==== Sys2Proof/Machine/Redundant.lean ====
section
/-! DEFINITION. Redundant execution as an instruction meets it: fold records and signatures (19 R410 to R412), release
points (19 R413, R414), and values that the primary forwards (19 R419). -/

namespace Sys2Proof.Machine

/-- Live replicas of the block of the gang in focus number two or more (19 R409). -/
def folding (s : State) : Bool := decide (2 ≤ s.block.nrep)

/-- The gang in focus is in a forwarded replay: until its next IDEM (19 R420). -/
def inReplay (s : State) : Bool := s.block.replay && lane s.block.rolled s.gang.gno

/-- One bit of CRC-64 (19 R411). -/
def crcBit (sig : DWord) : DWord := if sig.getLsbD 63 then (sig <<< 1) ^^^ 0x42F0E1EBA9EA3693 else sig <<< 1

/-- One byte of CRC-64 (19 R411). -/
def crcByte (sig : DWord) (b : Byte) : DWord :=
  let x := sig ^^^ (b.zeroExtend 64 <<< 56)
  crcBit (crcBit (crcBit (crcBit (crcBit (crcBit (crcBit (crcBit x)))))))

/-- A fold record (19 R410). -/
structure FoldRec where
  addr : Nat
  mask : Nat
  tag : Nat
  maj : Nat
  sub : Nat
  data : Word

/-- The bytes of a fold record (19 R410). -/
def FoldRec.bytes (r : FoldRec) : List Byte :=
  leBytes 8 r.addr ++ leBytes 4 (r.mask % 16 + r.tag % 256 * 2 ^ 4 + r.maj % 256 * 2 ^ 12 + r.sub % 32 * 2 ^ 20) ++ leBytes 4 r.data.toNat

/-- A record folded into a signature (19 R411). -/
def fold (sig : DWord) (r : FoldRec) : DWord := r.bytes.foldl crcByte sig

/-- Records folded into SIGS, in order, in a gang of a redundant launch (19 R409). -/
def foldS (rs : List FoldRec) (s : State) : State :=
  if folding s then modGang (fun g => { g with sigs := rs.foldl fold g.sigs }) s else s

/-- Records folded into SIGL, in order, in a gang of a redundant launch (19 R409, R420). -/
def foldL (rs : List FoldRec) (s : State) : State :=
  if folding s then modGang (fun g => { g with sigl := rs.foldl fold g.sigl }) s else s

/-- The words that bytes from an address touch: one record a word, with the bytes in their place (19 R410). -/
def wordRecs (maj sub tag addr : Nat) (bs : List Byte) : List FoldRec :=
  (List.range ((addr % 4 + bs.length + 3) / 4)).map fun w =>
    let base := addr / 4 * 4 + 4 * w
    let has := fun i => decide (addr ≤ base + i) && decide (base + i < addr + bs.length)
    let byte := fun (i : Nat) => if has i then (bs.getD (base + i - addr) 0).toNat * 2 ^ (8 * i) else 0
    ⟨base, bnat (has 0) + 2 * bnat (has 1) + 4 * bnat (has 2) + 8 * bnat (has 3), tag, maj, sub,
      BitVec.ofNat 32 (byte 0 + byte 1 + byte 2 + byte 3)⟩

/-- Cells added to a list in ascending order. -/
def addCells (cs l : List (Nat × Byte)) : List (Nat × Byte) := cs.foldl (fun l c => insertCell l c.1 c.2) l

/-- Bytes in ascending order as the records of their words, each word once (19 R410, R411). -/
def cellRecs (maj sub tag : Nat) (cs : List (Nat × Byte)) : List FoldRec :=
  (uniq (cs.map fun c => c.1 / 4)).map fun w =>
    let byte := fun (i : Nat) => ((cs.find? fun c => c.1 == 4 * w + i).map (·.2)).elim 0 (·.toNat)
    let has := fun (i : Nat) => bnat (cs.any fun c => c.1 == 4 * w + i)
    ⟨4 * w, has 0 + 2 * has 1 + 4 * has 2 + 8 * has 3, tag, maj, sub, BitVec.ofNat 32 (byte 0 + byte 1 * 2 ^ 8 + byte 2 * 2 ^ 16 + byte 3 * 2 ^ 24)⟩

/-- An operand record (19 R412). -/
def opRec (maj sub kind addr : Nat) (data : Word) : FoldRec := ⟨addr, 15, kind, maj, sub, data⟩

/-- The address that marks a team-scratch offset in a record (19 R410). -/
def tsMark (off : Nat) : Nat := off + 2 ^ 63

/-- The SUB field of an instruction's word 1 (04 R89). -/
def subField (i : Instr) : Nat := fld ((encode i).getD 1 0) 14 5

/-- The gang in focus belongs to its block's primary. -/
def isPrimary (s : State) : Bool := (primaryOf s s.gang.blk.name s.gang.blk.idx).any fun b => b.key == s.gang.blk

/-- The gangs of the other replicas that correspond to the gang in focus. -/
def counterparts (s : State) : List Gang :=
  (allGangs s).filter fun g => g.blk.name == s.gang.blk.name && g.blk.idx == s.gang.blk.idx && g.gno == s.gang.gno && g.blk.rep != s.gang.blk.rep

/-- Send a comparison record of the gang in focus to the core of its block's primary (19 R414): the vote is taken 4 clk
after the last record arrives. A kind of 32 or more is that of a copy into global memory, whose record shows 13. -/
def sendRecord (kind : Nat) (s : State) : State :=
  let g := s.gang
  let way : Nat := match primaryOf s g.blk.name g.blk.idx with
    | some p => transit s.block p
    | none => 0
  let r : VoteRec := ⟨g.blk.rep, g.sigs, g.sigl, g.sigk, kind % 32, herePos s, s.clk + way⟩
  let mine := fun (v : Vote) => v.name == g.blk.name && v.blk == g.blk.idx && v.gno == g.gno && v.verdict.isEmpty
  let old := (s.votes.find? mine).getD ⟨g.blk.name, g.blk.idx, g.gno, [], [], 0⟩
  let v := { old with recs := old.recs.filter (fun x => x.rep != r.rep) ++ [r] }
  let s := { s with votes := v :: s.votes.filter fun x => !mine x }
  let s := modGang (fun g => { g with rel := .sent kind (lowSlice s.frag) }) s
  if (voters s g.blk.name g.blk.idx).length ≤ v.recs.length then askVote v s else s

/-- The gang no longer stands behind a verdict. -/
def relDone (s : State) : State := modGang (fun g => { g with rel := .none }) s

/-- An instruction past its release point: the gang stands there no longer once it goes on or waits. -/
def Eff.past : Eff → Eff
  | .done s => .done (relDone s)
  | .moved c s => .moved c (relDone s)
  | .wait w s => .wait w (relDone s)
  | .hold w s => .hold w (relDone s)
  | .stall s => .stall s
  | .trap c i a => .trap c i a

/-- A release point (19 R413, R414): in a redundant launch the gang folds its records, sends its comparison record and
stalls until the verdict; at a match, and at once in any other launch, the instruction goes on, and is told whether this
replica performs what is performed once (19 R419). -/
def releasePoint (kind : Nat) (recs : List FoldRec) (s : State) (k : Bool → State → Eff) : Eff :=
  match s.gang.rel with
    | .none => if !folding s then k true s else .stall (sendRecord kind (foldS recs s))
    | .sent .. => .stall s
    | .matched p _ => (k p s).past

/-- The primary forwards the values of the instruction at a code position to the counterparts of its gang: they arrive one
transit after the effect is complete, `lat` clk from now (19 R419). -/
def forwardAt (pos : Word) (lat : Nat) (vals : List Word) (s : State) : State :=
  if !folding s then s
  else (counterparts s).foldl (fun s g =>
    match blockOf g.blk s with
    | some b => later (lat + transit s.block b) .none (.forwardArrival g.key (pos :: vals)) s
    | none => s) s

/-- The primary forwards values of the instruction at which it stands (19 R419). -/
def forward (lat : Nat) (vals : List Word) (s : State) : State := forwardAt (herePos s) lat vals s

/-- Split a list at the first entry forwarded for a position. -/
def takeFwd (pos : Word) : List (List Word) → Option (List Word × List (List Word))
  | [] => none
  | v :: t => if v.headD 0 = pos then some (v.drop 1, t) else (takeFwd pos t).map fun r => (r.1, v :: r.2)

/-- As `takeFwd`, of the values forwarded for a position that have a property. -/
def takeFwdBy (pos : Word) (p : List Word → Bool) : List (List Word) → Option (List Word × List (List Word))
  | [] => none
  | v :: t => if v.headD 0 = pos && p (v.drop 1) then some (v.drop 1, t) else (takeFwdBy pos p t).map fun r => (r.1, v :: r.2)

/-- The primary's values for the instruction at which the gang stands have arrived. -/
def fwdReady (s : State) : Bool := (takeFwd (herePos s) s.gang.fwd).isSome

/-- Values for the instruction at which the gang stands have arrived, or are on their way. -/
def fwdComing (s : State) : Bool :=
  fwdReady s || s.agenda.any fun d => match d.ev with
    | .forwardArrival k (p :: _) => k == s.gang.key && p == herePos s
    | _ => false

/-- The gang takes the values that another replica forwards, and makes none (19 R419): it is not its block's primary, or it has
become it behind a primary that was lost. -/
def takesValues (s : State) : Bool := folding s && (!isPrimary s || fwdComing s)

/-- A replica that takes the primary's values: it stalls until they have arrived (19 R419). -/
def takeForward (s : State) (k : List Word → State → Eff) : Eff :=
  match takeFwd (herePos s) s.gang.fwd with
  | none => .stall s
  | some (v, t) => k v (modGang (fun g => { g with fwd := t }) s)

/-- A value that the primary alone makes and forwards (09 R224, 19 R419): the primary's own, or the value forwarded. -/
def onceValue (s : State) (make : State → List Word × State) (k : List Word → State → Eff) : Eff :=
  if takesValues s then takeForward s k
  else
    let r := make s
    k r.1 (forward 0 r.1 r.2)

end Sys2Proof.Machine
end

