-- ==== Sys2Proof/Machine/Clock.lean ====
section
/-! DEFINITION. Which fragment issues next (13 R306), fetching (04 R89, 15 R349), what one clk changes (17 R383, 13 R306,
11 R251, 10 R241), and placing one instruction where the next step fetches (log 9). -/

namespace Sys2Proof.Machine

/-- What stands where the issuing fragment stands. -/
inductive Fetched where
  | header (h : Word)
  /-- The first word past the end of the image (04 R88). -/
  | past (pos : Word)
  /-- The first instruction of a clause that the gang's role bars (02 R45). -/
  | barred (cls : Nat)
  | illegal
  | instr (i : Instr)

/-- Fetch and decode at the position of the issuing fragment; a header position past the end reads as no header. -/
def fetched (s : State) : Fetched :=
  let c := s.gang.ctx.toNat
  if (cur s).ix = 0 then .header (BitVec.ofNat 32 ((fetchWord s c (cur s).pc).getD 0))
  else
    let next := posAdd (herePos s) 1
    match fetchWord s c (herePos s), fetchWord s c next with
    | none, _ => .past (herePos s)
    | some w0, w1 =>
      if !roleMay s.gang.role (hdrCls (cur s).hdr) then .barred (hdrCls (cur s).hdr)
      else if w1.isNone && wordsOf (w0 % 256) == some 2 then .past next
      else match decodeBytes (leBytes 4 w0 ++ leBytes 4 (w1.getD 0)) with
      | .ok (i, _) => .instr i
      | .error _ => .illegal

/-- Bring a fragment into focus for its issue. -/
def ready (k : GangKey) (fr : BitVec 8) (s : State) : State :=
  { focusGang k s with frag := fr, stalled := false }

/-- Bring the subject of an event into focus. -/
def focusOn (u : Subj) (s : State) : State :=
  match u with
  | .none => s
  | .gang k => focusGang k s
  | .block b => focusBlock b s
  | .core d c => focusDie d (focusCore d c s)

/-- A partition that DBGCTL.HALT shows as halted (05 R123): it stays so to DBGST while a single step is armed. -/
def Part.stopped (p : Part) : Bool := p.halted && !p.stepping

/-- Some member of a set of gangs of a block stands on a halted partition (17 R384). -/
def memberHalted (s : State) (b : BlockKey) (m : Word) : Bool :=
  (gangsOf b s).any fun g => lane m g.gno && (nth Part.reset (coreOf g.key.die g.key.core s).parts g.key.part).stopped

/-- The wait of a slice goes on in this clk, and counts as blocked (17 R382 to R384, 18 R402): an EXTERNAL wait's producer is a launch of
the gang's own context. -/
def waitCounts (s : State) (g : Gang) (e : SplitEntry) : Bool :=
  !waitOver s g e && match e.wait with
    | .bar n _ _ => !((blockOf g.blk s).any fun b =>
        let x := nth Barrier.reset b.bars n
        memberHalted s g.blk (x.curm ||| x.lastm))
    | .ring n _ => !((blockOf g.blk s).any fun b => memberHalted s g.blk (look b.ringMem n))
    | .value _ _ _ ext held => !held && !(ext && (ctxOf g.ctx.toNat s).suspended)
    | .task ext own => own && !(ext && (ctxOf g.ctx.toNat s).suspended)
    | _ => true

/-- The starvation timer of a gang counts in this clk (02 R54, 17 R383): none runs while the gang stalls at a release point (19 R414). -/
def timerRuns (s : State) (g : Gang) : Bool :=
  g.live && g.park.isNone && (match g.rel with | .sent .. => false | _ => true) &&
  !(nth Part.reset (coreOf g.key.die g.key.core s).parts g.key.part).stopped && decide ((coreOf g.key.die g.key.core s).pause ≤ s.clk) &&
  (List.range g.slices).any fun k => waitCounts s g (entryOf g k)

/-- One clk of a slice that WAIT, BAR or GROW holds (17 R377, R380, 09 R219): it passes once its wait has ended, so that its next instruction may issue in
the clk after, and takes no other issue. -/
def passWait (s : State) (g : Gang) (e : SplitEntry) : SplitEntry :=
  if e.st ≠ .ready then e
  else match e.wait with
  | .counters .. => if waitOver s g e then e.behind 2 s.clk else e
  | .grow .. => if waitOver s g e then e.behind 1 s.clk else e
  | .bar n ph _ => if (blockOf g.blk s).any fun b => !(nth Barrier.reset b.bars n).holds ph s.clk then e.behind 2 s.clk else e
  | _ => e

/-- One clk of a gang: its timer counts while a wait does, and returns to 0 once no slice waits any more; DESIGN CHOICE where one of
several waits has ended (log 85). Slices pass the WAIT, BAR or GROW whose wait has ended, and a fragment that could have issued counts towards
its boost (13 R306). -/
def tickGang (s : State) (g : Gang) : Gang :=
  let waits := (List.range g.slices).any fun k => !waitOver s g (entryOf g k)
  let t := if timerRuns s g then g.timer + 1 else if waits then g.timer else 0
  let able := gangAble s g
  let bump := fun (k : Nat) =>
    let e := entryOf g k
    let e := if able && couldIssue s g k && !s.went.contains (g.key, k) then { e with elig := e.elig + 1 } else { e with elig := 0 }
    if able then passWait s g e else e
  { g with
    timer := t
    split := (List.range g.split.length).map bump
    late := []
    tagged := g.tagged.filter fun t => posAdd (entryOf g t.slice).pc (entryOf g t.slice).ix == t.pos
    tags := g.tags.filter fun t => decide (s.clk + 1 < t.clk) }

/-- A fragment of the gang was eligible in the clk that ends and did not issue: its partition issued another (17 R386). -/
def outranked (s : State) (g : Gang) : Bool :=
  s.spent.contains (g.key.die, g.key.core, g.key.part) && gangAble s g && (readyFrags g).any fun f =>
    couldIssue s g f.1 && !s.gaveUp.contains (g.key, f.1) &&
    (nth Part.reset (coreOf g.key.die g.key.core s).parts g.key.part).last != some (g.key.slot, f.1)

/-- One clk of a vote's wait for its records (19 R421): it pauses while a replica of the block is halted. -/
def tickVote (s : State) (v : Vote) : Vote :=
  let halted := (voters s v.name v.blk).any fun b => memberHalted s b.key 0xFFFFFFFF
  if v.verdict.isEmpty && v.recs.any (fun r => decide (r.arrives ≤ s.clk)) && !halted then { v with waited := v.waited + 1 } else v

/-- A vote has waited STRVT clk for its records, by the die of its block's primary (19 R421). -/
def voteLate (s : State) (v : Vote) : Bool :=
  v.verdict.isEmpty && (primaryOf s v.name v.blk).any fun b => decide ((dieOf b.die s).strvt.toNat ≤ v.waited)

/-- Events that the clk makes due, by their subjects. -/
def clockEvents (s : State) : List (Subj × Instr) :=
  let gangs := allGangs s
  let cores := allCores s
  let dies := allDies s
  (gangs.filter fun g => decide ((dieOf g.key.die s).strvt.toNat ≤ g.timer)).map (fun g => (.gang g.key, .starvationTimerExpiry)) ++
  (gangs.flatMap fun g => (reconDue g).map fun r => (.gang g.key, .reconvergenceRelease g.key (BitVec.ofNat 32 r))) ++
  (gangs.flatMap fun g => (List.range g.slices).filterMap fun k =>
    if 64 ≤ (entryOf g k).elig ∧ (entryOf g k).boost.isNone then some (.none, .boost g.key k) else none) ++
  (cores.filter fun c => c.muck.any fun e => e.writes && decide (e.clk + Config.sw ≤ s.clk)).map
    (fun c => (.none, .quarantineRelease c.die c.core)) ++
  (s.votes.filter (voteLate s)).map (fun v => (.none, .replicaRecordTimeout v.name v.blk v.gno)) ++
  (if s.clk % tickClk = 0 then cores.map fun c => (.core c.die c.core, .lclkTick) else []) ++
  (dies.filter fun d => decide ((s.clk - d.wsOrigin) % 8192 = 0) || decide ((s.clk - d.wsOrigin) % 8192 = 2048)).map
    (fun d => (.core d.die 0, .wsRefreshWindow)) ++
  (dies.filter fun d => !natb (d.balcfg.toNat / 2 ^ 24) && decide (s.clk % max 256 (d.balcfg.toNat % 65536) = 0)).map
    (fun d => (.none, .balanceTick d.die)) ++
  (if s.clk % 4096 = 0 then (dies.filter fun d => d.queues.any fun q => !q.isEmpty).map fun d => (.none, .dependencePoll d.die) else []) ++
  (if s.clk % 2 ^ 32 = 0 then [(.none, .lifetimeFold)] else []) ++
  (cores.flatMap fun c =>
    (if (dieOf c.die s).retnScr && !c.scr.retained && c.scr.busy.isNone && decide (c.scr.last + 65536 ≤ s.clk) then [(.none, .retentionEntry c.die c.core false)] else []) ++
    (if (dieOf c.die s).retnAccs && !c.accr.retained && c.accr.busy.isNone && decide (c.accr.last + 65536 ≤ s.clk) then [(.none, .retentionEntry c.die c.core true)] else []))

/-- THE NEXT CLK: nothing can issue any more in this one. -/
def tick (s : State) : State :=
  let s' := mapGangs (tickGang s) { s with clk := s.clk + 1 }
  let busy := fun (c : Core) => ((allGangs s).filter fun g => g.key.die == c.die && g.key.core == c.core && timerRuns s g).foldl
    (fun c g => perfAdd 9 (gangFilter s g) 1 c) c
  let unit := fun (c : Core) => if s.clk < c.sfu then perfAdd 23 0 1 c else c
  let passed := fun (c : Core) => ((allGangs s).filter fun g => g.key.die == c.die && g.key.core == c.core && outranked s g).foldl
    (fun c g => perfAdd 5 (gangFilter s g) 1 c) c
  let s' := mapCores (fun c => Core.prune (passed (unit (busy (perfAdd 1 0 1 c)))) s'.clk) s'
  let s' := { s' with spent := [], gaveUp := [], refused := [], went := [], votes := s'.votes.map (tickVote s) }
  (clockEvents s').foldl (fun s e => later 0 e.1 e.2 s) s'

/-- Where `withFetchWord` places an image: the firmware data of home 0 (16 R353). -/
def placeBase : Nat := Config.reservedBase + 0x03000000

/-- The role that may issue clauses of a class (02 R44). -/
def roleFor (c : EngClass) : Role :=
  match c with
  | .mtx => .matrix
  | .cpy => .copy
  | _ => .vector

/-- A clause header of one instruction, of a class, that waits for nothing (04 R85, R87). -/
def plainHeader (c : EngClass) : Word := BitVec.ofNat 32 (0x007F81F1 + c.code * 2 ^ 12)

/-- A launch record of one gang without memory of its own. -/
def plainRecord : LaunchRec :=
  ⟨.c, 0, 16, 1, 1, 1, 1, 16, true, true, true, 0, 0, 0xFF, 0xFF, 0, 0, 0, 0, noPos, 0, 1, List.replicate 8 0, 0, 0, 0, 0, 0, 8, 32, [], []⟩

/-- One instruction where the next step fetches it (log 9): a version of context 0 in home 0 holds a clause of it alone,
and a firmware gang with 32 lanes, whose block holds the array state, stands behind that clause's header, in a core whose ports and
engines are free. -/
def placeWord (s : State) (nbits w : Nat) : State :=
  let bs := leBytes 8 (w % 2 ^ nbits)
  let cls := classOf (w % 256)
  let h := plainHeader cls
  let k : GangKey := ⟨(enabledDies s).headD 0, 0, 0, 0⟩
  let b : BlockKey := ⟨0, 0, 0⟩
  let v : Ver := ⟨0, BitVec.ofNat 64 placeBase, 3, 0, 0, 0, 2, true, 0, [placeBase / 65536]⟩
  let l : Launch := ⟨0, 0, 0, plainRecord, 0, .admitted, [k.die], [(k.die, 0)], [0], [1], 0, true, [], false, 0, some k.die, (0, 0), [], 0⟩
  let e : SplitEntry := ⟨0, noPos, true, .ready, 0, 1, 1, h, 0, .none, s.clk, 0, none⟩
  let g : Gang := { Gang.vacant k with
    live := true, blk := b, level := .firmware, role := roleFor cls, regs := 16, mode := 1, active := 0xFFFFFFFF,
    trapvec := noPos, split := List.replicate 8 e, s := [] }
  let s := focusDie k.die (focusCore k.die 0 { s with gang := g, gangs := [], inbox := [], upsets := [], csrq := [], agenda := [], spent := [], gaveUp := [], refused := [], went := [] })
  { s with
    core := { s.core with pause := 0, up := [], down := [], div := 0, fp64 := 0, sfu := 0, streams := [], sfuAsk := [], parts := List.replicate 4 Part.reset }
    resyncs := []
    block := { Block.vacant with key := b, st := .resident, die := k.die, core := 0, gangs := 1, size := 98304, array := true, twin := true },
    blocks := [], launches := [l], contexts := [⟨0, none, [v], 1, false⟩],
    mem := writeBytes s.mem placeBase (leBytes 4 h.toNat ++ bs) }

end Sys2Proof.Machine
end

