-- ==== Sys2Proof/Machine/Access.lean ====
section
/-! DEFINITION. Memory accesses of the memory instructions: their elements and checks (12 R263 to R265), translation and
parking (12 R266, R475, R476), deferred store faults (12 R267), loads, held stores (12 R270), and transactional
accesses (12 R283 to R285). -/

namespace Sys2Proof.Machine

/-- What a memory form addresses: global memory, the private window, and the scratch spaces. -/
inductive Tgt where
  | glob | priv | core | ts | ws
deriving DecidableEq, Repr

/-- One element of an access: its lane, its address (a global address, or an exact offset), its size, where a load's data
goes, and a store's bytes. -/
structure Elem where
  lane : Nat
  addr : Int
  size : Nat
  dst : LoadDst
  bytes : List Byte

/-- The global address of byte offset `o` of lane `l` in the private window (04 R112). -/
def privAddr (s : State) (o : Int) (l : Nat) : DWord :=
  (privateWindow s).1 + BitVec.ofInt 64 (o / 4 * 128 + l * 4 + o % 4)

/-- The global address of an element, or its offset in a scratch space. -/
def Elem.place (s : State) (t : Tgt) (e : Elem) : DWord :=
  if t = .priv then privAddr s e.addr e.lane else BitVec.ofInt 64 e.addr

/-- The translation that the home of an element answers (10 R231). -/
def Elem.answer (s : State) (t : Tgt) (a : Access) (e : Elem) : Xlate :=
  xlate s s.gang.ctx.toNat (podsetOf s s.gang.blk.name) (e.place s t) a

/-- The limit of a space, and the code of an access beyond it (12 R265). -/
def spaceLimit (s : State) (t : Tgt) : Nat × Nat :=
  match t with
  | .glob => (0, 0)
  | .priv => ((privateWindow s).2, 0x13)
  | .core => (scratchSize s, 0x13)
  | .ts => (s.die.tsize, 0x14)
  | .ws => (Config.wsBytes, 0x13)

/-- An element lies inside its space. -/
def Elem.inside (s : State) (t : Tgt) (e : Elem) : Bool :=
  t == .glob || (decide (0 ≤ e.addr) && decide (e.addr + e.size ≤ ((spaceLimit s t).1 : Int)))

/-- A trap for the elements that fail a check: the mask of their lanes, and the place of the one in the lowest lane. -/
def badTrap (code : Nat) (show' : Elem → DWord) (bad : List Elem) : Option (Nat × Word × DWord) :=
  ((bad.map (·.lane)).min?).bind fun l => (bad.find? fun e => e.lane == l).map fun e =>
    (code, maskOf fun k => bad.any fun b => b.lane == k, show' e)

/-- Watchpoints are enabled on the gang's partition (05 R123 DBGCTL.WPEN). -/
def wpOn (s : State) : Bool := (nth Part.reset s.core.parts s.gang.key.part).wpen

/-- The watchpoint slot that bytes of global memory meet (09 R228, 18 R405). -/
def wpHit (s : State) (ld st : Bool) (va : DWord) (n : Nat) : Option Nat :=
  (List.range 2).find? fun i =>
    let w := nth (0, 0, 0) s.core.wps i
    ((st && natb w.2.1) || (ld && natb (w.2.1 / 2))) && decide (w.1.toNat < va.toNat + n) && decide (va.toNat < w.1.toNat + 2 ^ w.2.2)

/-- The checks 2 to 5 of 12 R265 over the elements of an instruction, and the watchpoints of 18 R405. `ld` and `st` say
what the access does. -/
def accessTrap (s : State) (t : Tgt) (ld st : Bool) (align : Nat) (es : List Elem) : Option (Nat × Word × DWord) :=
  let place := fun (e : Elem) => e.place s t
  let off := fun (e : Elem) => if t = .priv then BitVec.ofInt 64 e.addr ||| (1 <<< 63) else BitVec.ofInt 64 e.addr
  let global := t == .glob || t == .priv
  let r2 := badTrap 0x12 place (es.filter fun e => decide (e.addr % (align : Int) ≠ 0))
  let r3 := badTrap 0x10 place (es.filter fun e => global && e.inside s t && (e.answer s t .load == .noHome))
  let r4 := badTrap (spaceLimit s t).2 off (es.filter fun e => !e.inside s t)
  let r5 := if t = .ws ∧ st then badTrap 0x15 off es else none
  let hits := if global && wpOn s then es.filter fun e => (wpHit s ld st (place e) e.size).isSome else []
  let r6 := (badTrap 0x53 place hits).map fun r =>
    (r.1, BitVec.ofNat 32 ((hits.findSome? fun e => if place e == r.2.2 then wpHit s ld st (place e) e.size else none).getD 0), r.2.2)
  r2.or (r3.or (r4.or (r5.or r6)))

/-- What an element of global memory comes to at its home. -/
inductive Found where
  /-- The keys of its bytes. -/
  | at' (keys : List Nat)
  | miss (home : Nat) (striped : Bool) (gran : Nat)
  | bad (home code : Nat)
  | remote (home link : Nat) (pctx : Nat) (pva : DWord)

/-- An element of global memory resolved at its home: a miss that the walker has answered with a fault is that fault
(16 R361). -/
def Elem.seek (s : State) (t : Tgt) (a : Access) (e : Elem) : Found :=
  match e.answer s t a with
  | .noHome => .bad 0 0x10
  | .fault h c => .bad h c
  | .remote h l c v => .remote h l c v
  | .ok _ k => .at' ((List.range e.size).map (k + ·))
  | .miss h st g =>
    match s.gang.answers.find? fun x => x.home == h && x.ctx == s.gang.ctx.toNat && x.striped == st && x.gran == g with
    | some x => .bad h x.code
    | none => .miss h st g

/-- As `Elem.seek`, and a write to a bound frame is CODE_WRITE (15 R349). -/
def Elem.find (s : State) (t : Tgt) (a : Access) (e : Elem) : Found :=
  match e.seek s t a with
  | .at' ks => if (a = .store ∨ a = .atomic) ∧ boundFrame s (ks.headD 0) then .bad (homeOfKey (ks.headD 0)) 0x19 else .at' ks
  | f => f

/-- Ask a home about a granule that an access missed on, unless the gang waits there already (16 R359). -/
def askHome (h : Nat) (striped : Bool) (gran : Nat) (s : State) : State :=
  let c := s.gang.ctx.toNat
  let w : Waiter := ⟨s.gang.key, none⟩
  let waits := (homeOf h s).recs.any fun r => r.ctx == c && r.striped == striped && r.gran == gran && r.waiters.contains w
  let asked := s.agenda.any fun d => decide (d.ev = .tlbMiss h c striped gran w) || decide (d.ev = .translationRetry h c striped gran w)
  if waits || asked then s else later 0 .none (.tlbMiss h c striped gran w) s

/-- Ask about every missing granule. -/
def askAll (fs : List Found) (s : State) : State :=
  fs.foldl (fun s f => match f with | .miss h st g => askHome h st g s | _ => s) s

/-- The homes translate the elements of an access (16 R358). -/
def useAll (t : Tgt) (es : List Elem) (s : State) : State := es.foldl (fun s e => useEntry false s.gang.ctx.toNat (e.place s t) s) s

/-- Some element misses. -/
def anyMiss (fs : List Found) : Bool := fs.any fun f => match f with | .miss .. => true | _ => false

/-- FENCE holds the gang's memory instructions (12 R290): earlier remote accesses of a selected kind are not performed. -/
def fenced (s : State) : Bool :=
  (s.gang.fenceLd && s.remotes.any fun r => r.gang == s.gang.key && r.engine.isNone && !r.write) ||
  (s.gang.fenceSt && (s.remotes.any fun r => r.gang == s.gang.key && r.engine.isNone && r.write))

/-- A retained array of the core in focus begins to leave retention (10 R245). -/
def leaveRetention (acc : Bool) (s : State) : State :=
  let x : Retain := ⟨s.clk, true, some (s.clk + 1536)⟩
  later 1536 .none (.retentionExit s.core.die s.core.core acc) (modCore (fun c => if acc then { c with accr := x } else { c with scr := x }) s)

/-- The array of a core that retention governs is ready for an access; else the state in which it goes on towards being
ready (10 R245). -/
def retainStep (acc : Bool) (s : State) : Option State :=
  let r := if acc then s.core.accr else s.core.scr
  let leave := leaveRetention acc s
  match r.retained, r.busy with
  | false, none => none
  | false, some t => some (if t ≤ s.clk then leave else s)
  | true, none => some leave
  | true, some _ => some s

/-- An instruction stalls on retention (17 R386). -/
def retainStall (s : State) : State := modCore (perfAdd 30 (gangFilter s s.gang) 1) s

/-- Note an access to an array that retention governs (10 R245). -/
def touchArray (acc : Bool) (s : State) : State :=
  modCore (fun c => if acc then { c with accr := { c.accr with last := s.clk } } else { c with scr := { c.scr with last := s.clk } }) s

/-- WSREF.PHASE of the die in focus (10 R241). -/
def wsPhase (s : State) : Nat := (s.clk - s.die.wsOrigin) % 262144

/-- The bank of a weight-store byte is refreshing (10 R241). -/
def wsRefreshing (s : State) (a : Nat) : Bool :=
  decide (8192 * (a / 2 ^ 22) ≤ wsPhase s) && decide (wsPhase s ≤ 8192 * (a / 2 ^ 22) + 2047)

/-- Reads of the weight store stall: a refreshing bank (10 R241), or a WSLD under way (10 R242). -/
def wsStalls (s : State) (offs : List Nat) : Bool := decide (0 < s.die.wsld) || offs.any (wsRefreshing s)

/-- An MST of the gang that has issued has still to write some byte of the range (08 R206). -/
def mstPending (s : State) (sp : Space) (a n : Nat) : Bool :=
  s.gang.pend.any fun p => !p.fin && p.bytes.any fun b => decide (b.1 = sp) && decide (a ≤ b.2.1) && decide (b.2.1 < a + n)

/-- The clk that an access to scratch takes beyond its first: the distinct words that one bank has to serve, less one; team scratch has
such banks in each die-cache way (10 R234, R238, 12 R277). -/
def bankWait (ts : Bool) (es : List Elem) : Nat :=
  let words := uniq (es.flatMap fun e => (List.range ((e.addr.toNat % 4 + e.size + 3) / 4)).map fun i => e.addr.toNat / 4 + i)
  let bank := fun (w : Nat) => (w % 32, if ts then w / 2 ^ 18 else 0)
  ((words.map fun w => (words.filter fun x => bank x == bank w).length).max?).getD 1 - 1

/-- The register writes that the bytes of a load make (12 R272 to R276). -/
def dstWrites (s : State) (d : LoadDst) (bs : List Byte) : List RegWrite :=
  let n := leNat bs
  match d with
  | .none => []
  | .lane r l size signed =>
    if size ≤ 4 then [.lane r l (if signed then BitVec.ofInt 32 (sextN n (8 * size)) else BitVec.ofNat 32 n)]
    else (List.range (size / 4)).map fun i => .lane (r + i) l (BitVec.ofNat 32 (fld n (32 * i) 32))
  | .elem r l half j => [.lane r l (setElem (rdV s r l) (if half then 16 else 8) j n)]
  | .place .. => []
  | .whole => []
  | .after .. => []
  | .scal r wide => if wide then [.scal r (BitVec.ofNat 32 n), .scal (r + 1) (BitVec.ofNat 32 (n / 2 ^ 32))] else [.scal r (BitVec.ofNat 32 n)]

/-- The distance of 01 R27 from the die of the gang in focus to a home. -/
def hopsTo (s : State) (h : Nat) : Nat := meshDist (dieSite s.core.die) (homeSite h)

/-- Latency in clk beyond the L1, and flag bits of 17 R388, of an access to a byte's sector by the unloaded figures of 12 R277; a fetch in
flight is joined (12 R287). -/
def dieLatency (s : State) (k : Nat) : Nat × Nat :=
  let h := homeOfKey k
  let l := lineOf k
  let trip := 64 + 60 * hopsTo s h + 40
  let wait := fun (lat at' : Nat) => max lat (at' - s.clk)
  match (s.die.lines.find? fun y => y.line == l).bind fun y => y.sects.find? fun z => z.1 == sectorOf k with
  | some z => (wait 64 z.2, 2)
  | none => match (homeOf h s).lines.find? fun y => y.line == l with
    | some z => (wait trip z.from', 4)
    | none => (trip + 150, 8)

/-- As `dieLatency`, of a load of the core in focus: a sector in its L1 under a valid lease is nearer (12 R277). -/
def lineLatency (s : State) (k : Nat) : Nat × Nat :=
  match (s.core.l1.find? fun y => y.line == lineOf k && decide (s.core.lclk.toNat ≤ y.lease.toNat)).bind fun y => y.sects.find? fun z => z.1 == sectorOf k with
  | some z => (max 20 (z.2.1 - s.clk), 1)
  | none => dieLatency s k

/-- Bytes 0 to 23 of the sample record of a request of a gang, which issued in a clk (17 R388). -/
def reqHead (s : State) (g : Gang) (pos : Word) (kind : Nat) (va : DWord) (hops clk : Nat) : List Byte :=
  let role := match g.role with | .general => 0 | .vector => 1 | .matrix => 2 | .copy => 3
  let lref := (((launchOf g.blk.name s).bind fun l => l.lrefs.find? fun x => x.1 == g.key.die).map (·.2)).getD 0
  leBytes 8 (timeOf s - (s.clk - clk)) ++ leBytes 4 pos.toNat ++ leBytes 1 (g.key.slot + 8 * g.key.part + 32 * kind) ++
  leBytes 1 (role + 4 * hops) ++ leBytes 2 lref ++ leBytes 8 va.toNat

/-- The sample record of a request whose response returns now (17 R388). -/
def Sample.bytes (x : Sample) (clk : Nat) : List Byte :=
  x.head ++ ((clk - x.start) :: x.stages).flatMap (fun t => leBytes 2 (min t 65535)) ++ leBytes 2 x.flags ++ leBytes 20 0

/-- Count a request of the core in focus; is it tagged (17 R387)? -/
def tagReq (s : State) : Bool × State :=
  if !s.core.smplcfg.getLsbD 5 then (false, s)
  else
    let n := s.core.smpln + 1
    (n % 2 ^ (s.core.smplcfg.toNat % 32) == 0, modCore (fun c => { c with smpln := n }) s)

/-- An instruction of the issuing fragment issues its requests, one a line of its addresses (17 R387): they count once, though a home may make
the instruction wait. DESIGN CHOICE (log 97): accesses to scratch have no lines and are no such requests. -/
def issueLines (vas : List DWord) (s : State) : State :=
  let k := lowSlice s.frag
  if !s.core.smplcfg.getLsbD 5 ∨ s.gang.tagged.any (fun t => t.slice == k && t.pos == herePos s) then s
  else
    let r := (uniq (vas.map fun a => a.toNat / 128)).foldl (fun (r : List Nat × State) l =>
      let u := tagReq r.2
      (if u.1 then r.1 ++ [l] else r.1, u.2)) ([], s)
    modGang (fun g => { g with tagged := g.tagged ++ [⟨k, herePos s, s.clk, r.1⟩] }) r.2

/-- The issuing fragment's instruction goes no further with its requests: what issues there next are new ones. -/
def endLines (s : State) : State := modGang (fun g => { g with tagged := g.tagged.filter fun t => t.slice != lowSlice s.frag }) s

/-- A request of the issuing fragment for a line is on its way: when its line is tagged, its sample is kept until the response (17 R387). `stage`
names the stage in which it queues besides its home's translation, and for how long. -/
def sendSample (kind : Nat) (va : DWord) (hops flags : Nat) (stage queue : Nat) (due : Option Nat) (held : Option (Nat × Nat)) (tags : List Nat)
    (s : State) : State :=
  match s.gang.tagged.find? fun t => t.slice == lowSlice s.frag && t.pos == herePos s && t.lines.contains (va.toNat / 128) with
  | none => s
  | some t =>
    let same := fun (x : Sample) => x.gang == s.gang.key && x.line == va.toNat / 128 && x.start == t.clk
    if s.core.samples.any same then
      modCore (fun c => { c with samples := c.samples.map fun x => if same x then { x with flags := x.flags ||| flags, tags := x.tags ++ tags } else x }) s
    else
      let x : Sample := ⟨s.gang.key, va.toNat / 128, t.clk, reqHead s s.gang (herePos s) kind va hops t.clk,
        ((List.replicate 8 0).set 6 (s.clk - t.clk)).set stage queue, flags, due, held, tags⟩
      modCore (fun c => { c with samples := c.samples ++ [x] }) s

/-- Count the lines that an instruction asks for, and keep the samples of the tagged ones (17 R386, R387): kind of request, addresses and keys.
Whatever a request waits beyond the fixed latency of the stage that serves it counts as queueing there. -/
def countLines (kind : Nat) (ks : List (DWord × Nat)) (s : State) (trumps : Nat → Bool := fun _ => false) : State :=
  let firsts := (uniq (ks.map fun x => lineOf x.2)).filterMap fun l => ks.find? fun x => lineOf x.2 == l
  firsts.foldl (fun s x =>
    let (lat, fl) := lineLatency s x.2
    let f := gangFilter s s.gang
    let s := modCore (fun c => if fl = 1 then perfAdd 11 f 1 c else
      let c := perfAdd 12 f 1 c
      if fl = 2 then perfAdd 13 f 1 c else perfAdd 14 f 1 c) s
    let trip := homeTrip s.core.die (homeOfKey x.2)
    let q := if fl = 1 then (0, lat - 20) else if fl = 2 then (2, lat - 64) else if fl = 4 then (4, lat - trip) else (5, lat - (trip + 150))
    sendSample kind x.1 (hopsTo s (homeOfKey x.2)) (fl + 16 * bnat (trumps (lineOf x.2))) q.1 q.2
      (if kind = 1 then none else some (s.clk + lat)) (if kind = 1 then some (s.nextTag, lineOf x.2) else none) [] s) s

/-- The tagged requests of an instruction whose lines fault at a home are answered so (17 R388). -/
def faultLines (kind : Nat) (bad : List (DWord × Nat)) (s : State) : State :=
  bad.foldl (fun s x => sendSample kind x.1 (hopsTo s x.2) 64 0 0 (some (s.clk + homeTrip s.gang.key.die x.2)) none [] s) s

/-- The write time of the value that a load finds for a byte of global memory, its own block's held entries apart (11 R251). -/
def valueTime (s : State) (k : Nat) : DWord :=
  match (s.core.l1.find? fun (x : L1Line) => x.line == lineOf k && (l1Copy s s.core.lclk k).isSome) with
  | some x => x.wt
  | none => wtOf s (lineOf k)

/-- Some of the bytes of an element come from memory, and not from the block's held entries, with a write time later than the gang's LCLK
at its latest verdict (19 R420); in a forwarded replay every replica takes the same data, and SIGL stays equal. -/
def racyKeys (s : State) (ts : Bool) (ks : List Nat) : Bool :=
  !inReplay s && ks.any fun k => (heldByte s.core.muck s.gang.blk ts k).isNone &&
    decide (s.gang.lclkV.toNat < (if ts then look s.die.tsw (sectorOf k) else valueTime s k).toNat)

/-- Fold records of an instruction's elements, by their lanes, in the order of 19 R411: ascending lanes, and each lane's as they come. -/
def laneOrder (l : List (Nat × List FoldRec)) : List FoldRec := (List.range 32).flatMap fun k => (l.filter fun x => x.1 == k).flatMap (·.2)

/-- The parked load issues again: only its unfinished lanes take part (12 R266). -/
def redoElems (s : State) (es : List Elem) : List Elem :=
  match s.gang.redo with
  | some p => es.filter fun e => lane p.mask e.lane
  | none => es

/-- Park the gang in focus at an instruction whose elements fault at a home (12 R266, R475); `more` elements are unfinished too.
The record goes to the home of the lowest faulting lane. -/
def parkAt (id : Option Nat) (bad : List (Elem × Nat × Nat)) (more : List Elem) (t : Tgt) (s : State) : State :=
  let all := bad.map (·.1) ++ more
  let mask := maskOf fun l => all.any fun e => e.lane == l
  match bad.find? fun b => bad.all fun c => decide (b.1.lane ≤ c.1.lane) with
  | none => s
  | some (_, h, code) =>
    let va := ((all.find? fun e => e.lane == (lanesOf mask).headD 0).map (·.place s t)).getD 0
    let f : HomeFault := ⟨h, id.getD 0, 1, code, 0, s.gang.ctx, herePos s, va, mask, []⟩
    let s := modGang (fun g => { g with park := some ⟨id, s.frag, mask, code, va⟩, redo := none, answers := [] }) s
    let s := if id.isSome then s else modSplit s.frag (fun e => { e with wait := .none }) s
    let s := endLines s
    askRecon (giveUp (later (homeTrip s.gang.key.die h) .none (.homeLoadFault s.gang.key f) s))

/-- A flit of a channel leaves the port: the sender holds it until it is acknowledged (20 R429, R430); in replay mode it is discarded (20 R433). -/
def Link.send (replay unordered : Bool) (m : FlitMsg) (l : Link) : Link :=
  let l' := { l with unacked := if replay then l.unacked else l.unacked ++ [(unordered, if unordered then l.txSeqU else l.txSeq, m)] }
  if unordered then { l' with txSeqU := l.txSeqU + 1 } else { l' with txSeq := l.txSeq + 1 }

/-- Send a message over a pod link (20 R429): it waits while the sender holds 4,096 flits or others wait. -/
def sendLink (link : Nat) (m : FlitMsg) (s : State) (unordered : Bool := false) : State :=
  modLink link (fun l => if l.queued.isEmpty && decide (l.unacked.length < 4096) then l.send s.replay unordered m
    else { l with queued := l.queued ++ [(unordered, m)] }) s

/-- Send a request to a peer module over a pod link (11 R258): its tag and the state that waits for the answer. -/
def sendRemote (link id ln : Nat) (dst : LoadDst) (pctx : Nat) (pva : DWord) (size : Nat) (data : Option (List Byte)) (va : DWord) (s : State) :
    Nat × State :=
  let tag := s.nextTag
  let r : Remote := ⟨tag, link, s.gang.key, id, data.isSome, ln, dst, va, herePos s, none, data.getD [], s.clk, false⟩
  let q : RemoteReq := ⟨tag, BitVec.ofNat 16 pctx, pva, data.isSome, size, data.getD [], false⟩
  let s := useEntry false s.gang.ctx.toNat va { s with nextTag := tag + 1, remotes := s.remotes ++ [r] }
  let home := match xlate s s.gang.ctx.toNat (podsetOf s s.gang.blk.name) va (if data.isSome then .store else .load) with
    | .remote h .. => h
    | _ => 0
  let s := sendSample (bnat data.isSome) va (hopsTo s home) 32 0 0 none none [tag] s
  let s := if data.isSome then s else
    later Config.remoteTimer .none (.remoteTimeout tag) (sendLink link (.req q) s)
  (tag, s)

/-- Add to an outstanding entry of the gang in focus: more register writes and more parts. -/
def growPend (id : Nat) (ws : List RegWrite) (parts : Int) (s : State) : State :=
  modGang (fun g => { g with pend := g.pend.map fun p =>
    if p.id = id then { p with writes := p.writes ++ ws, parts := ((p.parts : Int) + parts).toNat } else p }) s

/-- The gang takes loaded data from the primary: it is in a forwarded replay and is not the primary (19 R420). -/
def replaying (s : State) : Bool := inReplay s && takesValues s

/-- The words of bytes, little-endian. -/
def wordsOfBytes (bs : List Byte) : List Word := (List.range ((bs.length + 3) / 4)).map fun i => BitVec.ofNat 32 (leNat ((bs.drop (4 * i)).take 4))

/-- What a message of loaded data holds (19 R420): the near elements of a load; an element that a peer answered, by lane and address; the lanes of a
transaction; or a load on behalf of a whole instruction. -/
inductive Loaded where
  | near
  | far (lane : Nat) (a : DWord)
  | txn
  | whole
deriving DecidableEq, Repr

/-- The first words of such a message. -/
def Loaded.head : Loaded → List Word
  | .near => [0]
  | .far l a => [1, BitVec.ofNat 32 l, a.extractLsb' 0 32, a.extractLsb' 32 32]
  | .txn => [2]
  | .whole => [3]

/-- The primary's data of a kind for the instruction at which the gang in focus stands: its words, and the messages left. -/
def loadedData (s : State) (x : Loaded) : Option (List Word × List (List Word)) :=
  (takeFwdBy (herePos s) (fun w => w.take x.head.length == x.head) s.gang.fwd).map fun r => (r.1.drop x.head.length, r.2)

/-- The gang in focus takes the primary's data of some kinds: the words of each, in order. -/
def takeLoaded (xs : List Loaded) (s : State) : List (List Word) × State :=
  xs.foldl (fun r x => match loadedData r.2 x with
    | some (w, t) => (r.1 ++ [w], modGang (fun g => { g with fwd := t }) r.2)
    | none => (r.1 ++ [[]], r.2)) ([], s)

/-- The primary forwards the data of an instruction at a position (19 R420). -/
def forwardLoaded (pos : Word) (lat : Nat) (x : Loaded) (ws : List Word) (s : State) : State := forwardAt pos lat (x.head ++ ws) s

/-- Data of elements as the primary forwarded it: each takes whole words. -/
def splitWords : List Nat → List Word → List (List Byte)
  | [], _ => []
  | n :: t, ws => ((ws.take ((n + 3) / 4)).flatMap fun w => leBytes 4 w.toNat).take n :: splitWords t (ws.drop ((n + 3) / 4))

/-- A gang stands at its load until its peers have answered for the lanes it asked of them: none of its later instructions issues,
so that a fault there stays precise (12 R266, R268). -/
def holdForPeers (id : Option Nat) (es : List Elem) (t : Tgt) (s : State) : State :=
  let mask := maskOf fun l => es.any fun e => e.lane == l
  let va := ((es.find? fun e => e.lane == (lanesOf mask).headD 0).map (·.place s t)).getD 0
  askRecon (giveUp (endLines (modGang (fun g => { g with park := some ⟨id, s.frag, mask, 0x16, va⟩, redo := none, answers := [] }) s)))

/-- An entry's completion answers so many requests to homes (18 R403). -/
def asked (id n : Nat) (s : State) : State :=
  modGang (fun g => { g with pend := g.pend.map fun p => if p.id = id then { p with reqs := n } else p }) s

/-- Complete a load: its data is read now, written later (05 R121, log 5). `near` elements were read, `far` are asked of
peers, `bad` fault at homes, and then the gang parks. -/
def finishLoad (t : Tgt) (lat : Nat) (near : List (Elem × List Byte)) (far : List (Elem × Nat × Nat × DWord))
    (bad : List (Elem × Nat × Nat)) (recs : List FoldRec) (s : State) : Eff :=
  let ws := near.flatMap fun x => dstWrites s x.1.dst x.2
  let parts := bnat (!near.isEmpty) + (if bad.isEmpty then far.length else 1)
  let (id, s) := match s.gang.redo with
    | some p => (p.id.getD 0, growPend (p.id.getD 0) ws ((parts : Int) - 1) s)
    | none => newPend .ld parts ws false s
  let s := foldL recs s
  let s := if t = .glob ∨ t = .priv then asked id (uniq (near.map fun x => (x.1.place s t).toNat / 128)).length s else s
  let s := faultLines 0 (bad.map fun x => (x.1.place s t, x.2.1)) s
  let s := if near.isEmpty then s else later lat (if t = .glob ∨ t = .priv then .none else .gang s.gang.key) (.loadComplete s.gang.key id) s
  if !bad.isEmpty then .stall (parkAt (some id) bad (far.map (·.1)) t s)
  else if far.isEmpty then .done (modGang (fun g => { g with redo := none, answers := [] }) s)
  else
    let send := fun (s : State) (x : Elem × Nat × Nat × DWord) => (sendRemote x.2.1 id x.1.lane x.1.dst x.2.2.1 x.2.2.2 x.1.size none (x.1.place s t) s).2
    .stall (holdForPeers (some id) (far.map (·.1)) t (far.foldl send s))

/-- Read elements of global memory in lane order, each at the logical time to which those before it have taken the core (11 R248,
R251, R252): the latency of the slowest, the bytes, the records of those that are racy (19 R420), and the state. -/
def readLines (maj sub : Nat) (strm : Bool) (t : Tgt) (near : List (Elem × List Nat)) (s : State) :
    Nat × List (Elem × List Byte) × List FoldRec × State :=
  let r := near.foldl (fun (r : Nat × List (Elem × List Byte) × List (Nat × List FoldRec) × State) x =>
    let s := r.2.2.2
    let k := x.2.headD 0
    let lat := (lineLatency s k).1
    let s' := leaseLine strm lat k s
    let bs := x.2.map (loadByte s')
    let recs := if racyKeys s' false x.2 then wordRecs maj sub 0xFF (x.1.place s t).toNat bs else []
    (max r.1 lat, r.2.1 ++ [(x.1, bs)], r.2.2.1 ++ [(x.1.lane, recs)], s'))
    (0, [], [], s)
  (r.1, r.2.1, laneOrder r.2.2.1, r.2.2.2)

/-- A load over its elements (12 R265, R266, R269, R272). -/
def loadEff (maj sub : Nat) (t : Tgt) (strm : Bool) (align : Nat) (es : List Elem) (s : State) : Eff :=
  let es := redoElems s es
  if es.isEmpty then .done (modGang (fun g => { g with redo := none }) s)
  else match accessTrap s t true false align es with
  | some (c, i, a) => .trap c i a
  | none =>
    if (s.gang.redo.isNone && full s .ld) || fenced s then .stall s
    else if t = .glob ∨ t = .priv then
      let es := if t = .priv then es.flatMap fun e => match e.dst with
        | .lane r l size sg => if size ≤ 4 then [e] else (List.range (size / 4)).map fun (i : Nat) => { e with addr := e.addr + 4 * (i : Int), size := 4, dst := .lane (r + i) l 4 sg }
        | _ => [e] else es
      let fs := es.map fun e => e.find s t .load
      let ask := issueLines (es.map fun e => e.place s t)
      if anyMiss fs then .stall (askAll fs (ask s))
      else
        let all := es.zip fs
        let near := all.filterMap fun x => match x.2 with | .at' ks => some (x.1, ks) | _ => none
        let far := all.filterMap fun x => match x.2 with | .remote _ l c v => some (x.1, l, c, v) | _ => none
        let bad := all.filterMap fun x => match x.2 with | .bad h c => some (x.1, h, c) | _ => none
        let s := useAll t es s
        let kinds := (if near.isEmpty then [] else [Loaded.near]) ++ far.map fun x => Loaded.far x.1.lane (x.1.place s t)
        if loadWaits s false (near.map fun x => (x.2.headD 0, x.1.size)) || (replaying s && kinds.any fun x => (loadedData s x).isNone) then .stall s
        else match badTrap 0x32 (fun e => e.place s t) ((near.filter fun x => readsPoison s x.2).map (·.1)) with
        | some (c, _, a) => .trap c 0 a
        | none =>
          let r := readLines maj sub strm t near (countLines 0 (near.map fun x => (x.1.place s t, x.2.headD 0)) (ask s))
          let (lat, data, recs, s) := r
          if replaying s then
            let (vs, s) := takeLoaded kinds s
            let all := data.map (·.1) ++ far.map (·.1)
            finishLoad t lat (all.zip (splitWords (all.map (·.size)) vs.flatten)) [] bad [] s
          else finishLoad t lat data far bad recs
            (if inReplay s && !near.isEmpty then forwardLoaded (herePos s) lat .near (data.flatMap fun x => wordsOfBytes x.2) s else s)
    else
      let offs := es.map fun e => e.addr.toNat
      match (if t = .core then retainStep false s else none) with
      | some s' => .stall (retainStall s')
      | none =>
        let sp : Space := if t = .core then .core else .ts
        if t = .ws ∧ wsStalls s offs then .stall (modCore (perfAdd 29 (gangFilter s s.gang) 1) s)
        else if (t ≠ .ws ∧ es.any fun e => mstPending s sp e.addr.toNat e.size) then .stall s
        else if t = .ts ∧ (loadWaits s true (es.map fun e => (e.addr.toNat, e.size)) ∨ (replaying s ∧ (loadedData s .near).isNone)) then .stall s
        else
          let poisoned := es.filter fun e => t == .ts && teamPoison s e.addr.toNat e.size
          match badTrap 0x32 (fun e => e.place s t) poisoned with
          | some (c, _, a) => .trap c 0 a
          | none =>
            if t = .ws ∧ offs.any fun a => s.die.wsBad.contains (a / 8) then
              .moved false (killBlock s.gang.blk (gangSink s s.gang 0x32 2 0 (herePos s) (Config.arrayNumber 3) 0) true s)
            else
              let get := fun (e : Elem) => match t with
                | .core => readBytes s.block.scratch e.addr.toNat e.size
                | .ts => viewBytes s true e.addr.toNat e.size
                | _ => readBytes s.die.ws e.addr.toNat e.size
              let data := es.map fun e => (e, get e)
              let recs := if t = .ts then laneOrder ((data.filter fun x => racyKeys s true ((List.range x.1.size).map (x.1.addr.toNat + ·))).map fun x =>
                (x.1.lane, wordRecs maj sub 0xFF (tsMark x.1.addr.toNat) x.2)) else []
              let lat := if t = .core then 6 + bankWait false es else if t = .ts then 48 + bankWait true es else 24
              let s := if t = .ts then offs.foldl (fun s a => touchSector a s) s else if t = .core then touchArray false s else s
              if t = .ts ∧ replaying s then
                let (vs, s) := takeLoaded [.near] s
                finishLoad t lat ((data.map (·.1)).zip (splitWords (data.map fun x => x.1.size) vs.flatten)) [] [] [] s
              else finishLoad t lat data [] [] recs
                (if t = .ts ∧ inReplay s then forwardLoaded (herePos s) lat .near (data.flatMap fun x => wordsOfBytes x.2) s else s)

/-- Cells of which the last of each key counts. -/
def latest : List (Nat × Byte) → List (Nat × Byte)
  | [] => []
  | c :: t => if t.any fun d => d.1 == c.1 then latest t else c :: latest t

/-- Abort the lanes of open transactions, of any gang, that have read or written a line (12 R284, R285: cause 2). -/
def abortLines (lines : List Nat) (s : State) : State :=
  let hit : Gang → List Nat := fun g => match g.txn with
    | none => []
    | some t => (t.lanes.filter fun x => x.code.isNone && (x.rd ++ x.wr).any fun l => lines.contains l).map (·.lane)
  let gs := ((allGangs s).filter fun g => !(hit g).isEmpty).map fun g => (g.key, hit g)
  gs.foldl (fun s x => if x.1 = s.gang.key then x.2.foldl (fun s l => abortLane l 2 0 s) s
    else onGang x.1 (fun s => x.2.foldl (fun s l => abortLane l 2 0 s) s) s) s

/-- The records of deferred store faults: one a 32-byte sector, with its byte mask and data (12 R267, 16 R365). -/
def deferRecords (s : State) (id : Nat) (bad : List (DWord × Byte × Nat × Nat)) : List HomeFault :=
  let sects := uniq (bad.map fun b => b.1.toNat / 32)
  let n := sects.length
  (List.range n).zip sects |>.map fun x =>
    let mine := bad.filter fun b => b.1.toNat / 32 == x.2
    let hc := (mine.head?.map fun b => (b.2.2.1, b.2.2.2)).getD (0, 0)
    let byte := fun (i : Nat) => ((mine.filter fun b => b.1.toNat % 32 == i).getLast?).map fun b => b.2.1
    ⟨hc.1, id, 2, hc.2, bnat (x.1 == 0) + 2 * bnat (x.1 + 1 == n), s.gang.ctx, herePos s, BitVec.ofNat 64 (32 * x.2),
      maskOf fun i => (byte i).isSome, (List.range 32).map fun i => (byte i).getD 0⟩

/-- Post the deferred faults of a store, `low` the lowest faulting address; its gang stops at its next clause header
(12 R267). -/
def deferStores (id low : Nat) (fs : List HomeFault) (s : State) : State :=
  match fs with
  | [] => s
  | f :: _ =>
    let s := modGang (fun g => { g with defer := g.defer ++ [⟨id, fs.length, none, BitVec.ofNat 64 low, f.pos⟩] }) s
    fs.foldl (fun s f => later (homeTrip s.gang.key.die f.home) .none (.deferredStoreFault s.gang.key f) s) s

/-- The sector of a peer module that an element of a remote window lies in: link, peer context and sector. -/
def farSector (x : Elem × Nat × Nat × DWord) : Nat × Nat × Nat := (x.2.1, x.2.2.1, x.2.2.2.toNat / 32)

/-- The sectors of peer modules that elements lie in, each once. -/
def farSectors (far : List (Elem × Nat × Nat × DWord)) : List (Nat × Nat × Nat) :=
  (List.range far.length).filterMap fun i => (far[i]?).bind fun x =>
    if (far.take i).any fun y => farSector y == farSector x then none else some (farSector x)

/-- Hold the stores to one sector of a remote window: one entry, with a request for each element, which leave their port at its release
(12 R270, 18 R397). -/
def holdRemote (id : Nat) (t : Tgt) (far : List (Elem × Nat × Nat × DWord)) (x : Nat × Nat × Nat) (s : State) : State :=
  let r := (far.filter fun y => farSector y == x).foldl (fun (r : List (Nat × Nat × Nat) × State) y =>
    let u := sendRemote y.2.1 id y.1.lane .none y.2.2.1 y.2.2.2 y.1.size (some y.1.bytes) (y.1.place r.2 t) r.2
    (r.1 ++ [(u.1, y.2.2.2.toNat, y.1.size)], u.2)) ([], s)
  let s := r.2
  let w := s.core.lclk + 1
  let single := decide (s.block.nrep < 2)
  let e : Held := ⟨false, x.2.2, (far.filter fun y => farSector y == x).flatMap fun y => cellsAt y.2.2.2.toNat y.1.bytes, w.toNat, s.clk,
    s.gang.key, s.gang.blk, some id, none, single, single || s.block.repl == 0, some (x.1, r.1), x.2.1, false, s.nextTag, false, some (s.gang.gno, s.gang.holds)⟩
  modGang (fun g => { g with holds := g.holds + 1 }) (modCore (fun c => { c with muck := c.muck ++ [e] }) s)

/-- A gang writes its block's core scratch (11 R253): the bytes take their place in the order at once, and an operand read of the
array sees them from the clk in which the store completes (08 R206); who waits on their words loads again (12 R282). -/
def scratchWrite (lat : Nat) (cells : List (Nat × Byte)) (s : State) : State :=
  let old := (uniq (cells.map (·.1))).map fun k => (k, look s.block.scratch k)
  let s := modBlock (fun b => { b with
    scratch := putAll b.scratch cells, fresh := (b.fresh.filter fun x => decide (s.clk < x.1)) ++ [(s.clk + lat, s.gang.gno, old)] }) s
  wakeValues .core (fun g => g.blk == s.block.key) (uniq (cells.map fun c => c.1 / 4)) s

/-- The entries of the core in focus behind the first `n` belong to a streaming store (12 R272). -/
def markStream (strm : Bool) (n : Nat) (s : State) : State :=
  if strm then modCore (fun c => { c with muck := c.muck.take n ++ (c.muck.drop n).map fun e => { e with strm := true } }) s else s

/-- SIGK rises for a store instruction; the 64th ends a trick (19 R412, R413 kind 14). -/
def countStore (recs : List FoldRec) (s : State) : Eff :=
  if !folding s then .done s
  else
    let s := foldS recs s
    if s.gang.sigk = 63 then .stall (sendRecord 14 (modGang (fun g => { g with sigk := 0 }) s))
    else .done (modGang (fun g => { g with sigk := g.sigk + 1 }) s)

/-- A store over its elements (12 R265, R267, R269, R270, R272); `strm` for a streaming one. -/
def storeEff (maj sub : Nat) (t : Tgt) (align : Nat) (es : List Elem) (s : State) (strm : Bool := false) : Eff :=
  match s.gang.rel with
  | .matched .. => .done (relDone s)
  | _ =>
  if es.isEmpty then .done s
  else match accessTrap s t false true align es with
  | some (c, i, a) => .trap c i a
  | none =>
    if t = .core then
      match retainStep false s with
      | some s' => .stall (retainStall s')
      | none =>
        if full s .st || fenced s || es.any fun e => mstPending s .core e.addr.toNat e.size then .stall s
        else
          let (id, s) := newPend .st 1 [] false s
          .done (later (6 + bankWait false es) (.gang s.gang.key) (.storeAccepted s.gang.key id)
            (scratchWrite (6 + bankWait false es) (es.flatMap fun e => cellsAt e.addr.toNat e.bytes) (touchArray false s)))
    else if full s .st || fenced s then .stall s
    else if t = .ts then
      let cells := latest (es.flatMap fun e => cellsAt e.addr.toNat e.bytes)
      let n := (sectorsOf cells).length
      if es.any fun e => mstPending s .ts e.addr.toNat e.size then .stall s
      else if !muckRoom s n then .stall (modCore (perfAdd 18 (gangFilter s s.gang) 1) s)
      else
        let (id, s) := newPend .st n [] false s
        countStore (es.flatMap fun e => wordRecs maj sub 0 (tsMark e.addr.toNat) e.bytes) (holdWrite true cells (some id) none s)
    else
      let es := if t = .priv then es.flatMap fun e => if e.size ≤ 4 then [e] else
        (List.range (e.size / 4)).map fun (i : Nat) => { e with addr := e.addr + 4 * (i : Int), size := 4, bytes := (e.bytes.drop (4 * i)).take 4 } else es
      let fs := es.map fun e => e.find s t .store
      let ask := issueLines (es.map fun e => e.place s t)
      if anyMiss fs then .stall (askAll fs (ask s))
      else
        let all := es.zip fs
        let cells := latest (all.flatMap fun x => match x.2 with | .at' ks => ks.zip x.1.bytes | _ => [])
        let far := all.filterMap fun x => match x.2 with | .remote _ l c v => some (x.1, l, c, v) | _ => none
        let bad := all.flatMap fun x => match x.2 with
          | .bad h c => (List.range x.1.size).map fun i => (x.1.place s t + BitVec.ofNat 64 i, x.1.bytes.getD i 0, h, c)
          | _ => []
        let n := (sectorsOf cells).length
        let s := useAll t es s
        if !muckRoom s (n + (farSectors far).length) then .stall (modCore (perfAdd 18 (gangFilter s s.gang) 1) s)
        else
          let s := abortLines (uniq (cells.map fun c => lineOf c.1)) s
          let recs := deferRecords s s.nextTag bad
          let (id, s) := newPend .st (n + far.length + recs.length) [] false s
          let s := countLines 1 (all.filterMap fun x => match x.2 with | .at' ks => some (x.1.place s t, ks.headD 0) | _ => none) (ask s)
          let s := faultLines 1 (bad.map fun b => (b.1, b.2.2.1)) s
          let s := if cells.isEmpty then s else markStream strm s.core.muck.length (holdWrite false cells (some id) none s)
          let s := (farSectors far).foldl (fun s x => holdRemote id t far x s) s
          let s := deferStores id ((bad.map fun b => b.1.toNat).min?.getD 0) recs (modGang (fun g => { g with answers := [] }) s)
          countStore (es.flatMap fun e => wordRecs maj sub 0 (e.place s t).toNat e.bytes) s

/-- A transaction is open in the gang in focus (12 R284). -/
def inTxn (s : State) : Bool := s.gang.txn.isSome

/-- A breach of a use check (12 R265). -/
def illegalUse : Eff := .trap 0x03 0 0

/-- The lanes that the open transaction holds (12 R283). -/
def txnLanes (s : State) : Word :=
  match s.gang.txn with
  | none => 0
  | some t => maskOf fun l => t.lanes.any fun x => x.lane == l

/-- The lanes of the open transaction that have not aborted. -/
def txnLive (s : State) : Word :=
  match s.gang.txn with
  | none => 0
  | some t => maskOf fun l => t.lanes.any fun x => x.lane == l && x.code.isNone

/-- Change the record of a transaction's lane. -/
def modTxnLane (l : Nat) (f : TxnLane → TxnLane) (s : State) : State :=
  modGang (fun g => { g with txn := g.txn.map fun t => { t with lanes := t.lanes.map fun x => if x.lane = l then f x else x } }) s

/-- Distinct lines that the gang's transaction touches. -/
def txnLines (s : State) : List Nat :=
  match s.gang.txn with
  | none => []
  | some t => uniq (t.lanes.flatMap fun x => x.rd ++ x.wr)

/-- A transactional access of one lane to a line, against the limits of 12 R284: the lane aborts beyond them. -/
def txnTouch (l line : Nat) (write : Bool) (s : State) : State :=
  match (s.gang.txn.bind fun t => t.lanes.find? fun x => x.lane == l && x.code.isNone) with
  | none => s
  | some x =>
    let s' := modTxnLane l (fun x => if write then { x with wr := if x.wr.contains line then x.wr else line :: x.wr }
      else { x with rd := if x.rd.contains line then x.rd else line :: x.rd }) s
    if !write && !x.rd.contains line && decide (8 ≤ x.rd.length) then abortLane l 4 0 s
    else if write && !x.wr.contains line && decide (4 ≤ x.wr.length) then abortLane l 5 0 s
    else if 64 < (txnLines s').length then abortLane l 6 0 s
    else s'

/-- The write time of a byte that a transactional load finds: of its block's held entries, of a valid copy, or of the line (11 R261). -/
def foundTime (s : State) (k : Nat) : Nat :=
  let mine := (s.core.muck.filter fun e => e.blk == s.gang.blk && !e.ts && e.remote.isNone && e.bytes.any fun b => b.1 == k).map (·.wtime)
  max (mine.max?.getD 0) (valueTime s k).toNat

/-- What the transactional loads of an instruction come to, in lane order: the latency of the slowest, the elements read with their bytes, and
the records of the racy ones. -/
structure TxnRead where
  lat : Nat
  data : List (Elem × List Byte)
  recs : List FoldRec
  s : State

/-- A transactional load of one element: the bytes read, with the lane's own buffered writes, or an abort (12 R284, 11 R261). -/
def txnLoad (maj sub : Nat) (strm : Bool) (e : Elem) (f : Found) (r : TxnRead) : TxnRead :=
  let s := r.s
  match f with
  | .remote .. => { r with s := abortLane e.lane 11 0 s }
  | .bad _ c => { r with s := abortLane e.lane 9 c s }
  | .miss .. => r
  | .at' ks =>
    let k := ks.headD 0
    if readsPoison s ks then { r with s := abortLane e.lane 9 0x32 s }
    else
      match (s.gang.txn.bind fun t => t.lanes.find? fun x => x.lane == e.lane && x.code.isNone) with
      | none => r
      | some x =>
        if ks.any fun j => decide (x.start < foundTime s j) then { r with s := abortLane e.lane 1 0 s }
        else
          let s := txnTouch e.lane (lineOf k) false s
          if !lane (txnLive s) e.lane then { r with s := s }
          else
            let lat := (lineLatency s k).1
            let s' := leaseLine strm lat k s
            let bs := ks.map fun j => ((x.buf.find? fun c => c.1 == j).map (·.2)).getD (loadByte s' j)
            let recs := if racyKeys s' false ks then wordRecs maj sub 0xFF (e.place s .glob).toNat bs else []
            ⟨max r.lat lat, r.data ++ [(e, bs)], r.recs ++ recs, s'⟩

/-- A backup in a forwarded replay takes the data that the primary's transactional lanes read; a lane that the primary lost there is lost here
(19 R419, R420). -/
def txnTake (r : TxnRead) : TxnRead :=
  let (vs, s) := takeLoaded [.txn] r.s
  let m := nth 0 vs.flatten 0
  let got := r.data.filter fun x => lane m x.1.lane
  let words := fun (l : Nat) => (r.data.filter fun x => x.1.lane == l).map fun x => (x.1.size + 3) / 4
  let at' := fun (l : Nat) => ((lanesOf m).filter (· < l)).foldl (fun n k => n + (if (words k).isEmpty then 1 else (words k).sum)) 1
  let data := (uniq (got.map (·.1.lane))).flatMap fun l =>
    let mine := got.filter fun x => x.1.lane == l
    (mine.map (·.1)).zip (splitWords (mine.map fun x => x.1.size) (vs.flatten.drop (at' l)))
  { r with data := data, recs := [], s := (uniq (r.data.map (·.1.lane))).foldl (fun s l => if lane m l then s else abortLane l 1 0 s) s }

/-- A transactional store of one element: its bytes are buffered, or the lane aborts (12 R284). -/
def txnStore (e : Elem) (f : Found) (s : State) : State :=
  match f with
  | .remote .. => abortLane e.lane 11 0 s
  | .bad _ c => abortLane e.lane 9 c s
  | .miss .. => s
  | .at' ks =>
    let s := txnTouch e.lane (lineOf (ks.headD 0)) true s
    modTxnLane e.lane (fun x => if x.code.isSome then x else
      { x with
        buf := (ks.zip e.bytes) ++ x.buf.filter fun c => !ks.contains c.1
        vas := ((List.range ks.length).zip ks).map (fun c => (c.2, e.place s .glob + BitVec.ofNat 64 c.1)) ++ x.vas.filter fun c => !ks.contains c.1 }) s

/-- A load to global memory while a transaction is open: transactional lanes follow 12 R284, the others load as ever. -/
def txnLoadEff (maj sub : Nat) (strm : Bool) (align : Nat) (es : List Elem) (s : State) : Eff :=
  let tm := txnLanes s
  let mine := es.filter fun e => lane (txnLive s) e.lane
  let rest := es.filter fun e => !lane tm e.lane
  if !rest.isEmpty && decide (s.gang.redo.isSome) then loadEff maj sub .glob strm align rest s
  else
    let faulty := mine.filter fun e => decide (e.addr % (align : Int) ≠ 0) || (e.answer s .glob .load == .noHome)
    let code := fun (e : Elem) => if e.addr % (align : Int) ≠ 0 then 0x12 else 0x10
    let s := faulty.foldl (fun s e => abortLane e.lane 9 (code e) s) s
    let mine := mine.filter fun e => lane (txnLive s) e.lane
    let hits := mine.filter fun e => wpOn s && (wpHit s true false (e.place s .glob) e.size).isSome
    match accessTrap s .glob true false align (rest ++ hits) with
    | some (c, i, a) => .trap c i a
    | none =>
      let fs := mine.map fun e => e.find s .glob .load
      if full s .ld || fenced s then .stall s
      else if anyMiss fs then .stall (askAll fs (issueLines (es.map fun e => e.place s .glob) s))
      else
      let s := useAll .glob mine (issueLines (es.map fun e => e.place s .glob) s)
      if replaying s && !mine.isEmpty && (loadedData s .txn).isNone then .stall s
      else if loadWaits s false ((mine.zip fs).filterMap fun x => match x.2 with | .at' ks => some (ks.headD 0, x.1.size) | _ => none) then .stall s
      else
        let near := (mine.zip fs).filterMap fun x => match x.2 with | .at' ks => some (x.1.place s .glob, ks.headD 0) | _ => none
        let r := (mine.zip fs).foldl (fun r x => txnLoad maj sub strm x.1 x.2 r) ⟨20, [], [], countLines 0 near s⟩
        let r := if replaying s && !mine.isEmpty then txnTake r else r
        let s := foldL r.recs (modGang (fun g => { g with answers := [] }) r.s)
        let writes := r.data.flatMap fun x => dstWrites s x.1.dst x.2
        let s := if inReplay s && !replaying s && !mine.isEmpty then
          forwardLoaded (herePos s) r.lat .txn (maskOf (fun l => r.data.any fun x => x.1.lane == l) :: r.data.flatMap fun x => wordsOfBytes x.2) s else s
        if rest.isEmpty then
          let (id, s) := newPend .ld 1 writes false s
          let s := asked id (uniq (near.map fun x => x.1.toNat / 128)).length s
          .done (later r.lat .none (.loadComplete s.gang.key id) s)
        else
          let own := fun (s' : State) => if s.gang.pend.length < s'.gang.pend.length then
            growPend ((s'.gang.pend.getLast?.map (·.id)).getD 0) writes 0 s' else s'
          match loadEff maj sub .glob strm align rest s with
          | .done s' => .done (own s')
          | .stall s' => .stall (own s')
          | e => e

/-- A store to global memory while a transaction is open: transactional lanes follow 12 R284, the others store as ever.
A commit needs R and W (16 R356), so a line that lacks R is refused at the store; a bound frame is refused at TEND
(15 R349). -/
def txnStoreEff (maj sub : Nat) (align : Nat) (es : List Elem) (s : State) (strm : Bool := false) : Eff :=
  let tm := txnLanes s
  let mine := es.filter fun e => lane (txnLive s) e.lane
  let rest := es.filter fun e => !lane tm e.lane
  let faulty := mine.filter fun e => decide (e.addr % (align : Int) ≠ 0) || (e.answer s .glob .store == .noHome)
  let code := fun (e : Elem) => if e.addr % (align : Int) ≠ 0 then 0x12 else 0x10
  let s := faulty.foldl (fun s e => abortLane e.lane 9 (code e) s) s
  let mine := mine.filter fun e => lane (txnLive s) e.lane
  let hits := mine.filter fun e => wpOn s && (wpHit s false true (e.place s .glob) e.size).isSome
  match accessTrap s .glob false true align (rest ++ hits) with
  | some (c, i, a) => .trap c i a
  | none =>
    let fs := mine.map fun e => match e.seek s .glob .store with
      | .at' ks => match e.seek s .glob .atomic with
        | .bad h c => .bad h c
        | _ => .at' ks
      | f => f
    if fenced s then .stall s
    else if anyMiss fs then .stall (askAll fs s)
    else
      let s := (mine.zip fs).foldl (fun s x => txnStore x.1 x.2 s) (useAll .glob mine s)
      storeEff maj sub .glob align rest (modGang (fun g => { g with answers := [] }) s) strm

/-- A load by an instruction on the target it names (12 R284). -/
def loadBy (i : Instr) (maj : Nat) (t : Tgt) (strm : Bool) (align : Nat) (es : List Elem) (s : State) : Eff :=
  if es.isEmpty then .done s else if t = .glob ∧ inTxn s then txnLoadEff maj (subField i) strm align es s else loadEff maj (subField i) t strm align es s

/-- A store by an instruction on the target it names (12 R284). -/
def storeBy (i : Instr) (maj : Nat) (t : Tgt) (align : Nat) (es : List Elem) (s : State) (strm : Bool := false) : Eff :=
  if es.isEmpty then .done s
  else if t = .glob ∧ inTxn s then txnStoreEff maj (subField i) align es s strm else storeEff maj (subField i) t align es s strm

/-- A load of a whole instruction in global memory: its bytes, or what stops it (12 R475). A fault parks the gang as a
one-lane load with no counter entry. -/
inductive Fetch where
  | bytes (bs : List Byte) (s : State)
  | stop (e : Eff)

/-- Bytes that peers have returned for a load on behalf of a whole instruction (12 R475). -/
def gotBytes (s : State) (va : DWord) : Option (List Byte) := (s.gang.got.find? fun x => x.1 == va).map (·.2)

/-- Ask peers for parts of a load on behalf of a whole instruction: link, peer context, peer address, bytes and address. The gang
stands at the instruction until they have answered. -/
def askPeers (l : List (Nat × Nat × DWord × Nat × DWord)) (s : State) : State :=
  let send := fun (s : State) (x : Nat × Nat × DWord × Nat × DWord) => (sendRemote x.1 0 0 .whole x.2.1 x.2.2.1 x.2.2.2.1 none x.2.2.2.2 s).2
  let at' := ((l.head?).map fun x => (x.2.2.2.2.toNat : Int)).getD 0
  holdForPeers none [⟨0, at', 1, .none, []⟩] .glob (l.foldl send s)

/-- Latency of a load of `n` bytes that begins at an address of global memory (12 R277). -/
def spanLatency (s : State) (va : DWord) (n : Nat) : Nat :=
  (((List.range ((n + 31) / 32)).filterMap fun i => match xlate s s.gang.ctx.toNat 0 (va + BitVec.ofNat 64 (32 * i)) .load with
    | .ok _ k => some (lineLatency s k).1
    | _ => none).max?).getD 20

/-- Load `n` bytes of global memory for a whole instruction (12 R475): translated granule by granule in order. An address of no home is
PAGE_NOT_PRESENT at the instruction (10 R231). -/
def wholeLoad (va : DWord) (n : Nat) (s : State) : Fetch :=
  let parts := uniq ((List.range n).map fun i => (va.toNat + i) / 65536)
  let start := fun (p : Nat) => max va.toNat (p * 65536)
  let size := fun (p : Nat) => min (va.toNat + n) ((p + 1) * 65536) - start p
  let el := fun (p : Nat) => (⟨0, (start p : Nat), 1, .none, []⟩ : Elem)
  let fs := parts.map fun p => (el p).find s .glob .load
  if parts.any fun p => (el p).answer s .glob .load == .noHome then .stop (.trap 0x10 1 va)
  else
  let lines := (uniq ((List.range n).map fun i => (va.toNat + i) / 128)).map fun l => BitVec.ofNat 64 (max va.toNat (128 * l))
  if anyMiss fs then .stop (.stall (askAll fs (issueLines lines s)))
  else
  let s := useAll .glob (parts.map el) s
  match (parts.zip fs).findSome? fun x => match x.2 with
    | .bad h c => some (el x.1, h, c)
    | _ => none with
  | some b => .stop (.stall (parkAt none [b] [] .glob (faultLines 0 [(b.1.place s .glob, b.2.1)] (issueLines lines s))))
  | none =>
    let far := (parts.zip fs).filterMap fun x => match x.2 with
      | .remote _ l c v => if (gotBytes s (BitVec.ofNat 64 (start x.1))).isSome then none else some (l, c, v, size x.1, BitVec.ofNat 64 (start x.1))
      | _ => none
    let key := fun (i : Nat) => (parts.zip fs).findSome? fun x => match x.2 with
      | .at' ks => if x.1 = (va.toNat + i) / 65536 then some (ks.headD 0 + (va.toNat + i) - start x.1) else none
      | _ => none
    let ks := (List.range n).filterMap key
    if !far.isEmpty then .stop (.stall (askPeers far (issueLines lines s)))
    else if loadWaits s false (ks.map fun k => (k, 1)) then .stop (.stall s)
    else if readsPoison s ks then .stop (.trap 0x32 0 va)
    else
      let byte := fun (s : State) (i : Nat) => match key i with
        | some k => loadByte s k
        | none =>
          let p := (va.toNat + i) / 65536
          ((gotBytes s (BitVec.ofNat 64 (start p))).getD []).getD (va.toNat + i - start p) 0
      let s := countLines 0 (lines.filterMap fun a => (key (a.toNat - va.toNat)).map fun k => (a, k)) (issueLines lines s)
      let s := (uniq (ks.map sectorOf)).foldl (fun s x => leaseLine false (lineLatency s (32 * x)).1 (32 * x) s) s
      let bs := (List.range n).map (byte s)
      .bytes bs (modGang (fun g => { g with answers := [], got := [], redo := none }) s)

/-- The records of the racy words of a load on behalf of a whole instruction (19 R420). -/
def wholeRecs (maj sub : Nat) (va : DWord) (bs : List Byte) (s : State) : List FoldRec :=
  (List.range ((bs.length + 3) / 4)).flatMap fun w =>
    let a := va + BitVec.ofNat 64 (4 * w)
    let word := (bs.drop (4 * w)).take 4
    match xlate s s.gang.ctx.toNat 0 a .load with
    | .ok _ k => if racyKeys s false ((List.range word.length).map (k + ·)) then wordRecs maj sub 0xFF a.toNat word else []
    | _ => []

/-- AN INSTRUCTION THAT FIRST LOADS `n` BYTES (12 R475): `k` goes on with them. In a redundant launch its racy words fold once it is
past, and in a forwarded replay a backup takes the bytes that the primary loaded (19 R420); it keeps them while it stalls. -/
def wholeBy (maj sub : Nat) (va : DWord) (n : Nat) (k : List Byte → State → Eff) (s : State) : Eff :=
  let pos := herePos s
  if !folding s then match wholeLoad va n s with
    | .stop e => e
    | .bytes bs s => k bs s
  else if replaying s then
    let clear := modGang fun g => { g with got := [] }
    let go := fun (bs : List Byte) (s : State) => match k bs s with
      | .done t => .done (clear t)
      | .moved c t => .moved c (clear t)
      | e => e
    match gotBytes s va, loadedData s .whole with
    | some bs, _ => go bs s
    | none, some (ws, t) =>
      let bs := (ws.flatMap fun w => leBytes 4 w.toNat).take n
      go bs (modGang (fun g => { g with fwd := t, got := (va, bs) :: g.got }) s)
    | none, none => .stall s
  else match wholeLoad va n s with
    | .stop e => e
    | .bytes bs s' =>
      let recs := wholeRecs maj sub va bs s'
      let tell := fun (t : State) => if inReplay s ∧ s.gang.rel = .none then forwardLoaded pos 0 .whole (wordsOfBytes bs) t else t
      match k bs s' with
      | .done t => .done (foldL recs (tell t))
      | .moved c t => .moved c (foldL recs (tell t))
      | .stall t => .stall (if s.gang.rel = .none ∧ t.gang.rel ≠ .none then tell t else t)
      | e => e

end Sys2Proof.Machine
end

