-- ==== Sys2Proof/Machine/Copy.lean ====
section
/-! DEFINITION. The copy engine and stage rings (ch. 14): commands and their performance, CPY, TCPY, GATHER, SCATTER, WSLD,
and RGINIT, RGACQ, RGREL, RGPUT. -/

namespace Sys2Proof.Machine

/-- The space of a space code (14 R310). -/
def sp4Space : Sp4 → Space
  | .glob => .glob
  | .core => .core
  | .ts => .ts
  | .ws => .ws

/-- Scalars that hold an address of a space (14 R310). -/
def spaceRegs (sp : Space) (r : Nat) : List Nat := if sp = .glob then pair r else [r]

/-- The address that scalars hold (14 R310). -/
def spaceAddr (s : State) (sp : Space) (r : Nat) : Nat := if sp = .glob then (rdSS s r).toNat else (rdS s r).toNat

/-- The granules of a move (14 R315): at most 128 bytes, inside one line of its source and one of its destination. -/
def granules (m : Move) : Nat → List Move
  | 0 => []
  | fuel + 1 =>
    if m.len = 0 then []
    else
      let n := min m.len (min (128 - m.dst.addr % 128) (match m.src with | some l => 128 - l.addr % 128 | none => 128))
      let next : Loc → Loc := fun l => ⟨l.sp, l.addr + n⟩
      ⟨m.src, m.const.take n, m.dst, n⟩ :: granules ⟨m.src.map next, m.const.drop n, next m.dst, m.len - n⟩ fuel

/-- The granules of a list of moves, each by itself. -/
def allGranules (ms : List Move) : List Move := ms.flatMap fun m => granules m m.len

/-- A move goes on where another ends, in its source and its destination. -/
def Move.joins (g m : Move) : Bool :=
  g.dst.sp == m.dst.sp && g.dst.addr + g.len == m.dst.addr && (match g.src, m.src with
    | none, none => true
    | some x, some y => x.sp == y.sp && x.addr + g.len == y.addr
    | _, _ => false)

/-- Bytes of a move up to the next line of its source and of its destination (14 R315). -/
def Move.room (m : Move) : Nat := min (128 - m.dst.addr % 128) (match m.src with | some l => 128 - l.addr % 128 | none => 128)

/-- Two moves of which the second joins the first, as one. -/
def Move.append (g m : Move) : Move := if g.len = 0 then m else { g with len := g.len + m.len, const := g.const ++ m.const }

/-- The first `n` bytes of a move, and the rest. -/
def Move.cut (m : Move) (n : Nat) : Move × Move :=
  let next : Loc → Loc := fun l => ⟨l.sp, l.addr + n⟩
  (⟨m.src, m.const.take n, m.dst, n⟩, ⟨m.src.map next, m.const.drop n, next m.dst, m.len - n⟩)

/-- The next granule of some moves, begun as `g`, and the moves that stay (14 R315). -/
def nextGranule (g : Move) : List Move → Move × List Move
  | [] => (g, [])
  | m :: t =>
    if m.len = 0 then nextGranule g t
    else if g.len = 0 || (g.joins m && m.dst.addr % 128 != 0 && (match m.src with | some l => l.addr % 128 != 0 | none => true)) then
      if m.room < m.len then (g.append (m.cut m.room).1, (m.cut m.room).2 :: t) else nextGranule (g.append m) t
    else (g, m :: t)

/-- No bytes. -/
def Move.empty : Move := ⟨none, [], ⟨.glob, 0⟩, 0⟩

/-- Moves without a byte are dropped. -/
def liveMoves (ms : List Move) : List Move := ms.filter fun m => m.len != 0

/-- A stream of the core in focus. -/
def streamOf (c : Core) (n : Nat) : List Cmd := nth [] c.cmds n

/-- Change a stream of the core in focus. -/
def modStream (n : Nat) (f : List Cmd → List Cmd) (s : State) : State := modCore (fun c => { c with cmds := modNth c.cmds n f }) s

/-- Change one command of a stream of the core in focus. -/
def modCmd (n id : Nat) (f : Cmd → Cmd) (s : State) : State := modStream n (List.map fun c => if c.id = id then f c else c) s

/-- The command that a stream is performing: the first that has moves left (14 R311). -/
def activeCmd (q : List Cmd) : Option Cmd := q.find? fun c => !c.moves.isEmpty

/-- A command has source bytes to read: moves are left, or a peer has not answered a read of it (14 R311, R321). -/
def reading (rs : List Remote) (c : Cmd) : Bool := !c.moves.isEmpty || rs.any fun r => !r.write && c.far.contains r.tag

/-- The commands of a stream up to the first that still reads, started at a clk (14 R311). -/
def startCmds (rs : List Remote) (clk : Nat) : List Cmd → List Cmd
  | [] => []
  | c :: t => { c with start := c.start.or (some clk) } :: if reading rs c then t else startCmds rs clk t

/-- The commands of a stream whose turn has come start: one starts once those before it have read their last byte, and one that has
nothing to move completes at once (14 R311); a WSLD runs from then on (10 R242). -/
def startStream (n : Nat) (s : State) : State :=
  let q := streamOf s.core n
  let q' := startCmds s.remotes s.clk q
  let fresh := (q.filter fun c => c.start.isNone).filter fun c => q'.any fun d => d.id == c.id && d.start.isSome
  let s := modStream n (startCmds s.remotes s.clk) s
  let s := if fresh.any (·.ws) then modDie (fun d => { d with wsld := d.wsld + (fresh.filter (·.ws)).length }) s else s
  (fresh.filter fun c => c.moves.isEmpty).foldl (fun s _ => later 0 .none (.copyComplete s.core.die s.core.core n) s) s

/-- Put a command into a stream of the core in focus (14 R311). -/
def enqueue (n : Nat) (c : Cmd) (s : State) : State := startStream n (modStream n (· ++ [c]) s)

/-- The gang that issued a command is still there. -/
def issuerOf (s : State) (c : Cmd) : Option Gang := (allGangs s).find? fun g => g.key == c.gang && g.blk == c.blk && !g.leaving

/-- A byte of a space as a command reads it: global memory and team scratch with the held stores of its own block
(14 R312). -/
def cmdByte (s : State) (c : Cmd) (sp : Space) (a : Nat) : Byte :=
  match sp with
  | .glob => (heldByte s.core.muck c.blk false a).getD (look s.mem a)
  | .ts => (heldByte s.core.muck c.blk true a).getD (look s.die.ts a)
  | .core => ((blockOf c.blk s).map fun b => look b.scratch a).getD 0
  | .ws => look s.die.ws a

/-- Write bytes of a command to a scratch space, in place of those that older stores hold (11 R257); bytes of team scratch beyond its
size are in surrendered ways (14 R329). A WSLD mends the words that it writes whole (10 R240). -/
def scratchStore (c : Cmd) (sp : Space) (a : Nat) (bs : List Byte) (s : State) : State :=
  let cells := cellsAt a bs
  match sp with
  | .ts =>
    let w := writeTime s true cells
    let s := teamStore cells (trimHeld true s.die.die w.toNat none cells s)
    (sectorsOf cells).foldl (fun s x => modDie (fun d => { d with tsw := put d.tsw x w }) s) s
  | .core => onBlock c.blk (fun s => if s.block.key = c.blk ∧ s.block.st = .resident then
      wakeValues .core (fun g => g.blk == c.blk) (uniq (cells.map fun x => x.1 / 4))
        (modBlock (fun b => { b with scratch := writeBytes b.scratch a bs, fresh := b.fresh.map fun x => (x.1, x.2.1, x.2.2.filter fun y => !cells.any fun z => z.1 == y.1) }) s)
      else s) s
  | .ws => modDie (fun d => { d with ws := writeBytes d.ws a bs, wsBad := d.wsBad.filter fun w => decide (8 * w + 8 ≤ a) || decide (a + bs.length ≤ 8 * w) }) s
  | .glob => s

/-- Write physical bytes as an engine does (11 R257): at once, at a time later than every lease and store of their lines, in place of what
older stores still hold. -/
def engineStore (k : Nat) (bs : List Byte) (s : State) : State :=
  let cells := cellsAt k bs
  let (w, s) := stampLines s.core.lclk cells (abortLines (uniq (cells.map fun c => lineOf c.1)) s)
  dieStore s.core.die cells (trimHeld false s.core.die w.toNat none cells s)

/-- What a granule comes to. -/
inductive Gran where
  | ok (s : State)
  /-- A home misses on it. -/
  | miss (home : Nat) (striped : Bool) (gran : Nat)
  /-- A global access faults (14 R313). -/
  | fault (home code : Nat) (va : DWord)
  /-- A bad word of the weight store was read (10 R240). -/
  | bad

/-- A granule that a command asks of a home counts as a request of its core, and when it is tagged its sample is kept until its response (17 R387,
R388). DESIGN CHOICE (log 97): a granule read from global memory is one request and one written there is one. -/
def granSample (kind : Nat) (c : Cmd) (va : DWord) (home flags start : Nat) (due : Option Nat) (tags : List Nat) (s : State) : State :=
  let r := tagReq s
  if !r.1 then r.2
  else
    let g := (issuerOf s c).getD { Gang.vacant c.gang with blk := c.blk }
    let first := c.since.getD start
    let x : Sample := ⟨c.gang, va.toNat / 128, first, reqHead s g c.pos kind va (hopsTo s home) first,
      (List.replicate 8 0).set 6 (c.since.elim 0 (s.clk - ·)), flags, due, none, tags⟩
    modCore (fun y => { y with samples := y.samples ++ [x] }) r.2

/-- Send a part of a copy to a peer module (14 R321): a write, or a read whose data goes to a place. -/
def sendEngine (c : Cmd) (n home link pctx : Nat) (pva : DWord) (dst : LoadDst) (size : Nat) (data : Option (List Byte)) (va : DWord) (s : State) : State :=
  let tag := s.nextTag
  let r : Remote := ⟨tag, link, c.gang, c.id, data.isSome, 0, dst, va, c.pos, some (s.core.die, s.core.core, n), data.getD [], s.clk, false⟩
  let q : RemoteReq := ⟨tag, BitVec.ofNat 16 pctx, pva, data.isSome, size, data.getD [], true⟩
  let s := useEntry false c.ctx.toNat va { s with nextTag := tag + 1, remotes := s.remotes ++ [r] }
  let s := granSample (if data.isSome then 4 else 3) c va home 32 s.clk none [tag] s
  let s := sendLink link (.req q) s true
  later Config.remoteTimer .none (.remoteTimeout tag) (modCmd n c.id (fun c => { c with far := c.far ++ [tag] }) s)

/-- Note a watchpoint that a granule's global bytes meet (18 R405): a KIND 9 record, and a delivery to the issuer. DESIGN CHOICE (log 102): the launch
name stands in the first of the record's data bytes. -/
def copyWatch (c : Cmd) (ld : Bool) (va : DWord) (n : Nat) (s : State) : State :=
  if !(nth Part.reset s.core.parts c.gang.part).wpen then s
  else match wpHit s ld (!ld) va n with
  | none => s
  | some slot =>
    let gone := (issuerOf s c).isNone
    let f : HomeFault := ⟨0, 0, 9, 0x53, 4 * bnat gone, c.ctx, c.pos, va, BitVec.ofNat 32 slot, leBytes 8 c.blk.name⟩
    let s := appendDie s.die.dqBase (faultRecord f (vdZero s c.gang.die) c.gang.core c.gang.part c.gang.slot) s
    if gone then s else onGang c.gang (modGang fun g => { g with deliver := g.deliver ++ [⟨0x53, va, BitVec.ofNat 32 slot⟩] }) s

/-- The bytes that a copy of a redundant launch reads for scratch (19 R420): what it took, and of these the racy ones, which fold into SIGL at
its completion. `key` is the first byte in its memory. -/
def noteRead (n : Nat) (c : Cmd) (m : Move) (bs : List Byte) (key : Nat) (s : State) : State :=
  match m.src, blockOf c.blk s with
  | some l, some b =>
    if m.dst.sp = .glob ∨ b.nrep < 2 then s
    else
      let ts := l.sp == .ts
      let racy := fun (i : Nat) => (issuerOf s c).isSome && racyKeys (focusGang c.gang s) ts [key + i]
      let mark := if ts then tsMark l.addr else l.addr
      modCmd n c.id (fun c => { c with
        got := addCells (cellsAt m.dst.addr bs) c.got, racy := addCells ((cellsAt mark bs).filter fun x => racy (x.1 - mark)) c.racy }) s
  | _, _ => s

/-- A global place of a command, resolved at its home; one outside its owner's space has none (14 R318). -/
def cmdFind (s : State) (c : Cmd) (a : Nat) (acc : Access) : Xlate :=
  if 2 ^ 64 ≤ a then .noHome else xlate s c.ctx.toNat (podsetOf s c.blk.name) (BitVec.ofNat 64 a) acc

/-- Some sector of a range of physical bytes is poisoned (10 R237). -/
def rangePoisoned (s : State) (k n : Nat) : Bool := s.poison.any fun w => decide (sectorOf k ≤ w) && decide (w ≤ sectorOf (k + n - 1))

/-- The caches of the die and of the home hold the sectors that an engine's read goes through (10 R230). -/
def engineTouch (k n : Nat) (s : State) : State :=
  (uniq ((List.range n).map fun i => sectorOf (k + i))).foldl (fun s x =>
    homeTouch (x / 4) s.clk (if (s.die.lines.any fun y => y.sects.any fun z => z.1 == x) then s else dieTouch x s.clk 0 false s)) s

/-- Perform one granule (14 R311 to R313, R315). -/
def runGranule (n : Nat) (c : Cmd) (m : Move) (s : State) : Gran :=
  let put : List Byte → State → Gran := fun bs s =>
    if m.dst.sp = .glob then
      let va := BitVec.ofNat 64 m.dst.addr
      match cmdFind s c m.dst.addr .store with
      | .noHome => .fault 0 0x10 va
      | .miss h st g => .miss h st g
      | .fault h code => .fault h code va
      | .remote h link pctx pva => .ok (sendEngine c n h link pctx pva (.place .glob m.dst.addr m.len) m.len (some bs) va (copyWatch c false va m.len s))
      | .ok h k =>
        if boundFrame s k then .fault h 0x19 va
        else
          let s := useEntry false c.ctx.toNat va s
          let way := Config.hop * meshDist (dieSite c.gang.die) (homeSite h)
          let s := granSample 4 c va h (dieLatency s k).2 s.clk (some (s.clk + 1 + way)) [] s
          let s := noteWriter c.blk.name (cellsAt k bs) (engineStore k bs (copyWatch c false va m.len s))
          .ok (modCmd n c.id (fun x => { x with
            way := max x.way way, wt := max64 x.wt (wtOf s (lineOf k)) }) s)
    else
      let s := scratchStore c m.dst.sp m.dst.addr bs s
      .ok (if m.dst.sp = .ts then modCmd n c.id (fun x => { x with wt := max64 x.wt (look s.die.tsw (m.dst.addr / 32)) }) s
        else if m.dst.sp = .core then touchArray false s else s)
  match m.src with
  | none => put m.const s
  | some ⟨.glob, a⟩ =>
    let va := BitVec.ofNat 64 a
    match cmdFind s c a .load with
    | .noHome => .fault 0 0x10 va
    | .miss h st g => .miss h st g
    | .fault h code => .fault h code va
    | .remote h link pctx pva => .ok (sendEngine c n h link pctx pva (.place m.dst.sp m.dst.addr m.len) m.len none va (copyWatch c true va m.len s))
    | .ok h k =>
      let s := useEntry false c.ctx.toNat va s
      if rangePoisoned s k m.len then .fault h 0x32 va
      else
        let bs := (List.range m.len).map fun i => cmdByte s c .glob (k + i)
        let s := granSample 3 c va h (dieLatency s k).2 (c.start.getD s.clk) (some s.clk) [] s
        put bs (engineTouch k m.len (noteRead n c m bs k (copyWatch c true va m.len s)))
  | some ⟨.ws, a⟩ =>
    if s.die.wsBad.any fun w => decide (a / 8 ≤ w) && decide (w ≤ (a + m.len - 1) / 8) then .bad
    else put ((List.range m.len).map fun i => cmdByte s c .ws (a + i)) s
  | some ⟨.ts, a⟩ =>
    if s.die.tsPoison.any fun x => decide (a / 32 ≤ x) && decide (x ≤ (a + m.len - 1) / 32) then .fault 0 0x32 (BitVec.ofNat 64 a)
    else
      let bs := (List.range m.len).map fun i => cmdByte s c .ts (a + i)
      put bs (noteRead n c m bs a s)
  | some ⟨sp, a⟩ => put ((List.range m.len).map fun i => cmdByte s c sp (a + i)) (touchArray false s)

/-- Clk that an engine's read of its source takes (14 R315, 12 R277). -/
def sourceLat (s : State) (c : Cmd) (m : Move) : Nat :=
  match m.src with
  | some ⟨.glob, a⟩ => match cmdFind s c a .load with
    | .ok _ k => (dieLatency s k).1
    | _ => 0
  | some ⟨.core, _⟩ => 6
  | some ⟨.ts, _⟩ => 48
  | some ⟨.ws, _⟩ => 24
  | none => 0

/-- A granule is held by the weight store: a refreshing bank of its source or of a WSLD's destination, or a read while a WSLD runs (10 R241,
R242, 14 R315). -/
def granuleStalls (s : State) (m : Move) : Bool :=
  (match m.src with | some ⟨.ws, a⟩ => wsStalls s [a] | _ => false) || (m.dst.sp == .ws && wsRefreshing s m.dst.addr)

/-- A granule reads or writes the core's scratch (10 R245). -/
def Move.onScratch (m : Move) : Bool := m.dst.sp == .core || (match m.src with | some l => l.sp == .core | none => false)

/-- The operation is a copy into scratch of a gang in a forwarded replay (19 R420). -/
def replays (s : State) (c : Cmd) : Bool :=
  match blockOf c.blk s with
  | none => false
  | some b => b.replay && decide (2 ≤ b.nrep) && ((issuerOf s c).any fun g => lane b.rolled g.gno) && c.moves.all (fun m => m.dst.sp != .glob)

/-- The replica of a command is its block's primary. -/
def primaryCmd (s : State) (c : Cmd) : Bool := (primaryOf s c.blk.name c.blk.idx).any fun p => p.key == c.blk

/-- Moves whose source lies in global memory or team scratch become moves of given bytes. -/
def fillMoves : List Move → List Byte → List Move
  | [], _ => []
  | m :: t, bs =>
    match m.src with
    | some ⟨.glob, _⟩ => { m with src := none, const := bs.take m.len } :: fillMoves t (bs.drop m.len)
    | some ⟨.ts, _⟩ => { m with src := none, const := bs.take m.len } :: fillMoves t (bs.drop m.len)
    | _ => m :: fillMoves t bs

/-- A backup's copy in a forwarded replay takes the data that the primary received, once it has come (19 R420). -/
def feedCmd (n : Nat) (c : Cmd) (s : State) : State :=
  if c.fed || !replays s c || primaryCmd s c then s
  else match (issuerOf s c).bind fun g => takeFwdBy c.pos (fun w => w.head? == some 4) g.fwd with
  | none => s
  | some (ws, t) => modCmd n c.id (fun c => { c with fed := true, moves := fillMoves c.moves ((ws.drop 1).flatMap fun w => leBytes 4 w.toNat) })
      (onGang c.gang (modGang fun g => { g with fwd := t }) s)

/-- The granule that a stream of the core in focus has ready (14 R315): its command, the granule and the moves behind it. -/
def readyGranule (s : State) (n : Nat) : Option (Cmd × Move × List Move) :=
  match activeCmd (streamOf s.core n) with
  | none => none
  | some c =>
    let r := nextGranule Move.empty c.moves
    match c.start with
    | none => none
    | some t =>
      if c.stopped.isNone && !c.asked && (c.fed || !replays s c || primaryCmd s c) && decide (t + sourceLat s c r.1 ≤ s.clk) && !granuleStalls s r.1 then
        some (c, r.1, r.2) else none

/-- The ring that a transfer filled publishes its slot (14 R326). -/
def publishRing (r slot : Nat) (s : State) : State :=
  modCore (fun c => { c with rings := modNth c.rings r fun d =>
    { d with phases := modNth d.phases slot (· + 1), filled := d.filled + 1 } }) s

/-- What other replicas take of a completed operation (19 R419, R420): the end of one performed once, or the primary's data of a copy into
scratch in a forwarded replay. -/
def forwardCmd (c : Cmd) (s : State) : State :=
  let data := if replays s c && primaryCmd s c then
      ((issuerOf s c).elim [] fun g => ((allGangs s).filter fun h => h.blk.name == c.blk.name && h.blk.idx == c.blk.idx && h.gno == g.gno && h.blk.rep != c.blk.rep).map (·.key))
    else []
  let way := fun (k : GangKey) => Config.hop * meshDist (dieSite c.gang.die) (dieSite k.die)
  let s := c.peers.foldl (fun s k => later (way k) .none (.forwardArrival k [c.pos]) s) s
  data.foldl (fun s k => later (way k) .none (.forwardArrival k (c.pos :: 4 :: wordsOfBytes (c.got.map (·.2)))) s) s

/-- A command of a stream is complete (14 R311, R326): its slot is published when it was not abandoned, its writes have their place
in the order (11 R257), its counter entry completes, and the stream goes on. -/
def finishCmd (n id : Nat) (whole : Bool) (s : State) : State :=
  match (streamOf s.core n).find? fun c => c.id == id with
  | none => s
  | some c =>
    let s := modStream n (fun q => q.filter fun x => x.id != id) s
    let s := match c.ring with
      | some (r, slot) => if whole then publishRing r slot s else s
      | none => s
    let s := if c.ws && c.start.isSome then modDie (fun d => { d with wsld := d.wsld - 1 }) s else s
    let s := modCore (fun x => { x with lclk := max64 x.lclk c.wt }) (noteTime c.blk.name c.wt (forwardCmd c s))
    let fold := fun (s : State) => if s.gang.live ∧ s.gang.blk = c.blk then foldL (cellRecs c.op.1 c.op.2 0xFF c.racy) s else s
    startStream n (reapBlock c.blk (onGang c.gang (fun s => retireGang (completePart c.id 1 (fold s))) s))

/-- Abandon a command of a stream with a fault code (14 R313): the issuer takes it at its next clause header, or the
fault sink has it marked "issuer gone". -/
def abandonCmd (n id code : Nat) (va : DWord) (s : State) : State :=
  match (streamOf s.core n).find? fun c => c.id == id with
  | none => s
  | some c =>
    let s := match issuerOf s c with
      | some _ => onGang c.gang (modGang fun g => { g with deliver := g.deliver ++ [⟨code, va, c.pos⟩] }) s
      | none => sinkRecord c.blk.name ⟨code, 3, 4, c.blk.rep, c.blk.idx, c.gno, c.gang.part, c.gang.core,
        ownSite s { Gang.vacant c.gang with ctx := c.ctx }, c.pos, c.pos, va, 0⟩ s
    finishCmd n id false s

/-- A stream stops at an access of a command that a home answers with a fault, and the record is on its way (14 R313). -/
def stopCmd (n : Nat) (c : Cmd) (home code : Nat) (va : DWord) (s : State) : State :=
  let f : HomeFault := ⟨home, c.id, 3, code, 4 * bnat (issuerOf s c).isNone, c.ctx, c.pos, va, 0, []⟩
  later (homeTrip c.gang.die home) .none (.engineAccessFault s.core.die s.core.core n f)
    (modCmd n c.id (fun c => { c with stopped := some (code, va) }) s)

/-- A command has moved its last granule (14 R315): it completes one clk later, or when its last byte has reached its home, or its peers
have answered (14 R321). -/
def endMoves (n id : Nat) (s : State) : State :=
  match (streamOf s.core n).find? fun c => c.id == id with
  | none => s
  | some c =>
    let till := s.clk + 1 + c.way
    let s := modCmd n id (fun c => { c with till := till }) s
    startStream n (if c.far.isEmpty then later (1 + c.way) .none (.copyComplete s.core.die s.core.core n) s else s)

/-- Perform a granule of a stream's command, of which `rest` stays (14 R311 to R313, 10 R240). -/
def serve (n : Nat) (c : Cmd) (m : Move) (rest : List Move) (s : State) : State :=
  match runGranule n c m s with
  | .ok s =>
    let s := modCore (perfAdd 21 0 1) (modCmd n c.id (fun c => { c with moves := liveMoves rest, start := c.start.map (· + 1), since := none }) s)
    if (liveMoves rest).isEmpty then endMoves n c.id s else s
  | .miss h st g => later 0 .none (.tlbMiss h c.ctx.toNat st g ⟨c.gang, some n⟩) (modCmd n c.id (fun c => { c with asked := true, since := c.since.or (some s.clk) }) s)
  | .fault h code va =>
    let reads : Bool := m.src.any fun l => l.sp == .glob && l.addr == va.toNat
    let s := granSample (if reads then 3 else 4) c va h 64 (c.start.getD s.clk) (some (s.clk + homeTrip c.gang.die h)) [] s
    if code = 0x19 ∨ code = 0x32 then abandonCmd n c.id code va s else stopCmd n c h code va s
  | .bad =>
    let s := match issuerOf s c, blockOf c.blk s with
      | some g, _ => killBlock c.blk (gangSink s g 0x32 2 0 c.pos (Config.arrayNumber 3) 0) true s
      | none, some b => killBlock c.blk { blockSink s b 0x32 2 0 (Config.arrayNumber 3) with pos := c.pos } true s
      | none, none => s
    finishCmd n c.id false s

/-- A stream whose granule would touch a retained core scratch makes it leave retention (10 R245). -/
def wakeScratch (n : Nat) (s : State) : State :=
  match readyGranule s n with
  | some (_, m, _) => if m.onScratch then (retainStep false s).getD s else s
  | none => s

/-- A granule can be moved in this clk: its core scratch is awake (10 R245). -/
def movable (s : State) (n : Nat) : Option (Cmd × Move × List Move) :=
  (readyGranule s n).filter fun r => !r.2.1.onScratch || (retainStep false s).isNone

/-- ONE CLK OF THE COPY ENGINE of the core in focus (14 R315): the streams that have a granule ready take turns, one granule a clk. -/
def engineClk (s : State) : State :=
  let all := List.range 5
  let s := all.foldl (fun s n => startStream n s) s
  let s := all.foldl (fun s n => match activeCmd (streamOf s.core n) with | some c => feedCmd n c s | none => s) s
  let s := all.foldl (fun s n => wakeScratch n s) s
  match (all.map fun i => (s.core.engLast + 1 + i) % 5).findSome? fun n => (movable s n).map fun r => (n, r) with
  | none => s
  | some (n, c, m, rest) => serve n c m rest (modCore (fun x => { x with engLast := n }) s)

/-- One clk of every copy engine that holds a command. -/
def runEngines (s : State) : State :=
  ((allCores s).filter fun c => c.cmds.any fun q => !q.isEmpty).foldl (fun s c => onDie c.die (onCore c.die c.core engineClk) s) s

/-- The command of a stream that is to complete now. -/
def dueCmd (s : State) (n : Nat) : Option Cmd :=
  (streamOf s.core n).find? fun c => c.moves.isEmpty && c.far.isEmpty && c.start.isSome && decide (c.till ≤ s.clk)

/-- Perform the granules of a command of a stream until one cannot go on. 11 R257 lets an engine read its source and show its bytes at any points between
issue and completion: DESIGN CHOICE, each granule is read and written at its turn in the engine (log 21). -/
def runMoves (n id : Nat) : Nat → State → State
  | 0, s => s
  | fuel + 1, s =>
    match (streamOf s.core n).find? fun c => c.id == id with
    | none => s
    | some c =>
      if c.moves.isEmpty ∨ c.stopped.isSome ∨ c.asked then s
      else
        let r := nextGranule Move.empty c.moves
        runMoves n id fuel (serve n c r.1 r.2 s)

/-- A copy operation completes in its stream (14 R311): that whose last byte has been performed; where the event comes before the engine
has moved them all, the active command's last granules are moved with it. -/
def runCmd (n : Nat) (s : State) : State :=
  match dueCmd s n with
  | some c => finishCmd n c.id true s
  | none =>
    match activeCmd (streamOf s.core n) with
    | none => s
    | some c => if c.stopped.isSome then s else runMoves n c.id ((c.moves.map (·.len)).sum + 1) s

/-- A range of a copy (14 R310): a space, its first byte and its length. -/
structure CopyRange where
  sp : Space
  addr : Nat
  len : Nat
  /-- The lane it belongs to; 0 for a uniform copy. -/
  lane : Nat
  /-- It is written. -/
  write : Bool

/-- A global range belongs to no home, or reaches across two owners' spaces (14 R310 step 4). -/
def rangeHomeless (s : State) (r : CopyRange) : Bool :=
  let at' := fun (a : Nat) => xlate s s.gang.ctx.toNat 0 (BitVec.ofNat 64 a) .load == .noHome
  r.sp == .glob && decide (0 < r.len) &&
    (decide (2 ^ 64 < r.addr + r.len) || at' r.addr || at' (r.addr + r.len - 1) || r.addr / 2 ^ 50 != (r.addr + r.len - 1) / 2 ^ 50)

/-- The limit of a scratch space, and the code of a range beyond it (14 R310 step 5). -/
def rangeLimit (s : State) : Space → Nat × Nat
  | .core => (scratchSize s, 0x13)
  | .ts => (s.die.tsize, 0x14)
  | .ws => (Config.wsBytes, 0x13)
  | .glob => (2 ^ 64, 0x10)

/-- A range of scratch or weight store that reaches beyond its space. -/
def rangeBeyond (s : State) (r : CopyRange) : Bool :=
  r.sp != .glob && decide (0 < r.len) && decide ((rangeLimit s r.sp).1 < r.addr + r.len)

/-- The trap of the ranges that fail a check: TRAPINFO is the lane mask of a lane form, 0 of a uniform one (log 21). -/
def rangeTrap (lanes : Bool) (code : CopyRange → Nat) (bad : List CopyRange) : Option Eff :=
  match (bad.map (·.lane)).min? with
  | none => none
  | some l => (bad.find? fun r => r.lane == l).map fun r =>
      .trap (code r) (if lanes then maskOf fun k => bad.any fun b => b.lane == k else 0) (BitVec.ofNat 64 r.addr)

/-- The checks 3 to 6 of 14 R310 over the ranges of a copy; `unit` is the alignment, and `wsOk` allows a destination in the
weight store. -/
def copyTrap (s : State) (lanes : Bool) (unit : Nat) (lenOk wsOk : Bool) (rs : List CopyRange) : Option Eff :=
  let a := if !lenOk then some (.trap 0x12 0 0) else rangeTrap lanes (fun _ => 0x12) (rs.filter fun r => r.addr % unit != 0)
  a.or ((rangeTrap lanes (fun _ => 0x10) (rs.filter (rangeHomeless s))).or
    ((rangeTrap lanes (fun r => (rangeLimit s r.sp).2) (rs.filter (rangeBeyond s))).or
      (rangeTrap false (fun _ => 0x15) (if wsOk then [] else rs.filter fun r => r.sp == .ws && r.write))))

/-- A poisoned sector in a source traps precisely at the copy, whether or not a TLB entry covers it (10 R237, R238); in a copy of rows, one a
lane, the lowest affected lane's row gives the address. -/
def poisonTrap (rows : Bool) (s : State) (ms : List Move) : Option Eff :=
  if s.poison.isEmpty && s.die.tsPoison.isEmpty then none
  else (if rows then ms else allGranules ms).findSome? fun m => match m.src with
    | some ⟨.glob, a⟩ =>
      let bad := (granules m m.len).any fun g => match g.src with
        | some l => (match xlateUnit s s.gang.ctx.toNat (BitVec.ofNat 64 l.addr) .load with
          | .ok _ k => rangePoisoned s k g.len
          | _ => false)
        | none => false
      if bad then some (.trap 0x32 0 (BitVec.ofNat 64 a)) else none
    | some ⟨.ts, a⟩ =>
      if s.die.tsPoison.any fun x => decide (a / 32 ≤ x) && decide (x ≤ (a + m.len - 1) / 32) then some (.trap 0x32 0 (BitVec.ofNat 64 a)) else none
    | _ => none

/-- The command stream of a copy instruction (14 R309). -/
def streamFor (s : State) (cmd : Nat) : Nat := if isCrew s s.gang then 4 else cmd

/-- The fold records of a copy (19 R412). -/
def copyRecs (maj sub kind addr len src : Nat) : List FoldRec :=
  [opRec maj sub kind addr (BitVec.ofNat 32 len), opRec maj sub kind addr (BitVec.ofNat 32 src), opRec maj sub kind addr (BitVec.ofNat 32 (src / 2 ^ 32))]

/-- An address as a fold record names it (19 R410). -/
def foldAddr (sp : Space) (a : Nat) : Nat := if sp = .ts then tsMark a else a

/-- A command of the gang in focus as it enters its stream. -/
def newCmd (id : Nat) (ms : List Move) (ring : Option (Nat × Nat)) (ws : Bool) (peers : List GangKey) (op : Nat × Nat) (s : State) : Cmd :=
  ⟨s.gang.key, s.gang.blk, s.gang.ctx, id, liveMoves ms, ring, herePos s, s.gang.gno, ws, none, [], peers, op, none, 0, 0, 0, false, none, false, [], []⟩

/-- Issue a checked copy (14 R311, R314, 19 R419): its counter entry, its release point of kind 13, its pin, and its
command. `once` marks a copy that the primary alone performs: a backup's entry completes with the primary's. -/
def copyIssue (cls : Cls) (n : Nat) (recs : List FoldRec) (once ws : Bool) (ms : List Move) (s : State) (rows : Bool := false) : Eff :=
  if full s cls ∨ 16 ≤ (streamOf s.core n).length then .stall s
  else match poisonTrap rows s ms with
  | some t => t
  | none => releasePoint (13 + 32 * bnat once) recs s fun performs s =>
    let (id, s) := newPend cls 1 [] false s
    let peers := if once && folding s then (counterparts s).map (·.key) else []
    let c := newCmd id ms none ws peers (((recs.head?).map fun r => (r.maj, r.sub)).getD (0, 0)) s
    let s := if once then pin s else s
    if !once ∨ performs then .done (enqueue n c s)
    else match takeFwd (herePos s) s.gang.fwd with
    | some (_, t) => .done (later 0 (.gang s.gang.key) (.resultWriteback s.gang.key id) (modGang (fun g => { g with fwd := t }) s))
    | none => .done s

/-- CPY (14 R316). -/
def execCpy (d a b : SReg) (dsp ssp : Sp4) (cmd : BitVec 2) (x : Guard) (s : State) : Host.Outcome State Fault Refusal :=
  let dst := sp4Space dsp
  let src := sp4Space ssp
  runs { reqX 0xB0 x with sr := spaceRegs dst d.toNat ++ spaceRegs src a.toNat ++ [b.toNat] } s fun m s =>
    if m = 0 then .done s
    else if inTxn s then illegalUse
    else
      let da := spaceAddr s dst d.toNat
      let sa := spaceAddr s src a.toNat
      let len := (rdS s b.toNat).toNat
      match copyTrap s false 4 (len % 4 == 0) false [⟨dst, da, len, 0, true⟩, ⟨src, sa, len, 0, false⟩] with
      | some t => t
      | none => copyIssue .cp (streamFor s cmd.toNat) (copyRecs 0xB0 (subField (.cpy d a b dsp ssp cmd x)) 13 (foldAddr dst da) len sa)
          (dst == .glob) false [⟨some ⟨src, sa⟩, [], ⟨dst, da⟩, len⟩] s

/-- A tensor record (14 R317). -/
structure Tensor where
  gbase : Nat
  sbase : Nat
  ndim : Nat
  esz : Nat
  padk : Nat
  padv : List Byte
  stride : List Nat
  extent : List Nat
  box : List Nat

/-- The fields of a tensor record (14 R317). -/
def tensorOf (bs : List Byte) : Tensor :=
  let get := fun (o n : Nat) => leNat ((bs.drop o).take n)
  let dims := fun (o n : Nat) => (List.range 8).map fun i => get (64 + 16 * i + o) n
  ⟨get 0 8, get 8 4, get 12 1, get 13 1, get 14 1, (bs.drop 16).take 8, dims 0 8, dims 8 4, dims 12 2⟩

/-- The byte offset of the first field of a record that is out of its range (14 R317, R318). -/
def tensorBad (t : Tensor) : Option Nat :=
  let e := 2 ^ t.esz
  if 3 < t.esz then some 13
  else if t.gbase % e ≠ 0 then some 0
  else if t.sbase % e ≠ 0 then some 8
  else if t.ndim = 0 ∨ 8 < t.ndim then some 12
  else if 1 < t.padk then some 14
  else (List.range t.ndim).findSome? fun i =>
    if nth 0 t.stride i % e ≠ 0 then some (64 + 16 * i)
    else if nth 0 t.extent i = 0 then some (64 + 16 * i + 8)
    else if nth 0 t.box i = 0 ∨ 256 < nth 0 t.box i then some (64 + 16 * i + 12)
    else none

/-- Elements of a box (14 R318). -/
def tensorCount (t : Tensor) : Nat := ((t.box.take t.ndim).foldl (· * ·) 1)

/-- The moves of TCPY (14 R318): one an element; an out-of-bounds element is padded on the way in and skipped on the way
out. An address outside the space of GBASE's owner is shown by 2^64 above it, and is of no home. -/
def tensorMoves (t : Tensor) (out : Bool) (sp : Space) (coord : Nat → Int) : List Move :=
  let e := 2 ^ t.esz
  (List.range (tensorCount t)).filterMap fun ix =>
    let j := fun (i : Nat) => ix / ((t.box.take i).foldl (· * ·) 1) % nth 1 t.box i
    let c := fun (i : Nat) => coord i + (j i : Int)
    let inb := (List.range t.ndim).all fun i => decide (0 ≤ c i) && decide (c i < ((nth 0 t.extent i : Nat) : Int))
    let g := ((t.gbase : Int) + ((List.range t.ndim).map fun i => c i * ((nth 0 t.stride i : Nat) : Int)).sum) % (2 ^ 64 : Nat)
    let ga := g.toNat + if g.toNat / 2 ^ 50 = t.gbase / 2 ^ 50 then 0 else 2 ^ 64
    let here : Loc := ⟨sp, t.sbase + e * ix⟩
    if out then (if inb then some ⟨some here, [], ⟨.glob, ga⟩, e⟩ else none)
    else if inb then some ⟨some ⟨.glob, ga⟩, [], here, e⟩
    else some ⟨none, if t.padk = 1 then t.padv.take e else List.replicate e 0, here, e⟩

/-- TCPY (14 R317, R318). -/
def execTcpy (d a : SReg) (out ts rsc : Bool) (cmd : BitVec 2) (x : Guard) (s : State) : Host.Outcome State Fault Refusal :=
  let sp : Space := if ts then .ts else .core
  let rsp : Space := if rsc then .core else .glob
  runs { reqX 0xB1 x with sr := spaceRegs rsp a.toNat ++ regs d.toNat 8 } s fun m s =>
    if m = 0 then .done s
    else if inTxn s then illegalUse
    else
      let ra := spaceAddr s rsp a.toNat
      match copyTrap s false 64 true true [⟨rsp, ra, 192, 0, false⟩] with
      | some t => t
      | none =>
        let sub := subField (.tcpy d a out ts rsc cmd x)
        let move := fun (bs : List Byte) (s : State) =>
          let t := tensorOf bs
          match tensorBad t with
          | some o => .trap 0x03 (BitVec.ofNat 32 o) 0
          | none =>
            match copyTrap s false 1 true true [⟨sp, t.sbase, 2 ^ t.esz * tensorCount t, 0, !out⟩] with
            | some e => e
            | none =>
              let ms := tensorMoves t out sp fun i => (rdS s (d.toNat + i)).toInt
              let dst := if out then t.gbase else foldAddr sp t.sbase
              copyIssue .tl (streamFor s cmd.toNat) (copyRecs 0xB1 sub 13 dst 0 (if out then t.sbase else t.gbase))
                out false ms s
        if !rsc then wholeBy 0xB1 sub (BitVec.ofNat 64 ra) 192 move s
        else match retainStep false s with
        | some s' => .stall (retainStall s')
        | none => move (readBytes s.block.scratch ra 192) (touchArray false s)

/-- GATHER and SCATTER (14 R319): one row a lane. -/
def rowsCopy (i : Instr) (maj : Nat) (scatter : Bool) (d a : SReg) (b : VReg) (r : Nat) (ts : Bool) (cmd k : Nat) (m : Word) (s : State) : Eff :=
  if m = 0 then .done s
  else if inTxn s then illegalUse
  else
    let sp : Space := if ts then .ts else .core
    let len := 4 * (r + 1)
    let base := (rdS s d.toNat).toNat
    let rows := (lanesOf m).map fun l => (l, (rdSS s a.toNat + BitVec.ofNat 64 ((rdV s b.toNat l).toNat * 2 ^ k)).toNat, base + len * l)
    let rs := rows.flatMap fun x => [(⟨.glob, x.2.1, len, x.1, scatter⟩ : CopyRange), ⟨sp, x.2.2, len, x.1, !scatter⟩]
    match copyTrap s true 4 true false rs with
    | some t => t
    | none =>
      let ms := rows.map fun x => if scatter then (⟨some ⟨sp, x.2.2⟩, [], ⟨.glob, x.2.1⟩, len⟩ : Move) else ⟨some ⟨.glob, x.2.1⟩, [], ⟨sp, x.2.2⟩, len⟩
      let ga := (rdSS s a.toNat).toNat
      copyIssue .cp (streamFor s cmd) (copyRecs maj (subField i) 13 (if scatter then ga else foldAddr sp base) 0 (if scatter then base else ga))
        scatter false ms s true

/-- GATHER (14 R319). -/
def execGather (d a : SReg) (b : VReg) (r : BitVec 8) (ts : Bool) (cmd k : BitVec 2) (x : Guard) (s : State) : Host.Outcome State Fault Refusal :=
  runs { reqX 0xB2 x with vr := [b.toNat], sr := d.toNat :: pair a.toNat } s fun m s =>
    rowsCopy (.gather d a b r ts cmd k x) 0xB2 false d a b r.toNat ts cmd.toNat k.toNat m s

/-- SCATTER (14 R319). -/
def execScatter (d a : SReg) (b : VReg) (r : BitVec 8) (ts : Bool) (cmd k : BitVec 2) (x : Guard) (s : State) : Host.Outcome State Fault Refusal :=
  runs { reqX 0xB3 x with vr := [b.toNat], sr := d.toNat :: pair a.toNat } s fun m s =>
    rowsCopy (.scatter d a b r ts cmd k x) 0xB3 true d a b r.toNat ts cmd.toNat k.toNat m s

/-- The launch of the gang in focus is marked as a weight-store prologue (13 R295). -/
def isPrologue (s : State) : Bool := ((ownLaunch s).map (·.info.prologue)).getD false

/-- WSSTATE.LOCKED (10 R242): a block of an ordinary launch is resident on the die. -/
def wsLocked (s : State) (d : Nat) : Bool :=
  (allBlocks s).any fun b => b.die == d && b.st == .resident && (match launchOf b.key.name s with
    | some l => l.crewOf.isNone && !l.info.prologue
    | none => false)

/-- WSLD (14 R320). -/
def execWsld (d a b : SReg) (x : Guard) (s : State) : Host.Outcome State Fault Refusal :=
  let may := isCrew s s.gang || isPrologue s
  runs { reqX 0xBC x with level := if may then .kernel else .firmware, sr := d.toNat :: pair a.toNat ++ [b.toNat] } s fun m s =>
    if m = 0 then .done s
    else if !may then .trap 0x0B 0xBC 0
    else if inTxn s then illegalUse
    else
      let da := (rdS s d.toNat).toNat
      let sa := (rdSS s a.toNat).toNat
      let len := (rdS s b.toNat).toNat
      if da % 32 ≠ 0 ∨ len % 32 ≠ 0 then .trap 0x12 0 (BitVec.ofNat 64 da)
      else match copyTrap s false 1 true true [⟨.ws, da, len, 0, true⟩, ⟨.glob, sa, len, 0, false⟩] with
      | some t => t
      | none =>
        if wsLocked s s.die.die then .trap 0x15 0 (BitVec.ofNat 64 da)
        else copyIssue .cp 4 (copyRecs 0xBC 0 13 da len sa) false true [⟨some ⟨.glob, sa⟩, [], ⟨.ws, da⟩, len⟩] s

/-- A ring of the core in focus. -/
def ringOf (s : State) (r : Nat) : Ring := nth Ring.reset s.core.rings r

/-- Change a ring of the core in focus. -/
def modRing (r : Nat) (f : Ring → Ring) (s : State) : State := modCore (fun c => { c with rings := modNth c.rings r f }) s

/-- RING_MISUSE with the ring's number (14 R322). -/
def ringMisuse (r : Nat) : Eff := .trap 0x22 (BitVec.ofNat 32 r) 0

/-- Bytes of a slot (14 R322). -/
def Ring.slotBytes (r : Ring) : Nat := (r.slotb + 1) * 128

/-- Place of a slot in its space (14 R322). -/
def Ring.slotAt (r : Ring) (i : Nat) : Nat := r.base + i * r.slotBytes

/-- The gang has named a ring (17 R384). -/
def joinRing (r : Nat) (s : State) : State :=
  modBlock (fun b => { b with ringMem := put b.ringMem r (look b.ringMem r ||| maskOf fun l => l == s.gang.gno) }) s

/-- The checks every ring instruction makes first (14 R310, R322, R329): its use, that its block holds the descriptors, and
its ring's number; `valid` asks for a valid descriptor. -/
def ringUse (maj r : Nat) (valid : Bool) (m : Word) (s : State) (k : State → Eff) : Eff :=
  if m = 0 then .done s
  else if inTxn s then illegalUse
  else if !s.block.array then notHeldRing maj
  else if ((ownLaunch s).map (·.info.rings)).getD 0 ≤ r then ringMisuse r
  else if valid && !(ringOf s r).valid then ringMisuse r
  else k s
where
  /-- ROLE_VIOLATION of 05 R116. -/
  notHeldRing (maj : Nat) : Eff := .trap 0x05 (BitVec.ofNat 32 (256 + maj)) 0

/-- RGINIT (14 R323). -/
def execRginit (d : RgReg) (a : SReg) (n1 : BitVec 4) (slotb : BitVec 8) (ts : Bool) (x : Guard) (s : State) : Host.Outcome State Fault Refusal :=
  runs { reqX 0xB4 x with sr := [a.toNat] } s fun m s => ringUse 0xB4 d.toNat false m s fun s =>
    let old := ringOf s d.toNat
    let base := (rdS s a.toNat).toNat
    let new : Ring := ⟨base, slotb.toNat, n1.toNat + 1, ts, true, 0, 0, n1.toNat + 1, 0, 0, 0, List.replicate 16 0⟩
    if old.valid && old.free != old.n then ringMisuse d.toNat
    else match copyTrap s false 128 true true [⟨if ts then .ts else .core, base, new.n * new.slotBytes, 0, true⟩] with
    | some t => t
    | none => .done (modBlock (fun b => { b with ringMem := put b.ringMem d.toNat (maskOf fun l => l == s.gang.gno) }) (modRing d.toNat (fun _ => new) s))

/-- RGACQ .c (14 R324): `t` is the token. -/
def acquire (d : SReg) (c : PReg) (r i : Nat) (t : BitVec 16) (m : Word) (s : State) : Eff :=
  let g := ringOf s r
  let delta := (nth 0 g.phases i - t).toNat
  if delta = 0 then .wait (.ring r (some (i, t))) s
  else if delta = 1 then
    .done (wrS (d.toNat + 1) (BitVec.ofNat 32 i) (wrS d.toNat (BitVec.ofNat 32 (g.slotAt i)) (wrP c.toNat m m s)))
  else if delta < 32768 then
    .done (modCore (fun c => { c with stalecnt := if c.stalecnt = 0xFFFFFFFF then c.stalecnt else c.stalecnt + 1 })
      (wrS (d.toNat + 1) (BitVec.ofNat 32 i) (wrS d.toNat 0xFFFFFFFF (wrP c.toNat m 0 s))))
  else ringMisuse r

/-- RGACQ .c (14 R324). -/
def execRgacqC (d : SReg) (a : RgReg) (b : SReg) (c : PReg) (ph : Bool) (x : Guard) (s : State) : Host.Outcome State Fault Refusal :=
  runs { reqX 0xB5 x with sr := if ph then [] else [b.toNat], sw := pair d.toNat, pw := [c.toNat] } s fun m s =>
    ringUse 0xB5 a.toNat true m s fun s =>
      match (cur s).wait with
      | .ring _ (some (i, t)) => acquire d c a.toNat i t m s
      | _ =>
        let g := ringOf s a.toNat
        acquire d c a.toNat g.ci (if ph then g.ph else (rdS s b.toNat).truncate 16) m (joinRing a.toNat s)

/-- RGACQ .p (14 R324). -/
def execRgacqP (d : SReg) (a : RgReg) (c : PReg) (x : Guard) (s : State) : Host.Outcome State Fault Refusal :=
  runs { reqX 0xB5 x with sw := pair d.toNat, pw := [c.toNat] } s fun m s => ringUse 0xB5 a.toNat true m s fun s =>
    let s := joinRing a.toNat s
    let g := ringOf s a.toNat
    if g.free = 0 then .wait (.ring a.toNat none) s
    else
      let s := modRing a.toNat (fun g => { g with pi := (g.pi + 1) % g.n, free := g.free - 1, pmask := g.pmask ||| (1 <<< g.pi) }) s
      .done (wrS (d.toNat + 1) (BitVec.ofNat 32 g.pi) (wrS d.toNat (BitVec.ofNat 32 (g.slotAt g.pi)) (wrP c.toNat m m s)))

/-- RGREL .c (14 R325). -/
def execRgrelC (a : RgReg) (x : Guard) (s : State) : Host.Outcome State Fault Refusal :=
  runs (reqX 0xB6 x) s fun m s => ringUse 0xB6 a.toNat true m s fun s =>
    let s := joinRing a.toNat s
    let g := ringOf s a.toNat
    if nth 0 g.phases g.ci - g.ph ≠ 1 then ringMisuse a.toNat
    else releasePoint 6 [opRec 0xB6 0 6 a.toNat 0] s fun _ s =>
      .done (pin (modRing a.toNat (fun g =>
        let ci := (g.ci + 1) % g.n
        { g with filled := g.filled - 1, free := g.free + 1, ci := ci, ph := if ci = 0 then g.ph + 1 else g.ph }) s))

/-- An MST or a store to scratch of the gang in focus has not completed (14 R325). -/
def ownStoresOpen (s : State) : Bool :=
  (s.block.fresh.any fun x => x.2.1 == s.gang.gno && decide (s.clk < x.1)) ||
  s.gang.pend.any (fun p => !p.fin && !p.bytes.isEmpty) || s.core.muck.any fun e => e.ts && e.gang == s.gang.key && e.blk == s.gang.blk

/-- RGREL .p (14 R325). -/
def execRgrelP (a : RgReg) (x : Guard) (s : State) : Host.Outcome State Fault Refusal :=
  runs (reqX 0xB6 x) s fun m s => ringUse 0xB6 a.toNat true m s fun s =>
    let s := joinRing a.toNat s
    let g := ringOf s a.toNat
    match ((List.range 16).map fun i => (g.ci + i) % g.n).find? fun i => g.pmask.getLsbD i with
    | none => ringMisuse a.toNat
    | some _ => releasePoint 6 [opRec 0xB6 1 6 a.toNat 1] s fun _ s =>
      if ownStoresOpen s then .stall s
      else
        let g := ringOf s a.toNat
        match ((List.range 16).map fun i => (g.ci + i) % g.n).find? fun i => g.pmask.getLsbD i with
        | none => ringMisuse a.toNat
        | some i => .done (pin (modRing a.toNat (fun g => { g with
            pmask := g.pmask &&& ~~~((1 : BitVec 16) <<< i), phases := modNth g.phases i (· + 1), filled := g.filled + 1 }) s))

/-- RGPUT (14 R326). -/
def execRgput (d : RgReg) (a b : SReg) (ssp : Sp4) (cmd : BitVec 2) (x : Guard) (s : State) : Host.Outcome State Fault Refusal :=
  let src := sp4Space ssp
  runs { reqX 0xB7 x with sr := spaceRegs src a.toNat ++ [b.toNat] } s fun m s => ringUse 0xB7 d.toNat true m s fun s =>
    let g := ringOf s d.toNat
    let sa := spaceAddr s src a.toNat
    let len := (rdS s b.toNat).toNat
    if g.slotBytes < len then ringMisuse d.toNat
    else match copyTrap s false 1 (len % 4 == 0) false [⟨src, sa, len, 0, false⟩, ⟨if g.ts then .ts else .core, g.slotAt g.pi, len, 0, true⟩] with
    | some t => t
    | none =>
      let n := streamFor s cmd.toNat
      let sub := subField (.rgput d a b ssp cmd x)
      let put : State → Eff := fun s =>
        let s := joinRing d.toNat s
        let g := ringOf s d.toNat
        if g.free = 0 then .wait (.ring d.toNat none) s
        else if full s .cp ∨ 16 ≤ (streamOf s.core n).length then .stall s
        else
          let (id, s) := newPend .cp 1 [] false (pin s)
          let dst : Loc := ⟨if g.ts then .ts else .core, g.slotAt g.pi⟩
          let c := newCmd id [⟨some ⟨src, sa⟩, [], dst, len⟩] (some (d.toNat, g.pi)) false [] (0xB7, sub) s
          .done (enqueue n c (modRing d.toNat (fun g => { g with pi := (g.pi + 1) % g.n, free := g.free - 1 }) s))
      match (cur s).wait with
      | .ring .. => put s
      | _ =>
        match poisonTrap false s [⟨some ⟨src, sa⟩, [], ⟨.core, 0⟩, len⟩] with
        | some t => t
        | none =>
          releasePoint 5 [opRec 0xB7 sub 5 d.toNat (BitVec.ofNat 32 len), opRec 0xB7 sub 5 d.toNat (BitVec.ofNat 32 sa),
            opRec 0xB7 sub 5 d.toNat (BitVec.ofNat 32 (sa / 2 ^ 32))] s fun _ s => put s

end Sys2Proof.Machine
end

