-- ==== Sys2Proof/Machine/Blocks.lean ====
section
/-! DEFINITION. Launches and blocks as a whole: reading a launch record (13 R295), flushing blocks (02 R57, R58, 19 R423),
what a flush still has to drain, and which blocks a launch has. -/

namespace Sys2Proof.Machine

/-- A little-endian field of a record: first byte and length. -/
def recField (bs : List Byte) (pos n : Nat) : Nat := leNat ((bs.drop pos).take n)

/-- The fields of a launch record (13 R295). -/
def launchRecOf (bs : List Byte) : LaunchRec where
  cls := match recField bs 6 1 with | 0 => .c | 1 => .p | _ => .w
  prio := recField bs 7 1
  regs := recField bs 8 1
  crew := recField bs 9 1
  block := recField bs 10 1
  nrep := recField bs 11 1
  team := recField bs 12 2
  rings := recField bs 14 1
  twin := natb (recField bs 15 1)
  prologue := natb (recField bs 15 1 / 2)
  lpriv := natb (recField bs 15 1 / 4)
  scratch := recField bs 16 4
  priv := recField bs 20 4
  kita := recField bs 24 1
  kitb := recField bs 25 1
  kitn := recField bs 26 1
  roles := recField bs 28 8
  codev := recField bs 36 4 % 2 ^ 12
  entry := BitVec.ofNat 32 (recField bs 40 4)
  trapv := BitVec.ofNat 32 (recField bs 44 4)
  arg := BitVec.ofNat 32 (recField bs 48 4)
  mode := BitVec.ofNat 64 (recField bs 52 8)
  uarg := (List.range 8).map fun i => BitVec.ofNat 32 (recField bs (60 + 4 * i) 4)
  resume := BitVec.ofNat 64 (recField bs 92 8)
  privb := BitVec.ofNat 64 (recField bs 100 8)
  sink := BitVec.ofNat 64 (recField bs 108 8)
  done := BitVec.ofNat 64 (recField bs 116 8)
  podset := BitVec.ofNat 64 (recField bs 124 8)
  slices := if recField bs 134 1 = 0 then 8 else recField bs 134 1
  alanes := if recField bs 135 1 = 0 then 4 * (if recField bs 134 1 = 0 then 8 else recField bs 134 1) else recField bs 135 1
  afters := (List.range (recField bs 132 1)).map fun i => (BitVec.ofNat 64 (recField bs (160 + 16 * i) 8), BitVec.ofNat 64 (recField bs (168 + 16 * i) 8))
  mays := (List.range (recField bs 133 1)).map fun i => BitVec.ofNat 64 (recField bs (224 + 8 * i) 8)

/-- MAGIC or FMT is wrong, or a field lies outside its range (13 R295, R297). -/
def recordBad (bs : List Byte) : Bool :=
  let r := launchRecOf bs
  let kitty := fun (g : Nat) => g == 0xFF || (decide (g < 32) && decide (g % 8 < r.crew) && decide (g / 8 < r.block))
  recField bs 0 4 != 0x4C524344 || recField bs 4 2 != 1 || decide (2 < recField bs 6 1) || decide (3 < r.prio) ||
  decide (r.regs < 1) || decide (16 < r.regs) || decide (r.crew < 1) || decide (8 < r.crew) || decide (r.block < 1) || decide (4 < r.block) ||
  decide (r.nrep < 1) || decide (3 < r.nrep) || decide (r.team < 1) || decide (16 < r.rings) ||
  r.scratch % 256 != 0 || decide (98304 < r.scratch) || r.priv % 8 != 0 || decide (65536 < r.priv) ||
  !kitty r.kita || !kitty r.kitb || (r.kitn != 0 && r.kitn != 16 && r.kitn != 32) ||
  decide (4 < recField bs 132 1) || decide (8 < recField bs 133 1) || decide (8 < recField bs 134 1) || decide (4 * r.slices < r.alanes) ||
  r.done.toNat % 8 != 0 || r.afters.any fun a => a.1.toNat % 8 != 0

/-- Teams of one replica of a launch (19 R407). -/
def Launch.teams (l : Launch) : Nat := l.dies.length / max l.info.nrep 1

/-- Blocks of a launch, 0 to TEAM × t − 1 (13 R295, 19 R408). -/
def Launch.blocks (l : Launch) : Nat := l.info.team * l.teams

/-- The die that replica `k` of block `b` runs on (13 R295, 19 R407). -/
def Launch.dieFor (l : Launch) (k b : Nat) : Nat := nth 0 l.dies (k * l.teams + b / max l.info.team 1)

/-- Block `b` has started or will never start. -/
def Launch.begun (l : Launch) (b : Nat) : Bool :=
  l.barred.contains b || decide (b % max l.info.team 1 < nth 0 l.started (b / max l.info.team 1))

/-- The held entries and the copy commands of a block are gone (02 R58). -/
def drained (s : State) (b : BlockKey) : Bool :=
  !(allCores s).any fun c => c.muck.any (fun e => e.blk == b) || c.cmds.any fun q => q.any fun x => x.blk == b

/-- A block that has been flushed: its own state is as at block start (02 R59), but for the scratch that pending copies still use (14 R327). -/
def Block.out (x : Block) : Block := { x with
  st := .flushed, bars := List.replicate 32 Barrier.reset, kv := [], kfull := [], array := false, twin := false,
  flushReq := false, ringMem := [] }

/-- Flush one block, discarding the held entries that meet a test (02 R58): its gangs stop, its slots, registers and scratch
are free. -/
def flushOne (b : BlockKey) (p : Held → Bool) (s : State) : State :=
  let s := stopBlock b false (discardHeld (fun e => e.blk == b && p e) s)
  let s := { s with agenda := s.agenda.filter fun d => d.ev != .blockStart b && !(d.ev == .blockRestart && d.subj == .block b) }
  reapBlock b (mapBlocks (fun x => if x.key = b then x.out else x) s)

/-- A block holds a place on a core. -/
def placed (b : Block) : Bool := b.st == .starting || b.st == .resident

/-- The replicas of a block that hold places. -/
def replicasOf (s : State) (name idx : Nat) : List Block :=
  (allBlocks s).filter fun b => b.key.name == name && b.key.idx == idx && placed b

/-- Some replica of a block is pinned (02 R57, 19 R423). -/
def anyPinned (s : State) (name idx : Nat) : Bool := (replicasOf s name idx).any fun b => blockPinned s b.key

/-- Forget the votes and the resynchronisations of a block whose replicas are flushed together (19 R424). -/
def dropVotes (name idx : Nat) (s : State) : State :=
  { s with votes := s.votes.filter fun v => !(v.name == name && v.blk == idx), resyncs := s.resyncs.filter fun r => !(r.dst.name == name && r.dst.idx == idx) }

/-- Flush all replicas of a block: matched entries drain, and unmatched ones of a redundant block are discarded, or every
unreleased one when `all` is set (02 R58, 19 R423, 18 R400). -/
def flushBlock (name idx : Nat) (all : Bool) (s : State) : State :=
  let bs := replicasOf s name idx
  let s := bs.foldl (fun s b => flushOne b.key (fun e => all || (decide (2 ≤ b.nrep) && !e.matched)) s) s
  let s := mapBlocks (fun x => if x.key.name = name ∧ x.key.idx = idx then { x with struck := false } else x) s
  let dies := uniq (bs.map (·.die))
  dies.foldl (fun s d => later 1 .none (.admission d) s) (dropVotes name idx s)

/-- A request to flush a block for pre-emption (18 R401): at once when it is not pinned, else when its pin ends. -/
def preempt (name idx : Nat) (s : State) : State :=
  if anyPinned s name idx then
    mapBlocks (fun x => if x.key.name = name ∧ x.key.idx = idx ∧ placed x then { x with flushReq := true } else x) s
  else flushBlock name idx false s

/-- The indices of the blocks of a launch that hold places, each once. -/
def placedIndices (s : State) (name : Nat) : List Nat :=
  uniq (((allBlocks s).filter fun b => b.key.name == name && placed b).map (·.key.idx))

/-- Pre-empt blocks; the number that stay until their pin ends, and the keys of those flushed now (18 R401). -/
def preemptAll (ixs : List (Nat × Nat)) (s : State) : Nat × List BlockKey × State :=
  ixs.foldl (fun r x =>
    let (n, ks, s) := r
    if anyPinned s x.1 x.2 then (n + 1, ks, preempt x.1 x.2 s)
    else (n, ks ++ (replicasOf s x.1 x.2).map (·.key), preempt x.1 x.2 s)) (0, [], s)

/-- The codes of 18 R392. -/
def faultCodes : List Nat :=
  [0x01, 0x02, 0x03, 0x04, 0x05, 0x06, 0x07, 0x08, 0x09, 0x0A, 0x0B, 0x10, 0x11, 0x12, 0x13, 0x14, 0x15, 0x16, 0x17, 0x18,
   0x19, 0x20, 0x21, 0x22, 0x23, 0x24, 0x30, 0x31, 0x32, 0x33, 0x40, 0x41, 0x42, 0x50, 0x51, 0x52, 0x53, 0x54, 0x55]

/-- The record of the kill of a block: its pinned flag follows its pin, that of a redundant block its primary's (18 R395,
19 R423). -/
def killRecord (s : State) (b : Block) (code : Nat) (info : Word) : SinkInfo :=
  (blockSink s b code 2 0 info).pinned s b.key

end Sys2Proof.Machine
end

