-- ==== Sys2Proof/Machine/FloatLib.lean ====
section
/-! DEFINITION. Floating-point numbers as exact values: the formats (03 R62 to R64), rounding, overflow, flushing and
flags (03 R71 to R78), and the arithmetic of 07 R165 and R166. -/

namespace Sys2Proof.Machine

/-- A floating-point format (03 R62): width, significand bits, bias, and whether it is E4M3. -/
structure Fmt where
  width : Nat
  m : Nat
  bias : Nat
  e4m3 : Bool
deriving DecidableEq, Repr

/-- FP64. -/
def Fmt.fp64 : Fmt := ⟨64, 52, 1023, false⟩
/-- FP32. -/
def Fmt.fp32 : Fmt := ⟨32, 23, 127, false⟩
/-- FP16. -/
def Fmt.fp16 : Fmt := ⟨16, 10, 15, false⟩
/-- BF16. -/
def Fmt.bf16 : Fmt := ⟨16, 7, 127, false⟩
/-- FP8 E4M3. -/
def Fmt.f8e4 : Fmt := ⟨8, 3, 7, true⟩
/-- FP8 E5M2. -/
def Fmt.f8e5 : Fmt := ⟨8, 2, 15, false⟩

/-- The all-ones exponent field. -/
def Fmt.emax (f : Fmt) : Nat := 2 ^ (f.width - 1 - f.m) - 1

/-- The exponent of the least normal value. -/
def Fmt.emin (f : Fmt) : Int := 1 - (f.bias : Int)

/-- FI and FO act on the format (03 R73). -/
def Fmt.flushes (f : Fmt) : Bool := f.width != 8

/-- The canonical quiet NaN (03 R64). -/
def Fmt.nan (f : Fmt) : Nat := if f.e4m3 then 0x7F else f.emax * 2 ^ f.m + 2 ^ (f.m - 1)

/-- The sign bit in place. -/
def Fmt.sign (f : Fmt) (s : Bool) : Nat := bnat s * 2 ^ (f.width - 1)

/-- The largest finite value as significand and exponent of its last bit (03 R62). -/
def Fmt.top (f : Fmt) : Nat × Int :=
  if f.e4m3 then (14, (5 : Int)) else (2 ^ (f.m + 1) - 1, (f.emax : Int) - 1 - f.bias - f.m)

/-- The encoding of the largest finite magnitude (03 R62). -/
def Fmt.maxBits (f : Fmt) : Nat := if f.e4m3 then 0x7E else f.emax * 2 ^ f.m - 1

/-- A value: a NaN, signalling or not; an infinity; or (−1)^s × m × 2^e exactly. -/
inductive Val where
  | nan (sig : Bool)
  | inf (s : Bool)
  | num (s : Bool) (m : Nat) (e : Int)
deriving DecidableEq, Repr

/-- The value of an encoding (03 R63, R64); `fi` replaces a subnormal by a zero of its sign (03 R73). -/
def Fmt.unpack (f : Fmt) (fi : Bool) (x : Nat) : Val :=
  let s := natb (x / 2 ^ (f.width - 1))
  let e := fld x f.m (f.width - 1 - f.m)
  let m := fld x 0 f.m
  if f.e4m3 && e == 15 && m == 7 then .nan false
  else if !f.e4m3 && e == f.emax then
    if m = 0 then .inf s else .nan (!natb (m / 2 ^ (f.m - 1)))
  else if e = 0 then .num s (if fi && f.flushes then 0 else m) (f.emin - f.m)
  else .num s (2 ^ f.m + m) ((e : Int) - f.bias - f.m)

/-- A NaN. -/
def Val.isNan : Val → Bool
  | .nan _ => true
  | _ => false

/-- A signalling NaN. -/
def Val.isSig : Val → Bool
  | .nan b => b
  | _ => false

/-- A zero. -/
def Val.isZero : Val → Bool
  | .num _ m _ => m == 0
  | _ => false

/-- An infinity. -/
def Val.isInf : Val → Bool
  | .inf _ => true
  | _ => false

/-- The sign. -/
def Val.neg : Val → Bool
  | .nan _ => false
  | .inf s => s
  | .num s _ _ => s

/-- The value with its sign inverted. -/
def Val.negate : Val → Val
  | .nan b => .nan b
  | .inf s => .inf (!s)
  | .num s m e => .num (!s) m e

/-- A rounding mode (03 R71); stochastic rounding carries its 24 drawn bits (03 R74). -/
inductive RM where
  | ne | tz | up | dn | na
  | sr (b : Nat)
deriving DecidableEq, Repr

/-- The rounding mode of a code of RND or MODE.RM (03 R71). -/
def RM.ofCode : Nat → RM
  | 2 => .tz
  | 3 => .up
  | 4 => .dn
  | 5 => .na
  | _ => .ne

/-- MODE.RM (05 R117). -/
def modeRM (s : State) : RM := RM.ofCode (fld s.gang.mode.toNat 0 3)
/-- MODE.FTZI (05 R117). -/
def modeFtzi (s : State) : Bool := natb (fld s.gang.mode.toNat 3 1)
/-- MODE.FTZO (05 R117). -/
def modeFtzo (s : State) : Bool := natb (fld s.gang.mode.toNat 4 1)
/-- MODE.NANZ (05 R117). -/
def modeNanz (s : State) : Bool := natb (fld s.gang.mode.toNat 5 1)

/-- The mixing function of stochastic rounding (03 R75). -/
def srMix (z : DWord) : DWord :=
  let z := (z ^^^ (z >>> 30)) * 0xBF58476D1CE4E5B9
  let z := (z ^^^ (z >>> 27)) * 0x94D049BB133111EB
  z ^^^ (z >>> 31)

/-- The random bits of stochastic rounding (03 R75). -/
def srBits (seed : Word) (gid : DWord) (rpc rarg : Word) (sic : DWord) (e : Word) : Nat :=
  let z := srMix (gid ^^^ (seed.zeroExtend 64 <<< 32))
  let z := srMix (z ^^^ (rpc ++ rarg))
  let z := srMix (z ^^^ sic)
  let z := srMix (z ^^^ e.zeroExtend 64)
  (z >>> 40).toNat

/-- The random bits of element `e` of lane `l` at the present instruction (03 R75). -/
def srDraw (s : State) (l e : Nat) : Nat :=
  srBits (s.gang.mode.extractLsb' 32 32) (BitVec.ofNat 64 (globalLane s l)) s.gang.resumePc s.gang.resumeArg
    (BitVec.ofNat 64 (entryOf s.gang (l / 4)).sic) (BitVec.ofNat 32 e)

/-- The rounding mode of an RND field for element `e` of lane `l` (03 R71, R74). -/
def fpRound (s : State) (rnd : Rnd) (l e : Nat) : RM :=
  match rnd with
  | .mode => modeRM s
  | .rne => .ne
  | .rtz => .tz
  | .rup => .up
  | .rdn => .dn
  | .rna => .na
  | .sr => .sr (srDraw s l e)

/-- Does rounding the magnitude `n + r / d` go up (03 R71, R74)? -/
def roundsUp (rm : RM) (s : Bool) (n r d : Nat) : Bool :=
  match rm with
  | .ne => decide (d < 2 * r) || (decide (2 * r = d) && natb n)
  | .tz => false
  | .up => !s && decide (0 < r)
  | .dn => s && decide (0 < r)
  | .na => decide (d ≤ 2 * r)
  | .sr b => decide (0 < r) && decide (2 ^ 24 ≤ r * 2 ^ 24 / d + b)

/-- The magnitude m × 2^e rounded to a multiple of 2^q: the multiple, and whether it is inexact. -/
def roundAt (rm : RM) (s : Bool) (m : Nat) (e q : Int) : Nat × Bool :=
  if q ≤ e then (m * 2 ^ (e - q).toNat, false)
  else
    let d := 2 ^ (q - e).toNat
    (m / d + bnat (roundsUp rm s (m / d) (m % d) d), m % d != 0)

/-- ⌊log2⌋ of m × 2^e, for m above 0. -/
def ilog (m : Nat) (e : Int) : Int := (m.log2 : Int) + e

/-- The result of an overflow (03 R72). -/
def overflowBits (f : Fmt) (rm : RM) (sat s : Bool) : Nat :=
  let inf : Bool := match rm with
    | .tz => false
    | .up => !s
    | .dn => s
    | _ => true
  if !inf || sat then f.sign s + f.maxBits
  else if f.e4m3 then f.nan
  else f.sign s + f.emax * 2 ^ f.m

/-- Round an exact value to a format (03 R71 to R74, R76, R78): bits and flags. `fo` flushes a subnormal result, `sat`
replaces infinities. -/
def Fmt.round (f : Fmt) (rm : RM) (sat fo : Bool) (v : Val) : Nat × Fl :=
  match v with
  | .nan _ => (f.nan, {})
  | .inf s => (if sat then f.sign s + f.maxBits else if f.e4m3 then f.nan else f.sign s + f.emax * 2 ^ f.m, {})
  | .num s 0 _ => (f.sign s, {})
  | .num s m e =>
    let il := ilog m e
    let q := (if il < f.emin then f.emin else il) - f.m
    let (n, nx) := roundAt rm s m e q
    let beyond := if f.top.2 ≤ q then decide (f.top.1 < n * 2 ^ (q - f.top.2).toNat) else false
    let tiny := decide (il < f.emin) &&
      !(decide (il = f.emin - 1) && decide ((roundAt rm s m e (il - f.m)).1 = 2 ^ (f.m + 1)))
    if beyond then (overflowBits f rm sat s, { of := true, nx := true })
    else if fo && f.flushes && decide (0 < n) && decide (n < 2 ^ f.m) then (f.sign s, { uf := true, nx := true })
    else (f.sign s + ((q + f.m + f.bias - 1).toNat * 2 ^ f.m + n), { uf := tiny && nx, nx := nx })

/-- The exact sum of two values (07 R165), and whether it is invalid. -/
def Val.add (rm : RM) (a b : Val) : Val × Bool :=
  match a, b with
  | .nan x, b => (.nan false, x || b.isSig)
  | a, .nan y => (.nan false, y || a.isSig)
  | .inf x, .inf y => if x = y then (.inf x, false) else (.nan false, true)
  | .inf x, .num .. => (.inf x, false)
  | .num .., .inf y => (.inf y, false)
  | .num s m e, .num t n k =>
    let q := min e k
    let x : Int := (m * 2 ^ (e - q).toNat : Nat)
    let y : Int := (n * 2 ^ (k - q).toNat : Nat)
    let z := (if s then -x else x) + (if t then -y else y)
    let sz : Bool := if z = 0 then (if m = 0 && n = 0 && s == t then s else rm == .dn) else decide (z < 0)
    (.num sz z.natAbs q, false)

/-- The exact product of two values (07 R165), and whether it is invalid. -/
def Val.mul (a b : Val) : Val × Bool :=
  let s := a.neg != b.neg
  match a, b with
  | .nan x, b => (.nan false, x || b.isSig)
  | a, .nan y => (.nan false, y || a.isSig)
  | .inf _, b => if b.isZero then (.nan false, true) else (.inf s, false)
  | a, .inf _ => if a.isZero then (.nan false, true) else (.inf s, false)
  | .num _ m e, .num _ n k => (.num s (m * n) (e + k), false)

/-- The exact a × b + c (07 R165), and whether it is invalid. -/
def Val.fma (rm : RM) (a b c : Val) : Val × Bool :=
  let p := a.mul b
  let r := p.1.add rm c
  (r.1, p.2 || r.2 || c.isSig)

/-- A square root of `n` bits of result, rounded down, bit by bit. -/
def isqrtFrom (x : Nat) : Nat → Nat → Nat
  | 0, r => r
  | i + 1, r => isqrtFrom x i (if (r + 2 ^ i) * (r + 2 ^ i) ≤ x then r + 2 ^ i else r)

/-- The square root of a value to 64 bits and a sticky bit (07 R181), and whether it is invalid. -/
def Val.sqrt (a : Val) : Val × Bool :=
  match a with
  | .nan x => (.nan false, x)
  | .inf s => if s then (.nan false, true) else (.inf false, false)
  | .num s 0 e => (.num s 0 e, false)
  | .num s m e =>
    if s then (.nan false, true)
    else
      let (m, e) := if e % 2 = 0 then (m, e) else (2 * m, e - 1)
      let x := m * 2 ^ 128
      let r := isqrtFrom x 96 0
      (.num false (2 * r + bnat (r * r != x)) (e / 2 - 65), false)

/-- The quotient of two values to 64 bits more than it needs and a sticky bit (07 R180), with NV and DZ. -/
def Val.div (a b : Val) : Val × Fl :=
  let s := a.neg != b.neg
  match a, b with
  | .nan x, b => (.nan false, { nv := x || b.isSig })
  | a, .nan y => (.nan false, { nv := y || a.isSig })
  | .inf _, .inf _ => (.nan false, { nv := true })
  | .inf _, .num .. => (.inf s, {})
  | .num .., .inf _ => (.num s 0 0, {})
  | .num _ m e, .num _ n k =>
    if n = 0 then (if m = 0 then (.nan false, { nv := true }) else (.inf s, { dz := true }))
    else
      let x := m * 2 ^ 128
      (.num s (2 * (x / n) + bnat (x % n != 0)) (e - k - 129), {})

/-- The order of two values that are no NaN: −0 and +0 compare equal (07 R169). -/
def Val.cmp (a b : Val) : Int :=
  match a, b with
  | .inf s, .inf t => if s = t then 0 else if s then -1 else 1
  | .inf s, _ => if s then -1 else 1
  | _, .inf t => if t then 1 else -1
  | .num s m e, .num t n k =>
    let q := min e k
    let x : Int := (m * 2 ^ (e - q).toNat : Nat)
    let y : Int := (n * 2 ^ (k - q).toNat : Nat)
    (if s then -x else x) - (if t then -y else y)
  | _, _ => 0

/-- A comes before B for a minimum: −0 orders below +0 (03 R77). -/
def Val.below (a b : Val) : Bool :=
  decide (a.cmp b < 0) || (decide (a.cmp b = 0) && a.neg && !b.neg)

/-- The magnitude of a value. -/
def Val.mag : Val → Val
  | .nan b => .nan b
  | .inf _ => .inf false
  | .num _ m e => .num false m e

/-- The distance between two values. -/
def Val.dist (a b : Val) : Val := (a.add .ne b.negate).1.mag

/-- The bits of an operand after FI (03 R73). -/
def Fmt.flushed (f : Fmt) (fi : Bool) (x : Nat) : Nat :=
  if fi && f.flushes && fld x f.m (f.width - 1 - f.m) == 0 then x / 2 ^ (f.width - 1) * 2 ^ (f.width - 1) else x

/-- minimumNumber or maximumNumber of two encodings (03 R77). -/
def Fmt.pickNum (f : Fmt) (fi mx : Bool) (x y : Nat) : Nat × Fl :=
  let a := f.unpack fi x
  let b := f.unpack fi y
  let nv : Fl := { nv := a.isSig || b.isSig }
  let first := if mx then b.below a else a.below b
  (if a.isNan then (if b.isNan then f.nan else f.flushed fi y)
   else if b.isNan then f.flushed fi x
   else if first then f.flushed fi x else f.flushed fi y, nv)

/-- Round an exact value with the NV that its operation raised. -/
def Fmt.finish (f : Fmt) (rm : RM) (sat fo : Bool) (r : Val × Bool) : Nat × Fl :=
  let p := f.round rm sat fo r.1
  (p.1, { p.2 with nv := r.2 })

/-- round(a + b) of two encodings. -/
def Fmt.addBits (f : Fmt) (rm : RM) (fi fo sub : Bool) (x y : Nat) : Nat × Fl :=
  let b := f.unpack fi y
  f.finish rm false fo ((f.unpack fi x).add rm (if sub then b.negate else b))

/-- round(a × b) of two encodings. -/
def Fmt.mulBits (f : Fmt) (rm : RM) (fi fo : Bool) (x y : Nat) : Nat × Fl :=
  f.finish rm false fo ((f.unpack fi x).mul (f.unpack fi y))

/-- round(±a × b ± c) of three encodings, rounded once (07 R164). -/
def Fmt.fmaBits (f : Fmt) (rm : RM) (fi fo np nc : Bool) (x y z : Nat) : Nat × Fl :=
  let a := f.unpack fi x
  let c := f.unpack fi z
  f.finish rm false fo (Val.fma rm (if np then a.negate else a) (f.unpack fi y) (if nc then c.negate else c))

/-- A value rounded to an integer (07 R171, R174): sign, magnitude, inexact. -/
def toIntegral (rm : RM) (s : Bool) (m : Nat) (e : Int) : Nat × Bool := roundAt rm s m e 0

/-- FRND of one encoding (07 R171). -/
def Fmt.integral (f : Fmt) (rm : RM) (fi nx : Bool) (x : Nat) : Nat × Fl :=
  match f.unpack fi x with
  | .nan g => (f.nan, { nv := g })
  | .inf s => ((f.round rm false false (.inf s)).1, {})
  | .num s m e =>
    let r := toIntegral rm s m e
    ((f.round .ne false false (.num s r.1 0)).1, { nx := nx && r.2 })

/-- The condition of FCMP on two values (07 R169), and NV. -/
def fcmpHolds (c : FCond) (a b : Val) : Bool × Bool :=
  let un := a.isNan || b.isNan
  let sig := a.isSig || b.isSig
  let d := a.cmp b
  match c with
  | .eq => (!un && d == 0, sig)
  | .ne => (un || d != 0, sig)
  | .lt => (!un && decide (d < 0), un)
  | .le => (!un && decide (d ≤ 0), un)
  | .gt => (!un && decide (0 < d), un)
  | .ge => (!un && decide (0 ≤ d), un)
  | .un => (un, sig)
  | .ord => (!un, sig)

/-- The class bit of an encoding (07 R170). -/
def Fmt.classBit (f : Fmt) (x : Nat) : Nat :=
  match f.unpack false x with
  | .nan g => if g then 0 else 1
  | .inf s => if s then 2 else 9
  | .num s m _ =>
    if m = 0 then (if s then 5 else 6)
    else if m < 2 ^ f.m then (if s then 4 else 7)
    else if s then 3 else 8

/-- The operation of a floating-point REDX (06 R150). -/
inductive FRed where
  | add | min | max
deriving DecidableEq, Repr

/-- One node of the tree of a floating-point REDX (06 R151). -/
def redNode (o : FRed) (rm : RM) (fi fo : Bool) (a b : Word × Fl) : Word × Fl :=
  let r := match o with
    | .add => Fmt.fp32.addBits rm false fo false a.1.toNat b.1.toNat
    | .min => Fmt.fp32.pickNum fi false a.1.toNat b.1.toNat
    | .max => Fmt.fp32.pickNum fi true a.1.toNat b.1.toNat
  (BitVec.ofNat 32 r.1, (a.2.or b.2).or r.2)

/-- One level of the tree: neighbours are joined in pairs. -/
def redLevel (o : FRed) (rm : RM) (fi fo : Bool) : List (Word × Fl) → List (Word × Fl)
  | a :: b :: t => redNode o rm fi fo a b :: redLevel o rm fi fo t
  | l => l

/-- The fixed order of a floating-point REDX (06 R151): the result and the flags of every node. -/
def redTree (o : FRed) (rm : RM) (fi fo : Bool) (v : Nat → Option Word) : Word × Fl :=
  let zero : Word := if o = .add then 0x80000000 else 0x7FC00000
  let leaf := fun (l : Nat) => match v l with
    | some x => (BitVec.ofNat 32 (Fmt.fp32.flushed fi x.toNat), ({} : Fl))
    | none => (zero, {})
  let l0 := (List.range 32).map leaf
  let lv := redLevel o rm fi fo
  (lv (lv (lv (lv (lv l0))))).headD (zero, {})

end Sys2Proof.Machine
end

