-- ==== Sys2Proof/Machine/Float.lean ====
section
/-! DEFINITION. Floating-point arithmetic, tests and FRND (07 R163 to R171). -/

namespace Sys2Proof.Machine

/-- The format of an element type (07 R160). -/
def ftyFmt : FTy → Fmt
  | .f32 => .fp32
  | .f16x2 => .fp16
  | .bf16x2 => .bf16
  | .f64 => .fp64

/-- Elements per lane (07 R160). -/
def ftyCount : FTy → Nat
  | .f16x2 => 2
  | .bf16x2 => 2
  | _ => 1

/-- Element `i` of an operand in lane `l` (07 R160, 03 R65). -/
def fElem (s : State) (ty : FTy) (r l i : Nat) : Nat :=
  if ty = .f64 then (rdVV s r l).toNat else elemOf (rdV s r l) (ftyFmt ty).width i

/-- The registers an operand of a type occupies. -/
def fRegs (ty : FTy) (rs : List Nat) : List Nat := if ty = .f64 then rs.flatMap pair else rs

/-- The request of an instruction on a type: the FP64 checks (07 R162) and its registers. -/
def fReq (q : Req) (ty : FTy) (rs ds : List Nat) : Req :=
  { q with
    fp64 := ty == .f64
    odd := ty == .f64 && (rs ++ ds).any natb
    vr := fRegs ty rs ++ q.vr
    vw := fRegs ty ds }

/-- The elements of a lane put together (03 R67). -/
def joinElems (w : Nat) : List Nat → Nat
  | [] => 0
  | a :: t => a % 2 ^ w + 2 ^ w * joinElems w t

/-- An instruction that computes each element of each lane of the execution mask apart, and ORs their flags into MODE
(07 R160, 03 R78). -/
def fLanes (q : Req) (ty : FTy) (rs : List Nat) (d : Nat) (f : State → Nat → Nat → Nat × Fl) (s : State) :
    Host.Outcome State Fault Refusal :=
  runs (fReq q ty rs [d]) s fun m s =>
    let els := fun l => (List.range (ftyCount ty)).map (f s l)
    let val := fun l => joinElems (ftyFmt ty).width ((els l).map (·.1))
    let s' := if ty = .f64 then wrVV d m (fun l => BitVec.ofNat 64 (val l)) s else wrV d m (fun l => BitVec.ofNat 32 (val l)) s
    .done (orFlags ((lanesOf m).flatMap fun l => (els l).map (·.2)) s')

/-- FADD (07 R163). -/
def execFadd (d a b : VReg) (s : State) : Host.Outcome State Fault Refusal :=
  fLanes (req1 0x40) .f32 [a.toNat, b.toNat] d.toNat (fun s l i =>
    Fmt.fp32.addBits (modeRM s) (modeFtzi s) (modeFtzo s) false (fElem s .f32 a.toNat l i) (fElem s .f32 b.toNat l i)) s

/-- FSUB (07 R163). -/
def execFsub (d a b : VReg) (s : State) : Host.Outcome State Fault Refusal :=
  fLanes (req1 0x41) .f32 [a.toNat, b.toNat] d.toNat (fun s l i =>
    Fmt.fp32.addBits (modeRM s) (modeFtzi s) (modeFtzo s) true (fElem s .f32 a.toNat l i) (fElem s .f32 b.toNat l i)) s

/-- FMUL (07 R163). -/
def execFmul (d a b : VReg) (s : State) : Host.Outcome State Fault Refusal :=
  fLanes (req1 0x42) .f32 [a.toNat, b.toNat] d.toNat (fun s l i =>
    Fmt.fp32.mulBits (modeRM s) (modeFtzi s) (modeFtzo s) (fElem s .f32 a.toNat l i) (fElem s .f32 b.toNat l i)) s

/-- FFMA (07 R164). -/
def execFfma (d a b c : VReg) (rnd : Rnd) (fi fo : Bool) (ty : FTy) (np nc : Bool) (x : Guard) (s : State) :
    Host.Outcome State Fault Refusal :=
  fLanes (reqX 0x43 x) ty [a.toNat, b.toNat, c.toNat] d.toNat (fun s l i =>
    (ftyFmt ty).fmaBits (fpRound s rnd l i) fi fo np nc (fElem s ty a.toNat l i) (fElem s ty b.toNat l i) (fElem s ty c.toNat l i)) s

/-- FADDX (07 R164). -/
def execFaddx (d a b : VReg) (rnd : Rnd) (fi fo : Bool) (ty : FTy) (sub : Bool) (x : Guard) (s : State) :
    Host.Outcome State Fault Refusal :=
  fLanes (reqX 0x44 x) ty [a.toNat, b.toNat] d.toNat (fun s l i =>
    (ftyFmt ty).addBits (fpRound s rnd l i) fi fo sub (fElem s ty a.toNat l i) (fElem s ty b.toNat l i)) s

/-- FMULX (07 R164). -/
def execFmulx (d a b : VReg) (rnd : Rnd) (fi fo : Bool) (ty : FTy) (x : Guard) (s : State) : Host.Outcome State Fault Refusal :=
  fLanes (reqX 0x45 x) ty [a.toNat, b.toNat] d.toNat (fun s l i =>
    (ftyFmt ty).mulBits (fpRound s rnd l i) fi fo (fElem s ty a.toNat l i) (fElem s ty b.toNat l i)) s

/-- FMIN (07 R166). -/
def execFmin (d a b : VReg) (fi : Bool) (ty : FTy) (x : Guard) (s : State) : Host.Outcome State Fault Refusal :=
  fLanes (reqX 0x46 x) ty [a.toNat, b.toNat] d.toNat (fun s l i =>
    (ftyFmt ty).pickNum fi false (fElem s ty a.toNat l i) (fElem s ty b.toNat l i)) s

/-- FMAX (07 R166). -/
def execFmax (d a b : VReg) (fi : Bool) (ty : FTy) (x : Guard) (s : State) : Host.Outcome State Fault Refusal :=
  fLanes (reqX 0x47 x) ty [a.toNat, b.toNat] d.toNat (fun s l i =>
    (ftyFmt ty).pickNum fi true (fElem s ty a.toNat l i) (fElem s ty b.toNat l i)) s

/-- An element whose sign FMOV changes (07 R168). -/
def fmovBits (w : Nat) (op : FMovOp) (a b : Nat) : Nat :=
  let top := 2 ^ (w - 1)
  match op with
  | .mov => a
  | .neg => if top ≤ a then a - top else a + top
  | .abs => a % top
  | .cpsgn => a % top + b / top * top

/-- FMOV (07 R168). -/
def execFmov (d a b : VReg) (ty : FTy) (op : FMovOp) (x : Guard) (s : State) : Host.Outcome State Fault Refusal :=
  fLanes (reqX 0x48 x) ty (if op = .cpsgn then [a.toNat, b.toNat] else [a.toNat]) d.toNat (fun s l i =>
    (fmovBits (ftyFmt ty).width op (fElem s ty a.toNat l i) (fElem s ty b.toNat l i), {})) s

/-- FCMP (07 R169). -/
def execFcmp (d : PReg) (a b : VReg) (c : PReg) (fi : Bool) (ty : FTy) (hi : Bool) (cond : FCond) (comb : Comb) (x : Guard)
    (s : State) : Host.Outcome State Fault Refusal :=
  runs { fReq (reqX 0x49 x) ty [a.toNat, b.toNat] [] with pr := [c.toNat], pw := [d.toNat] } s fun m s =>
    let r := fun l => fcmpHolds cond ((ftyFmt ty).unpack fi (fElem s ty a.toNat l (bnat hi))) ((ftyFmt ty).unpack fi (fElem s ty b.toNat l (bnat hi)))
    let t := maskOf fun l => (r l).1
    .done (orFlags ((lanesOf m).map fun l => { nv := (r l).2 }) (wrP d.toNat m (combine comb t (rdP s c.toNat)) s))

/-- FCLASS (07 R170). -/
def execFclass (d : PReg) (a : VReg) (mlo : BitVec 8) (mhi : BitVec 2) (ty : FTy) (hi : Bool) (x : Guard) (s : State) :
    Host.Outcome State Fault Refusal :=
  runs { fReq (reqX 0x4A x) ty [a.toNat] [] with pw := [d.toNat] } s fun m s =>
    .done (wrP d.toNat m (maskOf fun l => (mhi ++ mlo).getLsbD ((ftyFmt ty).classBit (fElem s ty a.toNat l (bnat hi)))) s)

/-- FRND (07 R171). -/
def execFrnd (d a : VReg) (rnd : Rnd) (fi : Bool) (ty : FTy) (nx : Bool) (x : Guard) (s : State) : Host.Outcome State Fault Refusal :=
  fLanes (reqX 0x4B x) ty [a.toNat] d.toNat (fun s l i =>
    (ftyFmt ty).integral (fpRound s rnd l i) fi nx (fElem s ty a.toNat l i)) s

/-- The operation of DFMA on three encodings (07 R167). -/
def dfmaBits (op : DfmaOp) (rm : RM) (fi fo : Bool) (x y z : Nat) : Nat × Fl :=
  match op with
  | .fma => Fmt.fp64.fmaBits rm fi fo false false x y z
  | .add => Fmt.fp64.addBits rm fi fo false x y
  | .sub => Fmt.fp64.addBits rm fi fo true x y
  | .mul => Fmt.fp64.mulBits rm fi fo x y
  | .min => Fmt.fp64.pickNum fi false x y
  | .max => Fmt.fp64.pickNum fi true x y

/-- DFMA (07 R167). -/
def execDfma (d a b c : VReg) (rnd : Rnd) (fi fo : Bool) (op : DfmaOp) (x : Guard) (s : State) : Host.Outcome State Fault Refusal :=
  fLanes (reqX 0x4C x) .f64 (if op = .fma then [a.toNat, b.toNat, c.toNat] else [a.toNat, b.toNat]) d.toNat (fun s l i =>
    dfmaBits op (fpRound s rnd l i) fi fo (fElem s .f64 a.toNat l i) (fElem s .f64 b.toNat l i) (fElem s .f64 c.toNat l i)) s

end Sys2Proof.Machine
end

