-- ==== Sys2Proof/Machine/Convert.lean ====
section
/-! DEFINITION. Conversions and codebook codes (07 R172 to R178). -/

namespace Sys2Proof.Machine

/-- The format of a floating-point conversion type (07 R172). -/
def cvtFmt : CvtTy → Fmt
  | .f16 => .fp16
  | .bf16 => .bf16
  | .f64 => .fp64
  | .e4m3 => .f8e4
  | .e5m2 => .f8e5
  | _ => .fp32

/-- Bits of a conversion type (07 R172). -/
def cvtWidth : CvtTy → Nat
  | .f64 => 64
  | t => 32 / t.elems

/-- A conversion type is a signed integer type (07 R172). -/
def cvtSigned : CvtTy → Bool
  | .s32 => true
  | .s16 => true
  | .s8 => true
  | _ => false

/-- An integer clamped to an integer type, with whether it was out of range (07 R174). -/
def cvtClamp (d : CvtTy) (x : Int) : Nat × Bool :=
  let y := clampTo (cvtWidth d) (cvtSigned d) x
  (wrapTo (cvtWidth d) y, y != x)

/-- A value as an integer of a type (07 R174): clamped, a NaN gives 0. -/
def toIntBits (d : CvtTy) (rm : RM) (v : Val) : Nat × Fl :=
  match v with
  | .nan _ => (0, { nv := true })
  | .inf s => ((cvtClamp d (if s then -(2 ^ 64) else 2 ^ 64)).1, { nv := true })
  | .num s m e =>
    let r := toIntegral rm s m e
    let c := cvtClamp d (if s then -(r.1 : Int) else r.1)
    (c.1, if c.2 then { nv := true } else { nx := r.2 })

/-- One conversion of an encoding (07 R174). -/
def cvtBits (sty dty : CvtTy) (rm : RM) (fi fo sat : Bool) (x : Nat) : Nat × Fl :=
  if sty.isFloat then
    let v := (cvtFmt sty).unpack fi x
    if dty.isFloat then (cvtFmt dty).finish rm sat fo (v, v.isSig) else toIntBits dty rm v
  else
    let i := elemVal (cvtWidth sty) (cvtSigned sty) x
    if dty.isFloat then (cvtFmt dty).round rm sat fo (.num (decide (i < 0)) i.natAbs 0) else ((cvtClamp dty i).1, {})

/-- The request of a conversion between two types: the FP64 checks (07 R162) and its registers; a destination whose other
elements are kept is read too (07 R183). -/
def cvtReq (x : Guard) (sty dty : CvtTy) (a d : Nat) : Req :=
  { reqX 0x50 x with
    fp64 := sty == .f64 || dty == .f64
    odd := (sty == .f64 && natb a) || (dty == .f64 && natb d)
    vr := (if sty = .f64 then pair a else [a]) ++ (if dty.elems = 1 then [] else [d])
    vw := if dty = .f64 then pair d else [d] }

/-- CVT (07 R173). 03 R75 counts the element e of stochastic rounding within the instruction's result and does not say what it is where only one
element of Vd is written: DESIGN CHOICE, its position in Vd (log 80). -/
def execCvt (d a : VReg) (rnd : Rnd) (fi fo sat : Bool) (si di : BitVec 2) (sty dty : CvtTy) (x : Guard) (s : State) :
    Host.Outcome State Fault Refusal :=
  runs (cvtReq x sty dty a.toNat d.toNat) s fun m s =>
    let src := fun l => if sty = .f64 then (rdVV s a.toNat l).toNat else elemOf (rdV s a.toNat l) (cvtWidth sty) si.toNat
    let r := fun l => cvtBits sty dty (fpRound s rnd l di.toNat) fi fo sat (src l)
    let s' :=
      if dty = .f64 then wrVV d.toNat m (fun l => BitVec.ofNat 64 (r l).1) s
      else wrV d.toNat m (fun l => setElem (rdV s d.toNat l) (cvtWidth dty) di.toNat (r l).1) s
    .done (orFlags ((lanesOf m).map fun l => (r l).2) s')

/-- A value times 2^k, exactly. -/
def Val.scale (v : Val) (k : Int) : Val :=
  match v with
  | .num s m e => .num s m (e + k)
  | v => v

/-- One value of CVTPK, scaled by 2^(127 − e) when `.bs` names a scale (07 R175). -/
def cvtpkBits (dty : CvtTy) (rm : RM) (fi fo sat : Bool) (scale : Option Nat) (x : Nat) : Nat × Fl :=
  match scale with
  | none => cvtBits .f32 dty rm fi fo sat x
  | some e =>
    if e = 255 then (0x7F, { nv := true })
    else
      let v := Fmt.fp32.unpack fi x
      (cvtFmt dty).finish rm sat fo (v.scale (127 - (e : Int)), v.isSig)

/-- CVTPK (07 R175). DESIGN CHOICE: as for CVT, the element e of stochastic rounding (03 R75) is its position in Vd, also for `.put1` (log 80). -/
def execCvtpk (d a b c : VReg) (rnd : Rnd) (fi fo sat h bs : Bool) (dty : CvtTy) (x : Guard) (s : State) :
    Host.Outcome State Fault Refusal :=
  runs { reqX 0x51 x with
      vr := [a.toNat, b.toNat] ++ (if bs then [c.toNat] else []) ++ (if dty.elems = 4 then [d.toNat] else []), vw := [d.toNat] } s fun m s =>
    let w := cvtWidth dty
    let i0 := if h then 2 else 0
    let sc := fun l => if bs then some ((rdV s c.toNat l).toNat % 256) else none
    let r0 := fun l => cvtpkBits dty (fpRound s rnd l i0) fi fo sat (sc l) (rdV s a.toNat l).toNat
    let r1 := fun l => cvtpkBits dty (fpRound s rnd l (i0 + 1)) fi fo sat (sc l) (rdV s b.toNat l).toNat
    .done (orFlags ((lanesOf m).flatMap fun l => [(r0 l).2, (r1 l).2])
      (wrV d.toNat m (fun l => setElem (setElem (rdV s d.toNat l) w i0 (r0 l).1) w (i0 + 1) (r1 l).1) s))

/-- One value of CVTUP, scaled by 2^(e − 127) when `.bs` names a scale (07 R176). -/
def cvtupBits (sty dty : CvtTy) (rm : RM) (fi fo sat : Bool) (scale : Option Nat) (x : Nat) : Nat × Fl :=
  match scale with
  | none => cvtBits sty dty rm fi fo sat x
  | some e =>
    let v := Fmt.f8e4.unpack fi x
    if v.isNan ∨ e = 255 then (Fmt.fp32.nan, { nv := true })
    else Fmt.fp32.round rm sat fo (v.scale ((e : Int) - 127))

/-- CVTUP (07 R176). -/
def execCvtup (d a c : VReg) (rnd : Rnd) (fi fo sat h bs : Bool) (sty dty : CvtTy) (x : Guard) (s : State) :
    Host.Outcome State Fault Refusal :=
  runs { reqX 0x52 x with vr := a.toNat :: (if bs then [c.toNat] else []), vw := pair d.toNat } s fun m s =>
    let i0 := if h then 2 else 0
    let sc := fun l => if bs then some ((rdV s c.toNat l).toNat % 256) else none
    let r := fun l i => cvtupBits sty dty (fpRound s rnd l i) fi fo sat (sc l) (elemOf (rdV s a.toNat l) (cvtWidth sty) (i0 + i))
    .done (orFlags ((lanesOf m).flatMap fun l => [(r l 0).2, (r l 1).2])
      (wrVV d.toNat m (fun l => BitVec.ofNat 32 (r l 1).1 ++ BitVec.ofNat 32 (r l 0).1) s))

/-- An instruction that names array state its block does not hold (05 R116): TRAPINFO is the major with bit [8] set. -/
def notHeld (maj : Nat) : Eff := .trap 0x05 (BitVec.ofNat 32 (256 + maj)) 0

/-- An instruction consumes an uncorrectable element of the array state: its block is killed (05 R120). -/
def arrayDead (s : State) : Eff := .moved false (killBlock s.gang.blk (gangSink s s.gang 0x32 2 0 (herePos s) (Config.arrayNumber 2) 0) true s)

/-- An MCBL of a codebook is not ready (08 R210). -/
def bookLoading (s : State) (c : CbReg) : Bool := s.core.cbWait.any fun x => x.1 == c && decide (s.clk < x.2)

/-- Entry `i` of a codebook of the core in focus (03 R68). -/
def cbEntry (s : State) (c i : Nat) : Nat := (look s.core.cb (16 * c + i)).toNat

/-- The entries of a codebook that are no NaN, as code and value, in ascending code (07 R177). -/
def cbValues (s : State) (c : Nat) : List (Nat × Val) :=
  ((List.range 16).map fun i => (i, Fmt.bf16.unpack false (cbEntry s c i))).filter fun p => !p.2.isNan

/-- The first pair of a list that no other goes before. -/
def bestOf (before : Nat × Val → Nat × Val → Bool) : List (Nat × Val) → Option (Nat × Val)
  | [] => none
  | a :: t => some (t.foldl (fun b c => if before c b then c else b) a)

/-- The code that CBENC chooses for a finite value that no entry equals (07 R177); code 0 stands for no entry. Under RTZ the spec does
not say whether an entry beyond zero lies toward zero: DESIGN CHOICE, it does, the nearest entry on zero's side of the value being
taken whatever its sign and magnitude (log 76). -/
def cbChoose (rm : RM) (x : Val) (es : List (Nat × Val)) : Nat :=
  let below := bestOf (fun a b => decide (0 < a.2.cmp b.2)) (es.filter fun p => decide (p.2.cmp x < 0))
  let above := bestOf (fun a b => decide (a.2.cmp b.2 < 0)) (es.filter fun p => decide (0 < p.2.cmp x))
  let or : Option (Nat × Val) → Option (Nat × Val) → Nat := fun a b => ((if a.isSome then a else b).map fun p => p.1).getD 0
  let near : Bool → Option (Nat × Val) := fun far => bestOf (fun a b =>
    let d := (x.dist a.2).cmp (x.dist b.2)
    decide (d < 0) || (far && d == 0 && decide (0 < a.2.mag.cmp b.2.mag))) es
  match rm with
  | .ne => or (near false) none
  | .na => or (near true) none
  | .up => or above below
  | .dn => or below above
  | .tz =>
    if x.isZero then or (bestOf (fun a b => decide (a.2.mag.cmp b.2.mag < 0)) es) none
    else if x.neg then or above below else or below above
  | .sr b =>
    match below, above with
    | some lo, some hi =>
      if lo.2.isInf && hi.2.isInf then min lo.1 hi.1
      else if lo.2.isInf then hi.1
      else if hi.2.isInf then lo.1
      else
        match x.dist lo.2, hi.2.dist lo.2 with
        | .num _ m e, .num _ n k =>
          let q := min e k
          if 2 ^ 24 ≤ m * 2 ^ (e - q).toNat * 2 ^ 24 / (n * 2 ^ (k - q).toNat) + b then hi.1 else lo.1
        | _, _ => lo.1
    | lo, hi => or lo hi

/-- The code of a value and its flags (07 R177). -/
def cbEncode (rm : RM) (x : Val) (es : List (Nat × Val)) : Nat × Fl :=
  if x.isNan || es.isEmpty then (0, { nv := true })
  else match es.find? fun p => decide (p.2.cmp x = 0) with
    | some p => (p.1, {})
    | none =>
      if x.isInf then
        (((bestOf (fun a b => if x.neg then decide (a.2.cmp b.2 < 0) else decide (0 < a.2.cmp b.2)) es).map (·.1)).getD 0, { nx := true })
      else (cbChoose rm x es, { nx := true })

/-- CBENC (07 R177). -/
def execCbenc (d a : VReg) (c : CbReg) (rnd : Rnd) (fi : Bool) (j : BitVec 3) (x : Guard) (s : State) : Host.Outcome State Fault Refusal :=
  runs { reqX 0x53 x with vr := [a.toNat, d.toNat], vw := [d.toNat] } s fun m s =>
    if !s.block.array then notHeld 0x53
    else if bookLoading s c then .stall s
    else if s.core.marks.contains (.codebook c.toNat) then arrayDead s
    else
      let r := fun l => cbEncode (fpRound s rnd l j.toNat) (Fmt.fp32.unpack fi (rdV s a.toNat l).toNat) (cbValues s c.toNat)
      .done (orFlags ((lanesOf m).map fun l => (r l).2) (wrV d.toNat m (fun l => setElem (rdV s d.toNat l) 4 j.toNat (r l).1) s))

/-- CBDEC (07 R178). -/
def execCbdec (d a : VReg) (c : CbReg) (j : BitVec 3) (x : Guard) (s : State) : Host.Outcome State Fault Refusal :=
  runs { reqX 0x54 x with vr := [a.toNat], vw := [d.toNat] } s fun m s =>
    if !s.block.array then notHeld 0x54
    else if bookLoading s c then .stall s
    else if s.core.marks.contains (.codebook c.toNat) then arrayDead s
    else .done (wrV d.toNat m (fun l =>
      BitVec.ofNat 32 (Fmt.fp32.round .ne false false (Fmt.bf16.unpack false (cbEntry s c.toNat (elemOf (rdV s a.toNat l) 4 j.toNat)))).1) s)

end Sys2Proof.Machine
end

