-- ==== Sys2Proof/Machine/Matrix.lean ====
section
/-! DEFINITION. The matrix engine (ch. 08): operand maps, weight planes, codebooks, streams with the order of sums of
03 R82 and R83, and accumulator tiles. -/

namespace Sys2Proof.Machine

/-- An operand map (08 R189). -/
structure OpMap where
  base : Nat
  stride : Nat
  rows : Nat
  cols : Nat
  fmt : Nat
  space : Nat
  twin : Bool
  sbase : Nat

/-- The fields of an operand map (08 R189). -/
def mapOf (v : BitVec 128) : OpMap :=
  let n := v.toNat
  ⟨fld n 0 32, fld n 32 20, fld n 52 7, fld n 64 10, fld n 74 5, fld n 79 2, natb (fld n 81 1), fld n 96 32⟩

/-- Bits of an element of a map format (08 R190). -/
def mapWidth (f : Nat) : Nat :=
  if f ≤ 1 then 16 else if f = 5 then 4 else if f = 8 ∨ f = 9 ∨ f = 10 then 32 else 8

/-- Weight elements a cell holds (03 R81). -/
def cellElems (f : Nat) : Nat := if f ≤ 1 ∨ f = 8 then 1 else 2

/-- Byte length of a row of a map (08 R189). -/
def OpMap.rowBytes (p : OpMap) : Nat := p.cols * mapWidth p.fmt / 8

/-- The byte ranges that a use of a map touches: its rows, and the scales of BS8 (08 R189, R191). -/
def OpMap.spans (p : OpMap) : List (Nat × Nat) :=
  (List.range p.rows).map (fun r => (p.base + r * p.stride, p.rowBytes)) ++ (if p.fmt = 4 then [(p.sbase, p.rows * p.cols / 16)] else [])

/-- The limit of a map's space and the code beyond it (08 R191). -/
def mapLimit (s : State) (sp : Nat) : Nat × Nat :=
  if sp = 0 then (scratchSize s, 0x13) else if sp = 1 then (s.die.tsize, 0x14) else (Config.wsBytes, 0x13)

/-- The checks of a map at its use (08 R191, R211), after its shape: `num` is the map's number. -/
def mapTrap (s : State) (num : Nat) (ok write : Bool) (p : OpMap) : Option Eff :=
  let lim := mapLimit s p.space
  let past := decide (lim.1 < p.base + (p.rows - 1) * p.stride + p.rowBytes) ||
    (p.fmt == 4 && decide (lim.1 < p.sbase + p.rows * p.cols / 16))
  if !ok || p.rows == 0 then some (.trap 0x03 0 0)
  else if p.base % 8 ≠ 0 ∨ p.stride % 8 ≠ 0 ∨ p.sbase % 8 ≠ 0 then some (.trap 0x12 0 (BitVec.ofNat 64 p.base))
  else if past then some (.trap lim.2 (BitVec.ofNat 32 num) (BitVec.ofNat 64 p.base))
  else if write ∧ p.space = 2 then some (.trap 0x15 0 0)
  else none

/-- What stops a read of byte ranges of a space (0 core scratch, 1 team scratch, 2 weight store): another party's held
entry (11 R253), a poisoned word, a refresh or WSLD (10 R241, R242), a bad weight-store word (10 R240). -/
def spanStop (s : State) (sp : Nat) (spans : List (Nat × Nat)) : Option Eff :=
  if sp = 1 then
    if loadWaits s true spans then some (.stall s)
    else (s.die.tsPoison.find? fun w => spans.any fun x => decide (x.1 / 32 ≤ w) && decide (w ≤ (x.1 + x.2 - 1) / 32)).map
      fun w => .trap 0x32 0 (BitVec.ofNat 64 (32 * w))
  else if sp = 2 then
    if wsStalls s (spans.flatMap fun x => [x.1, x.1 + x.2 - 1]) then some (.stall (modCore (perfAdd 29 (gangFilter s s.gang) 1) s))
    else if s.die.wsBad.any fun w => spans.any fun x => decide (x.1 / 8 ≤ w) && decide (w ≤ (x.1 + x.2 - 1) / 8) then
      some (.moved false (killBlock s.gang.blk (gangSink s s.gang 0x32 2 0 (herePos s) (Config.arrayNumber 3) 0) true s))
    else none
  else none

/-- A byte of core scratch as an operand read of this clk finds it: as it was before the stores that are not complete (08 R206). -/
def operandByte (b : Block) (clk a : Nat) : Byte :=
  (b.fresh.findSome? fun x => if clk < x.1 then (x.2.2.find? fun c => c.1 == a).map (·.2) else none).getD (look b.scratch a)

/-- A byte of a space as an operand read of the block in focus finds it: of its scratch stores, those that have completed (08 R206). -/
def spaceByte (s : State) (sp a : Nat) : Byte :=
  if sp = 0 then operandByte s.block s.clk a else if sp = 1 then look s.die.ts a else look s.die.ws a

/-- A read of byte ranges is an access of the order (08 R206). -/
def noteSpans (sp : Nat) (spans : List (Nat × Nat)) (s : State) : State :=
  if sp = 1 then (uniq (spans.flatMap fun x => (List.range (x.2 / 32 + 2)).map fun i => (x.1 + Nat.min (32 * i) (x.2 - 1)) / 32)).foldl
    (fun s w => touchSector (32 * w) s) s
  else if sp = 0 then touchArray false s else s

/-- Element `i` of row `r` of a map, as bits (08 R189, 03 R67). -/
def mapElem (s : State) (p : OpMap) (r i : Nat) : Nat :=
  let w := mapWidth p.fmt
  let a := p.base + r * p.stride + i * w / 8
  if w = 4 then fld (spaceByte s p.space a).toNat (4 * (i % 2)) 4
  else leNat ((List.range (w / 8)).map fun j => spaceByte s p.space (a + j))

/-- The floating-point format of a map format's elements. -/
def mapFmt (f : Nat) : Fmt :=
  if f = 0 then .bf16 else if f = 1 then .fp16 else if f = 3 then .f8e5 else if f = 9 then .fp32 else .f8e4

/-- The formats whose elements can be NaN by their own encoding: BF16, FP16, FP8 and BS8. -/
def floatFmt (f : Nat) : Bool := decide (f ≤ 4)

/-- NaN-as-zero on an element under a scale (03 R84): the bits that enter the array, and the count. -/
def nanzElem (on : Bool) (f sc x : Nat) : Nat × Nat :=
  if on && floatFmt f && (((mapFmt f).unpack false x).isNan || (f == 4 && sc == 255)) then (0, 1) else (x, 0)

/-- NANCNT rises by the elements replaced, saturating (03 R84, 17 R385). -/
def addNan (n : Nat) (s : State) : State := modCore (fun c => { c with nancnt := BitVec.ofNat 32 (min (c.nancnt.toNat + n) (2 ^ 32 - 1)) }) s

/-- The twin of a core (01 R16). -/
def partnerCore (c : Nat) : Nat := if c % 2 = 0 then c + 1 else c - 1

/-- COREST.TWINOK (01 R20). -/
def twinOk (s : State) : Bool := (coreOf s.core.die (partnerCore s.core.core) s).ports != 3

/-- A twin mode or `.fol` is not available (08 R188). -/
def twinAbsent (s : State) (uses : Bool) : Bool := uses && (!s.block.twin || !twinOk s)

/-- Run an action on the follower's core. -/
def onFollower (f : State → State) (s : State) : State := onCore s.core.die (partnerCore s.core.core) f s

/-- The follower's core. -/
def followerOf (s : State) : Core := coreOf s.core.die (partnerCore s.core.core) s

/-- The follower's accumulator store is not ready for an access: the state in which it goes on towards being ready (10 R245). -/
def followerAsleep (s : State) : Option State :=
  (retainStep true (focusCore s.core.die (partnerCore s.core.core) s)).map (focusCore s.core.die s.core.core)

/-- The accumulator stores that an access names, its own core's and the follower's, or the core scratch are in retention (10 R245,
08 R211). -/
def arrayAsleep (s : State) (acc fol scr : Bool) : Option State :=
  ((if acc then retainStep true s else none).or ((if fol then followerAsleep s else none).or
    (if scr then retainStep false s else none))).map retainStall

/-- Note an access to accumulator stores (10 R245). -/
def touchTiles (acc fol : Bool) (s : State) : State :=
  let s := if acc then touchArray true s else s
  if fol then onFollower (touchArray true) s else s

/-- A write of array state re-encodes what it covers (05 R120). -/
def Core.clean (c : Core) (p : ArrayMark → Bool) : Core := { c with marks := c.marks.filter fun x => !p x }

/-- The mark of an element of tile rows, by keys from `lo` up to `hi`. -/
def ArrayMark.within (lo hi : Nat) : ArrayMark → Bool
  | .tile k => decide (lo ≤ k) && decide (k < hi)
  | _ => false

/-- The crossings that a matrix instruction places by itself: it goes on with them reserved, or the scoreboard refuses it
(08 R208, R210). -/
def crossed (u : Use) (s : State) (k : Plan → State → Eff) : Eff :=
  match planOf u s with
  | none => .stall (noteRefused s)
  | some p => k p (takeLanes u p (gangFilter s s.gang) s)

/-- F: clk until the first crossing of a read from a space (08 R210). -/
def spaceDelay (sp : Nat) : Nat := if sp = 1 then 48 else if sp = 2 then 24 else 0

/-- The first own checks of a matrix instruction: that its block holds the array state (05 R116), and that it issues from
one lane (05 R118). The spec puts the first of them behind "every encoding check" of 04 R95 and does not place it among the
checks of 08 R211: DESIGN CHOICE, it precedes them, those that raise ILLEGAL_ENCODING too (log 74). -/
def oneLane (maj : Nat) (m : Word) (s : State) (k : Eff) : Eff :=
  if !s.block.array then notHeld maj else if (lanesOf m).length ≠ 1 then .trap 0x03 0 0 else k

/-- OMSET (08 R192). -/
def execOmset (d : OmReg) (a : SReg) (x : Guard) (s : State) : Host.Outcome State Fault Refusal :=
  runs { reqX 0xA9 x with sr := regs a.toNat 4 } s fun m s =>
    if m = 0 then .done s
    else if !s.block.array then notHeld 0xA9
    else
      let v : BitVec 128 := rdSS s (a.toNat + 2) ++ rdSS s a.toNat
      let n := v.toNat
      let p := mapOf v
      if fld n 59 5 ≠ 0 ∨ fld n 82 14 ≠ 0 ∨ 10 < p.fmt ∨ p.space = 3 ∨ 64 < p.rows ∨ 512 < p.cols then .trap 0x03 0 0
      else .done (modCore (fun c => Core.clean { c with om := put c.om d.toNat v } (· == .map d.toNat)) s)

/-- The operand map that an instruction names. -/
def omOf (s : State) (m : OmReg) : OpMap := mapOf (look s.core.om m.toNat)

/-- The shape of a weight map (08 R193). -/
def weightShape (p : OpMap) (tw : Twin) : Bool :=
  let rows := if p.fmt ≤ 1 ∨ p.fmt = 8 then 16 else 32
  (decide (p.fmt ≤ 6) || p.fmt == 8) && p.rows == (if tw = .kj then 2 * rows else rows) && p.cols == (if tw = .nj then 32 else 16) &&
  p.twin == (tw != .single)

/-- A plane read through a map, and the NaN elements replaced (08 R193, 03 R84): `r0`, `c0` and `b0` are its first row,
column and scale block. -/
def loadPlane (s : State) (p : OpMap) (tw : Twin) (cb : CbReg) (nz : Bool) (r0 c0 b0 : Nat) : Plane × Nat :=
  let e := cellElems p.fmt
  let w := mapWidth p.fmt
  let scale := fun (n h : Nat) => if p.fmt = 4 then (spaceByte s p.space (p.sbase + (c0 + n) * (p.rows / 16) + b0 + h)).toNat else 0
  let el := fun (k n j : Nat) => nanzElem nz p.fmt (scale n (k / 8)) (mapElem s p (r0 + k * e + j) (c0 + n))
  let cells := (List.range 16).flatMap fun k => (List.range 16).map fun n =>
    (16 * k + n, BitVec.ofNat 32 ((List.range e).foldl (fun v j => v + (el k n j).1 * 2 ^ (w * j)) 0))
  let scales := if p.fmt = 4 then (List.range 16).flatMap fun n => (List.range 2).map fun h =>
    (2 * n + h, BitVec.ofNat 8 (if nz && scale n h == 255 then 0 else scale n h)) else []
  let count := ((List.range 16).flatMap fun k => (List.range 16).flatMap fun n => (List.range e).map fun j => (el k n j).2).sum
  (⟨canon cells, BitVec.ofNat 5 p.fmt, BitVec.ofNat 2 tw.code, cb, canon scales⟩, count)

/-- MLDW (08 R193, R206, R210). -/
def execMldw (cb : CbReg) (a : OmReg) (tw : Twin) (x : Guard) (s : State) : Host.Outcome State Fault Refusal :=
  runs (reqX 0xA0 x) s fun m s => oneLane 0xA0 m s <|
    let p := omOf s a
    if twinAbsent s (tw != .single) then .trap 0x24 0 0
    else match mapTrap s a.toNat (weightShape p tw && (p.fmt == 5 || cb == 0)) false p with
    | some t => t
    | none =>
      if !s.core.shadowReady then .stall s
      else match arrayAsleep s false false (p.space == 0) with
      | some s' => .stall s'
      | none =>
        match spanStop s p.space p.spans with
        | some t => t
        | none =>
          if s.core.marks.contains (.map a.toNat) then arrayDead s else
          let nz := modeNanz s
          let lead := loadPlane s p tw cb nz 0 0 0
          let fol := if tw = .kj then some (loadPlane s p tw cb nz (p.rows / 2) 0 2)
            else if tw = .nj then some (loadPlane s p tw cb nz 0 16 0) else none
          let n := (if p.fmt = 5 then 2 else if p.fmt = 8 then 8 else 4) * (if tw = .single then 1 else 2)
          crossed ⟨List.replicate n (spaceDelay p.space), 0, 0⟩ s fun pl s =>
          let wait := pl.uend + 16 - s.clk
          let ready : Instr := .shadowPlaneReady s.core.die s.core.core
          let s := modCore (fun c => Core.clean { c with shadow := lead.1, shadowReady := false } (· == .shadow)) s
          let s := match fol with
            | some f => addNan (lead.2 + f.2) (onFollower (modCore fun c => Core.clean { c with shadow := f.1 } (· == .shadow)) s)
            | none => addNan lead.2 s
          .done (later wait .none ready (noteSpans p.space p.spans s))

/-- MSWAP (08 R194). -/
def execMswap (s : State) : Host.Outcome State Fault Refusal :=
  runs (req1 0xA1) s fun m s => oneLane 0xA1 m s <|
    let turn := fun (x : ArrayMark) => if x = .live then .shadow else if x = .shadow then .live else x
    let swap := fun (c : Core) => { c with live := c.shadow, shadow := c.live, marks := c.marks.map turn }
    if !s.core.shadowReady || s.core.streams.any fun t => decide (s.clk < t.last + (if t.twin = 1 then 32 else 16)) then .stall s
    else .done (if s.block.twin then onFollower (modCore swap) (modCore swap s) else modCore swap s)

/-- The space of MCBL. -/
def mcblSpace : McblSp → Nat
  | .core => 0
  | .ts => 1
  | .ws => 2

/-- MCBL (08 R195, R206, R210). -/
def execMcbl (d : CbReg) (a : SReg) (sp : McblSp) (x : Guard) (s : State) : Host.Outcome State Fault Refusal :=
  runs { reqX 0xA8 x with sr := [a.toNat] } s fun m s => oneLane 0xA8 m s <|
    let at' := (rdS s a.toNat).toNat
    let n := mcblSpace sp
    let lim := mapLimit s n
    if at' % 32 ≠ 0 then .trap 0x12 0 (BitVec.ofNat 64 at')
    else if lim.1 < at' + 32 then .trap lim.2 0 (BitVec.ofNat 64 at')
    else if s.core.streams.any fun t => t.pl.fmt == 5 && t.pl.sel == d && decide (s.clk < t.last + (if t.twin = 1 then 32 else 16)) then .stall s
    else match arrayAsleep s false false (n == 0) with
    | some s' => .stall s'
    | none =>
      match spanStop s n [(at', 32)] with
      | some t => t
      | none =>
        let raw := fun (i : Nat) => leNat [spaceByte s n (at' + 2 * i), spaceByte s n (at' + 2 * i + 1)]
        let es := (List.range 16).map fun i => nanzElem (modeNanz s) 0 0 (raw i)
        let load := fun (c : Core) =>
          Core.clean { c with cb := putAll c.cb (((List.range 16).zip es).map fun e => (16 * d.toNat + e.1, BitVec.ofNat 16 e.2.1)) } (· == .codebook d.toNat)
        let ready : Instr := .codebookReady s.core.die s.core.core
        crossed ⟨[spaceDelay n], 0, 0⟩ s fun pl s =>
        let wait := pl.uend + 4 - s.clk
        let s := modCore (fun c => { load c with cbWait := c.cbWait ++ [(d, pl.uend + 4)] }) s
        let s := if s.block.twin then onFollower (modCore load) s else s
        .done (later wait .none ready (noteSpans n [(at', 32)] (addNan (es.map (·.2)).sum s)))

/-- The pairing of weight and activation formats (03 R81). -/
def pairOk (wf af : Nat) : Bool :=
  if wf ≤ 1 then af == wf
  else if wf = 2 ∨ wf = 3 ∨ wf = 5 then af == 2 || af == 3
  else if wf = 4 then af == 4
  else if wf = 6 then af == 6 || af == 7
  else wf == 8 && af == 8

/-- The shape of an activation map (08 R196). -/
def actShape (p : OpMap) (tw : Twin) : Bool :=
  let k := if p.fmt ≤ 1 ∨ p.fmt = 8 then 16 else 32
  (decide (p.fmt ≤ 4) || (decide (6 ≤ p.fmt) && decide (p.fmt ≤ 8))) &&
  p.cols == (if tw = .kj then 2 * k else k) && p.twin == (tw == .kj)

/-- The rows of an activation map as they enter the array, and the NaN elements replaced (08 R196, 03 R84). -/
def loadRows (s : State) (p : OpMap) (nz : Bool) : List (List Nat × List Nat) × Nat :=
  let scale := fun (m b : Nat) => if p.fmt = 4 then (spaceByte s p.space (p.sbase + m * (p.cols / 16) + b)).toNat else 0
  let el := fun (m i : Nat) => nanzElem nz p.fmt (scale m (i / 16)) (mapElem s p m i)
  let rows := (List.range p.rows).map fun m =>
    ((List.range p.cols).map fun i => (el m i).1,
      if p.fmt = 4 then (List.range (p.cols / 16)).map fun b => if nz && scale m b == 255 then 0 else scale m b else [])
  (rows, ((List.range p.rows).flatMap fun m => (List.range p.cols).map fun i => (el m i).2).sum)

/-- An element under its scale (03 R70). -/
def scaledVal (f sc x : Nat) : Val :=
  let v := (mapFmt f).unpack false x
  if f = 4 then (if sc = 255 then .nan false else v.scale ((sc : Int) - 127)) else v

/-- Weight element `j` of cell (k, n) of a plane (03 R67, R68, R81). -/
def weightVal (p : Plane) (cb : List (BitVec 16)) (k n j : Nat) : Val :=
  let f := p.fmt.toNat
  let x := fld (look p.cells (16 * k + n)).toNat (mapWidth f * j) (mapWidth f)
  if f = 5 then Fmt.bf16.unpack false (nth 0 cb x).toNat else scaledVal f (look p.scales (2 * n + k / 8)).toNat x

/-- One cell step of a floating-point sum (03 R82): the exact sum of the cell's products is added and rounded. -/
def floatStep (p : Plane) (cb : List (BitVec 16)) (af : Nat) (row : List Nat × List Nat) (i0 n : Nat) (acc k : Nat) : Nat :=
  let e := cellElems p.fmt.toNat
  let prod := fun (j : Nat) => (scaledVal af (nth 0 row.2 ((i0 + k * e + j) / 16)) (nth 0 row.1 (i0 + k * e + j))).mul (weightVal p cb k n j)
  let sum := (List.range e).foldl (fun (v : Val) j => (v.add .ne (prod j).1).1) (.num false 0 0)
  (Fmt.fp32.round .ne false false ((Fmt.fp32.unpack false acc).add .ne sum).1).1

/-- One cell step of an integer sum (03 R82). -/
def intStep (p : Plane) (bin : Option Bool) (af : Nat) (row : List Nat × List Nat) (i0 n : Nat) (acc k : Nat) : Nat :=
  let cell := look p.cells (16 * k + n)
  match bin with
  | some andOp =>
    let a := BitVec.ofNat 32 (nth 0 row.1 (i0 + k))
    (acc + (lanesOf (if andOp then a &&& cell else a ^^^ cell)).length) % 2 ^ 32
  | none =>
    let prod := fun (j : Nat) => elemVal 8 (af == 6) (nth 0 row.1 (i0 + 2 * k + j)) * sextN (fld cell.toNat (8 * j) 8) 8
    wrapTo 32 ((acc : Int) + prod 0 + prod 1)

/-- A plane's sixteen cell steps for one column (03 R82). -/
def planeSum (st : Stream) (p : Plane) (cb : List (BitVec 16)) (row : List Nat × List Nat) (i0 n acc : Nat) : Nat :=
  let af := st.fmt.toNat
  if st.bin.isSome ∨ p.fmt = 6 then (List.range 16).foldl (intStep p st.bin af row i0 n) acc
  else (List.range 16).foldl (floatStep p cb af row i0 n) acc

/-- Key of an accumulator element. -/
def accKey (t m n : Nat) : Nat := 256 * t + 16 * m + n

/-- Write one row of a stream to its tile or tiles (08 R196, R198, 03 R82, R83). -/
def writeRow (st : Stream) (row : List Nat × List Nat) (s : State) : State :=
  let t := st.tile + st.next / 16
  let r := st.next % 16
  let half := row.1.length / 2
  let start := fun (c : Core) (n : Nat) => if st.ow then 0 else (look c.acc (accKey t r n)).toNat
  let put16 := fun (f : Core → Nat → Nat) (c : Core) => Core.clean
    { c with acc := putAll c.acc ((List.range 16).map fun n => (accKey t r n, BitVec.ofNat 32 (f c n))) } (ArrayMark.within (accKey t r 0) (accKey t r 16))
  let s := modCore (put16 fun c n =>
    let a := planeSum st st.pl st.cbl row 0 n (start c n)
    if st.twin = 1 then planeSum st st.pf st.cbf row half n a else a) s
  if st.twin = 2 then onFollower (modCore (put16 fun c n => planeSum st st.pf st.cbf row 0 n (start c n))) s else s

/-- The next row of the oldest stream of the core in focus that has one is written, once its clk has come; a stream without rows left
goes with the clk. -/
def stepStream (s : State) : State :=
  match s.core.streams.find? fun st => !st.rows.isEmpty with
  | none => s
  | some st =>
    match st.rows with
    | [] => s
    | row :: more =>
      let next := fun (x : Stream) => if x.id = st.id then { st with next := st.next + 1, rows := more, times := st.times.drop 1 } else x
      modCore (fun c => { c with streams := c.streams.map next }) (writeRow st row s)

/-- Some stream that writes a tile, of the follower's core when asked, has not written its last row in an earlier clk (08 R198, R205,
R210). -/
def tileBusy (s : State) (t : Nat) (fol : Bool) : Bool :=
  s.core.streams.any fun st => (!fol || st.twin == 2) && decide (st.tile ≤ t) && decide (t ≤ st.tile + (st.next + st.rows.length - 1) / 16)

/-- An MWR or MZERO has still to write a tile, of the follower's core when asked (08 R205). -/
def tileAwaits (s : State) (t : Nat) (fol : Bool) : Bool :=
  (if fol then followerOf s else s.core).tiles.any fun x => x.tile == t && decide (s.clk < x.clk)

/-- The codebook a plane selects. -/
def planeBook (c : Core) (p : Plane) : List (BitVec 16) := (List.range 16).map fun i => look c.cb (16 * p.sel.toNat + i)

/-- Rows of a stream that one crossing carries (08 R210). -/
def rowsPerCrossing (fmt : Nat) (tw : Twin) : Nat :=
  if fmt = 8 then (if tw = .kj then 1 else 2) else if fmt = 4 then (if tw = .kj then 1 else 3) else if tw = .kj then 2 else 4

/-- clk at which the rows of a stream enter the array, from the starts of its crossings: each after the one before and after the end
of its own crossing (08 R210). -/
def enterTimes (h rpc : Nat) (starts : List Nat) (rows : Nat) : List Nat :=
  ((List.range rows).foldl (fun (a : Nat × List Nat) m =>
    let e := max (a.1 + 1) (nth 0 starts (m / rpc) + h)
    (e, a.2 ++ [e])) (0, [])).2

/-- An uncorrectable element that a stream consumes (05 R120): of its map, live plane, codebook, or the rows that it adds to. -/
def streamMarked (s : State) (a : OmReg) (tw : Twin) (d rows : Nat) (ow : Bool) : Bool :=
  let f := followerOf s
  let tiles := fun (c : Core) => !ow && c.marks.any (ArrayMark.within (accKey d 0 0) (accKey d 0 0 + 16 * rows))
  let plane := fun (c : Core) => c.marks.contains .live || (c.live.fmt == 5 && c.marks.contains (.codebook c.live.sel.toNat))
  s.core.marks.contains (.map a.toNat) || plane s.core || tiles s.core || (tw != .single && plane f) || (tw == .nj && tiles f)

/-- A stream (08 R196 to R198, R205, R206, R210); `bin` is the operator of MMAB. The spec gives no clk at which the NaN elements
replaced in its activations are counted, only where (03 R84): DESIGN CHOICE, those of all its rows at its issue (log 75). -/
def streamEff (maj : Nat) (d : AccReg) (a : OmReg) (tw : Twin) (ow : Bool) (bin : Option Bool) (m : Word) (s : State) : Eff :=
  oneLane maj m s <|
    let p := omOf s a
    let live := s.core.live
    let fmtOk := if bin.isSome then live.fmt == 8 && p.fmt == 8 else pairOk live.fmt.toNat p.fmt && live.fmt != 8
    let ok := actShape p tw && fmtOk && decide (d.toNat + (p.rows + 15) / 16 - 1 ≤ 63) && live.twin == BitVec.ofNat 2 tw.code
    if twinAbsent s (tw != .single) then .trap 0x24 0 0
    else match mapTrap s a.toNat ok false p with
    | some t => t
    | none =>
      if (s.core.streams.any fun t => decide (s.clk ≤ t.last)) || tileAwaits s d.toNat false || (tw == .nj && tileAwaits s d.toNat true) then .stall s
      else if live.fmt == 5 && bookLoading s live.sel then .stall s
      else match arrayAsleep s true (tw == .nj) (p.space == 0) with
      | some s' => .stall s'
      | none =>
        match spanStop s p.space p.spans with
        | some t => t
        | none =>
          if streamMarked s a tw d.toNat p.rows ow then arrayDead s else
          let (rows, nans) := loadRows s p (bin.isNone && modeNanz s)
          let f := followerOf s
          let rpc := rowsPerCrossing p.fmt tw
          crossed ⟨(List.range ((p.rows + rpc - 1) / rpc)).map (· * rpc), 0, 0⟩ s fun pl s =>
          let enter := enterTimes (crossTime s) rpc pl.starts p.rows
          let lat := if tw = .kj then 40 else 32
          let st : Stream := ⟨s.core.nextStream, d.toNat, BitVec.ofNat 2 tw.code, ow, bin, BitVec.ofNat 5 p.fmt, live, f.live,
            planeBook s.core live, planeBook f f.live, modeNanz s, enter.getLast?.getD s.clk, 0, rows, enter.map (· + lat), s.gang.key, herePos s⟩
          let s := touchTiles true (tw == .nj) (noteSpans p.space p.spans (addNan nans s))
          let s := modCore (fun c => perfAdd 22 (gangFilter s s.gang) p.rows { c with streams := c.streams ++ [st], nextStream := c.nextStream + 1, mmAt := s.clk }) s
          .done (enter.foldl (fun s e => later (e + lat - s.clk) .none (.streamRowWritten s.core.die s.core.core) s) s)

/-- MMA (08 R196). -/
def execMma (d : AccReg) (a : OmReg) (tw : Twin) (ow : Bool) (x : Guard) (s : State) : Host.Outcome State Fault Refusal :=
  runs (reqX 0xA2 x) s fun m s => streamEff 0xA2 d a tw ow none m s

/-- MMAB (08 R197). -/
def execMmab (d : AccReg) (a : OmReg) (tw : Twin) (ow andOp : Bool) (x : Guard) (s : State) : Host.Outcome State Fault Refusal :=
  runs (reqX 0xA3 x) s fun m s => streamEff 0xA3 d a tw ow (some andOp) m s

/-- Run an action on the core whose tiles an instruction names: the follower's under `.fol`. -/
def onTiles (fol : Bool) (f : State → State) (s : State) : State := if fol then onFollower f s else f s

/-- The core whose tiles an instruction names. -/
def tileCore (fol : Bool) (s : State) : Core := if fol then followerOf s else s.core

/-- The stalls of an instruction that names tiles (08 R205, R211). -/
def tilesStop (s : State) (ts : List Nat) (fol : Bool) : Option Eff :=
  if ts.any fun t => tileBusy s t fol || tileAwaits s t fol then some (.stall s) else (arrayAsleep s (!fol) fol false).map .stall

/-- MZERO (08 R201). -/
def execMzero (d : AccReg) (n1 : BitVec 6) (fol : Bool) (s : State) : Host.Outcome State Fault Refusal :=
  runs (req1 0xA4) s fun m s => oneLane 0xA4 m s <|
    if twinAbsent s fol then .trap 0x24 0 0
    else if 63 < d.toNat + n1.toNat then .trap 0x03 0 0
    else match tilesStop s ((List.range (n1.toNat + 1)).map (d.toNat + ·)) fol with
    | some t => t
    | none =>
      let n := n1.toNat + 1
      let tags := (List.range n).map fun i => ⟨d.toNat + i, herePos s, s.gang.key, s.clk + 1 + (n + 3) / 4 + 1⟩
      .done (touchTiles (!fol) fol (onTiles fol (modCore fun c => Core.clean { c with
        acc := dropRange c.acc (accKey d.toNat 0 0) (accKey (d.toNat + n) 0 0), tiles := c.tiles ++ tags }
        (ArrayMark.within (accKey d.toNat 0 0) (accKey (d.toNat + n) 0 0))) s))

/-- MRD (08 R200, R202). -/
def execMrd (d : VReg) (a : AccReg) (fol : Bool) (x : Guard) (s : State) : Host.Outcome State Fault Refusal :=
  runs { reqX 0xA5 x with vw := regs d.toNat 8 } s fun m s =>
    if !s.block.array then notHeld 0xA5
    else if twinAbsent s fol then .trap 0x24 0 0
    else match tilesStop s [a.toNat] fol with
    | some t => t
    | none =>
      let acc := (tileCore fol s).acc
      let read := (List.range 8).flatMap fun i => (lanesOf m).map fun l => accKey a.toNat (2 * i + l / 16) (l % 16)
      if (tileCore fol s).marks.any fun x => read.any fun k => x == .tile k then arrayDead s else
      .done (touchTiles (!fol) fol ((List.range 8).foldl (fun s i =>
        wrV (d.toNat + i) m (fun l => look acc (accKey a.toNat (2 * i + l / 16) (l % 16))) s) s))

/-- MWR (08 R200, R203). -/
def execMwr (d : AccReg) (a : VReg) (fol : Bool) (x : Guard) (s : State) : Host.Outcome State Fault Refusal :=
  runs { reqX 0xA6 x with vr := regs a.toNat 8 } s fun m s =>
    if !s.block.array then notHeld 0xA6
    else if twinAbsent s fol then .trap 0x24 0 0
    else match tilesStop s [d.toNat] fol with
    | some t => t
    | none =>
      let cells := (List.range 8).flatMap fun i => (lanesOf m).map fun l => (accKey d.toNat (2 * i + l / 16) (l % 16), rdV s (a.toNat + i) l)
      let done := ((planOf ⟨List.replicate 8 0, 0, 0⟩ s).map (·.uend)).getD s.clk + 3
      .done (touchTiles (!fol) fol (onTiles fol (modCore fun c => Core.clean { c with
        acc := putAll c.acc cells, tiles := c.tiles ++ [⟨d.toNat, herePos s, s.gang.key, done⟩] } fun x => cells.any fun k => x == .tile k.1) s))

/-- The conversion type of a destination format of MST (08 R190, R204). -/
def mstType (f : Nat) : Option CvtTy :=
  if f = 0 then some .bf16 else if f = 1 then some .f16 else if f = 2 then some .e4m3 else if f = 3 then some .e5m2
  else if f = 6 then some .s8 else if f = 7 then some .u8 else if f = 9 then some .f32 else if f = 10 then some .s32 else none

/-- MST (08 R204, R206, R210): its bytes are computed at issue and written at its completion; those for team scratch are held in a
redundant launch alone. -/
def execMst (d : OmReg) (a : AccReg) (rnd : Rnd) (fo sat fol s32 : Bool) (x : Guard) (s : State) : Host.Outcome State Fault Refusal :=
  runs (reqX 0xA7 x) s fun m s =>
    match s.gang.rel with
    | .matched .. => .done (relDone s)
    | _ =>
    oneLane 0xA7 m s <|
    let p := omOf s d
    let ok := p.rows == 16 && p.cols == 16 && !p.twin && (mstType p.fmt).isSome
    if twinAbsent s fol then .trap 0x24 0 0
    else match mapTrap s d.toNat ok true p with
    | some t => t
    | none =>
      match tilesStop s [a.toNat] fol with
      | some t => t
      | none =>
        let dty := (mstType p.fmt).getD .f32
        let sty : CvtTy := if s32 then .s32 else .f32
        let acc := (tileCore fol s).acc
        let w := mapWidth p.fmt
        let conv := fun (r n : Nat) =>
          let v := (look acc (accKey a.toNat r n)).toNat
          if sty = dty then (v, ({} : Fl)) else cvtBits sty dty (fpRound s rnd 0 0) false fo sat v
        let row := fun (r : Nat) => (List.range 16).flatMap fun n => leBytes (w / 8) (conv r n).1
        let sp : Space := if p.space = 1 then .ts else .core
        let bytes := (List.range 16).flatMap fun r => (cellsAt (p.base + r * p.stride) (row r)).map fun c => (sp, c.1, c.2)
        let sects := (sectorsOf (bytes.map fun b => (b.2.1, b.2.2))).length
        if full s .st then .stall s
        else if sp = .ts ∧ folding s ∧ !muckRoom s sects then .stall (modCore (perfAdd 18 (gangFilter s s.gang) 1) s)
        else match arrayAsleep s false false (sp == .core) with
        | some s' => .stall s'
        | none =>
          if s.core.marks.contains (.map d.toNat) || (tileCore fol s).marks.any (ArrayMark.within (accKey a.toNat 0 0) (accKey (a.toNat + 1) 0 0)) then arrayDead s else
          crossed ⟨[], 8, 2⟩ s fun pl s =>
          let fl := (List.range 16).flatMap fun r => (List.range 16).map fun n => (conv r n).2
          let (id, s) := newPend .st 1 [] true ((if sp == .core then touchArray false else id) (touchTiles (!fol) fol (orFlags fl s)))
          let s := modGang (fun g => { g with pend := g.pend.map fun q => if q.id = id then { q with bytes := bytes } else q }) s
          let wait := pl.ready + 1 - s.clk
          let s := later wait .none (.mstComplete s.gang.key id) s
          if sp = .ts then
            countStore ((List.range 16).flatMap fun r => wordRecs 0xA7 (subField (.mst d a rnd fo sat fol s32 x)) 0 (tsMark (p.base + r * p.stride)) (row r)) s
          else .done s

/-- MNANR (08 R199). -/
def execMnanr (d : SReg) (s : State) : Host.Outcome State Fault Refusal :=
  runs { req1 0xAA with sw := [d.toNat] } s fun m s =>
    if m = 0 then .done s
    else if !s.core.shadowReady || s.core.cbWait.any (fun x => decide (s.clk < x.2)) || s.core.streams.any fun t => decide (s.clk ≤ t.last) then .stall s
    else .done (modCore (fun c => { c with nancnt := 0 }) (wrS d.toNat s.core.nancnt s))

end Sys2Proof.Machine
end

