-- ==== Sys2Proof/Machine/System.lean ====
section
/-! DEFINITION. Meanings of the system instructions (09): CSRR and CSRW, GETM and SETM, GROW and SHRINK, QUERY, HOPS, NDSRC,
SIGRD and DBG, and of the CSR writes that take effect later (05 R123, 09 R215). -/

namespace Sys2Proof.Machine

/-- Debug is open (20 R434, R435). -/
def debugOpen (s : State) : Bool := s.lcs != 2 || s.tokDebug

/-- The lowest level that may read a CSR, and write it; none where no level may (05 R123). -/
def csrLevels (n : Nat) : Level × Option Level :=
  if n ≤ 4 ∨ n = 0x21 ∨ n = 0x22 ∨ n = 0x23 ∨ n = 0x30 ∨ (0x50 ≤ n ∧ n ≤ 0x52) ∨ n = 0x71 ∨ n = 0xB0 ∨ n = 0xB1 then (.kernel, none)
  else if 0x80 ≤ n ∧ n ≤ 0x84 then (.kernel, some .kernel)
  else if n = 0x70 ∨ n = 0x90 then (.supervisor, some .supervisor)
  else if n = 0x91 then (.supervisor, none)
  else (.kernel, some .supervisor)

/-- CAPL (01 R22). -/
def caplOf (s : State) : Nat := 0x7C1 + 0x30 * bnat s.profD

/-- GRADE (01 R24). -/
def gradeOf (s : State) : Nat := (40 - s.disabled.length) + 40 * 2 ^ 8 + 480 * 2 ^ 16 + bnat s.profD * 2 ^ 25

/-- TOPO of the gang in focus (01 R28): SITE is the VD's site code, whose KIND is 0, and for a gang of a service core the VH number alone. -/
def topoOf (s : State) : Nat := ownSite s s.gang % 256 + (vdsOf s s.gang.ctx.toNat).length * 2 ^ 16 + 40 * 2 ^ 24

/-- COREST of the core in focus (01 R20). 01 R16 and R20 speak of the logical cores of a compute die alone; DESIGN CHOICE (log 95): a service
core shows its number as LCORE, and TWINOK as though the core of the number beside it were its partner. -/
def corestOf (s : State) : Nat :=
  s.core.ports.toNat + bnat s.core.insvc * 4 + bnat (twinOk s) * 8 + s.core.core * 2 ^ 8

/-- WSREF of the die in focus (10 R241). -/
def wsrefOf (s : State) : Nat := wsPhase s + wsPhase s / 8192 * 2 ^ 18 + bnat (decide (wsPhase s % 8192 < 2048)) * 2 ^ 23

/-- RETN.BUSY of the die in focus (10 R245). -/
def retnBusy (s : State) : Bool :=
  (allCores s).any fun c => c.die == s.die.die && (c.scr.busy.isSome || c.accr.busy.isSome)

/-- The partition of the gang in focus. -/
def ownPart (s : State) : Part := nth Part.reset s.core.parts s.gang.key.part

/-- The value of a CSR as the gang in focus reads it (05 R123). -/
def csrValue (s : State) (n : Nat) : DWord :=
  let g := s.gang
  let d := s.die
  let c := s.core
  let w := fun (x : Nat) => BitVec.ofNat 64 x
  let z := fun (x : Word) => (x.zeroExtend 64 : DWord)
  match n with
  | 0x000 => w (caplOf s)
  | 0x001 => 0x06601008
  | 0x002 => w (gradeOf s)
  | 0x003 => w (topoOf s)
  | 0x004 => w (corestOf s)
  | 0x020 => w d.wayp
  | 0x021 => w (d.tsize + bnat d.repart.isSome * 2 ^ 31)
  | 0x022 => w (wsrefOf s)
  | 0x023 => w (bnat (wsLocked s d.die) + 2 * bnat (decide (0 < d.wsld)))
  | 0x024 => w (bnat d.retnScr + 2 * bnat d.retnAccs + bnat (retnBusy s) * 2 ^ 16)
  | 0x030 => c.lclk
  | 0x031 => z d.lease
  | 0x040 => z d.strvt
  | 0x041 => z d.pinmax
  | 0x042 => z d.balcfg
  | 0x050 => w (s.block.nrep + 4 * bnat s.block.degr + 8 * bnat (folding s))
  | 0x051 => g.sigs
  | 0x052 => w s.block.repl
  | 0x060 => z c.nancnt
  | 0x061 => z c.stalecnt
  | 0x062 => z d.stalersp
  | 0x070 => if g.ctx = 0 then 0 else ((ctxOf g.ctx.toNat s).vdt.map (·.addr)).getD 0
  | 0x071 => w g.ctx.toNat
  | 0x080 => z g.trapvec
  | 0x081 => z g.trapcause
  | 0x082 => z g.trappc
  | 0x083 => g.trapaddr
  | 0x084 => z g.trapinfo
  | 0x090 => w (bnat ((ownPart s).halted && !(ownPart s).stepping) + 2 * bnat (ownPart s).stepping + 4 * bnat (ownPart s).bpen + 8 * bnat (ownPart s).wpen)
  | 0x091 => w (bnat (ownPart s).halted + 2 * bnat (debugOpen s) + 4 * s.lcs.toNat)
  | 0x092 => z c.smplcfg
  | 0x093 => c.smplring
  | 0x0A8 => c.perfsel
  | 0x0B0 => w (timeOf s)
  | 0x0B1 => w d.incarn.toNat
  | _ => if 0xA0 ≤ n ∧ n ≤ 0xA7 then nth 0 c.perf (n - 0xA0) else 0

/-- CSRs that a backup takes from the primary (09 R224). -/
def csrForwarded (n : Nat) : Bool :=
  n == 0xB0 || n == 0x30 || n == 3 || n == 4 || n == 0x21 || n == 0x22 || n == 0x23 || n == 0x60 || n == 0x61 || n == 0x62 || n == 0x93 ||
  (decide (0xA0 ≤ n) && decide (n ≤ 0xA7))

/-- The two words of a value. -/
def words2 (v : DWord) : List Word := [v.extractLsb' 0 32, v.extractLsb' 32 32]

/-- Write a scalar, or a pair. -/
def wrWide (wide : Bool) (d : Nat) (vs : List Word) (s : State) : State :=
  if wide then wrS (d + 1) (nth 0 vs 1) (wrS d (nth 0 vs 0) s) else wrS d (nth 0 vs 0) s

/-- A 12-bit CSR number (09 R214). -/
def csrNum (nlo : BitVec 8) (nhi : BitVec 4) : Nat := nhi.toNat * 256 + nlo.toNat

/-- A CSR of scope die, context or module: its reads and writes take 8 clk, those of the others 2 (09 R215). -/
def csrLat (n : Nat) : Nat :=
  if n ≤ 3 ∨ (0x20 ≤ n ∧ n ≤ 0x24) ∨ n = 0x31 ∨ (0x40 ≤ n ∧ n ≤ 0x42) ∨ n = 0x62 ∨ n = 0x70 ∨ n = 0xB0 ∨ n = 0xB1 then 8 else 2

/-- A byte of PERFSEL is allowed (17 R386). -/
def perfselOk (b : Nat) : Bool :=
  let e := b % 32
  let coreEvent := e == 1 || e == 20 || e == 21 || (decide (23 ≤ e) && decide (e ≤ 28))
  decide (b / 32 ≤ 5) && e != 31 && (b / 32 == 0 || !coreEvent)

/-- The value of a CSR that a write of `v` leaves, or none where some field does not allow it; reserved fields ignore the
write (00 R4, 05 R123). -/
def csrAllowed (n : Nat) (v : DWord) : Option DWord :=
  let x := v.toNat
  let low := fun (k : Nat) => some (BitVec.ofNat 64 (x % 2 ^ k))
  match n with
  | 0x020 => if 12 < x % 16 then none else low 4
  | 0x024 => low 2
  | 0x031 => if x % 256 = 0 then none else low 8
  | 0x040 => if x < 4096 then none else some v
  | 0x042 => if x % 65536 < 256 then none else low 25
  | 0x081 => low 8
  | 0x090 => low 4
  | 0x092 => low 6
  | 0x0A8 => if (List.range 8).all fun i => perfselOk (fld x (8 * i) 8) then some v else none
  | _ => some v

/-- Write a CSR at once (05 R123). -/
def csrSet (n : Nat) (v : DWord) (s : State) : State :=
  let w : Word := v.truncate 32
  match n with
  | 0x031 => modDie (fun d => { d with lease := w }) s
  | 0x040 => modDie (fun d => { d with strvt := w }) s
  | 0x041 => modDie (fun d => { d with pinmax := w }) s
  | 0x042 => modDie (fun d => { d with balcfg := w }) s
  | 0x060 => modCore (fun c => { c with nancnt := w }) s
  | 0x061 => modCore (fun c => { c with stalecnt := w }) s
  | 0x062 => modDie (fun d => { d with stalersp := w }) s
  | 0x080 => modGang (fun g => { g with trapvec := w }) s
  | 0x081 => modGang (fun g => { g with trapcause := w }) s
  | 0x082 => modGang (fun g => { g with trappc := w }) s
  | 0x083 => modGang (fun g => { g with trapaddr := v }) s
  | 0x084 => modGang (fun g => { g with trapinfo := w }) s
  | 0x090 => modCore (fun c => { c with parts := modNth c.parts s.gang.key.part fun p => { p with bpen := w.getLsbD 2, wpen := w.getLsbD 3 } }) s
  | 0x093 => modCore (fun c => { c with smplring := v }) s
  | 0x0A8 => modCore (fun c => { c with perfsel := v }) s
  | _ => if 0xA0 ≤ n ∧ n ≤ 0xA7 then modCore (fun c => { c with perf := modNth c.perf (n - 0xA0) fun _ => v }) s else s

/-- WAYP takes effect (10 R239): a die begins to re-partition, unless the value is beyond 12, a re-partition runs, or nothing changes. -/
def waypTo (die w : Nat) (s : State) : State :=
  onDie die (fun s =>
    let old := s.die.wayp
    if 12 < w ∨ s.die.repart.isSome ∨ w = old then s
    else if old < w then modDie (fun d => { d with wayp := w, repart := some ⟨old, w, 0, 0⟩ }) s
    else
      let size := w * 2 ^ 20
      let s := modDie (fun d => { d with
        wayp := w, tsize := size, repart := some ⟨old, w, 0, 0⟩ }) s
      later 64 .none (.repartitionComplete die) s) s

/-- Every core of a die stands in the lists: from now on its arrays age (10 R245). -/
def listCores (d : Nat) (s : State) : State :=
  let new := (List.range (if d < 128 then 480 else 4)).filter fun c => !(allCores s).any fun x => x.die == d && x.core == c
  { s with cores := s.cores ++ new.map fun c => freshCore d c s }

/-- RETN takes effect (10 R245): clearing an enable starts the exit of every retained array of that kind on the die; an array that is still
entering goes on (log 72). -/
def retnTo (die : Nat) (v : Nat) (s : State) : State :=
  onDie die (fun s =>
    let scr := natb v
    let acc := natb (v / 2)
    let s := modDie (fun d => { d with retnScr := scr, retnAccs := acc }) (if scr || acc then listCores die s else s)
    let kinds := (if scr then [] else [false]) ++ (if acc then [] else [true])
    let asleep := fun (c : Core) (a : Bool) => let r := if a then c.accr else c.scr; r.retained && r.busy.isNone
    let exits := (allCores s).flatMap fun c => if c.die = die then (kinds.filter (asleep c)).map fun a => (c.core, a) else []
    exits.foldl (fun s x => onCore die x.1 (fun s =>
      let leave := fun (r : Retain) => { r with busy := some (s.clk + 1536) }
      later 1536 .none (.retentionExit die x.1 x.2) (modCore (fun c => if x.2 then { c with accr := leave c.accr } else { c with scr := leave c.scr }) s)) s) s) s

/-- SMPLCFG takes effect (17 R387): setting EN starts the count of requests. -/
def smplcfgTo (die core : Nat) (v : Word) (s : State) : State :=
  onCore die core (modCore fun c => { c with
    smplcfg := v &&& 0x3F, smpln := if v.getLsbD 5 && !c.smplcfg.getLsbD 5 then 0 else c.smpln }) s

/-- What a CSRW asks to be written, over the value that stands (09 R214). -/
def csrMix (op : CsrwOp) (old src : DWord) : DWord :=
  match op with
  | .write => src
  | .set => old ||| src
  | .clr => old &&& ~~~src

/-- The value that a CSRW writes as it takes effect in the gang in focus, unless some field does not allow it (09 R214), or the CSR is of a
gang that has gone. -/
def csrNew (w : CsrWrite) (s : State) : Option DWord :=
  if w.ofGang && !(s.gang.live && s.gang.blk == w.blk) then none else csrAllowed w.num (csrMix w.op (csrValue s w.num) w.src)

/-- A CSRW takes effect in the gang in focus: its read, its modification and its write are one step (09 R214). A write of VDTB changes no
table of the gang's own context, which has a launch (16 R355). -/
def csrWritten (w : CsrWrite) (s : State) : State :=
  match csrNew w s with
  | none => s
  | some v =>
    match w.num with
    | 0x020 => waypTo s.die.die (v.toNat % 2 ^ 32) s
    | 0x024 => retnTo s.die.die v.toNat s
    | 0x070 => s
    | 0x092 => smplcfgTo s.core.die s.core.core (v.truncate 32) s
    | n => csrSet n v s

/-- The value of a CSR that a CSRR of the gang in focus sees: every CSRW that the gang issued earlier is in it (09 R215). -/
def csrSeen (s : State) (n : Nat) : DWord :=
  csrValue ((s.csrq.filter fun w => w.gang == s.gang.key && w.num == n).foldl (fun s w => csrWritten w s) s) n

/-- CSRR (09 R214, R215, R224). -/
def execCsrr (d : SReg) (nlo : BitVec 8) (nhi : BitVec 4) (x : Guard) (s : State) : Host.Outcome State Fault Refusal :=
  let n := csrNum nlo nhi
  let wide := (csrWide n).getD false
  runs { reqX 0xD0 x with sw := if wide then pair d.toNat else [d.toNat], lat := csrLat n } s fun m s =>
    if s.gang.level.rank < (csrLevels n).1.rank then .trap 0x0B (BitVec.ofNat 32 n) 0
    else if m = 0 then .done s
    else if csrForwarded n then onceValue s (fun s => (words2 (csrSeen s n), s)) fun vs s => .done (wrWide wide d.toNat vs s)
    else .done (wrWide wide d.toNat (words2 (csrSeen s n)) s)

/-- CSRW (09 R214): it takes effect after the latency of its scope (09 R215). -/
def execCsrw (a : SReg) (nlo : BitVec 8) (op : CsrwOp) (nhi : BitVec 4) (x : Guard) (s : State) : Host.Outcome State Fault Refusal :=
  let n := csrNum nlo nhi
  let wide := (csrWide n).getD false
  runs { reqX 0xD1 x with sr := if wide then pair a.toNat else [a.toNat] } s fun m s =>
    let src : DWord := if wide then rdSS s a.toNat else (rdS s a.toNat).zeroExtend 64
    let may := match (csrLevels n).2 with
      | none => false
      | some l => decide (l.rank ≤ s.gang.level.rank)
    if !may || (n == 0x90 && !debugOpen s) then .trap 0x0B (BitVec.ofNat 32 n) 0
    else if m = 0 then .done s
    else .done { s with csrq := s.csrq ++ [⟨s.clk + csrLat n, s.gang.key, s.gang.blk, n, op, src⟩] }

/-- The oldest CSRW whose effect is due, and the state without it. -/
def csrDue (s : State) : Option (CsrWrite × State) :=
  (s.csrq.find? fun w => decide (w.clk ≤ s.clk)).map fun w => (w, { s with csrq := s.csrq.erase w })

/-- A CSRW of WAYP, RETN, VDTB or SMPLCFG comes to an event when its effect is due (05 R123). -/
def csrEvent (w : CsrWrite) (s : State) : Option Instr :=
  (csrNew w s).bind fun v => match w.num with
    | 0x020 => some (.waypWrite s.die.die (v.truncate 32))
    | 0x024 => some (.retnWrite s.die.die (v.truncate 32))
    | 0x070 => some (.vdtbWrite v)
    | 0x092 => some (.smplcfgWrite s.core.die s.core.core (v.truncate 32))
    | _ => none

/-- WAYP takes effect (10 R239). -/
def execWaypWrite (die : Nat) (v : BitVec 32) (s : State) : Host.Outcome State Fault Refusal :=
  if ¬(die < 40 ∨ (128 ≤ die ∧ die < 168)) then .fault .noSuchUnit
  else .next (waypTo die (v.toNat % 16) s)

/-- A re-partition completes (10 R239): surrendered ways are zero and belong to team scratch. -/
def execRepartitionComplete (die : Nat) (s : State) : Host.Outcome State Fault Refusal :=
  if ¬(die < 40 ∨ (128 ≤ die ∧ die < 168)) then .fault .noSuchUnit
  else .next <| onDie die (fun s => match s.die.repart with
    | none => s
    | some r =>
      let kept := min r.old r.new * 2 ^ 20
      modDie (fun d => { d with
        repart := none, tsize := r.new * 2 ^ 20, ts := dropRange d.ts kept (2 ^ 24), tsPoison := d.tsPoison.filter fun x => decide (32 * x < kept) }) s) s

/-- RETN takes effect (10 R245). -/
def execRetnWrite (die : Nat) (v : BitVec 32) (s : State) : Host.Outcome State Fault Refusal :=
  if ¬(die < 40 ∨ (128 ≤ die ∧ die < 168)) then .fault .noSuchUnit
  else .next (retnTo die v.toNat s)

/-- SMPLCFG takes effect (17 R387). -/
def execSmplcfgWrite (die core : Nat) (v : BitVec 32) (s : State) : Host.Outcome State Fault Refusal :=
  if ¬((die < 40 ∧ core < 480) ∨ (128 ≤ die ∧ die < 168 ∧ core < 4)) then .fault .noSuchUnit
  else .next (smplcfgTo die core v s)

/-- The virtual die table at an address of context 0, as its bytes stand, when it is well-formed (16 R354). 16 R354 calls bit [7] of a VDSITE
and a VHSITE zero, and other bits of a root too, and does not say what a table is in which they are not: DESIGN CHOICE (log 94), a VDSITE or
VHSITE with bit [7] set names no site, and the other bits of a root are not looked at. -/
def readVdt (s : State) (addr : DWord) : Option (Nat × Vdt) :=
  match xlate s 0 0 addr .load with
  | .ok _ k =>
    let b := fun (i : Nat) => (look s.mem (k + i)).toNat
    let q := fun (i : Nat) => leNat (readBytes s.mem (k + i) 8)
    let nvd := b 2
    let site := fun (i : Nat) => (fld (b i) 4 3, fld (b i) 0 4)
    let vds := (List.range nvd).map fun v => (enabledDies s).find? fun d => dieSite d == site (64 + v) && decide (b (64 + v) < 128)
    let vhs := (List.range 40).map fun h => (List.range 40).find? fun x => homeSite x == site (128 + h) && decide (b (128 + h) < 128)
    let root := fun (i : Nat) => if natb (q i) then some (fld (q i) 8 28 * 256) else none
    let roots := (List.range 40).map fun h => root (256 + 16 * h)
    let sroots := (List.range 40).map fun h => root (264 + 16 * h)
    let rootOk := fun (r : Option Nat) => match r with
      | none => true
      | some a => decide (a % 16384 = 0) && decide (a < Config.reservedBase)
    let ds := vds.filterMap id
    let hs := vhs.filterMap id
    if addr.toNat % 4096 = 0 ∧ 1 ≤ nvd ∧ nvd ≤ 40 - s.disabled.length ∧ ds.length = nvd ∧ uniq ds = ds ∧ hs.length = 40 ∧ uniq hs = hs ∧
      (roots ++ sroots).all rootOk then some (leNat (readBytes s.mem k 2), ⟨addr, ds, hs, roots, sroots⟩) else none
  | _ => none

/-- VDTB takes effect (16 R355): a well-formed table is installed for its context, unless a launch of it is queued or
resident. -/
def execVdtbWrite (addr : BitVec 64) (s : State) : Host.Outcome State Fault Refusal :=
  .next (match readVdt s addr with
    | none => s
    | some (c, t) =>
      let active := s.launches.any fun l => l.ctx.toNat == c && decide (l.st ≠ .complete)
      if c = 0 ∨ active then s else modCtx c (fun x => { x with vdt := some t }) s)

/-- An instruction that the gang issued earlier, whose result can set a MODE bit, has not completed (09 R217). -/
def modePending (s : State) : Bool :=
  (s.gang.pend.any fun p => p.modeSet && !p.fin) || s.gang.tags.any fun t => t.flags && decide (s.clk < t.clk)

/-- GETM (09 R216, R217). -/
def execGetm (d : SReg) (x : Guard) (s : State) : Host.Outcome State Fault Refusal :=
  runs { reqX 0xDA x with sw := pair d.toNat, mode := true } s fun m s =>
    if modePending s then .stall s else .done (if m = 0 then s else wrSS d.toNat s.gang.mode s)

/-- The MODE bits that a field mask of SETM selects (09 R216). -/
def setmBits (m : BitVec 6) : DWord :=
  (if m.getLsbD 0 then 0x7 else 0) ||| (if m.getLsbD 1 then 0x8 else 0) ||| (if m.getLsbD 2 then 0x10 else 0) |||
  (if m.getLsbD 3 then 0x20 else 0) ||| (if m.getLsbD 4 then 0xFC0 else 0) ||| (if m.getLsbD 5 then 0xFFFFFFFF00000000 else 0)

/-- SETM (09 R216, R217); one that writes every field reads none, and ends an error mark of MODE (05 R120). -/
def execSetm (a : SReg) (mk : BitVec 6) (x : Guard) (s : State) : Host.Outcome State Fault Refusal :=
  runs { reqX 0xDA x with sr := pair a.toNat, mode := decide (mk ≠ 0x3F) } s fun m s =>
    let v := rdSS s a.toNat
    let rm := v.toNat % 8
    if modePending s then .stall s
    else if m = 0 ∨ v &&& 0xFFFFF000 ≠ 0 ∨ (mk.getLsbD 0 ∧ (rm = 0 ∨ 5 < rm)) then .done s
    else .done (modGang (fun g => { g with mode := (g.mode &&& ~~~setmBits mk) ||| (v &&& setmBits mk), errs := unmark (· == .mode) g }) s)

/-- Change the allocation of the gang in focus; registers that come or go hold zero (05 R122), and their error marks go (05 R120). -/
def setAlloc (n : Nat) (s : State) : State :=
  let lo := min n s.gang.regs
  let beyond : ErrMark → Bool := fun e => match e with
    | .lane r _ => decide (16 * lo ≤ r)
    | _ => false
  modGang (fun g => { g with regs := n, v := dropRange g.v (512 * lo) (512 * 16), errs := unmark beyond g }) s

/-- Write the new allocation where the instruction names a destination (09 R218). -/
def allocResult (d : SReg) (s : State) : State := if d = 0 then s else wrS d.toNat (BitVec.ofNat 32 s.gang.regs) s

/-- GROW (09 R218, R219): one that must wait takes its issue, and passes by itself once it is granted. DESIGN CHOICE (log 86): its
ILLEGAL_ENCODING depends on the state and is a check of the instruction itself, behind those that every instruction makes, whatever
its execution mask. -/
def execGrow (d : SReg) (k : BitVec 8) (s : State) : Host.Outcome State Fault Refusal :=
  runs { req1 0xD2 with sw := if d = 0 then [] else [d.toNat] } s fun m s =>
    let key := s.gang.key
    if (cur s).stands then .stall s
    else if s.gang.kit ≠ 0 ∨ 16 < s.gang.regs + k.toNat then illegalUse
    else if m = 0 then .done s
    else if (ownPart s).growq.isEmpty ∧ k.toNat ≤ freeBlocks s key.die key.core key.part then .done (allocResult d (setAlloc (s.gang.regs + k.toNat) s))
    else .hold (.grow k.toNat false (lowSlice s.frag)) (modCore (fun c => { c with parts := modNth c.parts key.part fun p =>
      { p with growq := p.growq ++ [(key.slot, lowSlice s.frag, k.toNat, d.toNat)] } }) s)

/-- A waiting GROW of the gang in focus is granted: slice `k` is its fragment's lowest. The allocation rises and the result is readable 2 clk
later; behind a trap the waiting fragment stands in the frame (09 R219, R226). -/
def grantGrow (k blocks d : Nat) (s : State) : State :=
  let framed := (s.gang.frame.map fun f => !f.slices.getLsbD k).getD false
  let es := if framed then (s.gang.frame.map (·.entries)).getD [] else s.gang.split
  let e := nth SplitEntry.over es k
  let turn := fun (x : SplitEntry) => if x.wait = .grow blocks false k then { x with wait := .grow blocks true k } else x
  let s := takePool s.gang.key (setAlloc (s.gang.regs + blocks) s)
  let s := modGang (fun g => if framed then { g with frame := g.frame.map fun f => { f with entries := f.entries.map turn } }
    else { g with split := g.split.map turn }) s
  if d = 0 then s
  else
    let tag : Tag := ⟨.s d, BitVec.ofNat 32 (e.pc.toNat + e.ix), 0, s.clk + 2, false⟩
    modGang (fun g => { g with tags := g.tags ++ [tag] }) (wrS d (BitVec.ofNat 32 s.gang.regs) s)

/-- Grant the waiting GROWs of a partition from the head, each whole, while the pool can (09 R219). -/
def grantGrows (die core part : Nat) : Nat → State → State
  | 0, s => s
  | n + 1, s =>
    match (nth Part.reset (coreOf die core s).parts part).growq with
    | [] => s
    | (slot, k, blocks, d) :: t =>
      if freeBlocks s die core part < blocks then s
      else
        let s := onCore die core (modCore fun c => { c with parts := modNth c.parts part fun p => { p with growq := t } }) s
        grantGrows die core part n (onGang ⟨die, core, part, slot⟩ (grantGrow k blocks d) s)

/-- A partition's pool has gained blocks (09 R219). -/
def execGrowGrant (die core part : Nat) (s : State) : Host.Outcome State Fault Refusal :=
  if ¬(((die < 40 ∧ core < 480) ∨ (128 ≤ die ∧ die < 168 ∧ core < 4)) ∧ part < 4) then .fault .noSuchUnit
  else .next (grantGrows die core part 64 s)

/-- SHRINK (09 R218, 05 R122). -/
def execShrink (d : SReg) (k : BitVec 8) (s : State) : Host.Outcome State Fault Refusal :=
  runs { req1 0xD3 with sw := if d = 0 then [] else [d.toNat] } s fun m s =>
    let n := s.gang.regs - k.toNat
    if s.gang.kit ≠ 0 ∨ s.gang.regs ≤ k.toNat then illegalUse
    else if m = 0 then .done s
    else if (s.gang.pend.any fun p => p.writes.any fun w => match w with
      | .lane r _ _ => decide (16 * n ≤ r)
      | _ => false) || s.gang.tags.any fun t => decide (s.clk < t.clk) && (match t.reg with
      | .v r => decide (16 * n ≤ r)
      | _ => false) then .stall s
    else .done (later 0 .none (.admission s.gang.key.die)
      (later 0 .none (.growGrant s.gang.key.die s.gang.key.core s.gang.key.part) (allocResult d (setAlloc n s))))

/-- The cores of a die whose PORTS meets a test. -/
def coresWith (s : State) (d : Nat) (p : BitVec 2 → Bool) : Nat := ((allCores s).filter fun c => c.die == d && p c.ports).length

/-- The value of a QUERY item (09 R220). -/
def queryValue (s : State) (item : Nat) (arg : Word) : Word :=
  let g := s.gang
  let k := g.key
  let vds := vdsOf s g.ctx.toNat
  let w := fun (x : Nat) => BitVec.ofNat 32 x
  let onDie' := fun (f : Nat → Nat) => if arg.toNat < 256 then (match vds[arg.toNat]? with | some d => w (f d) | none => 0xFFFFFFFF) else 0xFFFFFFFF
  match item with
  | 0 => w (gradeOf s)
  | 1 => w vds.length
  | 2 => 480
  | 3 => onDie' fun d => 480 - coresWith s d (· == 3)
  | 4 => onDie' fun d => coresWith s d (fun p => p == 1 || p == 2)
  | 5 => w (ownSite s g + k.core * 2 ^ 9 + k.part * 2 ^ 18 + s.core.ports.toNat * 2 ^ 20)
  | 6 => w (freeBlocks s k.die k.core k.part)
  | 7 => w (freeScratch s k.die k.core)
  | 8 => w s.die.tsize
  | _ => 1

/-- QUERY (09 R220, R224). -/
def execQuery (d a : SReg) (item : BitVec 8) (x : Guard) (s : State) : Host.Outcome State Fault Refusal :=
  let n := item.toNat
  runs { reqX 0xD4 x with sr := if n = 3 ∨ n = 4 then [a.toNat] else [], sw := [d.toNat], lat := if 5 ≤ n ∧ n ≤ 7 then 2 else 8 } s fun m s =>
    if m = 0 then .done s
    else
      let v := fun (s : State) => queryValue s n (rdS s a.toNat)
      if 5 ≤ n ∧ n ≤ 8 then onceValue s (fun s => ([v s], s)) fun vs s => .done (wrS d.toNat (nth 0 vs 0) s)
      else .done (wrS d.toNat (v s) s)

/-- HOPS (09 R221). -/
def execHops (d a b : SReg) (x : Guard) (s : State) : Host.Outcome State Fault Refusal :=
  scalOp { reqX 0xD5 x with sr := [a.toNat, b.toNat] } d.toNat (fun s =>
    match siteOf s s.gang.ctx.toNat (rdS s a.toNat).toNat, siteOf s s.gang.ctx.toNat (rdS s b.toNat).toNat with
    | some p, some q => BitVec.ofNat 32 (meshDist p q)
    | _, _ => 0xFFFFFFFF) s

/-- NDSRC .time (09 R222, R224, 20 R433). -/
def execNdsrcTime (d : SReg) (x : Guard) (s : State) : Host.Outcome State Fault Refusal :=
  runs { reqX 0xD8 x with sw := pair d.toNat } s fun m s =>
    if m = 0 then .done s
    else
      let t := if s.replay then timeOf s - s.replayMark + s.logMark else timeOf s
      onceValue s (fun s => (words2 (BitVec.ofNat 64 t), s)) fun vs s => .done (wrWide true d.toNat vs s)

/-- NDSRC .rand (09 R222, R224). -/
def execNdsrcRand (d : SReg) (x : Guard) (s : State) : Host.Outcome State Fault Refusal :=
  runs { reqX 0xD8 x with sw := pair d.toNat } s fun m s =>
    if m = 0 then .done s
    else
      let v := if s.replay then Config.replayDraw s.seed s.draws else Config.entropy s.draws
      onceValue s (fun s => (words2 v, { s with draws := s.draws + 1 })) fun vs s => .done (wrWide true d.toNat vs s)

/-- SIGRD (09 R223). -/
def execSigrd (d : SReg) (what : SigSel) (s : State) : Host.Outcome State Fault Refusal :=
  scalPairOp (req1 0xD9) d.toNat (fun s => match what with
    | .sigs => s.gang.sigs
    | .sigl => s.gang.sigl
    | .sigk => s.gang.sigk.zeroExtend 64) s

/-- The partition that a DBG target names: die, core and partition, when it is bound and its core online (09 R228). DESIGN CHOICE (log 88): a
target of another KIND, of a core that no die has, or with a bit of [31:20] set names nothing that is bound. -/
def dbgTarget (s : State) (t : Word) : Option (Nat × Nat × Nat) :=
  let n := t.toNat
  if 2 ^ 20 ≤ n ∨ 256 ≤ n % 512 ∨ 480 ≤ fld n 9 9 then none
  else match (vdsOf s s.gang.ctx.toNat)[n % 512]? with
  | none => none
  | some d => if (coreOf d (fld n 9 9) s).ports = 3 then none else some (d, fld n 9 9, fld n 18 2)

/-- Change a partition. -/
def modPart (d c p : Nat) (f : Part → Part) (s : State) : State := onCore d c (modCore fun x => { x with parts := modNth x.parts p f }) s

/-- A DBG action (09 R228): its status and effect on its target. `own` tells whether the issuing partition may not be the
target. -/
def dbgEff (d b : SReg) (own : Bool) (f : Nat × Nat × Nat → State → Nat × State) (m : Word) (s : State) : Eff :=
  let k := s.gang.key
  if !debugOpen s then .trap 0x0B 0xDB 0
  else if m = 0 then .done s
  else match dbgTarget s (rdS s b.toNat) with
  | none => .done (wrS d.toNat 2 s)
  | some t =>
    if own && t == (k.die, k.core, k.part) then .done (wrS d.toNat 3 s)
    else
      let r := f t s
      .done (wrS d.toNat (BitVec.ofNat 32 r.1) r.2)

/-- What a DBG action asks of the checks before its own. -/
def dbgReq (x : Guard) (d b : SReg) (a : List Nat) : Req :=
  { reqX 0xDB x with level := .supervisor, sr := b.toNat :: a, sw := [d.toNat] }

/-- DBG .halt (09 R228, 20 R436). -/
def execDbgHalt (d b : SReg) (x : Guard) (s : State) : Host.Outcome State Fault Refusal :=
  runs (dbgReq x d b []) s (dbgEff d b true fun t s => (0, modPart t.1 t.2.1 t.2.2 (fun p => if p.halted && !p.stepping then p else { p with halted := true, stepping := false, haltAt := timeOf s }) s))

/-- DBG .run (09 R228). -/
def execDbgRun (d b : SReg) (x : Guard) (s : State) : Host.Outcome State Fault Refusal :=
  runs (dbgReq x d b []) s (dbgEff d b false fun t s => (0, modPart t.1 t.2.1 t.2.2 (fun p => { p with halted := false, stepping := false }) s))

/-- The partition of a target. -/
def partOf (s : State) (t : Nat × Nat × Nat) : Part := nth Part.reset (coreOf t.1 t.2.1 s).parts t.2.2

/-- DBG .step (09 R228); a target whose step is still to come is not halted. -/
def execDbgStep (d b : SReg) (x : Guard) (s : State) : Host.Outcome State Fault Refusal :=
  runs (dbgReq x d b []) s (dbgEff d b true fun t s =>
    if !(partOf s t).halted || (partOf s t).stepping then (1, s) else (0, modPart t.1 t.2.1 t.2.2 (fun p => { p with stepping := true }) s))

/-- DBG .bp (09 R228). -/
def execDbgBp (d a b : SReg) (slot : BitVec 2) (x : Guard) (s : State) : Host.Outcome State Fault Refusal :=
  runs (dbgReq x d b (pair a.toNat)) s (dbgEff d b false fun t s =>
    let hi := (rdS s (a.toNat + 1)).toNat
    (0, modPart t.1 t.2.1 t.2.2 (fun p => { p with bps := modNth p.bps slot.toNat fun _ => (rdS s a.toNat, hi % 4096, natb (hi / 2 ^ 31)) }) s))

/-- DBG .wp (09 R228): an address that is not aligned to the length raises ALIGNMENT. -/
def execDbgWp (d a b : SReg) (slot : BitVec 1) (kind : BitVec 2) (len : BitVec 4) (x : Guard) (s : State) : Host.Outcome State Fault Refusal :=
  runs (dbgReq x d b (pair a.toNat)) s fun m s =>
    let va := rdSS s a.toNat
    if debugOpen s ∧ m ≠ 0 ∧ (dbgTarget s (rdS s b.toNat)).isSome ∧ va.toNat % 2 ^ len.toNat ≠ 0 then .trap 0x12 0 va
    else dbgEff d b false (fun t s => (0, onCore t.1 t.2.1 (modCore fun c => { c with
      wps := modNth c.wps slot.toNat fun _ => (va, kind.toNat, len.toNat) }) s)) m s

/-- A split-table entry as dumps and trap frames show it (15 R332); `parked` tells that its slice stands at a parked load. -/
def SplitEntry.bytes (parked : Bool) (e : SplitEntry) : List Byte :=
  let st := match e.st with
    | .ready => if e.wait != .none || parked then 1 else 0
    | .blocked => 1
    | .recon => 2
    | .regang => 3
    | .ended => 4
  leBytes 4 e.pc.toNat ++ leBytes 4 e.rpc.toNat ++ leBytes 8 (bnat e.fu + 2 * st + 16 * (if st = 3 then e.rgm.toNat else 0))

/-- The trap frame in a dump (09 R226), or zero. -/
def frameBytes (f : Option Frame) : List Byte :=
  match f with
  | none => List.replicate 152 0
  | some f =>
    let e := (f.entries.zip (List.range 8)).find? fun x => f.slices.getLsbD x.2
    let at' := (e.map (·.1)).getD SplitEntry.over
    (((f.entries.map (SplitEntry.bytes false)).flatten ++ List.replicate 128 0).take 128) ++ leBytes 4 f.slices.toNat ++ leBytes 4 at'.hdr.toNat ++
      leBytes 4 at'.pc.toNat ++ leBytes 4 at'.ix ++ leBytes 4 f.trappc.toNat ++ leBytes 4 (bnat f.reexec)

/-- Number of a role (02 R44). -/
def Role.code : Role → Nat
  | .general => 0
  | .vector => 1
  | .matrix => 2
  | .copy => 3

/-- The 1,024 bytes of a gang slot in a dump (20 R437): its items in the order in which the rule lists them, each in the width of its own
rule and in whole words; those places are the model's (log 78). An empty slot is zero. -/
def slotBytes (s : State) (g : Option Gang) : List Byte :=
  let all := match g with
    | none => []
    | some g =>
      let w := fun (n : Nat) => leBytes 4 n
      let full := ((blockOf g.blk s).map (·.kfull)).getD []
      let parked := fun (k : Nat) => match g.park with | some p => p.slices.getLsbD k | none => false
      leBytes 8 (g.blk.name % 2 ^ 48) ++ w g.blk.idx ++ w g.gno ++ w g.role.code ++ w g.regs ++ w g.kit ++ w g.active.toNat ++ w g.dead.toNat ++
      ((List.range 32).flatMap fun i => w (if i < g.kit then (look full i).toNat else 0)) ++ leBytes 8 g.mode.toNat ++
      ((List.range 64).flatMap fun i => w (look g.s i).toNat) ++ ((List.range 7).flatMap fun i => w (look g.p (i + 1)).toNat) ++
      w (counter g .ld) ++ w (counter g .st) ++ w (counter g .cp) ++ w (counter g .tl) ++ w g.timer ++ w g.starve ++
      leBytes 8 g.sigs.toNat ++ leBytes 8 g.sigl.toNat ++ w g.sigk.toNat ++
      ((List.range 8).flatMap fun k => (if k < g.slices then entryOf g k else SplitEntry.over).bytes (parked k)) ++ frameBytes g.frame
  (all ++ List.replicate 1024 0).take 1024

/-- The pending writes of a partition as a dump lists them, each of 16 bytes (20 R437). -/
def pendingBytes (s : State) (gs : List Gang) : List Byte :=
  let due := fun (g : Gang) (id : Nat) => (s.agenda.find? fun d => d.ev == .loadComplete g.key id || d.ev == .resultWriteback g.key id || d.ev == .mstComplete g.key id).map fun d => d.clk - s.clk
  let entry := fun (g : Gang) (p : Pend) (ns n : Nat) (m : Word) =>
    [BitVec.ofNat 8 ns, BitVec.ofNat 8 n, BitVec.ofNat 8 g.key.slot, 0] ++ leBytes 4 p.pos.toNat ++
    leBytes 4 ((due g p.id).getD ((Config.freeValue (s.free + p.id)).toNat % 2 ^ 32)) ++ leBytes 4 m.toNat
  let name := fun (r : RegName) => match r with | .v n => (0, n) | .s n => (1, n) | .p n => (2, n)
  let tile := fun (k : GangKey) (pos : Word) (n clk : Nat) =>
    [3, BitVec.ofNat 8 n, BitVec.ofNat 8 k.slot, 0] ++ leBytes 4 pos.toNat ++ leBytes 4 (clk - s.clk) ++ leBytes 4 0xFFFFFFFF
  let core := fun (g : Gang) => coreOf g.key.die g.key.core s
  (gs.flatMap fun g => (g.tags.filter fun t => decide (s.clk < t.clk) && t.reg != .p 0).flatMap fun t =>
    [BitVec.ofNat 8 (name t.reg).1, BitVec.ofNat 8 (name t.reg).2, BitVec.ofNat 8 g.key.slot, 0] ++ leBytes 4 t.pos.toNat ++
    leBytes 4 (t.clk - s.clk) ++ leBytes 4 t.mask.toNat) ++
  (gs.flatMap fun g => ((core g).tiles.filter fun t => t.gang == g.key && decide (s.clk < t.clk)).flatMap fun t => tile g.key t.pos t.tile t.clk) ++
  (gs.flatMap fun g => ((core g).streams.filter fun st => st.gang == g.key).flatMap fun st =>
    (uniq ((List.range st.times.length).map fun i => st.tile + (st.next + i) / 16)).flatMap fun n =>
      tile g.key st.pos n (1 + (((List.range st.times.length).filterMap fun i =>
        if st.tile + (st.next + i) / 16 = n then st.times[i]? else none).getLast?).getD 0)) ++
  gs.flatMap fun g => g.pend.flatMap fun p =>
    let far := (s.remotes.filter fun r => r.gang == g.key && r.id == p.id && !r.write && !r.old && r.engine.isNone).flatMap fun r => dstWrites s r.dst []
    let ws := p.writes ++ far
    let vs := uniq (ws.filterMap fun w => match w with | .lane r _ _ => some r | _ => none)
    (vs.flatMap fun r => entry g p 0 r (maskOf fun l => ws.any fun w => match w with | .lane q k _ => q == r && k == l | _ => false)) ++
    (ws.flatMap fun w => match w with
      | .lane .. => []
      | .scal r _ => entry g p 1 r 0
      | .pred q m _ => entry g p 2 q m)

/-- The register blocks that the gangs of a partition hold, each by its gang and its number in it: a kitty window once (02 R46). -/
def heldBlocks : List Gang → List (Gang × Nat)
  | [] => []
  | g :: t =>
    let shared := decide (0 < g.kit) && t.any fun h => h.blk == g.blk && decide (0 < h.kit)
    ((List.range (g.regs - if shared then g.kit / 16 else 0)).map fun j => (g, j)) ++ heldBlocks t

/-- Where held blocks stand in a pool: each in a block of `free`, none in that of another; which one is open (log 6). -/
def poolPlaces (free : List Nat) : List (Gang × Nat) → List (Nat × Gang × Nat)
  | [] => []
  | (g, j) :: t =>
    let b := free.getD (Config.poolBlock g.key.slot j % max 1 free.length) 0
    (b, g, j) :: poolPlaces (free.filter (· != b)) t

/-- Byte `i` of the register pool of a partition (20 R437). -/
def poolByte (gs : List Gang) (kv : Gang → SMap 32) (i : Nat) : Byte :=
  let reg := i % 2048 / 128
  let l := i % 128 / 4
  let hit := ((poolPlaces (List.range 16) (heldBlocks gs)).find? fun x => x.1 == i / 2048).map fun x => (x.2.1, 16 * x.2.2 + reg)
  match hit with
  | none => 0
  | some (g, r) =>
    let w := match kittyIx g r with
      | none => look g.v (32 * r + l)
      | some k => look (kv g) (32 * k + l)
    BitVec.ofNat 8 (fld w.toNat (8 * (i % 4)) 8)

/-- The bytes of a dump of a halted partition (20 R437). The header's items stand in the order in which the rule lists them (log 78). -/
def dumpBytes (s : State) (t : Nat × Nat × Nat) : List Byte :=
  let gs := (allGangs s).filter fun g => g.live && g.key.die == t.1 && g.key.core == t.2.1 && g.key.part == t.2.2
  let rest := s.exited.filter fun g => g.key.die == t.1 && g.key.core == t.2.1 && g.key.part == t.2.2
  let kv := fun (g : Gang) => (((blockOf g.blk s).or (s.past.find? fun b => b.key == g.blk)).map (·.kv)).getD []
  let slot := fun (n : Nat) => gs.find? fun g => g.key.slot == n
  let writes := pendingBytes s gs
  let w := fun (n : Nat) => leBytes 4 n
  let head := w 0x504D5544 ++ w 1 ++ leBytes 8 (partOf s t).haltAt ++ w ((vdsOf s s.gang.ctx.toNat).takeWhile (· != t.1)).length ++ w t.2.1 ++ w t.2.2 ++
    w (corestOf (focusCore t.1 t.2.1 s)) ++ w (maskOf fun n => (slot n).isSome).toNat ++ w (writes.length / 16)
  ((head ++ List.replicate 256 0).take 256) ++ ((List.range 8).flatMap fun n => slotBytes s (slot n)) ++
    ((writes ++ List.replicate 1024 0).take 1024) ++ List.replicate 6912 0 ++ (List.range 32768).map (poolByte (gs ++ rest) kv)

/-- DBG .dump (09 R228, 20 R437, 15 R349): its status comes first; then it moves ST as a store, and writes the dump as an engine does. A
destination that is not mapped for a store is a precise PAGE_NOT_PRESENT (log 72). It completes, status and all, when its last byte is
written. -/
def execDbgDump (d a b : SReg) (x : Guard) (s : State) : Host.Outcome State Fault Refusal :=
  runs (dbgReq x d b (pair a.toNat)) s fun m s =>
    let va := rdSS s a.toNat
    let keyAt := fun (i : Nat) => match xlateUnit s s.gang.ctx.toNat (va + BitVec.ofNat 64 i) .store with
      | .ok _ k => some k
      | _ => none
    if !debugOpen s then .trap 0x0B 0xDB 0
    else if m = 0 then .done s
    else match dbgTarget s (rdS s b.toNat) with
    | none => .done (wrS d.toNat 2 s)
    | some t =>
      if !(partOf s t).halted || (partOf s t).stepping then .done (wrS d.toNat 1 s)
      else if va.toNat % 4096 ≠ 0 then .trap 0x12 0 va
      else if (List.range 12).any fun i => (keyAt (4096 * i)).isNone then .trap 0x10 0 va
      else if full s .st then .stall s
      else if (List.range 12).any fun i => boundFrame s ((keyAt (4096 * i)).getD 0) then
        .done (modGang (fun g => { g with deliver := g.deliver ++ [⟨0x19, va, herePos s⟩] }) (wrS d.toNat 0 s))
      else
        let bs := dumpBytes s t
        let s := (List.range 12).foldl (fun s i => engineStore ((keyAt (4096 * i)).getD 0) ((bs.drop (4096 * i)).take 4096) s) { s with free := s.free + s.nextTag }
        let trip := ((List.range 12).map fun i => homeTrip s.gang.key.die (homeOfKey ((keyAt (4096 * i)).getD 0))).foldl max 8
        let (id, s) := newPend .st 1 [] false s
        let (res, s) := newPend .none 1 [.scal d.toNat 0] false s
        .done (later trip (.gang s.gang.key) (.resultWriteback s.gang.key res) (later trip (.gang s.gang.key) (.storeAccepted s.gang.key id) s))

end Sys2Proof.Machine
end

