-- ==== Sys2Proof/Machine/Control.lean ====
section
/-! DEFINITION. Meanings of the control instructions (15 R333 to R344), TRAP and TRET (09 R225, R227), WAIT (17 R376, R377)
and BAR (17 R379 to R381). -/

namespace Sys2Proof.Machine

/-- A word has the pattern of a clause header (04 R94). -/
def headerPattern (w : Nat) : Bool := fld w 4 4 == 15 && fld w 28 4 == 0

/-- A place that a control transfer names: a code position, and whether its offset lies within 0 to 2^20 − 1. -/
structure Target where
  pos : Word
  near : Bool
deriving DecidableEq, Repr

/-- The place `n` words from a header in its version (04 R89). -/
def relTarget (pc : Word) (n : Int) : Target :=
  let off : Int := (pc.toNat % 2 ^ 20 : Nat) + n
  ⟨BitVec.ofNat 32 (pc.toNat / 2 ^ 20 * 2 ^ 20 + (off % 2 ^ 20).toNat), decide (0 ≤ off) && decide (off < 2 ^ 20)⟩

/-- A word offset in a version. -/
def verTarget (v t : Nat) : Target := ⟨BitVec.ofNat 32 (v % 4096 * 2 ^ 20 + t % 2 ^ 20), decide (t < 2 ^ 20)⟩

/-- A version is held by the launch of the gang in focus (15 R347). -/
def holdsVer (s : State) (v : Nat) : Bool := ((ownLaunch s).map fun l => l.vers.contains v).getD false

/-- Why a target fails its test, as TRAPINFO[1:0] says (15 R334). -/
def badTarget (s : State) (t : Target) : Option Nat :=
  if !holdsVer s (t.pos.toNat / 2 ^ 20) then some 3
  else match verOf s s.gang.ctx.toNat (t.pos.toNat / 2 ^ 20) with
  | none => some 3
  | some v =>
    if !t.near ∨ v.words ≤ t.pos.toNat % 2 ^ 20 then some 1
    else match fetchWord s s.gang.ctx.toNat t.pos with
    | none => some 1
    | some w => if headerPattern w then none else some 0

/-- TARGET_NOT_HEADER for the first of some targets that fails (15 R334). -/
def targetTrap (s : State) (ts : List Target) : Option Eff :=
  ts.findSome? fun t => (badTarget s t).map fun r => .trap 0x07 (BitVec.ofNat 32 r) (t.pos.zeroExtend 64)

/-- The execution-mask lanes of slice `k`. -/
def laneSet (m : Word) (k : Nat) : Word := m &&& sliceLanes (sliceSet (· == k))

/-- The unended slices of the issuing fragment. -/
def fragSlices (s : State) : List Nat := (slicesOf s.frag).filter fun k => decide ((entryOf s.gang k).st ≠ .ended)

/-- The header after the clause that an instruction of `n` words ends. -/
def fallThrough (s : State) (n : Nat) : Word := nextHeader s n

/-- How a fragment whose slices come to different places leaves its entries (15 R333): the RPC they take, if it changes; they reach
their headers `n` clk from now (15 R345). -/
def moveSlices (n : Nat) (next : Nat → Word) (rpc : Option Word) (s : State) : State :=
  let ks := fragSlices s
  let same := ks.all fun k => next k == next (ks.headD 0)
  ks.foldl (fun s k =>
    let upd := fun (e : SplitEntry) =>
      let e := if same then e else { e with fu := false, rpc := rpc.getD e.rpc }
      e.goTo (next k) (s.clk + n)
    modSplit (sliceSet (· == k)) upd s) s

/-- A direct transfer of the slices that take it (15 R333, R334, R336). -/
def goDirect (words : Nat) (t : Target) (takes : Nat → Bool) (also : List Target) (rpc : Option Word) (link : State → State) (s : State) : Eff :=
  let takers := (fragSlices s).filter takes
  match targetTrap s ((if takers.isEmpty then [] else [t]) ++ also) with
  | some e => e
  | none => .moved true (moveSlices Config.branchTime (fun k => if takes k then t.pos else fallThrough s words) rpc (link s))

/-- A slice with a lane in the execution mask. -/
def hasLanes (m : Word) (k : Nat) : Bool := laneSet m k != 0

/-- BR (15 R336). -/
def execBr (i : BitVec 16) (s : State) : Host.Outcome State Fault Refusal :=
  runs (req1 0xC0) s fun m s => goDirect 1 (relTarget (cur s).pc i.toInt) (hasLanes m) [] none id s

/-- BRC (15 R336, 02 R32). -/
def execBrc (c : PReg) (n : Bool) (mode : BrMode) (rv : Bool) (rcv : BitVec 16) (tgt : BitVec 32) (s : State) : Host.Outcome State Fault Refusal :=
  runs { reqL 0xC1 with pr := [c.toNat] } s fun m s =>
    let cond := if n then ~~~rdP s c.toNat else rdP s c.toNat
    let on := fun k => laneSet m k &&& cond
    let takes := fun k => hasLanes m k && (match mode with
      | .any => on k != 0
      | .all => on k == laneSet m k
      | .uni => on k == laneSet m k)
    let split := sliceSet fun k => mode == .uni && s.frag.getLsbD k && on k != 0 && on k != laneSet m k
    let recon := relTarget (cur s).pc rcv.toInt
    if split ≠ 0 then .trap 0x08 (split.zeroExtend 32) 0
    else goDirect 2 (relTarget (cur s).pc tgt.toInt) takes (if rv then [recon] else []) (some (if rv then recon.pos else noPos)) id s

/-- Write the link of a call in V0 (15 R337). -/
def writeLink (m : Word) (ret : Word) (s : State) : State := wrV 0 m (fun _ => ret) s

/-- CALL (15 R337). -/
def execCall (i : BitVec 16) (s : State) : Host.Outcome State Fault Refusal :=
  runs { req1 0xC2 with vw := [0] } s fun m s =>
    let ret := fallThrough s 1
    goDirect 1 (relTarget (cur s).pc i.toInt) (hasLanes m) [] (some ret) (writeLink m ret) s

/-- CALLT (15 R338): its slices reach their headers 3 clk after the entry arrives (15 R345). -/
def execCallt (i : BitVec 16) (s : State) : Host.Outcome State Fault Refusal :=
  runs { req1 0xC3 with vw := [0] } s fun m s =>
    let ret := fallThrough s 1
    let bad := fun (r : Nat) (a : DWord) => Eff.trap 0x07 (BitVec.ofNat 32 r) a
    if m = 0 then .moved true (moveSlices Config.branchTime (fun _ => ret) none s)
    else match verOf s s.gang.ctx.toNat ((cur s).pc.toNat / 2 ^ 20) with
    | none => bad 2 0
    | some e =>
      if e.ltn ≤ i.toNat then bad 2 0
      else
      let lat := spanLatency s (e.ltab + BitVec.ofNat 64 (16 * i.toNat)) 8
      wholeBy 0xC3 0 (e.ltab + BitVec.ofNat 64 (16 * i.toNat)) 8 (fun bs s =>
        let w := leNat bs
        let dem := if fld w 44 4 = 0 then 16 else fld w 44 4
        let v := fld w 32 12
        let t := verTarget v (fld w 0 32)
        let held := (ownLaunch s).map (·.vers) |>.getD []
        let pub := (verOf s s.gang.ctx.toNat v).any fun x => x.state == 2
        if !natb (w / 2 ^ 63) then bad 2 (t.pos.zeroExtend 64)
        else if s.gang.regs < dem then .trap 0x0A (BitVec.ofNat 32 dem) 0
        else if !held.contains v ∧ (!pub ∨ 16 ≤ held.length) then bad 3 (t.pos.zeroExtend 64)
        else
          let s' := if held.contains v then s else modLaunch s.gang.blk.name (fun l => { l with vers := l.vers ++ [v] }) s
          match badTarget s' t with
          | some r => bad r (t.pos.zeroExtend 64)
          | none => .moved true (moveSlices (lat + Config.branchTime) (fun k => if hasLanes m k then t.pos else ret) (some ret) (writeLink m ret s'))) s

/-- An indirect transfer (15 R333, R339, R340): `place` reads the target in a value of Va. -/
def goIndirect (a : VReg) (m : Word) (place : Word → Target) (rpc : Option Word) (link : State → State) (s : State) : Eff :=
  let takers := (fragSlices s).filter (hasLanes m)
  let vals := fun k => (lanesOf (laneSet m k)).map fun l => rdV s a.toNat l
  let split := sliceSet fun k => takers.contains k && (vals k).any fun v => v != (vals k).headD 0
  let t := fun k => place ((vals k).headD 0)
  if split ≠ 0 then .trap 0x08 (split.zeroExtend 32) 0
  else match targetTrap s (takers.map t) with
  | some e => e
  | none => .moved true (moveSlices Config.branchTime (fun k => if hasLanes m k then (t k).pos else fallThrough s 1) rpc (link s))

/-- The target in a register of CALLI and JMPI (15 R339). -/
def indirectPlace (s : State) (xv : Bool) (v : Word) : Target :=
  if xv then ⟨v, true⟩ else verTarget ((cur s).pc.toNat / 2 ^ 20) (v.toNat % 2 ^ 20)

/-- CALLI (15 R339). -/
def execCalli (a : VReg) (xv : Bool) (s : State) : Host.Outcome State Fault Refusal :=
  runs { req1 0xC4 with vr := [a.toNat], vw := [0] } s fun m s =>
    let ret := fallThrough s 1
    goIndirect a m (indirectPlace s xv) (some ret) (writeLink m ret) s

/-- RET (15 R340). -/
def execRet (a : VReg) (s : State) : Host.Outcome State Fault Refusal :=
  runs { req1 0xC5 with vr := [a.toNat] } s fun m s => goIndirect a m (fun v => ⟨v, true⟩) none id s

/-- JMPI (15 R340). -/
def execJmpi (a : VReg) (xv : Bool) (s : State) : Host.Outcome State Fault Refusal :=
  runs { req1 0xC6 with vr := [a.toNat] } s fun m s => goIndirect a m (indirectPlace s xv) none id s

/-- Every slice of a set has ended, belongs to the issuing fragment, or waits at this instruction with the same set
(02 R36). -/
def gathered (s : State) (rgm : BitVec 8) : Bool :=
  (List.range s.gang.slices).all fun k =>
    let e := entryOf s.gang k
    !rgm.getLsbD k || s.frag.getLsbD k || decide (e.st = .ended) || (decide (e.st = .regang) && e.rgm == rgm && e.pc == (cur s).pc)

/-- Bring the unended slices of a set together in the issuing fragment, fused (02 R36). -/
def gather (rgm : BitVec 8) (s : State) : State :=
  let at' := cur s
  let fr := sliceSet fun k => (rgm.getLsbD k || s.frag.getLsbD k) && decide ((entryOf s.gang k).st ≠ .ended)
  { modSplit fr (fun e => { at' with fu := true, rpc := noPos, st := .ready, rgm := 0, wait := .none, sic := e.sic }) s with frag := fr }

/-- Wait at REGANG or IDEM for the slices of a set (02 R36, 15 R341). -/
def waitRegang (rgm : BitVec 8) (s : State) : Eff :=
  .wait .regang (modSplit s.frag (fun e => { e with st := .regang, rgm := rgm }) s)

/-- REGANG (15 R341). -/
def execRegang (m : BitVec 8) (x : Guard) (s : State) : Host.Outcome State Fault Refusal :=
  runs (reqX 0xC7 x) s fun _ s =>
    let rgm := m ||| s.frag
    if gathered s rgm then
      let s := gather rgm s
      .moved true (moveSlices Config.branchTime (fun _ => fallThrough s 2) none s)
    else waitRegang rgm s

/-- The pin of the gang in focus ends; a flush of its block that waits for the end of the pin takes place in this clk
(02 R57). -/
def unpin (s : State) : State :=
  let s := modGang (fun g => { g with pinned := false }) s
  if s.block.flushReq ∧ !anyPinned s s.gang.blk.name s.gang.blk.idx then later 0 (.block s.gang.blk) .pinEndFlush s else s

/-- IDEM (15 R344, 02 R56, 13 R304). -/
def execIdem (a : SReg) (s : State) : Host.Outcome State Fault Refusal :=
  runs { req1 0xCB with sr := [a.toNat] } s fun _ s =>
    let rgm := sliceSet fun k => decide (k < s.gang.slices)
    if inTxn s then illegalUse
    else if !gathered s rgm then waitRegang rgm s
    else if !muckRoom s 1 then .stall s
    else
      let s := gather rgm s
      let pc := fallThrough s 1
      let arg := rdS s a.toNat
      let k := s.gang.key
      let s := holdResume 0 (leBytes 4 pc.toNat ++ leBytes 4 arg.toNat ++ leBytes 4 s.gang.active.toNat ++ leBytes 4 s.gang.dead.toNat) (some s.gang.pinned) s
      let s := modGang (fun g => { g with resumePc := pc, resumeArg := arg }) s
      let s := modCore (fun c => { c with taskq := c.taskq.filter fun t => (t.prov.map (·.1)) != some k }) s
      let s := modBlock (fun b => { b with rolled := b.rolled &&& ~~~(maskOf fun l => l == s.gang.gno) }) s
      let s := moveSlices Config.branchTime (fun _ => pc) none s
      .moved false (unpin (modSplit s.frag (fun e => { e with sic := 0 }) s))

/-- TRAP (09 R225). -/
def execTrap (i : BitVec 16) (s : State) : Host.Outcome State Fault Refusal :=
  runs (req1 0xCC) s fun m s =>
    if m = 0 then .done s else .moved true (takeTrapAt 0x54 (i.zeroExtend 32) 0 (fallThrough s 1) s)

/-- TRET (09 R227): it finds in TRAPPC every CSRW that the gang issued earlier, as a CSRR does (09 R215, log 84). -/
def execTret (s : State) : Host.Outcome State Fault Refusal :=
  runs (req1 0xCD) s fun _ s =>
    let s := modGang (fun g => { g with trappc := (csrSeen s 0x082).truncate 32 }) s
    match s.gang.frame with
    | none => illegalUse
    | some f =>
      if s.gang.trappc == f.trappc then .moved true (returnTrap s)
      else match badTarget s ⟨s.gang.trappc, true⟩ with
      | some r => .trap 0x07 (BitVec.ofNat 32 r) (s.gang.trappc.zeroExtend 64)
      | none => .moved true (returnTrap s)

/-- A gang of a redundant launch whose last slice an instruction ends stands at a release point of kind 9 (15 R342,
19 R413); else the instruction goes on. -/
def endingPoint (ends : Bool) (s : State) (k : State → Eff) : Eff :=
  if ends then releasePoint 9 [] s fun _ s => k s else k s

/-- EXIT (15 R342); in a trap handler it ends the gang (09 R227). -/
def execExit (s : State) : Host.Outcome State Fault Refusal :=
  runs (req1 0xC8) s fun m s =>
    let mine := sliceSet fun k => s.frag.getLsbD k && hasLanes m k
    let gone := if s.gang.frame.isSome ∧ mine ≠ 0 then sliceSet fun k => decide (k < s.gang.slices) else mine
    let all := (List.range s.gang.slices).all fun k => decide ((entryOf s.gang k).st = .ended) || gone.getLsbD k
    endingPoint all s fun s =>
      let pc := fallThrough s 1
      let s := modSplit gone (fun e => { e with st := .ended, rgm := 0, wait := .none }) s
      .moved true (releaseRegang (moveSlices 0 (fun _ => pc) none s))

/-- LEXIT (15 R342). -/
def execLexit (s : State) : Host.Outcome State Fault Refusal :=
  runs (req1 0xC9) s fun m s =>
    let left := s.gang.active &&& ~~~m
    let all := (List.range s.gang.slices).all fun k => decide ((entryOf s.gang k).st = .ended) || laneSet (left &&& ~~~s.gang.dead) k == 0
    endingPoint all s fun s => .done (askLeave (endDead (modGang (fun g => { g with active := left }) s)))

/-- YIELD (15 R343). -/
def execYield (s : State) : Host.Outcome State Fault Refusal :=
  runs (req1 0xCA) s fun _ s =>
    .done (modCore (fun c => { c with parts := modNth c.parts s.gang.key.part fun p =>
      { p with skip := some (s.gang.key.slot, lowSlice s.frag, s.clk + 1) } }) s)

/-- WAIT (17 R377): it takes its issue, and passes by itself once its condition holds; with an ST threshold below 63 it is a release point of a redundant gang (12 R289, 19 R413). -/
def execWait (tLd tSt tCp tTl : BitVec 6) (s : State) : Host.Outcome State Fault Refusal :=
  runs (reqL 0xCE) s fun m s =>
    let go := fun (s : State) =>
      if countersAt s.gang tLd.toNat tSt.toNat tCp.toNat tTl.toNat then Eff.done s
      else .hold (.counters tLd.toNat tSt.toNat tCp.toNat tTl.toNat) s
    if (cur s).stands then .stall s
    else if m = 0 then .done s
    else if folding s ∧ tSt.toNat < 63 then releasePoint 8 [] s fun _ s => go s
    else go s

/-- A phase of a barrier completes (17 R380). -/
def Barrier.complete (b : Barrier) (clk : Nat) : Barrier := ⟨b.ph + 1, 0, 0, 0, b.curm, b.dec + b.pend, 0, clk⟩

/-- The effective count of the current phase (17 R378). -/
def Barrier.need (b : Barrier) : Nat := b.cnt - b.dec

/-- Gang `g` arrives or not, at a barrier whose count is declared as `n` (17 R380). -/
def Barrier.arrive (b : Barrier) (g n : Nat) (counts : Bool) (clk : Nat) : Barrier :=
  let b := if b.cnt = 0 then { b with cnt := n } else b
  let b := if counts && !lane b.curm g then { b with curm := b.curm ||| maskOf (· == g), arr := b.arr + 1 } else b
  if b.need ≤ b.arr then b.complete clk else b

/-- A gang exits (17 R381). -/
def Barrier.leave (b : Barrier) (g clk : Nat) : Barrier :=
  if lane b.curm g then { b with pend := b.pend + 1 }
  else if lane b.lastm g then
    let b := { b with dec := b.dec + 1 }
    if b.cnt ≠ 0 ∧ b.need ≤ b.arr then b.complete clk else b
  else b

/-- BAR (17 R379, R380): .wait and .sync take their issue, and pass by themselves once the phase has ended. -/
def execBar (d : BarReg) (a : SReg) (n : BitVec 8) (op : BarOp) (sreg : Bool) (x : Guard) (s : State) : Host.Outcome State Fault Refusal :=
  runs { reqX 0xCF x with sr := if sreg then [a.toNat] else [] } s fun m s =>
    let cnt := if sreg then (rdS s a.toNat).toNat % 64 else n.toNat
    let b := nth Barrier.reset s.block.bars d.toNat
    let total := ((ownLaunch s).map fun l => (blockGangs l).length).getD 1
    if (cur s).stands then .stall s
    else if m = 0 then .done s
    else if inTxn s then illegalUse
    else if cnt = 0 ∨ total < cnt then .trap 0x23 (BitVec.ofNat 32 cnt) 0
    else if b.cnt ≠ 0 ∧ b.cnt ≠ cnt then .trap 0x23 (BitVec.ofNat 32 b.cnt) 0
    else
      let go := fun (s : State) =>
        let b := nth Barrier.reset s.block.bars d.toNat
        let s' := modBlock (fun y => { y with bars := modNth y.bars d.toNat fun b => b.arrive s.gang.gno cnt (op != .wait) s.clk }) s
        let arr := if op = .wait then Arrival.none else if lane b.curm s.gang.gno then .again else .counted
        if op = .arrive then Eff.done s' else .hold (.bar d.toNat b.ph arr) s'
      if op = .wait then go s
      else releasePoint 4 [opRec 0xCF (subField (.bar d a n op sreg x)) 4 d.toNat (BitVec.ofNat 32 cnt)] s fun _ s => go s

end Sys2Proof.Machine
end

