-- ==== Sys2Proof/Machine/Integer.lean ====
section
/-! DEFINITION. Moves, lane arithmetic and logic, and comparisons (06 R130 to R141). -/

namespace Sys2Proof.Machine

/-- A shift left whose count of 32 or more gives 0 (06 R133). -/
def shlW (a : Word) (c : Nat) : Word := a <<< c
/-- A shift right whose count of 32 or more gives 0 (06 R133). -/
def shrW (a : Word) (c : Nat) : Word := a >>> c
/-- A shift right that fills with the sign (06 R133). -/
def sarW (a : Word) (c : Nat) : Word := a.sshiftRight c

/-- Rotation left by `c` mod 32 (06 R133). -/
def rotlW (a : Word) (c : Nat) : Word := (a <<< (c % 32)) ||| (a >>> (32 - c % 32))

/-- The number of set bits (00 R7). -/
def popcountW (a : Word) : Word := BitVec.ofNat 32 (lanesOf a).length

/-- Leading zeros of a word (00 R7). -/
def clzW (a : Word) : Word := BitVec.ofNat 32 (if a = 0 then 32 else 31 - a.toNat.log2)

/-- The word with its bits reversed (06 R133). -/
def brevW (a : Word) : Word := maskOf fun i => a.getLsbD (31 - i)

/-- Absolute value; the most negative word gives itself (06 R133). -/
def absW (a : Word) : Word := if a.getLsbD 31 then 0 - a else a

/-- Bits [63:32] of the exact product of two values (06 R136). -/
def mulHigh (a b : Int) : Word := BitVec.ofInt 32 (a * b / 2 ^ 32)

/-- The immediate of an I form, sign-extended (06 R134). -/
def immS (i : BitVec 8) : Word := i.signExtend 32
/-- The immediate of an I form, zero-extended (06 R134). -/
def immZ (i : BitVec 8) : Word := i.zeroExtend 32

/-- The low `n` bits of a word, sign-extended to 32 (06 R134). -/
def sxtW (a : Word) (n : Nat) : Word := BitVec.ofInt 32 (sextN a.toNat n)
/-- The low `n` bits of a word (06 R134). -/
def zxtW (a : Word) (n : Nat) : Word := BitVec.ofNat 32 (a.toNat % 2 ^ n)

/-- NOP (06 R130). -/
def execNop (s : State) : Host.Outcome State Fault Refusal := runs (req1 0x01) s fun _ s => .done s

/-- MOV (06 R130). -/
def execMov (d a : VReg) (s : State) : Host.Outcome State Fault Refusal :=
  laneOp (req1 0x02) [a.toNat] d.toNat (fun s l => rdV s a.toNat l) s

/-- MOVI (06 R130). -/
def execMovi (d : VReg) (i : BitVec 16) (s : State) : Host.Outcome State Fault Refusal :=
  laneOp (req1 0x03) [] d.toNat (fun _ _ => i.signExtend 32) s

/-- MOVH (06 R130): the low half of the destination stays. -/
def execMovh (d : VReg) (i : BitVec 16) (s : State) : Host.Outcome State Fault Refusal :=
  laneOp (req1 0x04) [d.toNat] d.toNat (fun s l => i ++ (rdV s d.toNat l).extractLsb' 0 16) s

/-- MOVL (06 R130). -/
def execMovl (d : VReg) (i : BitVec 32) (s : State) : Host.Outcome State Fault Refusal :=
  laneOp (reqL 0x05) [] d.toNat (fun _ _ => i) s

/-- BCAST (06 R130). -/
def execBcast (d : VReg) (a : SReg) (s : State) : Host.Outcome State Fault Refusal :=
  laneOp { req1 0x3B with sr := [a.toNat] } [] d.toNat (fun s _ => rdS s a.toNat) s

/-- VFROMP (06 R130). -/
def execVfromp (d : VReg) (a : PReg) (s : State) : Host.Outcome State Fault Refusal :=
  laneOp { req1 0x37 with pr := [a.toNat] } [] d.toNat (fun s l => if lane (rdP s a.toNat) l then 0xFFFFFFFF else 0) s

/-- What LID writes (06 R131). -/
def lidValue (s : State) (what : LidSel) (l : Nat) : Word :=
  match what with
  | .lane => BitVec.ofNat 32 l
  | .slice => BitVec.ofNat 32 (l / 4)
  | .gidlo => BitVec.ofNat 32 (globalLane s l)
  | .gidhi => BitVec.ofNat 32 (globalLane s l / 2 ^ 32)
  | .active => s.gang.active
  | .dead => s.gang.dead

/-- LID (06 R131). -/
def execLid (d : VReg) (what : LidSel) (s : State) : Host.Outcome State Fault Refusal :=
  laneOp (req1 0x74) [] d.toNat (fun s l => lidValue s what l) s

/-- ADD (06 R133). -/
def execAdd (d a b : VReg) (s : State) : Host.Outcome State Fault Refusal :=
  laneOp (req1 0x06) [a.toNat, b.toNat] d.toNat (fun s l => rdV s a.toNat l + rdV s b.toNat l) s

/-- ADDI (06 R134). -/
def execAddi (d a : VReg) (i : BitVec 8) (s : State) : Host.Outcome State Fault Refusal :=
  laneOp (req1 0x07) [a.toNat] d.toNat (fun s l => rdV s a.toNat l + immS i) s

/-- SUB (06 R133). -/
def execSub (d a b : VReg) (s : State) : Host.Outcome State Fault Refusal :=
  laneOp (req1 0x08) [a.toNat, b.toNat] d.toNat (fun s l => rdV s a.toNat l - rdV s b.toNat l) s

/-- NEG (06 R133). -/
def execNeg (d a : VReg) (s : State) : Host.Outcome State Fault Refusal :=
  laneOp (req1 0x09) [a.toNat] d.toNat (fun s l => 0 - rdV s a.toNat l) s

/-- MULLO (06 R133). -/
def execMullo (d a b : VReg) (s : State) : Host.Outcome State Fault Refusal :=
  laneOp (req1 0x0C) [a.toNat, b.toNat] d.toNat (fun s l => rdV s a.toNat l * rdV s b.toNat l) s

/-- ABS (06 R133). -/
def execAbs (d a : VReg) (s : State) : Host.Outcome State Fault Refusal :=
  laneOp (req1 0x10) [a.toNat] d.toNat (fun s l => absW (rdV s a.toNat l)) s

/-- AND (06 R133). -/
def execAnd (d a b : VReg) (s : State) : Host.Outcome State Fault Refusal :=
  laneOp (req1 0x13) [a.toNat, b.toNat] d.toNat (fun s l => rdV s a.toNat l &&& rdV s b.toNat l) s

/-- OR (06 R133). -/
def execOr (d a b : VReg) (s : State) : Host.Outcome State Fault Refusal :=
  laneOp (req1 0x14) [a.toNat, b.toNat] d.toNat (fun s l => rdV s a.toNat l ||| rdV s b.toNat l) s

/-- XOR (06 R133). -/
def execXor (d a b : VReg) (s : State) : Host.Outcome State Fault Refusal :=
  laneOp (req1 0x15) [a.toNat, b.toNat] d.toNat (fun s l => rdV s a.toNat l ^^^ rdV s b.toNat l) s

/-- ANDN (06 R133). -/
def execAndn (d a b : VReg) (s : State) : Host.Outcome State Fault Refusal :=
  laneOp (req1 0x16) [a.toNat, b.toNat] d.toNat (fun s l => rdV s a.toNat l &&& ~~~rdV s b.toNat l) s

/-- ANDI (06 R134). -/
def execAndi (d a : VReg) (i : BitVec 8) (s : State) : Host.Outcome State Fault Refusal :=
  laneOp (req1 0x17) [a.toNat] d.toNat (fun s l => rdV s a.toNat l &&& immZ i) s

/-- ORI (06 R134). -/
def execOri (d a : VReg) (i : BitVec 8) (s : State) : Host.Outcome State Fault Refusal :=
  laneOp (req1 0x18) [a.toNat] d.toNat (fun s l => rdV s a.toNat l ||| immZ i) s

/-- XORI (06 R134). -/
def execXori (d a : VReg) (i : BitVec 8) (s : State) : Host.Outcome State Fault Refusal :=
  laneOp (req1 0x19) [a.toNat] d.toNat (fun s l => rdV s a.toNat l ^^^ immZ i) s

/-- SHL (06 R133). -/
def execShl (d a b : VReg) (s : State) : Host.Outcome State Fault Refusal :=
  laneOp (req1 0x1A) [a.toNat, b.toNat] d.toNat (fun s l => shlW (rdV s a.toNat l) (rdV s b.toNat l).toNat) s

/-- SHR (06 R133). -/
def execShr (d a b : VReg) (s : State) : Host.Outcome State Fault Refusal :=
  laneOp (req1 0x1B) [a.toNat, b.toNat] d.toNat (fun s l => shrW (rdV s a.toNat l) (rdV s b.toNat l).toNat) s

/-- SAR (06 R133). -/
def execSar (d a b : VReg) (s : State) : Host.Outcome State Fault Refusal :=
  laneOp (req1 0x1C) [a.toNat, b.toNat] d.toNat (fun s l => sarW (rdV s a.toNat l) (rdV s b.toNat l).toNat) s

/-- SHLI (06 R134). -/
def execShli (d a : VReg) (i : BitVec 8) (s : State) : Host.Outcome State Fault Refusal :=
  laneOp (req1 0x1D) [a.toNat] d.toNat (fun s l => shlW (rdV s a.toNat l) i.toNat) s

/-- SHRI (06 R134). -/
def execShri (d a : VReg) (i : BitVec 8) (s : State) : Host.Outcome State Fault Refusal :=
  laneOp (req1 0x1E) [a.toNat] d.toNat (fun s l => shrW (rdV s a.toNat l) i.toNat) s

/-- SARI (06 R134). -/
def execSari (d a : VReg) (i : BitVec 8) (s : State) : Host.Outcome State Fault Refusal :=
  laneOp (req1 0x1F) [a.toNat] d.toNat (fun s l => sarW (rdV s a.toNat l) i.toNat) s

/-- ROTL (06 R133). -/
def execRotl (d a b : VReg) (s : State) : Host.Outcome State Fault Refusal :=
  laneOp (req1 0x20) [a.toNat, b.toNat] d.toNat (fun s l => rotlW (rdV s a.toNat l) (rdV s b.toNat l).toNat) s

/-- POPC (06 R133). -/
def execPopc (d a : VReg) (s : State) : Host.Outcome State Fault Refusal :=
  laneOp (req1 0x21) [a.toNat] d.toNat (fun s l => popcountW (rdV s a.toNat l)) s

/-- CLZ (06 R133). -/
def execClz (d a : VReg) (s : State) : Host.Outcome State Fault Refusal :=
  laneOp (req1 0x22) [a.toNat] d.toNat (fun s l => clzW (rdV s a.toNat l)) s

/-- BREV (06 R133). -/
def execBrev (d a : VReg) (s : State) : Host.Outcome State Fault Refusal :=
  laneOp (req1 0x23) [a.toNat] d.toNat (fun s l => brevW (rdV s a.toNat l)) s

/-- SXT (06 R134). -/
def execSxt (d a : VReg) (n : BitVec 8) (s : State) : Host.Outcome State Fault Refusal :=
  laneOp (req1 0x2C) [a.toNat] d.toNat (fun s l => sxtW (rdV s a.toNat l) n.toNat) s

/-- ZXT (06 R134). -/
def execZxt (d a : VReg) (n : BitVec 8) (s : State) : Host.Outcome State Fault Refusal :=
  laneOp (req1 0x2D) [a.toNat] d.toNat (fun s l => zxtW (rdV s a.toNat l) n.toNat) s

/-- An operation clamped to the range of the element type (06 R135). -/
def satMap (ty : PackTy) (f : Int → Int → Int) : Word → Word → Word :=
  packedMap ty fun a b => clampTo (packShape ty).1 (packShape ty).2 (f a b)

/-- ADDSAT (06 R135). -/
def execAddsat (d a b : VReg) (ty : PackTy) (x : Guard) (s : State) : Host.Outcome State Fault Refusal :=
  laneOp (reqX 0x0A x) [a.toNat, b.toNat] d.toNat (fun s l => satMap ty (· + ·) (rdV s a.toNat l) (rdV s b.toNat l)) s

/-- SUBSAT (06 R135). -/
def execSubsat (d a b : VReg) (ty : PackTy) (x : Guard) (s : State) : Host.Outcome State Fault Refusal :=
  laneOp (reqX 0x0B x) [a.toNat, b.toNat] d.toNat (fun s l => satMap ty (· - ·) (rdV s a.toNat l) (rdV s b.toNat l)) s

/-- MIN (06 R135). -/
def execMin (d a b : VReg) (ty : PackTy) (x : Guard) (s : State) : Host.Outcome State Fault Refusal :=
  laneOp (reqX 0x11 x) [a.toNat, b.toNat] d.toNat
    (fun s l => packedMap ty (fun a b => if b < a then b else a) (rdV s a.toNat l) (rdV s b.toNat l)) s

/-- MAX (06 R135). -/
def execMax (d a b : VReg) (ty : PackTy) (x : Guard) (s : State) : Host.Outcome State Fault Refusal :=
  laneOp (reqX 0x12 x) [a.toNat, b.toNat] d.toNat
    (fun s l => packedMap ty (fun a b => if a < b then b else a) (rdV s a.toNat l) (rdV s b.toNat l)) s

/-- MULHI (06 R136). -/
def execMulhi (d a b : VReg) (ty : MulTy) (x : Guard) (s : State) : Host.Outcome State Fault Refusal :=
  laneOp (reqX 0x0D x) [a.toNat, b.toNat] d.toNat (fun s l =>
    let va := rdV s a.toNat l
    let vb := rdV s b.toNat l
    match ty with
    | .i32 => mulHigh (sgn va) (sgn vb)
    | .ui32 => mulHigh va.toNat vb.toNat
    | .mix32 => mulHigh (sgn va) vb.toNat) s

/-- MAD (06 R136). -/
def execMad (d a b c : VReg) (sat : Bool) (ty : Sgn) (x : Guard) (s : State) : Host.Outcome State Fault Refusal :=
  laneOp (reqX 0x0E x) [a.toNat, b.toNat, c.toNat] d.toNat (fun s l =>
    let p := valOf ty (rdV s a.toNat l) * valOf ty (rdV s b.toNat l) + valOf ty (rdV s c.toNat l)
    BitVec.ofInt 32 (if sat then clampTo 32 (ty == .i32) p else p)) s

/-- MADW (06 R136). -/
def execMadw (d a b c : VReg) (ty : Sgn) (x : Guard) (s : State) : Host.Outcome State Fault Refusal :=
  lanePairOp (reqX 0x0F x) ([a.toNat, b.toNat] ++ pair c.toNat) d.toNat (fun s l =>
    BitVec.ofInt 64 (valOf ty (rdV s a.toNat l) * valOf ty (rdV s b.toNat l) + ((rdVV s c.toNat l).toNat : Int))) s

/-- IDIV (06 R137). -/
def execIdiv (d a b : VReg) (ty : Sgn) (x : Guard) (s : State) : Host.Outcome State Fault Refusal :=
  laneOp (reqX 0x2A x) [a.toNat, b.toNat] d.toNat (fun s l => (divRem (ty == .i32) (rdV s a.toNat l) (rdV s b.toNat l)).1) s

/-- IREM (06 R137). -/
def execIrem (d a b : VReg) (ty : Sgn) (x : Guard) (s : State) : Host.Outcome State Fault Refusal :=
  laneOp (reqX 0x2B x) [a.toNat, b.toNat] d.toNat (fun s l => (divRem (ty == .i32) (rdV s a.toNat l) (rdV s b.toNat l)).2) s

/-- BFE (06 R138). -/
def execBfe (d a : VReg) (sx : Bool) (pos len : BitVec 8) (x : Guard) (s : State) : Host.Outcome State Fault Refusal :=
  laneOp (reqX 0x24 x) [a.toNat] d.toNat (fun s l =>
    let f := shrW (rdV s a.toNat l) pos.toNat
    if sx then sxtW f len.toNat else zxtW f len.toNat) s

/-- BFI (06 R138). -/
def execBfi (d a b : VReg) (pos len : BitVec 8) (x : Guard) (s : State) : Host.Outcome State Fault Refusal :=
  laneOp (reqX 0x25 x) [a.toNat, b.toNat] d.toNat (fun s l =>
    let m : Word := BitVec.ofNat 32 ((2 ^ len.toNat - 1) * 2 ^ pos.toNat)
    (rdV s a.toNat l &&& ~~~m) ||| (shlW (rdV s b.toNat l) pos.toNat &&& m)) s

/-- LEA (06 R139). -/
def execLea (d a b : VReg) (i : BitVec 8) (sh : BitVec 2) (x : Guard) (s : State) : Host.Outcome State Fault Refusal :=
  laneOp (reqX 0x26 x) [a.toNat, b.toNat] d.toNat (fun s l => rdV s a.toNat l + shlW (rdV s b.toNat l) sh.toNat + immS i) s

/-- SEL (06 R139). -/
def execSel (d a b : VReg) (c : PReg) (x : Guard) (s : State) : Host.Outcome State Fault Refusal :=
  laneOp { reqX 0x27 x with pr := [c.toNat] } [a.toNat, b.toNat] d.toNat
    (fun s l => if lane (rdP s c.toNat) l then rdV s a.toNat l else rdV s b.toNat l) s

/-- BPERM (06 R139). -/
def execBperm (d a b c : VReg) (x : Guard) (s : State) : Host.Outcome State Fault Refusal :=
  laneOp (reqX 0x2E x) [a.toNat, b.toNat, c.toNat] d.toNat (fun s l =>
    let src := (rdV s a.toNat l).toNat + (rdV s b.toNat l).toNat * 2 ^ 32
    packElems 8 fun i =>
      let y := elemOf (rdV s c.toNat l) 8 i
      if natb (y / 128) then 0 else fld src (8 * (y % 8)) 8) s

/-- ADD64 (06 R140). -/
def execAdd64 (d a b : VReg) (sub : Bool) (x : Guard) (s : State) : Host.Outcome State Fault Refusal :=
  lanePairOp (reqX 0x2F x) (pair a.toNat ++ pair b.toNat) d.toNat (fun s l =>
    if sub then rdVV s a.toNat l - rdVV s b.toNat l else rdVV s a.toNat l + rdVV s b.toNat l) s

/-- SHF (06 R140). -/
def execShf (d a b c : VReg) (right : Bool) (x : Guard) (s : State) : Host.Outcome State Fault Refusal :=
  laneOp (reqX 0x30 x) [a.toNat, b.toNat, c.toNat] d.toNat (fun s l =>
    let v : DWord := rdV s b.toNat l ++ rdV s a.toNat l
    let n := (rdV s c.toNat l).toNat % 64
    if right then (v >>> n).extractLsb' 0 32 else (v <<< n).extractLsb' 32 32) s

/-- CMP (06 R141). -/
def execCmp (d : PReg) (a b : VReg) (c : PReg) (ty : Sgn) (cond : CmpCond) (comb : Comb) (x : Guard) (s : State) :
    Host.Outcome State Fault Refusal :=
  runs { reqX 0x28 x with vr := [a.toNat, b.toNat], pr := [c.toNat], pw := [d.toNat] } s fun m s =>
    let t := maskOf fun l => condHolds cond (valOf ty (rdV s a.toNat l)) (valOf ty (rdV s b.toNat l))
    .done (wrP d.toNat m (combine comb t (rdP s c.toNat)) s)

/-- CMPI (06 R141): the immediate is extended as the type says. -/
def execCmpi (d : PReg) (a : VReg) (i : BitVec 8) (c : PReg) (ty : Sgn) (cond : CmpCond) (comb : Comb) (x : Guard) (s : State) :
    Host.Outcome State Fault Refusal :=
  runs { reqX 0x29 x with vr := [a.toNat], pr := [c.toNat], pw := [d.toNat] } s fun m s =>
    let v := if ty = .i32 then immS i else immZ i
    let t := maskOf fun l => condHolds cond (valOf ty (rdV s a.toNat l)) (valOf ty v)
    .done (wrP d.toNat m (combine comb t (rdP s c.toNat)) s)

end Sys2Proof.Machine
end

