-- ==== Sys2Proof/Machine/CrossLane.lean ====
section
/-! DEFINITION. Predicates, scalar instructions and cross-lane instructions (06 R132, R142 to R154). -/

namespace Sys2Proof.Machine

/-- The lane number that RDLANE and WRLANE take (06 R132). -/
def laneSel (s : State) (b : SReg) (n : BitVec 8) (reg : Bool) : Nat := if reg then (rdS s b.toNat).toNat % 32 else n.toNat

/-- What RDLANE asks: it consumes one element of Va, that of the lane it names (06 R132, 02 R40). -/
def rdlaneReq (d : SReg) (a : VReg) (b : SReg) (n : BitVec 8) (reg : Bool) (x : Guard) : Req :=
  { reqX 0x3C x with vr := [a.toNat], sr := if reg then [b.toNat] else [], sw := [d.toNat]
                     picks := some fun s m => if m = 0 then [] else [(a.toNat, laneSel s b n reg)] }

/-- RDLANE (06 R132). -/
def execRdlane (d : SReg) (a : VReg) (b : SReg) (n : BitVec 8) (reg : Bool) (x : Guard) (s : State) : Host.Outcome State Fault Refusal :=
  runs (rdlaneReq d a b n reg x) s fun m s =>
    let l := laneSel s b n reg
    .done (if m = 0 then s
      else if !hasLane s.gang l then wrS d.toNat 0 s
      else if lane s.gang.dead l then setXldead true (wrS d.toNat 0 s)
      else wrS d.toNat (rdV s a.toNat l) s)

/-- WRLANE (06 R132). -/
def execWrlane (d : VReg) (a b : SReg) (n : BitVec 8) (reg : Bool) (x : Guard) (s : State) : Host.Outcome State Fault Refusal :=
  runs { reqX 0x3D x with vw := [d.toNat], sr := a.toNat :: if reg then [b.toNat] else [] } s fun m s =>
    let l := laneSel s b n reg
    .done (wrV d.toNat (m &&& maskOf (· == l)) (fun _ => rdS s a.toNat) s)

/-- PAND (06 R142). -/
def execPand (d a b : PReg) (s : State) : Host.Outcome State Fault Refusal :=
  predOp (req1 0x32) [] [a.toNat, b.toNat] d.toNat (fun s l => lane (rdP s a.toNat &&& rdP s b.toNat) l) s

/-- POR (06 R142). -/
def execPor (d a b : PReg) (s : State) : Host.Outcome State Fault Refusal :=
  predOp (req1 0x33) [] [a.toNat, b.toNat] d.toNat (fun s l => lane (rdP s a.toNat ||| rdP s b.toNat) l) s

/-- PXOR (06 R142). -/
def execPxor (d a b : PReg) (s : State) : Host.Outcome State Fault Refusal :=
  predOp (req1 0x34) [] [a.toNat, b.toNat] d.toNat (fun s l => lane (rdP s a.toNat ^^^ rdP s b.toNat) l) s

/-- PNOT (06 R142). -/
def execPnot (d a : PReg) (s : State) : Host.Outcome State Fault Refusal :=
  predOp (req1 0x35) [] [a.toNat] d.toNat (fun s l => !lane (rdP s a.toNat) l) s

/-- PMOV (06 R142). -/
def execPmov (d a : PReg) (s : State) : Host.Outcome State Fault Refusal :=
  predOp (req1 0x36) [] [a.toNat] d.toNat (fun s l => lane (rdP s a.toNat) l) s

/-- ELECT (06 R143). -/
def execElect (d : PReg) (a : SReg) (ws : Bool) (s : State) : Host.Outcome State Fault Refusal :=
  runs { req1 0x3E with pw := [d.toNat], sw := if ws then [a.toNat] else [] } s fun m s =>
    .done (match lanesOf m with
      | [] => s
      | e :: _ =>
        let s := wrP d.toNat m (maskOf (· == e)) s
        if ws then wrS a.toNat (BitVec.ofNat 32 e) s else s)

/-- A 32-bit operation of SALU and SALUI (06 R144). -/
def saluW (op : SaluOp) (a b : Word) : Word :=
  match op with
  | .add => a + b
  | .sub => a - b
  | .mullo => a * b
  | .mulhiI => mulHigh (sgn a) (sgn b)
  | .mulhiU => mulHigh a.toNat b.toNat
  | .and => a &&& b
  | .or => a ||| b
  | .xor => a ^^^ b
  | .andn => a &&& ~~~b
  | .shl => shlW a b.toNat
  | .shr => shrW a b.toNat
  | .sar => sarW a b.toNat
  | .minI => if b.slt a then b else a
  | .maxI => if a.slt b then b else a
  | .minU => if b < a then b else a
  | .maxU => if a < b then b else a
  | .add64 => a + b
  | .sub64 => a - b
  | .mov => a
  | .popc => popcountW a
  | .clz => clzW a
  | .idivI => (divRem true a b).1
  | .idivU => (divRem false a b).1
  | .iremI => (divRem true a b).2
  | .iremU => (divRem false a b).2

/-- Latency of a scalar operation (06 R155). -/
def saluLat (op : SaluOp) : Nat :=
  match op with
  | .idivI => 20
  | .idivU => 20
  | .iremI => 20
  | .iremU => 20
  | _ => 2

/-- The scalars that SALU reads: .mov, .popc and .clz read A alone (06 R144). -/
def saluReads (op : SaluOp) (a b : SReg) : List Nat :=
  if op = .mov ∨ op = .popc ∨ op = .clz then [a.toNat] else [a.toNat, b.toNat]

/-- SALU (06 R144). -/
def execSalu (d a b : SReg) (op : SaluOp) (x : Guard) (s : State) : Host.Outcome State Fault Refusal :=
  match op with
  | .add64 => scalPairOp { reqX 0x38 x with sr := pair a.toNat ++ pair b.toNat } d.toNat (fun s => rdSS s a.toNat + rdSS s b.toNat) s
  | .sub64 => scalPairOp { reqX 0x38 x with sr := pair a.toNat ++ pair b.toNat } d.toNat (fun s => rdSS s a.toNat - rdSS s b.toNat) s
  | _ => scalOp { reqX 0x38 x with sr := saluReads op a b, lat := saluLat op } d.toNat (fun s => saluW op (rdS s a.toNat) (rdS s b.toNat)) s

/-- SALUI (06 R144): the second operand is IMM32, which is the result of .mov. -/
def execSalui (d a : SReg) (op : SaluOp) (i : BitVec 32) (s : State) : Host.Outcome State Fault Refusal :=
  match op with
  | .add64 => scalPairOp { reqL 0x39 with sr := pair a.toNat } d.toNat (fun s => rdSS s a.toNat + i.signExtend 64) s
  | .sub64 => scalPairOp { reqL 0x39 with sr := pair a.toNat } d.toNat (fun s => rdSS s a.toNat - i.signExtend 64) s
  | .mov => scalOp (reqL 0x39) d.toNat (fun _ => i) s
  | _ => scalOp { reqL 0x39 with sr := [a.toNat], lat := saluLat op } d.toNat (fun s => saluW op (rdS s a.toNat) i) s

/-- SMOVI (06 R145). -/
def execSmovi (d : SReg) (i : BitVec 16) (s : State) : Host.Outcome State Fault Refusal :=
  scalOp (req1 0x3A) d.toNat (fun _ => i.signExtend 32) s

/-- The two values that SCMP compares (06 R146). -/
def scmpVals (s : State) (ty : ScmpTy) (a b : Nat) : Int × Int :=
  match ty with
  | .i32 => (sgn (rdS s a), sgn (rdS s b))
  | .ui32 => ((rdS s a).toNat, (rdS s b).toNat)
  | .i64 => (sgn (rdSS s a), sgn (rdSS s b))
  | .ui64 => ((rdSS s a).toNat, (rdSS s b).toNat)

/-- SCMP (06 R146). -/
def execScmp (d : PReg) (a b : SReg) (c : PReg) (ty : ScmpTy) (cond : CmpCond) (comb : Comb) (x : Guard) (s : State) :
    Host.Outcome State Fault Refusal :=
  let wide := ty == .i64 || ty == .ui64
  runs { reqX 0x3F x with
      sr := if wide then pair a.toNat ++ pair b.toNat else [a.toNat, b.toNat], pr := [c.toNat], pw := [d.toNat] } s fun m s =>
    let v := scmpVals s ty a.toNat b.toNat
    let t : Word := if condHolds cond v.1 v.2 then 0xFFFFFFFF else 0
    .done (wrP d.toNat m (combine comb t (rdP s c.toNat)) s)

/-- The segment width of SHFL (06 R148). -/
def shflWidth : ShflW → Nat
  | .w32 => 32
  | .w16 => 16
  | .w8 => 8
  | .w4 => 4
  | .w2 => 2

/-- The lane that SHFL reads for lane `l` with a count (06 R148). -/
def shflSource (kind : ShflKind) (w k l : Nat) : Nat :=
  let base := l - l % w
  match kind with
  | .idx => base + k % w
  | .up => if base + k ≤ l then l - k else l
  | .down => if l + k < base + w then l + k else l
  | .xor => l ^^^ (k % w)

/-- The lane whose element of Va SHFL takes to lane `l` (06 R148). -/
def shflFrom (s : State) (b : VReg) (kind : ShflKind) (k : BitVec 5) (reg : Bool) (w : ShflW) (l : Nat) : Nat :=
  shflSource kind (shflWidth w) (if reg then (rdV s b.toNat l).toNat % 32 else k.toNat) l

/-- What SHFL asks: it consumes the counts in its mask's lanes and the elements of Va that those lanes take (06 R148, 02 R40). -/
def shflReq (d a b : VReg) (kind : ShflKind) (k : BitVec 5) (reg : Bool) (w : ShflW) (x : Guard) : Req :=
  { reqX 0x70 x with vr := a.toNat :: (if reg then [b.toNat] else []), vw := [d.toNat]
                     picks := some fun s m => (if reg then (lanesOf m).map fun l => (b.toNat, l) else []) ++
                       (lanesOf m).map fun l => (a.toNat, shflFrom s b kind k reg w l) }

/-- SHFL (06 R148). -/
def execShfl (d a b : VReg) (kind : ShflKind) (k : BitVec 5) (reg : Bool) (w : ShflW) (x : Guard) (s : State) :
    Host.Outcome State Fault Refusal :=
  runs (shflReq d a b kind k reg w x) s fun m s =>
    let src := shflFrom s b kind k reg w
    let val := fun l => if !hasLane s.gang (src l) || lane s.gang.dead (src l) then 0 else rdV s a.toNat (src l)
    let hit := (lanesOf m).any fun l => hasLane s.gang (src l) && lane s.gang.dead (src l)
    .done (setXldead hit (wrV d.toNat m val s))

/-- The result of VOTE over a mask of lanes (06 R149). -/
def voteResult (op : VoteOp) (m p : Word) : Bool :=
  match op with
  | .any => m &&& p != 0
  | .all => m &&& ~~~p == 0
  | .uni => m &&& p == 0 || m &&& ~~~p == 0
  | .ballot => false

/-- VOTE (06 R149). -/
def execVote (d : BitVec 6) (a : PReg) (op : VoteOp) (sc : Bool) (x : Guard) (s : State) : Host.Outcome State Fault Refusal :=
  let scal := sc || op == .ballot
  runs { reqX 0x71 x with pr := [a.toNat], sw := if scal then [d.toNat] else [], pw := if scal then [] else [d.toNat] } s fun m s =>
    let p := rdP s a.toNat
    .done (if m = 0 then s
      else if op = .ballot then wrS d.toNat (m &&& p) s
      else if sc then wrS d.toNat (if voteResult op m p then 1 else 0) s
      else wrP d.toNat m (if voteResult op m p then 0xFFFFFFFF else 0) s)

/-- The identity of an integer reduction or scan (06 R150, R153). -/
def scanIdentity : ScanOp → Word
  | .add => 0
  | .minI => 0x7FFFFFFF
  | .maxI => 0x80000000
  | .minU => 0xFFFFFFFF
  | .maxU => 0
  | .and => 0xFFFFFFFF
  | .or => 0
  | .xor => 0

/-- An integer reduction or scan step (06 R150, R153). -/
def scanStep (op : ScanOp) (a b : Word) : Word :=
  match op with
  | .add => a + b
  | .minI => if b.slt a then b else a
  | .maxI => if a.slt b then b else a
  | .minU => if b < a then b else a
  | .maxU => if a < b then b else a
  | .and => a &&& b
  | .or => a ||| b
  | .xor => a ^^^ b

/-- The lane and value that an index reduction picks: the first lane that nothing precedes (06 R152). -/
def bestLane (before : Word → Word → Bool) (v : Nat → Word) : List Nat → Option (Word × Nat)
  | [] => none
  | l :: t => some (t.foldl (fun b k => if before (v k) b.1 then (v k, k) else b) (v l, l))

/-- How REDX reduces (06 R150). -/
inductive RedKind where
  | int (op : ScanOp)
  | index (before : Word → Word → Bool)
  | float (op : FRed)

/-- The kind of a reduction (06 R150). -/
def redKind : RedOp → RedKind
  | .add => .int .add
  | .minI => .int .minI
  | .maxI => .int .maxI
  | .minU => .int .minU
  | .maxU => .int .maxU
  | .and => .int .and
  | .or => .int .or
  | .xor => .int .xor
  | .minidxI => .index fun a b => a.slt b
  | .maxidxI => .index fun a b => b.slt a
  | .minidxU => .index fun a b => decide (a < b)
  | .maxidxU => .index fun a b => decide (b < a)
  | .fadd => .float .add
  | .fmin => .float .min
  | .fmax => .float .max

/-- REDX (06 R150 to R152). -/
def execRedx (d a : VReg) (rnd : Rnd) (fi fo : Bool) (op : RedOp) (sc : Bool) (x : Guard) (s : State) :
    Host.Outcome State Fault Refusal :=
  let two : Bool := match redKind op with | .index _ => true | _ => false
  let ds := if two then pair d.toNat else [d.toNat]
  runs { reqX 0x72 x with vr := [a.toNat], vw := if sc then [] else ds, sw := if sc then ds else [], flags := match redKind op with | .float _ => true | _ => false } s fun m s =>
    let one := fun (v : Word) (s : State) => if sc then wrS d.toNat v s else wrV d.toNat m (fun _ => v) s
    .done (if m = 0 then s else match redKind op with
      | .int o => one ((lanesOf m).foldl (fun acc l => scanStep o acc (rdV s a.toNat l)) (scanIdentity o)) s
      | .index before =>
        match bestLane before (rdV s a.toNat) (lanesOf m) with
        | none => s
        | some (v, l) =>
          let s := one v s
          if sc then wrS (d.toNat + 1) (BitVec.ofNat 32 l) s else wrV (d.toNat + 1) m (fun _ => BitVec.ofNat 32 l) s
      | .float o =>
        let r := redTree o (fpRound s rnd 0 0) fi fo (fun l => if lane m l then some (rdV s a.toNat l) else none)
        one r.1 (orFlags [r.2] s))

/-- Prefix results over lanes in ascending order (06 R153). -/
def scanLanes (op : ScanOp) (ex : Bool) (v : Nat → Word) : Word → List Nat → List (Nat × Word)
  | _, [] => []
  | acc, l :: t =>
    let next := scanStep op acc (v l)
    (l, if ex then acc else next) :: scanLanes op ex v next t

/-- SCANX (06 R153). -/
def execScanx (d a : VReg) (op : ScanOp) (ex : Bool) (x : Guard) (s : State) : Host.Outcome State Fault Refusal :=
  runs { reqX 0x73 x with vr := [a.toNat], vw := [d.toNat] } s fun m s =>
    let rs := scanLanes op ex (rdV s a.toNat) (scanIdentity op) (lanesOf m)
    .done (wrV d.toNat m (fun l => ((rs.find? fun c => c.1 == l).map (·.2)).getD 0) s)

/-- MATCH (06 R154). -/
def execMatchLanes (d a : VReg) (b64 : Bool) (x : Guard) (s : State) : Host.Outcome State Fault Refusal :=
  runs { reqX 0x75 x with vr := if b64 then pair a.toNat else [a.toNat], vw := [d.toNat] } s fun m s =>
    let same := fun l k => if b64 then rdVV s a.toNat l == rdVV s a.toNat k else rdV s a.toNat l == rdV s a.toNat k
    .done (wrV d.toNat m (fun l => m &&& maskOf (same l)) s)

end Sys2Proof.Machine
end

