-- ==== Sys2Proof/Machine/Launch.lean ====
section
/-! DEFINITION. Meanings of LAUNCH and its variants (13 R296, R297, 18 R401), QPUSH and QPOP (13 R303, R304). -/

namespace Sys2Proof.Machine

/-- The gang may launch: it is above kernel level, or its own launch has LPRIV (13 R296). -/
def mayLaunch (s : State) : Bool := s.gang.level != .kernel || ((ownLaunch s).map (·.info.lpriv)).getD false

/-- The replicas of each team lie at least four hops apart (19 R407). -/
def replicasApart (dies : List Nat) (r : Nat) : Bool :=
  decide (r < 2) || (decide (dies.length % r = 0) && (List.range (dies.length / r)).all fun i =>
    let ds := (List.range r).map fun k => dieSite (nth 0 dies (k * (dies.length / r) + i))
    (List.range r).all fun j => (List.range r).all fun k => j == k || decide (4 ≤ meshDist (nth (0, 0) ds j) (nth (0, 0) ds k)))

/-- Copies in a launch queue of a die, those on their way to it included (13 R294). -/
def queueLoad (s : State) (d q : Nat) : Nat :=
  (nth [] (dieOf d s).queues q).length + (s.agenda.filter fun x => match x.ev with
    | .launchAppend e _ p => e == d && p == q
    | _ => false).length

/-- The status that LAUNCH gives a record (13 R297, 19 R407). -/
def launchStatus (s : State) (bs : List Byte) (c : Nat) (mask : DWord) (q : Nat) : Nat :=
  let r := launchRecOf bs
  let vds := vdsOf s c
  let named := (List.range 64).filter fun v => mask.getLsbD v
  let dies := named.map fun v => nth 0 vds v
  if recordBad bs then 1
  else if c = 0 then 5
  else if mask = 0 ∨ (named.any fun v => decide (vds.length ≤ v)) ∨ !replicasApart dies r.nrep then 2
  else if s.gang.level = .kernel ∧ (r.prologue ∨ r.lpriv) then 4
  else if dies.any fun d => decide (64 ≤ queueLoad s d (4 * r.prio + q)) then 3
  else 0

/-- A result that a system instruction writes to a scalar pair after `lat` clk, pending until then (05 R121). -/
def laterPair (d lat : Nat) (v : DWord) (s : State) : State :=
  let (id, s) := newPend .none 1 [.scal d (v.extractLsb' 0 32), .scal (d + 1) (v.extractLsb' 32 32)] false s
  later lat (.gang s.gang.key) (.resultWriteback s.gang.key id) s

/-- The effect of LAUNCH on a record as loaded (13 R297): the handle, the clk until it is readable, and the state in which the
copies are on their way. -/
def performLaunch (bs : List Byte) (va : DWord) (c : Nat) (mask : DWord) (q lat : Nat) (s : State) : DWord × Nat × State :=
  let st := launchStatus s bs c mask q
  if st ≠ 0 then (BitVec.ofNat 64 (st * 2 ^ 48), lat + 2, s)
  else
    let r := launchRecOf bs
    let serial := (ctxOf c s).serial
    let dies := ((List.range 64).filter fun v => mask.getLsbD v).map fun v => nth 0 (vdsOf s c) v
    let name := c * 2 ^ 48 + serial
    let l : Launch := ⟨name, BitVec.ofNat 16 c, mask, r, va, .queued, dies, [], [], List.replicate (dies.length / max r.nrep 1) 0, 0, false, [], false, 0, none, (0, 0), [], 0⟩
    let hops := fun (d : Nat) => Config.hop * meshDist (dieSite s.gang.key.die) (dieSite d)
    let s := modCtx c (fun x => { x with serial := serial + 1 }) { s with launches := s.launches ++ [l] }
    let s := (uniq dies).foldl (fun s d => later (lat + hops d) .none (.launchAppend d name (4 * r.prio + q)) s) s
    (BitVec.ofNat 64 serial, lat + 2 * ((dies.map hops).max?.getD 0) + 1, s)

/-- LAUNCH (13 R296, R297). -/
def execLaunch (d a b c : SReg) (q : BitVec 2) (cx : Bool) (x : Guard) (s : State) : Host.Outcome State Fault Refusal :=
  runs { reqX 0xBB x with
    level := if cx || !mayLaunch s then .supervisor else .kernel
    sr := pair a.toNat ++ pair b.toNat ++ (if cx then [c.toNat] else []), sw := pair d.toNat } s fun m s =>
    let va := rdSS s a.toNat
    let ctx := if cx then (rdS s c.toNat).toNat % 65536 else s.gang.ctx.toNat
    if m = 0 then .done s
    else if inTxn s then illegalUse
    else if va.toNat % 32 ≠ 0 then .trap 0x12 1 va
    else
      let sub := subField (.launch d a b c q cx x)
      let go := releasePoint 11 [opRec 0xBB sub 11 va.toNat (rdS s b.toNat), opRec 0xBB sub 11 va.toNat (rdS s (b.toNat + 1))] s
        fun performs s =>
          if performs then
            match wholeLoad va 288 s with
            | .stop e => e
            | .bytes bs s' =>
              let (h, lat, s') := performLaunch bs va ctx (rdSS s b.toNat) q.toNat (spanLatency s va 288) s'
              .done (pin (laterPair d.toNat lat h (forward lat [h.extractLsb' 0 32, h.extractLsb' 32 32] s')))
          else takeForward s fun vs s => .done (pin (wrS (d.toNat + 1) (nth 0 vs 1) (wrS d.toNat (nth 0 vs 0) s)))
      match s.gang.rel, wholeLoad va 288 s with
      | .none, .stop e => e
      | _, _ => go

/-- What a LAUNCH variant comes to (18 R401): its status, its count, the blocks it awaits, and the state. -/
structure VarRes where
  status : Nat
  n : Nat
  waits : List BlockKey
  state : State

/-- The launch that a variant names, unless it is unknown or complete (18 R401); a supervisor crew is no launch of LAUNCH. -/
def namedLaunch (s : State) (name : Nat) : Option Launch :=
  (launchOf name s).filter fun l => decide (l.st ≠ .complete) && l.crewOf.isNone

/-- The selector of .pre and .kill: the indices of the blocks it names, or nothing where it names blocks beyond the launch or
part of a class C or P launch (18 R401). -/
def selected (l : Launch) (first count : Nat) : Option (List Nat) :=
  let (f, n) := if count = 0 then (0, l.blocks) else (first, count)
  if l.blocks < f + n ∨ (l.info.cls ≠ .w ∧ n ≠ l.blocks) then none else some ((List.range n).map (f + ·))

/-- LAUNCH .pre (18 R401). -/
def variantPre (name first count : Nat) (s : State) : VarRes :=
  match namedLaunch s name with
  | none => ⟨1, 0, [], s⟩
  | some l => match selected l first count with
    | none => ⟨2, 0, [], s⟩
    | some ixs =>
      let (n, ks, s) := preemptAll ((ixs.filter (placedIndices s name).contains).map fun i => (name, i)) s
      ⟨0, n, ks, s⟩

/-- LAUNCH .kill (18 R401, R394). -/
def variantKill (name first count code : Nat) (s : State) : VarRes :=
  match namedLaunch s name with
  | none => ⟨1, 0, [], s⟩
  | some l => match selected l first count with
    | none => ⟨2, 0, [], s⟩
    | some ixs =>
      if !faultCodes.contains code then ⟨4, 0, [], s⟩
      else
        let bs := ((allBlocks s).filter fun b => b.key.name == name && ixs.contains b.key.idx && b.st != .ended).map fun b => (b.key, killRecord s b code 0)
        let new := ixs.filter fun i => !l.begun i
        let s := modLaunch name (fun l => { l with barred := l.barred ++ new }) s
        let s := bs.foldl (fun s b => killBlock b.1 b.2 false s) s
        let whole := decide (l.info.cls = .c) || new.length == l.blocks
        let s := if whole then mapDies (fun d => { d with queues := d.queues.map fun q => q.filter (· != name) }) s else s
        ⟨0, (uniq (bs.map (·.1.idx))).length, bs.map (·.1), later 1 .none (.launchCompletion name) s⟩

/-- LAUNCH .ctx (18 R401, R402). -/
def variantCtx (name : Nat) (s : State) : VarRes :=
  let c := name / 2 ^ 48
  if (ctxOf c s).suspended then ⟨3, 0, [], s⟩
  else
    let s := modCtx c (fun x => { x with suspended := true }) s
    let ls := s.launches.filter fun l => l.ctx.toNat == c && l.crewOf.isNone && decide (l.st ≠ .complete)
    let (n, ks, s) := preemptAll (ls.flatMap fun l => (placedIndices s l.name).map fun i => (l.name, i)) s
    ⟨0, n, ks, s⟩

/-- LAUNCH .res (18 R401, R402). -/
def variantRes (name : Nat) (s : State) : VarRes :=
  let c := name / 2 ^ 48
  if !(ctxOf c s).suspended then ⟨3, 0, [], s⟩
  else
    let s := modCtx c (fun x => { x with suspended := false }) s
    let dies := (allDies s).filter fun d => d.queues.any (!·.isEmpty)
    ⟨0, 0, [], ((allBlocks s).map (·.die) ++ dies.map (·.die) |> uniq).foldl (fun s d => later 1 .none (.admission d) s) s⟩

/-- A LAUNCH variant (18 R401): what it folds, its release point, and its result, which is pending for 8 clk and until what it
began has drained. -/
def variantEff (sub : Nat) (d a : SReg) (b : Option SReg) (f : State → VarRes) (m : Word) (s : State) : Eff :=
  if m = 0 then .done s
  else if inTxn s then illegalUse
  else
    let va := (rdSS s a.toNat).toNat
    let w := fun (i : Nat) => match b with
      | some r => rdS s (r.toNat + i)
      | none => 0
    releasePoint 11 [opRec 0xBB sub 11 va (w 0), opRec 0xBB sub 11 va (w 1)] s fun performs s =>
      if performs then
        let r := f s
        let s := r.state
        let (id, s) := newPend .none 1 [.scal d.toNat (BitVec.ofNat 32 r.status), .scal (d.toNat + 1) (BitVec.ofNat 32 r.n)] false s
        let awaits := r.waits.map fun k => (k.name, k.rep * 2 ^ 32 + k.idx)
        let s := modGang (fun g => { g with pend := g.pend.map fun p => if p.id = id then { p with flush := awaits, tells := true } else p }) s
        .done (pin (later 8 (.gang s.gang.key) (.resultWriteback s.gang.key id) s))
      else takeForward s fun vs s => .done (pin (wrS (d.toNat + 1) (nth 0 vs 1) (wrS d.toNat (nth 0 vs 0) s)))

/-- The launch name in a scalar pair (13 R477). -/
def nameIn (s : State) (a : SReg) : Nat := (rdSS s a.toNat).toNat

/-- LAUNCH .pre (18 R401). -/
def execLaunchPre (d a b : SReg) (x : Guard) (s : State) : Host.Outcome State Fault Refusal :=
  runs { reqX 0xBB x with level := .supervisor, sr := pair a.toNat ++ pair b.toNat, sw := pair d.toNat } s fun m s =>
    variantEff 4 d a (some b) (variantPre (nameIn s a) (rdS s b.toNat).toNat (rdS s (b.toNat + 1)).toNat) m s

/-- LAUNCH .kill (18 R401). -/
def execLaunchKill (d a b c : SReg) (x : Guard) (s : State) : Host.Outcome State Fault Refusal :=
  runs { reqX 0xBB x with level := .supervisor, sr := pair a.toNat ++ pair b.toNat ++ [c.toNat], sw := pair d.toNat } s fun m s =>
    variantEff 8 d a (some b) (variantKill (nameIn s a) (rdS s b.toNat).toNat (rdS s (b.toNat + 1)).toNat ((rdS s c.toNat).toNat % 256)) m s

/-- LAUNCH .ctx (18 R401). -/
def execLaunchCtx (d a : SReg) (x : Guard) (s : State) : Host.Outcome State Fault Refusal :=
  runs { reqX 0xBB x with level := .supervisor, sr := pair a.toNat, sw := pair d.toNat } s fun m s =>
    variantEff 12 d a none (variantCtx (nameIn s a)) m s

/-- LAUNCH .res (18 R401). -/
def execLaunchRes (d a : SReg) (x : Guard) (s : State) : Host.Outcome State Fault Refusal :=
  runs { reqX 0xBB x with level := .supervisor, sr := pair a.toNat, sw := pair d.toNat } s fun m s =>
    variantEff 16 d a none (variantRes (nameIn s a)) m s

/-- The die-local number of the gang's own launch (13 R302). -/
def ownLref (s : State) : Nat := lrefOf s s.gang

/-- QPUSH (13 R303). -/
def execQpush (d a b : SReg) (x : Guard) (s : State) : Host.Outcome State Fault Refusal :=
  runs { reqX 0xB9 x with sr := a.toNat :: pair b.toNat, sw := [d.toNat] } s fun m s =>
    if m = 0 then .done s
    else if inTxn s then illegalUse
    else
      let targ := rdSS s b.toNat
      releasePoint 12 [opRec 0xB9 0 12 0 (rdS s a.toNat), opRec 0xB9 0 12 0 (targ.extractLsb' 0 32), opRec 0xB9 0 12 0 (targ.extractLsb' 32 32)] s
        fun performs s =>
          if performs then
            let full := decide (64 ≤ s.core.taskq.length)
            let t : Task := ⟨rdS s a.toNat, targ, ownLref s, none⟩
            let v : Word := if full then 1 else 0
            .done (pin (wrS d.toNat v (forward 0 [v] (if full then s else modCore (fun c => { c with taskq := c.taskq ++ [t] }) s))))
          else takeForward s fun vs s => .done (pin (wrS d.toNat (nth 0 vs 0) s))

/-- Mark the first entry that meets a test as provisional to a gang, with its place in the order of the pops (13 R304). -/
def markTask (p : Task → Bool) (k : GangKey × Nat) : List Task → List Task
  | [] => []
  | t :: r => if p t then { t with prov := some k } :: r else t :: markTask p k r

/-- QPOP (13 R303, R304). -/
def execQpop (d c : SReg) (w : Bool) (scope : Scope) (x : Guard) (s : State) : Host.Outcome State Fault Refusal :=
  runs { reqX 0xBA x with sr := if w && scope == .ext then [c.toNat] else [], sw := regs d.toNat 4 } s fun m s =>
    let give := fun (vs : List Word) (s : State) => (List.range 4).foldl (fun s i => wrS (d.toNat + i) (nth 0 vs i) s) s
    if m = 0 then .done s
    else if w && (cur s).wait == .none && !scopeLegal s scope (rdS s c.toNat).toNat then .trap 0x20 (scopeInfo scope) 0
    else if takesValues s then
      if w && !fwdReady s then .wait (.task (scope == .ext) false) s else takeForward s fun vs s => .done (give vs s)
    else
      let mine := fun (t : Task) => t.prov.isNone && t.lref == ownLref s
      match s.core.taskq.find? mine with
      | some t =>
        let vs := [t.toff, t.targ.extractLsb' 0 32, t.targ.extractLsb' 32 32, 0]
        let s' := { s with nextTag := s.nextTag + 1 }
        .done (give vs (forward 0 vs (modCore (fun c => { c with taskq := markTask mine (s.gang.key, s.nextTag) c.taskq }) s')))
      | none => if w then .wait (.task (scope == .ext) true) s else .done (give [0, 0, 0, 1] (forward 0 [0, 0, 0, 1] s))

end Sys2Proof.Machine
end

