-- ==== Sys2Proof/Machine/Memory.lean ====
section
/-! DEFINITION. Memory instructions (ch. 12): loads and stores, atomics, WAITV, transactions, PREF, CFLUSH, REL and
FENCE. -/

namespace Sys2Proof.Machine

/-- Bytes of a load's element (12 R272). -/
def ldSize : LdTy → Nat
  | .u8 => 1
  | .s8 => 1
  | .u16 => 2
  | .s16 => 2
  | .w => 4
  | .d => 8
  | .q => 16

/-- A load extends the sign (12 R272). -/
def ldSigned : LdTy → Bool
  | .s8 => true
  | .s16 => true
  | _ => false

/-- Bytes of a store's element (12 R272). -/
def stSize : StTy → Nat
  | .b => 1
  | .h => 2
  | .w => 4
  | .d => 8
  | .q => 16

/-- The space of LDS and STS (12 R273). -/
def ldsTgt : LdsSp → Tgt
  | .core => .core
  | .ts => .ts
  | .ws => .ws

/-- The space of LDP and STP (12 R274). -/
def pspTgt : PSp → Tgt
  | .glob => .glob
  | .core => .core
  | .ts => .ts
  | .priv => .priv

/-- The space of LDW, SLD and SST (12 R275, R276). -/
def sp4Tgt : Sp4 → Tgt
  | .glob => .glob
  | .core => .core
  | .ts => .ts
  | .ws => .ws

/-- The space of WAITV (12 R281). -/
def sp3Tgt : Sp3 → Tgt
  | .glob => .glob
  | .core => .core
  | .ts => .ts

/-- The address of a lane of a global form or of a lane scratch form (12 R263). -/
def formAddr (s : State) (t : Tgt) (a b : Nat) (off : Int) (k : Nat) (lo : Bool) (l : Nat) : Int :=
  if t = .glob then ((globalAddr s a b off k lo l).toNat : Int) else laneOffset s b off l

/-- The address of a uniform form (12 R263): global, modulo 2^64, or exact in a scratch space. -/
def uniAddr (s : State) (t : Tgt) (a : Nat) (off : Int) : Int :=
  if t = .glob then ((uniGlobal s a off).toNat : Int) else uniOffset s a off

/-- Registers that hold `n` bytes. -/
def bytesRegs (r n : Nat) : List Nat := regs r ((n + 3) / 4)

/-- The low `n` bytes of the registers from `r` in lane `l`. -/
def laneBytes (s : State) (r l n : Nat) : List Byte := ((bytesRegs r n).flatMap fun q => leBytes 4 (rdV s q l).toNat).take n

/-- Lane and scalar registers that the address of a form reads. -/
def formReq (q : Req) (t : Tgt) (a b : Nat) (lo : Bool) : Req :=
  { q with vr := (if t = .glob then (if lo then [b] else []) else [b]) ++ q.vr, sr := (if t = .glob then pair a else []) ++ q.sr }

/-- Scalars that the base of a uniform form reads. -/
def uniRegs (t : Tgt) (a : Nat) : List Nat := if t = .glob then pair a else [a]

/-- The request of an instruction that may write an abort code of the open transaction (12 R284, 05 R121). -/
def txnReq (s : State) (q : Req) : Req :=
  match s.gang.txn with
  | some t => { q with also := [.v t.vd, .p t.pd] }
  | none => q

/-- LD (12 R272). -/
def execLd (d : VReg) (a : SReg) (b : VReg) (off : BitVec 14) (ty : LdTy) (p strm : Bool) (k : BitVec 2) (lo : Bool) (x : Guard)
    (s : State) : Host.Outcome State Fault Refusal :=
  let t : Tgt := if p then .priv else .glob
  runs (txnReq s (formReq { reqX 0x80 x with vw := bytesRegs d.toNat (ldSize ty) } t a.toNat b.toNat lo)) s fun m s =>
    loadBy (.ld d a b off ty p strm k lo x) 0x80 t strm (ldSize ty)
      ((lanesOf m).map fun l => ⟨l, formAddr s t a.toNat b.toNat (off14 off) k.toNat lo l, (ldSize ty), .lane d.toNat l (ldSize ty) (ldSigned ty), []⟩) s

/-- ST (12 R272). -/
def execSt (d : VReg) (a : SReg) (b : VReg) (off : BitVec 14) (ty : StTy) (p strm : Bool) (k : BitVec 2) (lo : Bool) (x : Guard)
    (s : State) : Host.Outcome State Fault Refusal :=
  let t : Tgt := if p then .priv else .glob
  runs (txnReq s (formReq { reqX 0x81 x with vr := bytesRegs d.toNat (stSize ty) } t a.toNat b.toNat lo)) s fun m s =>
    storeBy (.st d a b off ty p strm k lo x) 0x81 t (stSize ty)
      ((lanesOf m).map fun l => ⟨l, formAddr s t a.toNat b.toNat (off14 off) k.toNat lo l, (stSize ty), .none, laneBytes s d.toNat l (stSize ty)⟩) s strm

/-- LDS (12 R273). -/
def execLds (d b : VReg) (off : BitVec 14) (ty : LdTy) (sp : LdsSp) (x : Guard) (s : State) : Host.Outcome State Fault Refusal :=
  runs { reqX 0x82 x with vr := [b.toNat], vw := bytesRegs d.toNat (ldSize ty) } s fun m s =>
    loadBy (.lds d b off ty sp x) 0x82 (ldsTgt sp) false (ldSize ty)
      ((lanesOf m).map fun l => ⟨l, laneOffset s b.toNat (off14 off) l, (ldSize ty), .lane d.toNat l (ldSize ty) (ldSigned ty), []⟩) s

/-- STS (12 R273). -/
def execSts (d b : VReg) (off : BitVec 14) (ty : StTy) (sp : LdsSp) (x : Guard) (s : State) : Host.Outcome State Fault Refusal :=
  runs { reqX 0x83 x with vr := b.toNat :: bytesRegs d.toNat (stSize ty) } s fun m s =>
    storeBy (.sts d b off ty sp x) 0x83 (ldsTgt sp) (stSize ty)
      ((lanesOf m).map fun l => ⟨l, laneOffset s b.toNat (off14 off) l, (stSize ty), .none, laneBytes s d.toNat l (stSize ty)⟩) s

/-- The registers LDW fills (12 R275). -/
def ldwCount (n : BitVec 2) : Nat := 2 ^ n.toNat

/-- LDW (12 R275): elements in ascending register and then ascending lane. -/
def execLdw (d : VReg) (a : SReg) (off : BitVec 14) (n : BitVec 2) (sp : Sp4) (strm : Bool) (x : Guard) (s : State) :
    Host.Outcome State Fault Refusal :=
  let t := sp4Tgt sp
  runs (txnReq s { reqX 0x84 x with sr := uniRegs t a.toNat, vw := regs d.toNat (ldwCount n) }) s fun m s =>
    let base := uniAddr s t a.toNat (off14 off)
    let fix : Int → Int := fun v => if t = .glob then v % (2 ^ 64 : Nat) else v
    let es := (List.range (ldwCount n)).flatMap fun i => (lanesOf m).map fun l =>
      (⟨l, fix (base + (128 * i + 4 * l : Nat)), 4, .lane (d.toNat + i) l 4 false, []⟩ : Elem)
    let free := if t = .glob ∧ inTxn s then m &&& ~~~txnLanes s else m
    if free ≠ 0 ∧ base % 4 ≠ 0 then .trap 0x12 1 (BitVec.ofInt 64 base)
    else loadBy (.ldw d a off n sp strm x) 0x84 t strm 4 es s

/-- LDP (12 R274): the other elements of the destination are kept. -/
def execLdp (d : VReg) (a : SReg) (b : VReg) (off : BitVec 14) (h : Bool) (j : BitVec 2) (sp : PSp) (k : BitVec 2) (lo : Bool) (x : Guard)
    (s : State) : Host.Outcome State Fault Refusal :=
  let t := pspTgt sp
  let n := if h then 2 else 1
  runs (txnReq s (formReq { reqX 0x85 x with vr := [d.toNat], vw := [d.toNat] } t a.toNat b.toNat lo)) s fun m s =>
    loadBy (.ldp d a b off h j sp k lo x) 0x85 t false n
      ((lanesOf m).map fun l => ⟨l, formAddr s t a.toNat b.toNat (off14 off) k.toNat lo l, n, .elem d.toNat l h j.toNat, []⟩) s

/-- STP (12 R274). -/
def execStp (d : VReg) (a : SReg) (b : VReg) (off : BitVec 14) (h : Bool) (j : BitVec 2) (sp : PSp) (k : BitVec 2) (lo : Bool) (x : Guard)
    (s : State) : Host.Outcome State Fault Refusal :=
  let t := pspTgt sp
  let n := if h then 2 else 1
  runs (txnReq s (formReq { reqX 0x86 x with vr := [d.toNat] } t a.toNat b.toNat lo)) s fun m s =>
    storeBy (.stp d a b off h j sp k lo x) 0x86 t n
      ((lanesOf m).map fun l => ⟨l, formAddr s t a.toNat b.toNat (off14 off) k.toNat lo l, n, .none,
        leBytes n (elemOf (rdV s d.toNat l) (8 * n) j.toNat)⟩) s

/-- SLD (12 R276): one element, never transactional (12 R284). -/
def execSld (d a : SReg) (off : BitVec 14) (w64 : Bool) (sp : Sp4) (x : Guard) (s : State) : Host.Outcome State Fault Refusal :=
  let t := sp4Tgt sp
  let n := if w64 then 8 else 4
  runs { reqX 0x87 x with sr := uniRegs t a.toNat, sw := regs d.toNat (n / 4) } s fun m s =>
    loadEff 0x87 (subField (.sld d a off w64 sp x)) t false n
      (if m = 0 then [] else [⟨0, uniAddr s t a.toNat (off14 off), n, .scal d.toNat w64, []⟩]) s

/-- SST (12 R276): one element, never transactional (12 R284). -/
def execSst (d a : SReg) (off : BitVec 14) (w64 : Bool) (sp : Sp4) (x : Guard) (s : State) : Host.Outcome State Fault Refusal :=
  let t := sp4Tgt sp
  let n := if w64 then 8 else 4
  runs { reqX 0x88 x with sr := uniRegs t a.toNat ++ regs d.toNat (n / 4) } s fun m s =>
    storeEff 0x88 (subField (.sst d a off w64 sp x)) t n
      (if m = 0 then [] else [⟨0, uniAddr s t a.toNat (off14 off), n, .none, (regs d.toNat (n / 4)).flatMap fun r => leBytes 4 (rdS s r).toNat⟩]) s

/-- Bytes of an atomic's element (12 R279). -/
def atomBytes : AtomOp → Nat
  | .add64 => 8
  | .exch64 => 8
  | .cas64 => 8
  | _ => 4

/-- Operand registers of an atomic (12 R279). -/
def atomOperands : AtomOp → Nat
  | .cas => 2
  | .add64 => 2
  | .exch64 => 2
  | .cas64 => 4
  | _ => 1

/-- The value an atomic writes from the value it finds and its operand words, with the flags of an FP32 add (12 R279). -/
def atomNew (op : AtomOp) (rm : RM) (old : Nat) (c : List Word) : Nat × Fl :=
  let c0 := nth 0 c 0
  let o := BitVec.ofNat 32 old
  let wide := fun (i : Nat) => (nth 0 c i).toNat + (nth 0 c (i + 1)).toNat * 2 ^ 32
  match op with
  | .add => ((o + c0).toNat, {})
  | .and => ((o &&& c0).toNat, {})
  | .or => ((o ||| c0).toNat, {})
  | .xor => ((o ^^^ c0).toNat, {})
  | .minI => (if o.toInt < c0.toInt then o.toNat else c0.toNat, {})
  | .maxI => (if o.toInt < c0.toInt then c0.toNat else o.toNat, {})
  | .minU => (Nat.min o.toNat c0.toNat, {})
  | .maxU => (Nat.max o.toNat c0.toNat, {})
  | .exch => (c0.toNat, {})
  | .cas => (if o = c0 then (nth 0 c 1).toNat else o.toNat, {})
  | .fadd => Fmt.fp32.addBits rm false false false o.toNat c0.toNat
  | .add64 => ((old + wide 0) % 2 ^ 64, {})
  | .exch64 => (wide 0, {})
  | .cas64 => (if old = wide 0 then wide 2 else old, {})
  | .inc => (if c0.toNat ≤ o.toNat then 0 else o.toNat + 1, {})

/-- The elements of an atomic in the order in which they are performed (11 R256): groups of one address in the order of
their lowest lanes, each in ascending lane order. -/
def groupOrder (es : List Elem) : List Elem :=
  let keys := (List.range es.length).filterMap fun i => es[i]?.bind fun e => if (es.take i).any fun f => f.addr == e.addr then none else some e.addr
  keys.flatMap fun a => es.filter fun e => e.addr == a

/-- What the atomics of an instruction did: values found, bytes written, values written, and flags. -/
structure AtomRes where
  found : List (Elem × List Byte)
  cells : List (Nat × Byte)
  wrote : List (List Byte)
  fl : List Fl

/-- Perform atomics over what memory holds, in order: each sees the values that those before it wrote (11 R256). -/
def performAtoms (s : State) (get : Nat → Byte) (op : AtomOp) (rnd : Rnd) (data : Nat → List Word) (es : List (Elem × List Nat)) : AtomRes :=
  es.foldl (fun (r : AtomRes) x =>
    let old := x.2.map fun k => match (r.cells.filter fun c => c.1 == k).getLast? with
      | some c => c.2
      | none => get k
    let (v, f) := atomNew op (fpRound s rnd x.1.lane 0) (leNat old) (data x.1.lane)
    let bs := leBytes (atomBytes op) v
    ⟨r.found ++ [(x.1, old)], latest (r.cells ++ x.2.zip bs), r.wrote ++ [bs], r.fl ++ [f]⟩) ⟨[], [], [], []⟩

/-- Hold the writes of an effect performed once: its trick has matched already (19 R416, R419); `home` tells the lines of which it is
performed at the home slice (11 R255). -/
def holdOnce (ts : Bool) (cells : List (Nat × Byte)) (id : Option Nat) (home : Nat → Bool) (s : State) : State :=
  if cells.isEmpty then s
  else
    let n := s.core.muck.length
    let s := holdWrite ts cells id none s
    let holds := s.gang.holds - ((s.core.muck.drop n).filter fun e => e.seq.isSome).length
    let s := modGang (fun g => { g with holds := holds }) s
    let mark := fun (e : Held) => { e with matched := true, writes := true, seq := none, trump := !ts && home (e.sector / 4) }
    modCore (fun c => { c with muck := c.muck.take n ++ (c.muck.drop n).map mark }) s

/-- The contention predictor's counter of a line; of 2 or more the atomic is performed at the home slice (11 R255). -/
def contention (s : State) (l : Nat) : BitVec 2 := ((s.die.predictor.find? fun e => e.1 == l).map (·.2)).getD 0

/-- An atomic to the line is trumped (11 R255). -/
def trumped (s : State) (l : Nat) : Bool := decide (2 ≤ (contention s l).toNat)

/-- Latency of an atomic to a byte of global memory (12 R277): of its die cache, where it is not trumped; else of the home slice. No L1
serves one (11 R255). -/
def atomLatency (s : State) (k : Nat) : Nat :=
  if trumped s (lineOf k) then
    match (homeOf (homeOfKey k) s).lines.find? fun y => y.line == lineOf k with
    | some z => max (homeTrip s.core.die (homeOfKey k)) (z.from' - s.clk)
    | none => homeTrip s.core.die (homeOfKey k) + 150
  else (dieLatency s k).1

/-- The contention predictor after atomics to lines (11 R255): a counter rises when the write lease that a die-cache atomic takes
must wait on another die's, a read lease not ended or a dirty copy, and falls otherwise, as for a trumped atomic; the
least recently used of 1,024 entries is replaced. -/
def predict (lines : List Nat) (s : State) : State :=
  lines.foldl (fun s l =>
    let c := contention s l
    let leased := (homeOf (homeOfKey (128 * l)) s).rl.any fun x => x.1 / 256 == l && x.1 % 256 != s.die.die && decide (s.core.lclk.toNat ≤ x.2.toNat)
    let waits := !trumped s l && (leased || s.dies.any fun d => d.dirty.any fun e => e.1 / 4 == l)
    let n : BitVec 2 := if waits then (if c = 3 then 3 else c + 1) else if c = 0 then 0 else c - 1
    let s := modCore (perfAdd (if 2 ≤ c.toNat then 16 else 15) (gangFilter s s.gang) 1) s
    modDie (fun d => { d with predictor := ((l, n) :: d.predictor.filter fun e => e.1 != l).take 1024 }) s) s

/-- The operand records of an atomic (19 R412). -/
def atomRecs (maj sub kind : Nat) (place : Elem → Nat) (data : Nat → List Word) (es : List Elem) : List FoldRec :=
  es.flatMap fun e => ((List.range (data e.lane).length).zip (data e.lane)).map fun w => opRec maj sub kind (place e + 4 * w.1) w.2

/-- MODE's sticky floating-point bits as a word. -/
def flWord (fl : List Fl) : Word := (fl.foldl Fl.or Fl.nil).bits.truncate 32

/-- What a primary forwards about an atomic: its flags, the values found in lane order, and the values written. -/
def atomForward (fl : Word) (rets : List (List Byte)) (wrote : List (List Byte)) : List Word :=
  fl :: rets.flatMap wordsOfBytes ++ wrote.flatMap wordsOfBytes

/-- The registers of an atomic's return (12 R278). -/
def atomRets (d : Option Nat) (op : AtomOp) : List Nat := match d with
  | some r => bytesRegs r (atomBytes op)
  | none => []

/-- A backup takes the results of an atomic that its primary performed (19 R419): returns, flags, and the values written
to team scratch. -/
def takeAtoms (ts : Bool) (op : AtomOp) (es : List Elem) (s : State) : Eff :=
  takeForward s fun vs s =>
    let n := (atomBytes op)
    let all := splitWords (List.replicate (2 * es.length) n) (vs.drop 1)
    let s := orMode ((nth 0 vs 0).zeroExtend 64 &&& 0xF80) s
    let s := (es.zip all).foldl (fun s x => (dstWrites s x.1.dst x.2).foldl (fun s w => applyWrite w s) s) s
    let order := groupOrder es
    let cells := latest ((order.zip (all.drop es.length)).flatMap fun x => cellsAt x.1.addr.toNat x.2)
    .done (if ts then holdOnce true cells none (fun _ => false) (pin s) else pin s)

/-- ATOM and RED over their elements (12 R278 to R280, R476): `d` is the register of the returns. -/
def atomEff (maj sub : Nat) (d : Option Nat) (op : AtomOp) (rnd : Rnd) (data : Nat → List Word) (es : List Elem) (s : State) : Eff :=
  let es := redoElems s es
  let cls : Cls := if d.isSome then .ld else .st
  if es.isEmpty then .done (modGang (fun g => { g with redo := none }) s)
  else if inTxn s then illegalUse
  else match accessTrap s .glob true true (atomBytes op) es with
  | some (c, i, a) => .trap c i a
  | none =>
    if (s.gang.redo.isNone && full s cls) || fenced s then .stall s
    else
      let kind := if d.isSome then 1 else 2
      let perform : State → Eff := fun s =>
        let fs := es.map fun e => e.find s .glob .atomic
        let ask := issueLines (es.map fun e => e.place s .glob)
        if anyMiss fs then Eff.stall (askAll fs (ask s))
        else
          let s := useAll .glob es s
          let all := es.zip fs
          let near := all.filterMap fun x => match x.2 with | .at' ks => some (x.1, ks) | _ => none
          let code := all.filterMap fun x => match x.2 with | .bad h 0x19 => some (x.1, h) | _ => none
          let bad := all.filterMap fun x => match x.2 with
            | .bad h c => if c = 0x19 then none else some (x.1, h, c)
            | .remote h _ _ _ => some (x.1, h, 0x11)
            | _ => none
          let order := (groupOrder (near.map (·.1))).filterMap fun e => near.find? fun x => x.1.lane == e.lane
          let r := performAtoms s (viewByte s false) op rnd data order
          let n := (sectorsOf r.cells).length
          if !muckRoom s n then .stall (modCore (perfAdd 18 (gangFilter s s.gang) 1) s)
          else if near.any fun x => heldElsewhere s false (x.2.headD 0) x.1.size none then .stall s
          else match badTrap 0x32 (fun e => e.place s .glob) ((near.filter fun x => atomPoison s x.2).map (·.1)) with
          | some (c, _, a) => .trap c 0 a
          | none =>
            let lines := uniq (near.map fun x => lineOf (x.2.headD 0))
            let lat := (near.map fun x => atomLatency s (x.2.headD 0)).max?.getD 64
            let atHome := trumped s
            let s := predict lines (abortLines lines (countLines 2 (near.map fun x => (x.1.place s .glob, x.2.headD 0)) (ask s) atHome))
            let s := faultLines 2 ((code ++ bad.map fun x => (x.1, x.2.1)).map fun x => (x.1.place s .glob, x.2)) s
            let open' := code.foldl (fun (acc : List RegWrite × State) x =>
              let (v, s) := drawFree acc.2
              (acc.1 ++ dstWrites s x.1.dst (leBytes 8 v.toNat |>.take (atomBytes op)), s)) ([], s)
            let s := open'.2
            let ws := (r.found.flatMap fun x => dstWrites s x.1.dst x.2) ++ open'.1
            let recs := deferRecords s s.nextTag (code.flatMap fun x =>
              (List.range (atomBytes op)).map fun i => (x.1.place s .glob + BitVec.ofNat 64 i, 0, x.2, 0x19))
            let parts := (if d.isSome then bnat (!near.isEmpty || !code.isEmpty) else n) + recs.length + bnat (!bad.isEmpty)
            let old := (s.gang.redo.bind fun p => s.gang.pend.find? fun q => some q.id == p.id)
            let (id, s) := match s.gang.redo with
              | some p => (p.id.getD 0, growPend (p.id.getD 0) ws ((parts : Int) - 1) s)
              | none => newPend cls parts ws (op == AtomOp.fadd) s
            let recs := recs.map fun f => { f with id := id }
            let s := asked id lines.length s
            let s := pin (orFlags r.fl s)
            let s := holdOnce false r.cells (if d.isSome then none else some id) atHome s
            let s := deferStores id ((code.map fun x => (x.1.place s .glob).toNat).min?.getD 0) recs s
            let s := if d.isSome ∧ (!near.isEmpty || !code.isEmpty) then later lat .none (.loadComplete s.gang.key id) s else s
            if bad.isEmpty then
              let fl := if old.isSome then s.gang.mode.truncate 32 else flWord r.fl
              let rets := match d with
                | none => []
                | some r =>
                  let ws := ((s.gang.pend.find? fun q => q.id == id).map (·.writes)).getD []
                  (List.range 32).flatMap fun l => (bytesRegs r (atomBytes op)).filterMap fun q => ws.findSome? fun w => match w with
                    | .lane r' l' v => if r' = q ∧ l' = l then some (leBytes 4 v.toNat) else none
                    | _ => none
              .done (modGang (fun g => { g with redo := none, answers := [] }) (forward (if d.isSome then lat else 0) (atomForward fl rets []) s))
            else .stall (parkAt (some id) bad [] .glob s)
      if s.gang.redo.isSome then perform s
      else releasePoint kind (atomRecs maj sub kind (fun e => (e.place s .glob).toNat) data es) s fun performs s =>
        if performs then perform s else takeAtoms false op es s

/-- Elements of ATOM and RED (12 R278). -/
def atomElems (m : Word) (a : SReg) (b : VReg) (k : Nat) (lo : Bool) (d : Option Nat) (op : AtomOp) (s : State) : List Elem :=
  (lanesOf m).map fun l => ⟨l, ((globalAddr s a.toNat b.toNat 0 k lo l).toNat : Int), (atomBytes op),
    (match d with | some r => .lane r l (atomBytes op) false | none => .none), []⟩

/-- The operand words of an atomic in a lane (12 R279). -/
def atomData (s : State) (c : VReg) (op : AtomOp) (l : Nat) : List Word := (regs c.toNat (atomOperands op)).map fun r => rdV s r l

/-- ATOM (12 R278 to R280). -/
def execAtom (d : VReg) (a : SReg) (b c : VReg) (rnd : Rnd) (op : AtomOp) (k : BitVec 2) (lo : Bool) (x : Guard) (s : State) :
    Host.Outcome State Fault Refusal :=
  runs { reqX 0x89 x with vr := (if lo then [b.toNat] else []) ++ regs c.toNat (atomOperands op), vw := bytesRegs d.toNat (atomBytes op), sr := pair a.toNat }
    s fun m s => atomEff 0x89 (subField (.atom d a b c rnd op k lo x)) (some d.toNat) op rnd (atomData s c op)
      (atomElems m a b k.toNat lo (some d.toNat) op s) s

/-- RED (12 R278 to R280). -/
def execRed (a : SReg) (b c : VReg) (rnd : Rnd) (op : AtomOp) (k : BitVec 2) (lo : Bool) (x : Guard) (s : State) :
    Host.Outcome State Fault Refusal :=
  runs { reqX 0x8A x with vr := (if lo then [b.toNat] else []) ++ regs c.toNat (atomOperands op), sr := pair a.toNat }
    s fun m s => atomEff 0x8A (subField (.red a b c rnd op k lo x)) none op rnd (atomData s c op)
      (atomElems m a b k.toNat lo none op s) s

/-- ATOMS to core scratch: by every replica on its own scratch, without a pin (12 R280). -/
def atomsCore (d : Option Nat) (op : AtomOp) (rnd : Rnd) (data : Nat → List Word) (es : List Elem) (s : State) : Eff :=
  match retainStep false s with
  | some s' => .stall (retainStall s')
  | none =>
    if es.any fun e => mstPending s .core e.addr.toNat e.size then .stall s
    else
      let r := performAtoms s (look s.block.scratch) op rnd data ((groupOrder es).map fun e => (e, (List.range e.size).map (e.addr.toNat + ·)))
      let lat := 6 + bankWait false es
      let s := orFlags r.fl (scratchWrite lat r.cells (touchArray false s))
      if d.isNone then
        let (id, s) := newPend .st 1 [] (op == AtomOp.fadd) s
        .done (later lat (.gang s.gang.key) (.storeAccepted s.gang.key id) s)
      else
        let (id, s) := newPend .ld 1 (r.found.flatMap fun x => dstWrites s x.1.dst x.2) (op == AtomOp.fadd) s
        .done (later lat (.gang s.gang.key) (.loadComplete s.gang.key id) s)

/-- ATOMS to team scratch, performed by the primary (12 R280, 19 R419). -/
def atomsTeam (d : Option Nat) (op : AtomOp) (rnd : Rnd) (data : Nat → List Word) (es : List Elem) (s : State) : Eff :=
  let r := performAtoms s (viewByte s true) op rnd data ((groupOrder es).map fun e => (e, (List.range e.size).map (e.addr.toNat + ·)))
  let n := (sectorsOf r.cells).length
  if es.any fun e => mstPending s .ts e.addr.toNat e.size then .stall s
  else if !muckRoom s n then .stall (modCore (perfAdd 18 (gangFilter s s.gang) 1) s)
  else if es.any fun e => heldElsewhere s true e.addr.toNat e.size none then .stall s
  else match badTrap 0x32 (fun e => e.place s .ts) (es.filter fun e => teamPoison s e.addr.toNat e.size) with
  | some (c, _, a) => .trap c 0 a
  | none =>
    let s := es.foldl (fun s e => touchSector e.addr.toNat s) s
    let ws := r.found.flatMap fun x => dstWrites s x.1.dst x.2
    let (id, s) := if d.isSome then newPend .ld 1 ws (op == AtomOp.fadd) s else newPend .st n [] (decide (op = .fadd)) s
    let s := holdOnce true r.cells (if d.isSome then none else some id) (fun _ => false) (pin (orFlags r.fl s))
    let s := if d.isSome then later (48 + bankWait true es) (.gang s.gang.key) (.loadComplete s.gang.key id) s else s
    let rets := es.map fun e => ((r.found.find? fun x => x.1.lane == e.lane).map (·.2)).getD []
    .done (forward (48 + bankWait true es) (atomForward (flWord r.fl) rets r.wrote) s)

/-- ATOMS (12 R278 to R280). -/
def execAtoms (d b c : VReg) (rnd : Rnd) (op : AtomOp) (ts nr : Bool) (x : Guard) (s : State) : Host.Outcome State Fault Refusal :=
  let dst := if nr then none else some d.toNat
  let t : Tgt := if ts then .ts else .core
  runs { reqX 0x8B x with vr := b.toNat :: regs c.toNat (atomOperands op), vw := atomRets dst op } s fun m s =>
    let es := (lanesOf m).map fun l => (⟨l, laneOffset s b.toNat 0 l, (atomBytes op),
      (match dst with | some r => .lane r l (atomBytes op) false | none => .none), []⟩ : Elem)
    let data := atomData s c op
    if es.isEmpty then .done s
    else if inTxn s then illegalUse
    else match accessTrap s t true true (atomBytes op) es with
    | some (c, i, a) => .trap c i a
    | none =>
      if full s (if nr then .st else .ld) || fenced s then .stall s
      else if !ts then atomsCore dst op rnd data es s
      else releasePoint 3 (atomRecs 0x8B (subField (.atoms d b c rnd op ts nr x)) 3 (fun e => tsMark e.addr.toNat) data es) s
        fun performs s => if performs then atomsTeam dst op rnd data es s else takeAtoms true op es s

/-- The condition of WAITV (12 R281). -/
def waitvHolds (cond : CmpCond) (u : Bool) (v c : Word) : Bool :=
  if u then condHolds cond v.toNat c.toNat else condHolds cond v.toInt c.toInt

/-- What a load of WAITV comes to: the word with its latency, or what stops it. -/
inductive WaitLoad where
  | bytes (bs : List Byte) (lat : Nat) (s : State)
  | stop (e : Eff)

/-- One load of WAITV (12 R282, R475): the word, or what stops it. -/
def waitvLoad (t : Tgt) (e : Elem) (s : State) : WaitLoad :=
  match t with
  | .core =>
    match retainStep false s with
    | some s' => .stop (.stall (retainStall s'))
    | none =>
      if mstPending s .core e.addr.toNat 4 then .stop (.stall s)
      else .bytes (readBytes s.block.scratch e.addr.toNat 4) 6 (touchArray false s)
  | .ts =>
    if mstPending s .ts e.addr.toNat 4 || loadWaits s true [(e.addr.toNat, 4)] then .stop (.stall s)
    else if teamPoison s e.addr.toNat 4 then .stop (.trap 0x32 0 (e.place s t))
    else
      let bs := viewBytes s true e.addr.toNat 4
      let recs := if racyKeys s true ((List.range 4).map (e.addr.toNat + ·)) then wordRecs 0x8C 0 0xFF (tsMark e.addr.toNat) bs else []
      .bytes bs 48 (foldL recs (touchSector e.addr.toNat s))
  | _ =>
    let ask := issueLines [e.place s t]
    match e.find s .glob .load with
    | .miss h st g => .stop (.stall (askHome h st g (ask s)))
    | .bad h c => .stop (.stall (parkAt none [(e, h, c)] [] .glob (faultLines 0 [(e.place s t, h)] (ask s))))
    | .remote _ l c v =>
      let va := e.place s .glob
      match gotBytes s va with
      | some bs => .bytes (bs.take 4) 1 (modGang (fun g => { g with got := [] }) s)
      | none => .stop (.stall (askPeers [(l, c, v, 4, va)] (ask s)))
    | .at' ks =>
      let k := ks.headD 0
      if loadWaits s false [(k, 4)] then .stop (.stall s)
      else if readsPoison s ks then .stop (.trap 0x32 0 (e.place s t))
      else
        let r := readLines 0x8C 0 false .glob [(e, ks)] (countLines 0 [(e.place s t, k)] (ask (useAll .glob [e] s)))
        .bytes ((r.2.1.head?.map (·.2)).getD []) r.1 (foldL r.2.2.1 (modGang (fun g => { g with answers := [] }) r.2.2.2))

/-- What a WAITV waits for after a load that does not meet its condition (12 R282): the end of the copy's lease; a store to the word; or a
store to the sector, at most 64 clk. -/
def waitvNext (t : Tgt) (e : Elem) (ext : Bool) (s : State) : WaitOn :=
  match t with
  | .core => .value .core (e.addr.toNat / 4) 1 ext false
  | .ts => .value .ts (e.addr.toNat / 32) (s.clk + 64) ext false
  | _ => .value .glob (match e.find s .glob .load with
    | .at' ks => ((s.core.l1.find? fun x => x.line == lineOf (ks.headD 0)).map fun x => x.lease.toNat + 1).getD 0
    | _ => 0) 0 ext false

/-- The load of a waiting WAITV stalls: until it has been made the gang is not blocked (17 R382). -/
def SplitEntry.stalledLoad (e : SplitEntry) : SplitEntry := match e.wait with
  | .value on key due ext _ => { e with wait := .value on key due ext true }
  | _ => e

/-- A WAITV whose load is made now, or that goes on waiting (12 R282). `ends` says that this gang's own value ends it; a
backup's wait ends with the primary's (19 R419). -/
def waitvTry (t : Tgt) (e : Elem) (ext ends : Bool) (holds : Word → Bool) (finish : Nat → Word → State → State) (s : State) : Eff :=
  if !ends ∧ fwdReady s then takeForward s fun vs s => .done (finish 1 (nth 0 vs 0) s)
  else match waitvLoad t e s with
  | .stop (.stall s) => .stall (modSplit s.frag SplitEntry.stalledLoad s)
  | .stop r => r
  | .bytes bs lat s =>
    let v := BitVec.ofNat 32 (leNat bs)
    if ends && holds v then .done (finish lat v (forward lat [v] s))
    else .wait (waitvNext t e ext s) (if t = .ts then later 64 (.gang s.gang.key) .waitvReloadTimeout s else s)

/-- The trigger of a waiting WAITV has come (12 R282). -/
def waitvTriggered (on : WaitSpace) (key due : Nat) (s : State) : Bool :=
  match on with
  | .glob => decide (key ≤ s.core.lclk.toNat)
  | .core => due == 0
  | .ts => decide (due ≤ s.clk)

/-- WAITV (12 R281, R282): its legality is checked once, as it issues (02 R53). -/
def execWaitv (d a b c : SReg) (scope : Scope) (sp : Sp3) (cond : CmpCond) (u nd : Bool) (x : Guard) (s : State) :
    Host.Outcome State Fault Refusal :=
  let t := sp3Tgt sp
  runs { reqX 0x8C x with
    sr := uniRegs t a.toNat ++ [c.toNat] ++ (if scope = .ext then [b.toNat] else []), sw := if nd then [] else [d.toNat] } s fun m s =>
    if m = 0 then .done s
    else if inTxn s then illegalUse
    else if (cur s).wait == .none && decide (s.gang.rel = .none) && !scopeLegal s scope (rdS s b.toNat).toNat then .trap 0x20 (scopeInfo scope) 0
    else
      let e : Elem := ⟨0, uniAddr s t a.toNat 0, 4, .none, []⟩
      match accessTrap s t true false 4 [e] with
      | some (code, _, va) => .trap code 1 va
      | none =>
        let holds := fun v => waitvHolds cond u v (rdS s c.toNat)
        let finish := fun (lat : Nat) (v : Word) (s : State) => if nd then s else
          let (id, s) := newPend .none 1 [.scal d.toNat v] false s
          later lat (.gang s.gang.key) (.resultWriteback s.gang.key id) s
        match (cur s).wait with
        | .value on key due _ _ =>
          let ends := !takesValues s
          if waitvTriggered on key due s || (!ends && fwdReady s) then waitvTry t e (scope == .ext) ends holds finish s
          else .wait (.value on key due (scope == .ext) false) s
        | _ =>
          if fenced s then .stall s
          else
            let va := if t = .glob then (e.place s t).toNat else if t = .ts then tsMark e.addr.toNat else e.addr.toNat
            releasePoint 10 [opRec 0x8C (subField (.waitv d a b c scope sp cond u nd x)) 10 va (rdS s c.toNat)] s
              fun performs s => waitvTry t e (scope == .ext) performs holds finish s

/-- The gang is one fragment: its unended slices are all fused (12 R283). -/
def oneFragment (s : State) : Bool :=
  (List.range s.gang.slices).all fun k =>
    let e := entryOf s.gang k
    decide (e.st = .ended) || (e.fu && s.frag.getLsbD k)

/-- Pd and Vd of an open transaction in every lane, as the primary forwards them (19 R419). -/
def txnOutcome (s : State) : List Word :=
  match s.gang.txn with
  | none => []
  | some t => rdP s t.pd :: (List.range 32).map fun l => rdV s t.vd l

/-- Take the primary's outcome in the lanes of a mask: a lane that it lost is aborted here too (19 R419). -/
def takeOutcome (m : Word) (vs : List Word) (s : State) : State :=
  match s.gang.txn with
  | none => s
  | some t =>
    let p := nth 0 vs 0
    let m := m &&& ~~~s.gang.dead
    let s := wrP t.pd m p (wrV t.vd m (fun l => nth 0 vs (l + 1)) s)
    (lanesOf (m &&& ~~~p)).foldl (fun s l => modTxnLane l (fun x => if x.code.isSome then x else { x with code := some (nth 0 vs (l + 1)), buf := [] }) s) s

/-- TBEGIN (12 R283, 11 R261). -/
def execTbegin (d : VReg) (a : PReg) (s : State) : Host.Outcome State Fault Refusal :=
  runs { req1 0x8D with vw := [d.toNat], pw := [a.toNat] } s fun m s =>
    if m = 0 then .done s
    else if inTxn s || !oneFragment s then illegalUse
    else if fenced s || (takesValues s && !fwdReady s) then .stall s
    else
      let start := s.core.lclk.toNat
      let s := wrP a.toNat m m (wrV d.toNat m (fun _ => 0) s)
      let first := fun (f : SMap 64) (l : Nat) => if look s.gang.aborts l = 0 then put f l (BitVec.ofNat 64 start) else f
      let s := modGang (fun g => { g with
        txn := some ⟨d.toNat, a.toNat, (lanesOf m).map fun l => ⟨l, start, [], [], [], [], none⟩⟩,
        firstTx := (lanesOf m).foldl first g.firstTx }) s
      onceValue s (fun s => (txnOutcome s, s)) fun vs s => .done (takeOutcome m vs s)

/-- TABORT (12 R283). -/
def execTabort (i : BitVec 8) (s : State) : Host.Outcome State Fault Refusal :=
  runs (txnReq s (req1 0x8F)) s fun m s =>
    if m = 0 || !inTxn s then .done s
    else if takesValues s && !fwdReady s then .stall s
    else
      let lanes := m &&& txnLive s
      let s := (lanesOf lanes).foldl (fun s l => abortLane l 8 i.toNat s) s
      onceValue s (fun s => (txnOutcome s, s)) fun vs s => .done (takeOutcome (m &&& txnLanes s) vs s)

/-- The lanes that lose to a lower committing lane at TEND (12 R286). -/
def txnLosers (ls : List TxnLane) : List Nat :=
  (ls.foldl (fun (r : List Nat × List Nat) x =>
    if x.wr.any fun l => r.2.contains l then (r.1 ++ [x.lane], r.2) else (r.1, r.2 ++ x.rd ++ x.wr)) ([], [])).1

/-- An escalated open lane of another gang, older than every committing lane, has touched one of the lines: its homes grant
it the lines first (11 R261). -/
def olderEscalated (s : State) (ls : List TxnLane) : Bool :=
  let mine := (ls.map fun x => (look s.gang.firstTx x.lane).toNat).min?.getD 0
  (allGangs s).any fun g => g.key != s.gang.key && (match g.txn with
    | none => false
    | some t => t.lanes.any fun x => x.code.isNone && decide (8 ≤ (look g.aborts x.lane).toNat) &&
        decide ((look g.firstTx x.lane).toNat < mine) && (x.rd ++ x.wr).any fun l => ls.any fun y => y.wr.contains l)

/-- What each byte that a lane has buffered comes to as its address is translated for the commit (16 R363, R364, 15 R349): address, byte and
place. -/
def txnPlaces (s : State) (x : TxnLane) : List (DWord × Byte × Found) :=
  x.buf.map fun c =>
    let va := ((x.vas.find? fun v => v.1 == c.1).map (·.2)).getD 0
    (va, c.2, (⟨0, (va.toNat : Int), 1, .none, []⟩ : Elem).find s .glob .atomic)

/-- Why a lane cannot commit, by the places of its bytes: the cause of its abort, and the detail (12 R285). -/
def txnFault (ps : List (DWord × Byte × Found)) : Option (Nat × Nat) :=
  ps.findSome? fun p => match p.2.2 with
    | .bad _ c => some (9, c)
    | .remote .. => some (11, 0)
    | _ => none

/-- The physical bytes that a lane commits. -/
def txnCells (ps : List (DWord × Byte × Found)) : List (Nat × Byte) :=
  ps.filterMap fun p => match p.2.2 with
    | .at' ks => some (ks.headD 0, p.2.1)
    | _ => none

/-- The homes find a line that some of the lanes have read written since (11 R261). -/
def txnStale (s : State) (ls : List TxnLane) : Bool := ls.any fun x => x.rd.any fun l => decide (x.start < (wtOf s l).toNat)

/-- The fold records of the lanes that commit: a record for each word written, by ascending lanes and word addresses (19 R411, R412). -/
def txnRecs (ls : List (TxnLane × List (DWord × Byte × Found))) : List FoldRec :=
  laneOrder (ls.map fun x => (x.1.lane, cellRecs 0x8E 0 7 (addCells (x.2.map fun p => (p.1.toNat, p.2.1)) [])))

/-- The commit of a transaction by the replica that performs it (12 R286): `ps` is what the bytes of the lanes that have lost to no other come
to. -/
def commitTxn (t : Txn) (ps : List (TxnLane × List (DWord × Byte × Found))) (s : State) : State :=
  let alive : State → List TxnLane := fun s => match s.gang.txn with
    | none => []
    | some u => u.lanes.filter fun x => x.code.isNone
  let s := ps.foldl (fun s x => match txnFault x.2 with
    | some (c, d) => abortLane x.1.lane c d s
    | none => s) s
  let s := if txnStale s (alive s) then (alive s).foldl (fun s x => abortLane x.lane 7 0 s) s else s
  let ls := alive s
  let m := (maskOf fun l => ls.any fun x => x.lane == l) &&& ~~~s.gang.dead
  let cells := latest (ls.flatMap fun x => ((ps.filter fun p => p.1.lane == x.lane).flatMap fun p => txnCells p.2).reverse)
  let s := wrP t.pd m m (wrV t.vd m (fun _ => 0) s)
  let s := modGang (fun g => { g with aborts := ls.foldl (fun a x => put a x.lane 0) g.aborts }) s
  let s := forward 0 (txnOutcome s) s
  let s := pin (modGang (fun g => { g with txn := none }) s)
  -- the one place of the reads and the writes is the core's logical time after it: no later store to a line read comes before it
  let place := fun (s : State) => (uniq (ls.flatMap (·.rd))).foldl (fun s l => grantLease l s.core.die s.core.lclk s) s
  if cells.isEmpty then place s
  else
    let s := abortLines (uniq (cells.map fun c => lineOf c.1)) s
    let (id, s) := newPend .st (sectorsOf cells).length [] false s
    place (holdOnce false cells (some id) (fun _ => false) s)

/-- TEND (12 R283, R286): the bytes are translated now, so that none is written through a permission that is gone (16 R364). DESIGN CHOICE
(log 91): under an empty execution mask it leaves the transaction open; (log 93) the lanes whose words fold are those that the replica
judges to commit as it folds. -/
def execTend (s : State) : Host.Outcome State Fault Refusal :=
  runs { req1 0x8E with
    vw := match s.gang.txn with | some t => [t.vd] | none => [], pw := match s.gang.txn with | some t => [t.pd] | none => [] } s fun m s =>
    if m = 0 then .done s
    else match s.gang.txn with
    | none => illegalUse
    | some t =>
      if !oneFragment s then illegalUse
      else if full s .st || fenced s then .stall s
      else
        let open' := t.lanes.filter fun x => x.code.isNone
        let lost := txnLosers open'
        let ps := (open'.filter fun x => !lost.contains x.lane).map fun x => (x, txnPlaces s x)
        let fs := ps.flatMap fun x => x.2.map (·.2.2)
        if anyMiss fs then .stall (askAll fs s)
        else
        let s := ps.foldl (fun s x => x.2.foldl (fun s p => useEntry false s.gang.ctx.toNat p.1 s) s) s
        let ok := ps.filter fun x => (txnFault x.2).isNone
        let ls := ok.map (·.1)
        let cells := ok.flatMap fun x => txnCells x.2
        let waits := (cells.any fun c => heldElsewhere s false c.1 1 none) || ls.any fun x => x.rd.any fun l => heldElsewhere s false (128 * l) 128 none
        if waits || olderEscalated s ls then .stall s
        else if !muckRoom s (sectorsOf cells).length then .stall (modCore (perfAdd 18 (gangFilter s s.gang) 1) s)
        else releasePoint 7 (if txnStale s ls then [] else txnRecs ok) s fun performs s =>
          let s' := lost.foldl (fun s l => abortLane l 3 0 s) (modGang (fun g => { g with answers := [] }) s)
          if performs then .done (commitTxn t ps s')
          else takeForward s fun vs s => .done (pin (modGang (fun g => { g with txn := none, answers := [], aborts := (lanesOf (nth 0 vs 0)).foldl (fun a l => put a l 0) g.aborts })
            (takeOutcome (txnLanes s) vs s)))

/-- PREF (12 R287): whole lines are fetched, and count as present once their fetch would have completed; nothing faults and no value changes. -/
def execPref (a : SReg) (b : VReg) (off : BitVec 14) (lvl : PrefLvl) (k : BitVec 2) (lo : Bool) (x : Guard) (s : State) :
    Host.Outcome State Fault Refusal :=
  runs { reqX 0x90 x with vr := if lo then [b.toNat] else [], sr := pair a.toNat } s fun m s =>
    if m = 0 then .done s
    else if fenced s then .stall s
    else
      let vas := (lanesOf m).map fun l => globalAddr s a.toNat b.toNat (off14 off) k.toNat lo l
      if vas.any fun va => unitWaits s s.gang.ctx.toNat va then .stall s
      else
      let s := vas.foldl (fun s va => useEntry true s.gang.ctx.toNat va s) s
      let found := vas.filterMap fun va => match xlateUnit s s.gang.ctx.toNat va .load with
        | .ok _ key => some (va, key)
        | _ => none
      let sectors := fun (k : Nat) => (List.range 4).map (4 * lineOf k + ·)
      let fetch := fun (s : State) (x : DWord × Nat) =>
        let at' := s.clk + (lineLatency s x.2).1
        match lvl with
        | .l1 => (sectors x.2).foldl (fun s y => prefLine (at' - s.clk) (32 * y) s) s
        | .dc => homeTouch (lineOf x.2) at' ((sectors x.2).foldl (fun s y => dieTouch y at' 0 false s) s)
        | .hc => homeTouch (lineOf x.2) at' s
      .done (found.foldl fetch (countLines 5 found (issueLines vas s)))

/-- CFLUSH (12 R288, R267): counted in ST; it pushes its lines once the gang's earlier held entries are released. 16 R356 names no permission for it:
DESIGN CHOICE, it asks for W, as a store does (log 82). -/
def execCflush (a : SReg) (b : VReg) (off : BitVec 14) (act : FlushAct) (k : BitVec 2) (lo : Bool) (x : Guard) (s : State) :
    Host.Outcome State Fault Refusal :=
  runs { reqX 0x91 x with vr := if lo then [b.toNat] else [], sr := pair a.toNat } s fun m s =>
    let es := (lanesOf m).map fun l => (⟨l, ((globalAddr s a.toNat b.toNat (off14 off) k.toNat lo l).toNat : Int), 1, .none, []⟩ : Elem)
    if es.isEmpty then .done s
    else if inTxn s then illegalUse
    else match accessTrap s .glob false false 1 es with
    | some (c, i, va) => .trap c i va
    | none =>
      let fs := es.map fun e => e.seek s .glob .store
      if full s .st || fenced s then .stall s
      else if anyMiss fs then .stall (askAll fs s)
      else
        let s := useAll .glob es s
        let all := es.zip fs
        let keys := uniq (all.filterMap fun x => match x.2 with | .at' ks => some (lineOf (ks.headD 0)) | _ => none)
        let bad := all.filterMap fun x => match x.2 with | .bad h c => some ((x.1.place s .glob).toNat, h, c) | _ => none
        let sects := uniq (bad.map fun b => b.1 / 32)
        let recs := ((List.range sects.length).zip sects).map fun (y : Nat × Nat) =>
          let hc := (bad.find? fun b => b.1 / 32 == y.2).getD (0, 0, 0)
          (⟨hc.2.1, s.nextTag, 2, hc.2.2, bnat (y.1 == 0) + 2 * bnat (y.1 + 1 == sects.length), s.gang.ctx, herePos s,
            BitVec.ofNat 64 (32 * y.2), 0, List.replicate 32 0⟩ : HomeFault)
        if keys.isEmpty && recs.isEmpty then .done (modGang (fun g => { g with answers := [] }) s)
        else
        let (id, s) := newPend .st ((if isPrimary s then 2 else 1) * bnat (!keys.isEmpty) + recs.length) [] false s
        let lines := if isPrimary s then keys.map fun l => (l, act.code) else []
        let s := modGang (fun g => { g with answers := [], pend := g.pend.map fun p => if p.id = id then { p with flush := lines } else p }) s
        let s := deferStores id ((bad.map fun b => b.1).min?.getD 0) recs s
        .done (if keys.isEmpty then s else later 0 (.gang s.gang.key) (.storeAccepted s.gang.key id) s)

/-- REL (12 R289): a release point; it stalls until the gang holds no entry. DESIGN CHOICE (log 91): under an empty execution mask it does
nothing. -/
def execRel (s : State) : Host.Outcome State Fault Refusal :=
  runs (req1 0x92) s fun m s =>
    if m = 0 then .done s
    else if inTxn s then illegalUse
    else if fenced s then .stall s
    else releasePoint 8 [] s fun _ s =>
      if s.core.muck.any fun e => e.gang == s.gang.key && e.blk == s.gang.blk then .stall s else .done s

/-- FENCE (12 R290): later memory instructions stall until the earlier remote accesses of the chosen kinds are performed. DESIGN CHOICE
(log 91): under an empty execution mask it orders nothing. -/
def execFence (fl fs : Bool) (s : State) : Host.Outcome State Fault Refusal :=
  runs (req1 0x93) s fun m s =>
    if m = 0 then .done s
    else if inTxn s then illegalUse
    else if fenced s then .stall s
    else .done (modGang (fun g => { g with
      fenceLd := g.fenceLd || (fl && s.remotes.any fun r => r.gang == g.key && r.engine.isNone && !r.write),
      fenceSt := g.fenceSt || (fs && s.remotes.any fun r => r.gang == g.key && r.engine.isNone && r.write) }) s)

end Sys2Proof.Machine
end

