-- ==== Sys2Proof/Machine/Tables.lean ====
section
/-! DEFINITION. Meanings of CODEPUB (15 R346 to R349), TLBW (16 R361), TLBI (16 R362 to R366) and FRMIG (16 R368, R369), and of
the events VERSION_FREE, RECALL_ARRIVAL and FRMIG_COPY_DONE. -/

namespace Sys2Proof.Machine

/-- A status, and a result beside it. -/
def wrStatus (d : SReg) (st v : Nat) (s : State) : State := wrS (d.toNat + 1) (BitVec.ofNat 32 v) (wrS d.toNat (BitVec.ofNat 32 st) s)

/-- A version entry of a context (15 R346). -/
def verIn (s : State) (c v : Nat) : Option Ver := (ctxOf c s).vers.find? fun x => x.num == v

/-- Change a version entry. -/
def modVer (c v : Nat) (f : Ver → Ver) (s : State) : State :=
  modCtx c (fun x => { x with vers := x.vers.map fun e => if e.num = v then f e else e }) s

/-- HOLD of a version (15 R346): launches that hold it. -/
def holdOf (s : State) (c v : Nat) : Nat :=
  (s.launches.filter fun l => l.ctx.toNat == c && decide (l.st ≠ .complete) && l.vers.contains v).length

/-- A version entry as a descriptor of CODEPUB .new gives it (15 R348); its number is to be filled in. -/
def verOfDesc (bs : List Byte) : Ver :=
  ⟨0, BitVec.ofNat 64 (recField bs 0 8), recField bs 8 4, 0, BitVec.ofNat 64 (recField bs 12 8), recField bs 20 2, 1, false,
    BitVec.ofNat 16 (recField bs 22 2), []⟩

/-- Bytes of the 64 KiB frames of an image. -/
def Ver.span (v : Ver) : Nat := (4 * v.words + 65535) / 65536 * 65536

/-- A field of a descriptor is out of its range, or the link table overlaps a frame of the image (15 R346, R348, R350). -/
def descBad (v : Ver) : Bool :=
  v.base.toNat % 65536 != 0 || v.words == 0 || decide (2 ^ 20 ≤ v.words) || v.ltab.toNat % 16 != 0 ||
  (v.ltn != 0 && decide (v.ltab.toNat < v.base.toNat + v.span) && decide (v.base.toNat < v.ltab.toNat + 16 * v.ltn))

/-- CODEPUB .new (15 R348). -/
def execCodepubNew (d a : SReg) (x : Guard) (s : State) : Host.Outcome State Fault Refusal :=
  runs { reqX 0xDC x with level := .supervisor, sr := pair a.toNat, sw := pair d.toNat } s fun m s =>
    if m = 0 then .done s
    else match wholeLoad (rdSS s a.toNat) 32 s with
    | .stop e => e
    | .bytes bs s =>
      let v := verOfDesc bs
      let c := s.gang.ctx.toNat
      if descBad v then .done (wrStatus d 3 0 s)
      else match (List.range 4096).find? fun n => (verIn s c n).isNone with
      | none => .done (wrStatus d 1 0 s)
      | some n => .done (wrStatus d 0 n (modCtx c (fun y => { y with vers := y.vers ++ [{ v with num := n }] }) s))

/-- The physical frames of an image, as key / 65536, where every frame may be fetched (15 R349, 16 R356). -/
def framesOf (s : State) (c : Nat) (v : Ver) : Option (List Nat) :=
  let f := fun (i : Nat) => match xlateUnit s c (v.base + BitVec.ofNat 64 (65536 * i)) .fetch with
    | .ok _ k => some (k / 65536)
    | _ => none
  let l := (List.range (v.span / 65536)).map f
  if l.all (·.isSome) then some (l.filterMap id) else none

/-- Bind the frames of an image at their homes (15 R349). -/
def bindFrames (c v : Nat) (fs : List Nat) (s : State) : State :=
  fs.foldl (fun s f => modHome (homeOfKey (65536 * f)) (fun h => { h with bound := (f % (Config.stackBytes / 65536), c, v) :: h.bound }) s) s

/-- Word 0 of an image, as the gang in focus loads it (11 R253). -/
def firstWord (s : State) (fs : List Nat) : Nat := leNat (viewBytes s false (65536 * fs.headD 0) 4)

/-- A word is a header: every field has a value of 04 R85. -/
def headerLaid (w : Nat) : Bool := headerPattern w && fld w 8 4 != 0 && decide (fld w 12 3 < 5) && fld w 0 4 != 0

/-- The walk of some page of an image meets a held store (11 R260). -/
def imageWaits (s : State) (c : Nat) (v : Ver) : Bool :=
  (List.range (v.span / 65536)).any fun i => unitWaits s c (v.base + BitVec.ofNat 64 (65536 * i))

/-- The gang holds a store that is not released (12 R289). -/
def holdsStores (s : State) : Bool := s.core.muck.any fun e => e.gang == s.gang.key && e.blk == s.gang.blk

/-- CODEPUB .pub (15 R348). DESIGN CHOICE (log 92): it waits for the held stores of every party to the frames that it binds, so that none of
their bytes changes once they are bound (15 R349). -/
def execCodepubPub (d a b : SReg) (x : Guard) (s : State) : Host.Outcome State Fault Refusal :=
  runs { reqX 0xDC x with level := .supervisor, sr := [a.toNat, b.toNat], sw := pair d.toNat } s fun m s =>
    let c := s.gang.ctx.toNat
    let v := (rdS s a.toNat).toNat
    let h := (rdS s b.toNat).toNat
    if m = 0 then .done s
    else match (verIn s c v).filter fun e => e.state == 1 with
    | none => .done (wrStatus d 2 0 s)
    | some e =>
      if h ≠ v ∧ !((verIn s c h).any (·.hdl)) then .done (wrStatus d 2 0 s)
      else if imageWaits s c e then .stall s
      else match framesOf s c e with
      | none => .done (wrStatus d 3 0 s)
      | some fs =>
        if !headerLaid (firstWord s fs) then .done (wrStatus d 3 0 s)
        else if e.secv.toNat < s.fuse.toNat then .done (wrStatus d 4 0 s)
        else if holdsStores s || (fs.any fun f => heldAny s (65536 * f) 65536) then .stall s
        else
          let s := modVer c v (fun e => { e with state := 2, frames := fs, hdl := e.hdl || h == v }) (bindFrames c v fs s)
          .done (wrStatus d 0 v (modVer c h (fun e => { e with cur := v }) s))

/-- CODEPUB .ret (15 R348). -/
def execCodepubRet (d a : SReg) (x : Guard) (s : State) : Host.Outcome State Fault Refusal :=
  runs { reqX 0xDC x with level := .supervisor, sr := [a.toNat], sw := pair d.toNat } s fun m s =>
    let c := s.gang.ctx.toNat
    let v := (rdS s a.toNat).toNat
    let named := (ctxOf c s).vers.any fun e => e.hdl && e.cur == v
    if m = 0 then .done s
    else if named ∨ !((verIn s c v).any fun e => e.state == 2) then .done (wrStatus d 5 0 s)
    else .done (later 1 .none (.versionFree c v) (wrStatus d 0 v (modVer c v (fun e => { e with state := 3 }) s)))

/-- A retiring version that no launch holds is freed, and its frames are unbound (15 R348). -/
def execVersionFree (ctx ver : Nat) (s : State) : Host.Outcome State Fault Refusal :=
  if 65536 ≤ ctx then .fault .noSuchUnit
  else .next (match verIn s ctx ver with
    | none => s
    | some e =>
      if e.state ≠ 3 ∨ holdOf s ctx ver ≠ 0 then s
      else
        let s := { s with homes := s.homes.map fun h => { h with bound := h.bound.filter fun b => !(b.2.1 == ctx && b.2.2 == ver) } }
        modCtx ctx (fun x => { x with vers := x.vers.filter fun e => e.num != ver }) s)

/-- The command stream of a waiting engine goes on: its access is made again. -/
def wakeEngine (k : GangKey) (n : Nat) (s : State) : State :=
  onCore k.die k.core (modStream n (List.map fun c => { c with asked := false })) s

/-- Wake the waiters of a completed record; those of gangs make their accesses again by themselves (16 R361). -/
def wakeWaiters (ws : List Waiter) (s : State) : State :=
  ws.foldl (fun s w => match w.engine with
    | some n => wakeEngine w.gang n s
    | none => s) s

/-- The active command of a copy engine's stream stops at an access that its home answers with a fault (14 R313). -/
def stopEngine (k : GangKey) (n home code : Nat) (va : DWord) (s : State) : State :=
  onDie k.die (onCore k.die k.core fun s => match activeCmd (streamOf s.core n) with
    | none => s
    | some c => modCmd n c.id (fun c => { c with asked := false }) (stopCmd n c home code va s)) s

/-- The global address of the head move of a command that lies in a granule of a home's window (16 R359). -/
def headAddr (s : State) (c : Cmd) (home : Nat) (striped : Bool) (gran : Nat) : DWord :=
  let cand := c.moves.head?.toList.flatMap fun m => (m.src.toList ++ [m.dst]).filterMap fun l => if l.sp = .glob then some l.addr else none
  BitVec.ofNat 64 ((cand.find? fun a => cmdFind s c a .load == .miss home striped gran).getD (cand.headD 0))

/-- Answer every waiter of a record with a fault code (16 R361). -/
def failWaiters (home code : Nat) (r : MissRec) (s : State) : State :=
  r.waiters.foldl (fun s w => match w.engine with
    | none => mapGangs (fun g => if g.live ∧ g.key = w.gang then { g with answers := ⟨home, r.ctx, r.striped, r.gran, code⟩ :: g.answers } else g) s
    | some n => match activeCmd (streamOf (coreOf w.gang.die w.gang.core s) n) with
      | none => s
      | some c => stopEngine w.gang n home code (headAddr s c home r.striped r.gran) s) s

/-- The record that walks in the walker slot of the gang in focus, if it is the record named (16 R360, R361): walker slot
2 c + j of a home is gang slot j of partition 0 of its service core c (log 8). -/
def walkingHere (s : State) (num : Nat) : Option (Nat × MissRec) :=
  let k := s.gang.key
  if k.die < 128 ∨ k.part ≠ 0 ∨ 2 ≤ k.slot then none
  else ((homeOf (k.die - 128) s).recs.find? fun r => r.num == num && r.slot == some (2 * k.core + k.slot)).map fun r => (k.die - 128, r)

/-- Send a stale record back to the head of the walk queue (16 R361, R363). -/
def requeue (home num : Nat) (s : State) : State :=
  later 0 .none (.walkerStart home) (modHome home (fun h => { h with
    recs := h.recs.map fun r => if r.num = num then { r with stale := false, slot := none } else r, walkq := num :: h.walkq }) s)

/-- Free a record whose walk has ended. -/
def freeRec (home num : Nat) (s : State) : State :=
  later 0 .none (.walkerStart home) (modHome home (fun h => { h with recs := h.recs.filter fun r => r.num != num }) s)

/-- Log2 of a leaf's size (16 R356, R361). -/
def leafBits (z : TlbSz) : Nat := 16 + (if z.code = 0 then 0 else if z.code = 1 then 5 else 14)

/-- Install a leaf for a record; the least recently used entry leaves a full TLB (16 R358, R361). -/
def installLeaf (home sz : Nat) (r : MissRec) (e : Nat) (s : State) : State :=
  let ent : TlbEntry := ⟨r.ctx, r.striped, r.gran * 65536 / 2 ^ sz * 2 ^ sz, sz, fld e 16 20 * 65536, natb (e / 4), natb (e / 8), natb (e / 16), none, []⟩
  modHome home (fun h => { h with tlb := (ent :: h.tlb).take 16384 }) s

/-- TLBW (16 R361). -/
def execTlbw (d a b : SReg) (sz : TlbSz) (x : Guard) (s : State) : Host.Outcome State Fault Refusal :=
  runs { reqX 0xD6 x with level := .firmware, sr := a.toNat :: pair b.toNat, sw := [d.toNat] } s fun m s =>
    let num := (rdS s a.toNat).toNat
    if m = 0 then .done s
    else match walkingHere s num with
    | none => .done (wrS d.toNat 1 s)
    | some (home, r) =>
      let e := (rdSS s b.toNat).toNat
      if r.stale then .done (wrS d.toNat 4 (requeue home num s))
      else if leafBad s home (leafBits sz) r.striped e then .done (wrS d.toNat 2 s)
      else .done (wrS d.toNat 0 (freeRec home num (wakeWaiters r.waiters (installLeaf home (leafBits sz) r e s))))

/-- TLBW .fault (16 R361). -/
def execTlbwFault (d a b : SReg) (x : Guard) (s : State) : Host.Outcome State Fault Refusal :=
  runs { reqX 0xD6 x with level := .firmware, sr := [a.toNat, b.toNat], sw := [d.toNat] } s fun m s =>
    let num := (rdS s a.toNat).toNat
    let code := (rdS s b.toNat).toNat % 256
    if m = 0 then .done s
    else match walkingHere s num with
    | none => .done (wrS d.toNat 1 s)
    | some (home, r) =>
      if r.stale then .done (wrS d.toNat 4 (requeue home num s))
      else if code ≠ 0x10 ∧ code ≠ 0x11 then .done (wrS d.toNat 3 s)
      else .done (wrS d.toNat 0 (freeRec home num (failWaiters home code r s)))

/-- The fragment that issues a removal. -/
def issuerTag (s : State) : GangKey × Nat := (s.gang.key, lowSlice s.frag)

/-- A removed range is settled (16 R363, R364): its recalls are acknowledged, its read leases have ended, and every held write
to it is released or discarded; of a remote window, every request over its link is answered. -/
def settled (s : State) (x : Settle) : Bool :=
  x.acks.isEmpty && (x.till.all fun y => decide (y.2 ≤ s.clk)) &&
  !(match x.link with
    | none => false
    | some l => s.remotes.any fun r => r.link == l) &&
  !(allCores s).any fun c => c.muck.any fun e => !e.ts && e.remote.isNone && e.bytes.any fun b => decide (x.lo ≤ b.1) && decide (b.1 < x.lo + x.len)

/-- Remove the TLB entries of a home that meet a test (16 R363): each removed range waits to be settled, and the dies that hold
dirty sectors of it are recalled (16 R364). What an earlier removal has taken away and not settled yet is awaited here too. -/
def removeEntries (home : Nat) (p : TlbEntry → Bool) (s : State) : State :=
  let gone := (homeOf home s).tlb.filter p
  let s := modHome home (fun h =>
    let open' := h.settling.filter fun x => decide (x.who.2 ≠ 8) || !settled s x
    { h with tlb := h.tlb.filter fun e => !p e
             settling := ((open'.filter fun x => p x.ent && decide (x.who ≠ issuerTag s)).map fun x => { x with who := issuerTag s }) ++ open' }) s
  gone.foldl (fun s e =>
    let link := e.remote.map (·.1)
    let lo := if link.isSome then 0 else home * Config.stackBytes + e.pa
    let len := if link.isSome then 0 else 2 ^ e.sz
    let dies := ((allDies s).filter fun d => d.dirty.any fun c => decide (lo ≤ 32 * c.1) && decide (32 * c.1 < lo + len)).map (·.die)
    let s := modHome home (fun h => { h with settling := ⟨issuerTag s, e, lo, len, e.leases, dies, link⟩ :: h.settling }) s
    dies.foldl (fun s d => later (Config.hop * meshDist (dieSite d) (homeSite home)) .none (.recallArrival home d e.ctx lo len) s) s) s

/-- Mark the walking records of a home that meet a test as stale (16 R363). -/
def markStale (home : Nat) (p : MissRec → Bool) (s : State) : State :=
  modHome home (fun h => { h with recs := h.recs.map fun r => if r.slot.isSome && p r then { r with stale := true } else r }) s

/-- What the issuing fragment has removed and waits for. -/
def ownSettles (s : State) : List Settle := (s.homes.flatMap (·.settling)).filter fun x => x.who == issuerTag s

/-- A removal goes on: it completes when all it removed is settled, and stalls until then (16 R363). -/
def awaitSettled (k : State → State) (s : State) : Eff :=
  if (ownSettles s).all (settled s) then
    let t := issuerTag s
    .done (k { s with homes := s.homes.map fun h => { h with settling := h.settling.filter fun x => x.who != t } })
  else .stall s

/-- TLBI .page, .ctx and .all (16 R362 to R364): `f` removes what the operands name, and is none where they name nothing. -/
def tlbiEff (d : SReg) (f : Option (State → State)) (m : Word) (s : State) : Eff :=
  if m = 0 then .done s
  else if !(ownSettles s).isEmpty then awaitSettled (wrS d.toNat 0) s
  else match f with
  | none => .done (wrS d.toNat 1 s)
  | some f => awaitSettled (wrS d.toNat 0) (f s)

/-- The home and window that an address names in a context (16 R362). -/
def namedWindow (s : State) (c : Nat) (va : DWord) : Option (Nat × Bool) :=
  match ownerVh va with
  | none => none
  | some (vh, striped) => if c = 0 ∧ striped then none else (vhHome s c vh).map fun h => (h, striped)

/-- A number names a context in which translations can stand (16 R352, R362). -/
def namesCtx (s : State) (c : Nat) : Bool := c == 0 || (decide (c < 65536) && (ctxOf c s).vdt.isSome)

/-- TLBI .page (16 R362). -/
def execTlbiPage (d a c : SReg) (x : Guard) (s : State) : Host.Outcome State Fault Refusal :=
  runs { reqX 0xD7 x with level := .supervisor, sr := pair a.toNat ++ [c.toNat], sw := [d.toNat] } s fun m s =>
    let va := rdSS s a.toNat
    let ctx := (rdS s c.toNat).toNat
    let gran := offOf va / 65536
    let f := if !namesCtx s ctx then none else (namedWindow s ctx va).map fun (home, striped) => fun s =>
      markStale home (fun r => r.ctx == ctx && r.striped == striped && r.gran == gran)
        (removeEntries home (fun e => e.ctx == ctx && e.striped == striped && decide (e.off < (gran + 1) * 65536) && decide (gran * 65536 < e.off + 2 ^ e.sz)) s)
    tlbiEff d f m s

/-- TLBI .ctx (16 R362). -/
def execTlbiCtx (d a c : SReg) (x : Guard) (s : State) : Host.Outcome State Fault Refusal :=
  runs { reqX 0xD7 x with level := .supervisor, sr := pair a.toNat ++ [c.toNat], sw := [d.toNat] } s fun m s =>
    let ctx := (rdS s c.toNat).toNat
    let f := if !namesCtx s ctx then none else (namedWindow s ctx (rdSS s a.toNat)).map fun (home, striped) => fun s =>
      markStale home (fun r => r.ctx == ctx && r.striped == striped) (removeEntries home (fun e => e.ctx == ctx && e.striped == striped) s)
    tlbiEff d f m s

/-- TLBI .all (16 R362). -/
def execTlbiAll (d c : SReg) (x : Guard) (s : State) : Host.Outcome State Fault Refusal :=
  runs { reqX 0xD7 x with level := .supervisor, sr := [c.toNat], sw := [d.toNat] } s fun m s =>
    let ctx := (rdS s c.toNat).toNat
    let f := if !namesCtx s ctx then none else some fun (s : State) =>
      (s.homes.map (·.home)).foldl (fun s h => markStale h (fun r => r.ctx == ctx) (removeEntries h (fun e => e.ctx == ctx) s)) s
    tlbiEff d f m s

/-- A home's own write for a party at a logical time, which takes its place in the order now: later than every lease and store of its lines,
whose bytes it overwrites, held ones too (12 R267, 11 R258, R259). The time that it took is told. -/
def homeOrdered (t : DWord) (cells : List (Nat × Byte)) (s : State) : DWord × State :=
  let (w, s) := stampLines t cells (abortLines (uniq (cells.map fun c => lineOf c.1)) s)
  (w, dieStore (128 + homeOfKey ((cells.map (·.1)).headD 0)) cells (trimHeld false s.core.die w.toNat none cells s))

/-- As `homeOrdered`, for the core in focus, whose later accesses come after it. -/
def coreOrdered (cells : List (Nat × Byte)) (s : State) : State :=
  let (w, s) := homeOrdered s.core.lclk cells s
  modCore (fun c => { c with lclk := max64 c.lclk w }) s

/-- The parked gang of a load's record (12 R266). -/
def parkedBy (s : State) (k : GangKey) (f : HomeFault) : Option Park :=
  match (allGangs s).find? fun g => g.key == k with
  | none => none
  | some g => g.park.filter fun p => p.id.getD 0 == f.id && p.addr == f.addr && p.mask == f.mask

/-- Run an action on a gang for a fragment of it, and bring back the issuing fragment. -/
def onFragment (k : GangKey) (fr : BitVec 8) (f : State → State) (s : State) : State :=
  let own := s.frag
  { onGang k (fun s => f { s with frag := fr }) s with frag := own }

/-- .resume and .deliver of a load's record (12 R266, R475, R476). -/
def resolveLoad (deliver : Bool) (k : GangKey) (f : HomeFault) (s : State) : State :=
  match parkedBy s k f with
  | none => s
  | some p =>
    if deliver then
      onFragment k p.slices (fun s =>
        let s := modGang (fun g => { g with park := none }) s
        let s := match p.id with
          | some id => retireGang (completePart id 1 s)
          | none => s
        takeTrap p.code p.mask p.addr s) s
    else onGang k (modGang fun g => { g with park := none, redo := if p.id.isSome then some p else none }) s

/-- One record of a deferred store is resolved (16 R366): when the last is, the gang goes on, and takes the code that some of
them were marked with. -/
def resolveStore (mark : Option Nat) (k : GangKey) (f : HomeFault) (s : State) : State :=
  let upd := fun (x : DeferGroup) => if x.id = f.id then { x with left := x.left - 1, code := x.code.or mark } else x
  mapGangs (fun g => if g.live ∧ g.key = k then
    let ds := g.defer.map upd
    { g with defer := ds.filter fun x => decide (x.left ≠ 0),
             deliver := g.deliver ++ (ds.filter fun x => decide (x.left = 0)).filterMap fun x => x.code.map fun c => ⟨c, x.addr, x.pos⟩ }
    else g) s

/-- The bytes that a deferred sector writes, at a physical byte. -/
def sectorCells (f : HomeFault) (key : Nat) : List (Nat × Byte) :=
  (List.range 32).filterMap fun i => if lane f.mask i then some (key + i, f.data.getD i 0) else none

/-- The stream and command that an engine's record names, in the core of its gang (14 R313). -/
def stoppedStream (s : State) (k : GangKey) (f : HomeFault) : Option (Nat × DWord) :=
  (List.range 5).findSome? fun n => ((streamOf (coreOf k.die k.core s) n).find? fun c => c.id == f.id).bind fun c =>
    c.stopped.map fun x => (n, x.2)

/-- .resume and .deliver of an engine's record (14 R313). -/
def resolveEngine (deliver : Bool) (k : GangKey) (f : HomeFault) (s : State) : State :=
  match stoppedStream s k f with
  | none => s
  | some (n, va) =>
    let act : State → State := fun s =>
      if deliver then abandonCmd n f.id f.code va s else modCmd n f.id (fun c => { c with stopped := none }) s
    onDie k.die (onCore k.die k.core act) s

/-- A live record is resolved: it is live no longer, and its FLAGS say so (16 R365). -/
def closeRecord (home ix : Nat) (s : State) : State :=
  let k := reservedAt home (64 * ix + 2)
  homeStore [(k, look s.mem k ||| 8)] (modHome home (fun h => { h with live := h.live.filter fun x => x.1 != ix }) s)

/-- The record at an index is information alone: KIND 4, 5 or 6, not yet consumed (16 R366). -/
def informs (s : State) (home ix : Nat) : Bool :=
  let hd := fqHead s home
  let n := (fqTail s home + 2 ^ 32 - hd) % 2 ^ 32
  let kind := (look s.mem (reservedAt home (64 * ix))).toNat
  decide ((ix + 4096 - hd % 4096) % 4096 < n) && decide (4 ≤ kind) && decide (kind ≤ 6)

/-- What .replay of a deferred sector comes to: a write, a fresh fault, or a full fault queue. -/
inductive Replay where
  | wrote (s : State)
  | again (s : State)
  | full
  /-- The walk of the translation meets a held store (11 R260). -/
  | waits

/-- The maximal runs of the bytes that a deferred sector writes: first byte and length. -/
def sectorRuns (f : HomeFault) : List (Nat × Nat) :=
  (List.range 32).filterMap fun i =>
    if lane f.mask i && (i == 0 || !lane f.mask (i - 1)) then
      some (i, ((List.range 33).find? fun n => decide (i + n = 32) || !lane f.mask (i + n)).getD 0)
    else none

/-- A deferred sector that .replay translates to a peer module is written there (20 R431): a request of its gang's entry, which a refusal
defers again. -/
def replayRemote (k : GangKey) (f : HomeFault) (link pctx : Nat) (pva : DWord) (s : State) : State :=
  (sectorRuns f).foldl (fun s x =>
    let at' := fun (a : DWord) => a + BitVec.ofNat 64 x.1
    let data := (List.range x.2).map fun i => f.data.getD (x.1 + i) 0
    let tag := s.nextTag
    let r : Remote := ⟨tag, link, k, f.id, true, 32, .none, at' f.addr, f.pos, none, data, s.clk, false⟩
    let s := useEntry true f.ctx.toNat f.addr { s with nextTag := tag + 1, remotes := s.remotes ++ [r] }
    later Config.remoteTimer .none (.remoteTimeout tag) (sendLink link (.req ⟨tag, BitVec.ofNat 16 pctx, at' pva, true, x.2, data, false⟩) s)) s

/-- .replay (16 R366): the sector is translated afresh at its home. -/
def replaySector (k : GangKey) (inc : BitVec 16) (f : HomeFault) (s : State) : Replay :=
  let fail := fun (home code : Nat) =>
    if fqFull s home then Replay.full
    else .again (appendFault { f with home := home, code := code, flags := f.flags % 8 } k (vdZero s k.die) k.core k.part k.slot inc s)
  if unitWaits s f.ctx.toNat f.addr then .waits
  else match xlateUnit s f.ctx.toNat f.addr .store with
  | .ok h key => if boundFrame s key then fail h 0x19 else .wrote (coreOrdered (sectorCells f key) (useEntry true f.ctx.toNat f.addr s))
  | .remote _ link pctx pva => .wrote (replayRemote k f link pctx pva s)
  | .fault h c => fail h c
  | _ => fail f.home 0x10

/-- A core's logical time comes to a write's time: the later clauses of the gang take their times after it (11 R249, R259). -/
def raiseClock (k : GangKey) (t : DWord) (s : State) : State := onCore k.die k.core (modCore fun c => { c with lclk := max64 c.lclk t }) s

/-- TLBI .fq (16 R366): the status, and the state after it; none while the fault queue cannot take a fresh record, or a held
store keeps the walk of a .replay waiting. -/
def fqEff (home ix disp : Nat) (s : State) : Option (Nat × State) :=
  match (homeOf home s).live.find? fun x => x.1 == ix with
  | none => some (if informs s home ix then 2 else 1, s)
  | some (_, f, k, inc) =>
    let stale := inc != (dieOf k.die s).incarn
    if 2 < disp then some (2, s)
    else if disp = 2 then
      if f.kind ≠ 2 ∨ f.code = 0x19 then some (2, s)
      else match replaySector k inc f s with
      | .full => none
      | .waits => none
      | .again s => some (0, closeRecord home ix s)
      | .wrote s => some (0, closeRecord home ix (if stale then s else raiseClock k s.core.lclk (resolveStore none k f s)))
    else
      let deliver := disp == 1
      let s' := if stale then s
        else if f.kind = 1 then resolveLoad deliver k f s
        else if f.kind = 2 then resolveStore (if deliver then some (if f.code = 0x19 then 0x19 else 0x18) else none) k f s
        else resolveEngine deliver k f s
      some (0, closeRecord home ix s')

/-- TLBI .fq (16 R362, R366). -/
def execTlbiFq (d a b : SReg) (x : Guard) (s : State) : Host.Outcome State Fault Refusal :=
  runs { reqX 0xD7 x with level := .supervisor, sr := [a.toNat, b.toNat], sw := [d.toNat] } s fun m s =>
    let n := (rdS s a.toNat).toNat
    if m = 0 then .done s
    else if 40 ≤ fld n 16 6 then .done (wrS d.toNat 1 s)
    else match fqEff (fld n 16 6) (n % 4096) (rdS s b.toNat).toNat s with
    | none => .stall s
    | some (st, s') => .done (wrS d.toNat (BitVec.ofNat 32 st) s')

/-- The die caches' dirty sectors of a range are at the home, and their lines are dropped with the L1 copies (16 R364). -/
def execRecallArrival (home die ctx lo len : Nat) (s : State) : Host.Outcome State Fault Refusal :=
  if ¬(home < 40 ∧ die < 40 ∧ ctx < 65536) then .fault .noSuchUnit
  else
    let within := fun (k : Nat) => decide (lo ≤ k) && decide (k < lo + len)
    let s := writeBack (fun e x => e == die && within (32 * x)) s
    let s := mapDies (fun d => if d.die = die then { d with lines := d.lines.filter fun l => !within (128 * l.line) } else d) s
    let s := mapCores (fun c => if c.die = die then { c with l1 := c.l1.filter fun l => !within (128 * l.line) } else c) s
    let back := s.clk + Config.hop * meshDist (dieSite die) (homeSite home)
    .next (modHome home (fun h => { h with settling := h.settling.map fun x =>
      if x.lo = lo ∧ x.len = len ∧ x.acks.contains die then { x with acks := x.acks.erase die, till := (die, back) :: x.till } else x }) s)

/-- A 64 KiB frame that an address of context 0 names: its home and number, or what stops the instruction (16 R368). -/
def frameNamed (s : State) (va : DWord) (unit : Nat) : Except Eff (Nat × Nat) :=
  if va.toNat % unit ≠ 0 then .error (.trap 0x12 0 va)
  else match xlate s 0 0 va .load with
  | .ok h k => .ok (h, k % Config.stackBytes)
  | _ => .error (.trap 0x10 0 va)

/-- Number of spare frame `i` of a stack (16 R353). -/
def spareFrame (i : Nat) : Nat := (Config.reservedBase + 0x01000000) / 65536 + i

/-- What an FRMIG instruction asks of the checks before its own. -/
def frmigReq (x : Guard) (d a : SReg) (b : List Nat) : Req :=
  { reqX 0xDD x with level := .supervisor, sr := pair a.toNat ++ b, sw := pair d.toNat }

/-- FRMIG .copy (16 R368, R357). -/
def execFrmigCopy (d a : SReg) (x : Guard) (s : State) : Host.Outcome State Fault Refusal :=
  runs (frmigReq x d a []) s fun m s =>
    if m = 0 then .done s
    else match frameNamed s (rdSS s a.toNat) 65536 with
    | .error e => e
    | .ok (home, pa) =>
      let h := homeOf home s
      if h.mig.isSome then .done (wrStatus d 1 0 s)
      else match (List.range 256).find? fun i => !h.spares.contains (spareFrame i) && !h.bad.any fun b => b.1 == spareFrame i with
      | none => .done (wrStatus d 3 0 s)
      | some i =>
        let sp := spareFrame i
        let s := modHome home (fun h => { h with mig := some ⟨pa / 65536, sp, 0, false, false⟩, spares := sp :: h.spares }) s
        let marks := (List.range 16).map fun j => dirtyBit (home * Config.stackBytes + sp * 65536 + 4096 * j)
        .done (wrStatus d 0 sp (marks.foldl (fun s x => orByte x.1 (1 <<< x.2) s) s))

/-- The copy of a migrating frame is done (16 R368): its 512 lines have been copied. -/
def execFrmigCopyDone (home : Nat) (s : State) : Host.Outcome State Fault Refusal :=
  if 40 ≤ home then .fault .noSuchUnit
  else .next (modHome home (fun h => { h with mig := h.mig.map fun g => { g with copied := g.copied || decide (512 ≤ g.lines) } }) s)

/-- The tables that the entries of some page tables of a home name; each has `n` entries (16 R356). -/
def nextTables (s : State) (home n : Nat) (ts : List Nat) : List Nat :=
  ts.flatMap fun t => (List.range n).filterMap fun i =>
    let e := leNat (readBytes s.mem (home * Config.stackBytes + t + 8 * i) 8)
    if natb e && natb (e / 2) then some (fld e 8 28 * 256) else none

/-- An entry of a home's page tables stands at level 2 or 1, so that a leaf there is of 1 GiB or 2 MiB (16 R356, R368). -/
def largeLeaf (s : State) (home pa : Nat) : Bool :=
  let roots := s.contexts.flatMap fun c => (c.vdt.map fun t => (List.range 40).flatMap fun v =>
    if nth 40 t.vhs v = home then (nth none t.roots v).toList ++ (nth none t.sroots v).toList else []).getD []
  let second := nextTables s home 2048 roots
  (second ++ nextTables s home 512 second).any fun t => decide (t ≤ pa) && decide (pa < t + 4096)

/-- FRMIG .commit (16 R368, R364). -/
def execFrmigCommit (d a b : SReg) (x : Guard) (s : State) : Host.Outcome State Fault Refusal :=
  runs (frmigReq x d a (pair b.toNat)) s fun m s =>
    if m = 0 then .done s
    else if !(ownSettles s).isEmpty then awaitSettled (wrStatus d 0 0) s
    else match frameNamed s (rdSS s a.toNat) 65536 with
    | .error e => e
    | .ok (home, pa) => match frameNamed s (rdSS s b.toNat) 8 with
    | .error e => e
    | .ok (lh, lpa) => match (homeOf home s).mig.filter fun g => g.old == pa / 65536 with
    | none => .done (wrStatus d 1 0 s)
    | some g =>
      let key := lh * Config.stackBytes + lpa
      let e := leNat (readBytes s.mem key 8)
      if lh ≠ home ∨ !natb e ∨ natb (e / 2) ∨ fld e 16 20 ≠ g.old ∨ largeLeaf s lh lpa then .done (wrStatus d 2 0 s)
      else if !g.copied then .stall s
      else
        let new := e - fld e 16 20 * 65536 + g.spare * 65536
        let s := coreOrdered (cellsAt key (leBytes 8 new)) s
        let s := modHome home (fun h => { h with mig := some { g with committed := true } }) s
        let s := removeEntries home (fun t => t.remote.isNone && decide (t.pa ≤ pa) && decide (pa < t.pa + 2 ^ t.sz)) (markStale home (fun _ => true) s)
        awaitSettled (wrStatus d 0 0) s

/-- List a frame as bad with its cause (16 R369): in the lifetime record first, then in the stack copy; status 4 where the list
is full. -/
def listBad (home frame cause : Nat) (s : State) : Nat × State :=
  let n := (homeOf home s).bad.length
  if 1024 ≤ n then (4, s)
  else
    let w := leBytes 4 (frame + cause * 2 ^ 20 + 2 ^ 31)
    let s := { s with life := writeBytes s.life (0x042000 + 4096 * home + 4 * n) w }
    let s := homeStore (cellsAt (reservedAt home (0x400000 + 4 * n)) w) s
    (0, modHome home (fun h => { h with bad := h.bad ++ [(frame, cause)] }) s)

/-- The cause with which a migrated frame is listed (16 R369, R367): 2 where an uncorrectable error was found in it, 1 where it reached
the threshold of corrected errors; of a frame that came to neither the spec states none, and one of them is a free value (log 29). -/
def endCause (h : Home) (frame : Nat) (v : DWord) : Nat :=
  if h.lost.contains frame then 2
  else if h.corr.any fun x => x.1 == frame && decide (16 ≤ x.2) then 1
  else 1 + v.toNat % 2

/-- FRMIG .end (16 R368, R369). -/
def execFrmigEnd (d a : SReg) (x : Guard) (s : State) : Host.Outcome State Fault Refusal :=
  runs (frmigReq x d a []) s fun m s =>
    if m = 0 then .done s
    else match frameNamed s (rdSS s a.toNat) 65536 with
    | .error e => e
    | .ok (home, pa) => match (homeOf home s).mig.filter fun g => g.old == pa / 65536 with
    | none => .done (wrStatus d 1 0 s)
    | some _ =>
      let (v, s) := drawFree s
      let s := modHome home (fun h => { h with mig := none }) s
      let r := listBad home (pa / 65536) (endCause (homeOf home s) (pa / 65536) v) s
      .done (wrStatus d r.1 0 r.2)

/-- FRMIG .bad (16 R368, R369). -/
def execFrmigBad (d a : SReg) (x : Guard) (s : State) : Host.Outcome State Fault Refusal :=
  runs (frmigReq x d a []) s fun m s =>
    if m = 0 then .done s
    else match frameNamed s (rdSS s a.toNat) 65536 with
    | .error e => e
    | .ok (home, pa) =>
      let r := listBad home (pa / 65536) 3 s
      .done (wrStatus d r.1 0 r.2)

end Sys2Proof.Machine
end

