-- ==== Sys2Proof/Machine/Scheduler.lean ====
section
/-! DEFINITION. The die scheduler: placement and start of blocks (13 R300, 02 R49, R55, R58), and the events LAUNCH_APPEND,
DEPENDENCE_POLL, ADMISSION, BLOCK_DEAL, BLOCK_START, BLOCK_RESTART, LAUNCH_COMPLETION, PIN_END_FLUSH, BALANCE_TICK,
BALANCE_ARRIVAL, BOOST, LCLK_TICK, WS_REFRESH_WINDOW, RETENTION_ENTRY and RETENTION_EXIT. -/

namespace Sys2Proof.Machine

/-- A die of the module: a compute die, or the service cores of a home (00 R5). -/
def dieThere (d : Nat) : Bool := decide (d < 40) || (decide (128 ≤ d) && decide (d < 168))

/-- A core of the module (01 R14, R15). -/
def coreThere (d c : Nat) : Bool := (decide (d < 40) && decide (c < 480)) || (decide (128 ≤ d) && decide (d < 168) && decide (c < 4))

/-- A gang slot of the module (02 R29): a service core has eight in all (01 R14). -/
def slotThere (k : GangKey) : Bool := coreThere k.die k.core && decide (k.part < if 128 ≤ k.die then 1 else 4) && decide (k.slot < 8)

/-- The crew whose two gangs share a kitty (02 R47). -/
def kitCrew (r : LaunchRec) : Option Nat :=
  if r.kitn ≠ 0 ∧ r.kita ≠ 0xFF ∧ r.kitb ≠ 0xFF ∧ r.kita ≠ r.kitb ∧ r.kita / 8 = r.kitb / 8 then some (r.kita / 8) else none

/-- The kitty size of a gang (02 R47). -/
def kitOf (r : LaunchRec) (g : Nat) : Nat := if (kitCrew r).isSome ∧ (g = r.kita ∨ g = r.kitb) then r.kitn else 0

/-- The role of a gang (02 R44). -/
def roleOf (r : LaunchRec) (g : Nat) : Role :=
  match fld r.roles (2 * g) 2 with
  | 0 => .general
  | 1 => .vector
  | 2 => .matrix
  | _ => .copy

/-- Free register blocks that a block asks for in the partition of its crew `c` (13 R300): a kitty window counts once for the crew that has
it (02 R46, log 89). -/
def crewBlocks (r : LaunchRec) (c : Nat) : Nat := r.regs * r.crew - if kitCrew r = some c then r.kitn / 16 else 0

/-- A block of the launch holds array state (05 R116, 08 R188). -/
def holdsArray (l : Launch) : Bool :=
  l.info.twin || decide (0 < l.info.rings) || (blockGangs l).any fun g => roleOf l.info g == .matrix || roleOf l.info g == .copy

/-- A block holds the array state of a core (05 R116, 08 R188). -/
def arrayHeld (s : State) (d c : Nat) : Bool :=
  (allBlocks s).any fun b => placed b && b.array && b.die == d && (b.core == c || (b.twin && b.core + 1 == c))

/-- Free gang slots of a partition, ascending. -/
def freeSlots (s : State) (d c p : Nat) : List Nat :=
  let used := ((allGangs s ++ keptGangs s).filter fun g => g.key.die == d && g.key.core == c && g.key.part == p).map (·.key.slot)
  (List.range 8).filter fun n => !used.contains n

/-- A block of a launch fits a core (13 R300). -/
def fits (s : State) (l : Launch) (d c : Nat) : Bool :=
  decide ((coreOf d c s).ports ≠ 3) &&
  (List.range l.info.block).all (fun p => decide (l.info.crew ≤ (freeSlots s d c p).length) && decide (crewBlocks l.info p ≤ freeBlocks s d c p)) &&
  decide (l.info.scratch ≤ freeScratch s d c) && (!holdsArray l || !arrayHeld s d c) &&
  (!l.info.twin || (decide (c % 2 = 0) && decide ((coreOf d (c + 1) s).ports ≠ 3) && !arrayHeld s d (c + 1)))

/-- The load of a core: its occupied gang slots but for a supervisor crew's (13 R300, R307). -/
def loadOf (s : State) (d c : Nat) : Nat := ((allGangs s).filter fun g => g.key.die == d && g.key.core == c && !isCrew s g).length

/-- The fitting core of least load on a die, the lowest of equals (13 R300). -/
def bestCore (s : State) (l : Launch) (d : Nat) : Option Nat :=
  ((List.range 480).foldl (fun (best : Option (Nat × Nat)) c =>
    let n := loadOf s d c
    match best with
    | some (m, _) => if n < m ∧ fits s l d c then some (n, c) else best
    | none => if fits s l d c then some (n, c) else none) none).map (·.2)

/-- Put a gang into its slot. -/
def putGang (g : Gang) (s : State) : State :=
  let s := takePool g.key s
  if s.gang.key = g.key then { s with gang := g } else { s with gangs := g :: s.gangs.filter fun x => decide (x.key ≠ g.key) }

/-- Put a block among the blocks, in place of its former state. -/
def putBlock (b : Block) (s : State) : State :=
  if s.block.key = b.key ∧ s.block.st ≠ .vacant then { s with block := b }
  else { s with blocks := b :: s.blocks.filter fun x => decide (x.key ≠ b.key) || decide (x.st = .vacant) }

/-- A gang of a block as placed, before it starts. -/
def placedGang (l : Launch) (b : BlockKey) (level : Level) (k : GangKey) (g : Nat) : Gang :=
  { Gang.vacant k with
    live := true, blk := b, gno := g, ctx := l.ctx, level := level, role := roleOf l.info g, slices := l.info.slices,
    regs := l.info.regs, kit := kitOf l.info g, prio := l.info.prio }

/-- A replica of a block is lost (19 R421). -/
def replicaLost (s : State) (k : BlockKey) : Bool := (blockOf k s).any (·.lost)

/-- A block of a launch that starts for the first time (19 R408, R409); replicas lost before it starts are out already. -/
def newBlock (l : Launch) (b : BlockKey) (s : State) : Block :=
  let out := (List.range l.info.nrep).filter fun k => replicaLost s ⟨b.name, k, b.idx⟩
  { Block.vacant with
    key := b, repl := b.rep - (out.filter fun k => decide (k < b.rep)).length, nrep := l.info.nrep - out.length, degr := !out.isEmpty }

/-- Place a block on a core: its slots, registers and scratch are taken (13 R300). Crew 0 takes partition `p0`; a supervisor crew takes the
slots that it keeps (13 R307). -/
def placeOn (l : Launch) (b : BlockKey) (d c p0 : Nat) (level : Level) (s : State) : State :=
  let old := (blockOf b s).getD (newBlock l b s)
  let blk : Block := { old with
    st := .starting, die := d, core := c, gangs := maskOf fun g => (blockGangs l).contains g, scratch := [], size := l.info.scratch,
    bars := List.replicate 32 Barrier.reset, kv := [], kfull := [], array := holdsArray l, twin := l.info.twin, flushReq := false, ringMem := [] }
  let slots := fun p => freeSlots s d c p
  let slot := fun (g : Nat) => ((l.kept[g]?).map (·.1)).getD ⟨d, c, p0 + g / 8, nth 0 (slots (p0 + g / 8)) (g % 8)⟩
  let gs := (blockGangs l).map fun g => placedGang l b level (slot g) g
  putBlock blk (gs.foldl (fun s g => putGang g s) { s with past := s.past.filter fun x => !(x.die == d && x.core == c) })

/-- Zeroing is an access to core scratch (10 R245): a retained scratch of the core in focus begins to leave retention, or does so when it
has entered; the clk that the access stalls. -/
def rouseScratch (s : State) : Nat × State :=
  match s.core.scr.retained, s.core.scr.busy with
  | false, none => (0, s)
  | true, none => (1536, leaveRetention false s)
  | true, some t => (t - s.clk, s)
  | false, some t => (t - s.clk + 1536, later (t - s.clk + 1536) .none (.retentionExit s.core.die s.core.core false)
      (modCore (fun c => { c with scr := ⟨s.clk, true, some (t + 1536)⟩ }) s))

/-- A placed block's scratch is zeroed, 256 bytes a clk, and then it starts or restarts (10 R234, 02 R58). -/
def startZeroing (b : BlockKey) (s : State) : State :=
  match blockOf b s with
  | none => s
  | some x =>
    let (n, s') := if x.size = 0 then (0, s) else rouseScratch (focusCore x.die x.core s)
    later (n + x.size / 256) (.block b) (if x.recorded then .blockRestart else .blockStart b) (focusCore s.core.die s.core.core s')

/-- The deal of one block (13 R300): none where it fits no core of its die, or issued copies still use its scratch (02 R58, 14 R327). -/
def placeBlock (b : BlockKey) (s : State) : Option State :=
  match launchOf b.name s with
  | none => none
  | some l =>
    if ((blockOf b s).any fun x => placed x || x.st == .ended) || copiesPending s b then none
    else (bestCore s l (l.dieFor b.rep b.idx)).map fun c =>
      startZeroing b (placeOn l b (l.dieFor b.rep b.idx) c 0 .kernel s)

/-- The deal of several blocks in one step, all or none (13 R299). -/
def placeAll (ks : List BlockKey) (s : State) : Option State := ks.foldl (fun r k => r.bind (placeBlock k)) (some s)

/-- Where a gang starts: the four words of its resume entry (02 R55). -/
structure Resume where
  pc : Word
  arg : Word
  act : Word
  dead : Word
deriving DecidableEq, Repr

/-- The entry of a gang that starts for the first time (02 R55, R38); one the block does not have has ended. -/
def firstEntry (l : Launch) (g : Nat) : Resume :=
  if (blockGangs l).contains g then
    ⟨BitVec.ofNat 32 (l.vers.headD 0 * 2 ^ 20 + l.info.entry.toNat % 2 ^ 20), l.info.arg, maskOf fun i => decide (i < l.info.alanes), 0⟩
  else ⟨noPos, l.info.arg, 0, 0⟩

/-- The bytes of a resume entry (02 R55). -/
def Resume.bytes (e : Resume) : List Byte := leBytes 4 e.pc.toNat ++ leBytes 4 e.arg.toNat ++ leBytes 4 e.act.toNat ++ leBytes 4 e.dead.toNat

/-- The base of the private window of a gang (13 R295). -/
def windowOf (l : Launch) (idx g : Nat) : DWord := l.info.privb + BitVec.ofNat 64 ((32 * idx + g) * l.info.priv * 32)

/-- The split-table entry of slice `k` at a start or restart (02 R34). -/
def startEntry (e : Resume) (clk k : Nat) : SplitEntry :=
  if (e.act &&& ~~~e.dead) &&& sliceLanes (sliceSet (· == k)) = 0 then SplitEntry.over
  else ⟨e.pc, noPos, true, .ready, 0, 0, 0, 0, 0, .none, clk, 0, none⟩

/-- A gang as it starts or restarts: its launch registers and masks (02 R49, R34, R58). -/
def startedGang (l : Launch) (lclk : DWord) (clk : Nat) (e : Resume) (g : Gang) : Gang :=
  let w := windowOf l g.blk.idx g.gno
  let w32 := fun (n : Nat) => (BitVec.ofNat 32 n : Word)
  let half := fun (v : DWord) (i : Nat) => v.extractLsb' (32 * i) 32
  { Gang.vacant g.key with
    live := true, blk := g.blk, gno := g.gno, ctx := g.ctx, level := g.level, role := g.role, slices := g.slices, regs := l.info.regs,
    kit := g.kit, prio := g.prio,
    v := canon ((List.range (4 * g.slices)).map fun i => (32 + i, w32 l.info.priv))
    s := canon ([(0, e.arg), (1, w32 g.blk.idx), (2, w32 g.gno), (3, w32 (g.blk.idx / max l.info.team 1)), (4, half l.recAddr 0),
      (5, half l.recAddr 1), (6, half w 0), (7, half w 1)] ++ (List.range 8).map fun i => (8 + i, nth 0 l.info.uarg i))
    mode := l.info.mode &&& 0xFFFFFFFF0000003F
    active := e.act, dead := e.dead, split := (List.range g.slices).map (startEntry e clk), trapvec := l.info.trapv,
    resumePc := e.pc, resumeArg := e.arg, lclkV := lclk }

/-- The array state of a core as at block start (08 R187, 02 R59), with no element left that holds an error (05 R120). -/
def clearArray (c : Core) : Core :=
  { c with live := Plane.reset, shadow := Plane.reset, shadowReady := true, acc := [], cb := [], cbWait := [], om := [], streams := [], tiles := [], marks := [],
           rings := List.replicate 16 Ring.reset }

/-- The gangs of a placed block start, each from its entry; those that have ended free their slots (02 R49, R58, R59). -/
def beginBlock (b : Block) (l : Launch) (e : Nat → Resume) (s : State) : State :=
  let runs' := fun (g : Gang) => decide ((e g.gno).pc ≠ noPos)
  let mine := gangsOf b.key s
  let lclk := (coreOf b.die b.core s).lclk
  let s := mapGangs (fun g => if g.live ∧ g.blk = b.key then
    (if runs' g then startedGang l lclk s.clk (e g.gno) g else Gang.vacant g.key) else g) s
  let s := mapBlocks (fun x => if x.key = b.key ∧ x.st = .starting then
    let here := maskOf fun g => mine.any fun y => y.gno == g && runs' y
    { x with st := .resident, gangs := here, rolled := x.rolled &&& here } else x) s
  let s := if b.array then onCore b.die b.core (modCore clearArray) s else s
  let s := if b.twin then onCore b.die (b.core + 1) (modCore clearArray) s else s
  let s := if b.size = 0 then s else onCore b.die b.core (modCore fun c => { c with scr := { c.scr with last := s.clk } }) s
  let s := ((mine.filter runs').map (·.key)).foldl (fun s k => onGang k askLeave s) s
  if mine.any runs' then s else endBlock b.key s

/-- The scratch of a dealt block is zeroed, its resume record is written, and its gangs start (10 R234, 02 R55). -/
def execBlockStart (b : BlockKey) (s : State) : Host.Outcome State Fault Refusal :=
  .next (match blockOf b s, launchOf b.name s with
    | some x, some l =>
      if x.st ≠ .starting then s
      else
        let write := fun (s : State) (g : Nat) => (unitWrite l.ctx.toNat (resumeAddr l b g) (firstEntry l g).bytes s).getD s
        let s := mapBlocks (fun y => if y.key = b then { y with recorded := true } else y) ((List.range 32).foldl write s)
        beginBlock x l (firstEntry l) s
    | _, _ => s)

/-- Change a core, wherever it stands. -/
def modCoreAt (d c : Nat) (f : Core → Core) (s : State) : State := onCore d c (modCore f) s

/-- A flushed block restarts from its resume record once its entries are drained and its copies are complete (02 R58, 14 R327). A record that cannot be read is tried
again. -/
def execBlockRestart (s : State) : Host.Outcome State Fault Refusal :=
  let b := s.block
  .next (if b.st ≠ .starting then s
    else if !drained s b.key then later 1 (.block b.key) .blockRestart s
    else match launchOf b.key.name s with
    | none => s
    | some l =>
      let read := fun (g : Nat) => unitRead s l.ctx.toNat (resumeAddr l b.key g) 16
      if (blockGangs l).any fun g => (read g).isNone then later 4096 (.block b.key) .blockRestart s
      else
        let entry := fun (g : Nat) =>
          let bs := (read g).getD []
          let w := fun i => BitVec.ofNat 32 (recField bs (4 * i) 4)
          (⟨w 0, w 1, w 2, w 3⟩ : Resume)
        beginBlock b l entry (modCoreAt b.die b.core (perfAdd 26 0 1) s))

/-- A block whose flush waits for the end of its pin is flushed (02 R57). -/
def execPinEndFlush (s : State) : Host.Outcome State Fault Refusal :=
  let b := s.block
  .next (if placed b && b.flushReq && !anyPinned s b.key.name b.key.idx then flushBlock b.key.name b.key.idx false s else s)

/-- The next die-local number that no launch of the die has (13 R302). -/
def freshLref (d : Nat) (s : State) : Nat :=
  let n := (dieOf d s).nextLref
  let used := s.launches.flatMap fun l => if l.st = .complete then [] else l.lrefs
  (((List.range 4096).map fun i => (n + i) % 4096).find? fun m => !used.contains (d, m)).getD n

/-- A copy of a launch record reaches a die: it takes a die-local number and joins its queue (13 R297, R302). -/
def execLaunchAppend (die name queue : Nat) (s : State) : Host.Outcome State Fault Refusal :=
  if !dieThere die || decide (16 ≤ queue) then .fault .noSuchUnit
  else .next (match launchOf name s with
    | none => s
    | some l =>
      if l.st = .complete ∨ l.reserved ∨ l.lrefs.any (fun x => x.1 == die) then s
      else
        let s := onDie die (fun s =>
          let n := freshLref die s
          modDie (fun d => { d with nextLref := (n + 1) % 4096, queues := modNth d.queues queue (· ++ [name]) })
            (modLaunch name (fun l => { l with lrefs := l.lrefs ++ [(die, n)] }) s)) s
        later 1 .none (.admission die) s)

/-- The dependence counters of the queue heads of a die are read again (13 R298): what it knows of them is forgotten, but for those a peer
is being asked for. -/
def execDependencePoll (die : Nat) (s : State) : Host.Outcome State Fault Refusal :=
  if !dieThere die then .fault .noSuchUnit
  else .next (later 0 .none (.admission die) (onDie die (modDie fun d => { d with afters := d.afters.filter fun x => x.2.2.isNone }) s))

/-- What a die knows of a dependence: `none` while a peer is asked. -/
def setAfter (d name i : Nat) (r : Option Bool) (s : State) : State :=
  onDie d (modDie fun x => { x with afters := (name, i, r) :: x.afters.filter fun y => !(y.1 == name && y.2.1 == i) }) s

/-- A sink record about a launch as a whole (18 R395). -/
def launchSink (code kind : Nat) (info : Word) (addr : DWord) (count : Nat) : SinkInfo :=
  ⟨code, kind, 0, 0, 0, 0, 0, 0, 0, 0, info, addr, count⟩

/-- A dependence counter cannot be read, which counts as not met; the first such failure of a record is reported (13 R298). -/
def badAfter (d name i code : Nat) (va : DWord) (s : State) : State :=
  let s := setAfter d name i (some false) s
  match launchOf name s with
  | none => s
  | some l => if l.afterBad then s
    else sinkRecord name (launchSink code 3 0 va 0) (modLaunch name (fun l => { l with afterBad := true }) s)

/-- A die scheduler asks a peer module for a counter in a remote window (13 R298, 11 R258). -/
def askAfter (d name i link pctx : Nat) (pva va : DWord) (c : Nat) (s : State) : State :=
  let tag := s.nextTag
  let r : Remote := ⟨tag, link, ⟨d, 0, 0, 0⟩, 0, false, 0, .after name i, va, 0, some (d, 0, 5), [], s.clk, false⟩
  let s := useEntry false c va { s with nextTag := tag + 1, remotes := s.remotes ++ [r] }
  later Config.remoteTimer .none (.remoteTimeout tag) (sendLink link (.req ⟨tag, BitVec.ofNat 16 pctx, pva, false, 8, [], false⟩) s)

/-- Where a dependence counter lies: in a remote window, or as the module's own units find it (log 19). -/
def afterPlace (s : State) (l : Launch) (va : DWord) : Xlate :=
  match xlate s l.ctx.toNat l.info.podset va .load with
  | .remote h k c v => .remote h k c v
  | _ => xlateUnit s l.ctx.toNat va .load

/-- A die scheduler reads one dependence counter, with an ordinary load (13 R298). -/
def readAfter (d : Nat) (l : Launch) (s : State) (x : Nat × DWord × DWord) : State :=
  if (dieOf d s).afters.any fun y => y.1 == l.name && y.2.1 == x.1 then s
  else match afterPlace s l x.2.1 with
  | .ok _ k => if s.poison.contains (sectorOf k) then badAfter d l.name x.1 0x32 x.2.1 s else setAfter d l.name x.1 (some (decide (x.2.2.toNat ≤ leNat (readBytes s.mem k 8)))) s
  | .remote _ link pctx pva => askAfter d l.name x.1 link pctx pva x.2.1 l.ctx.toNat (setAfter d l.name x.1 none s)
  | .fault _ code => badAfter d l.name x.1 code x.2.1 s
  | _ => badAfter d l.name x.1 0x10 x.2.1 s

/-- A die scheduler reads the counters of a queue head that it has not read since it last forgot them. -/
def readAfters (d : Nat) (l : Launch) (s : State) : State :=
  ((List.range l.info.afters.length).zip l.info.afters).foldl (readAfter d l) s

/-- Every dependence of a launch was met when a die last read it (13 R298). -/
def afterReady (d : Die) (l : Launch) : Bool :=
  (List.range l.info.afters.length).all fun i => d.afters.any fun x => x.1 == l.name && x.2.1 == i && x.2.2 == some true

/-- Take a launch's copy out of the queues of dies that meet a test. -/
def popCopies (p : Nat → Bool) (name : Nat) (s : State) : State :=
  mapDies (fun d => if p d.die then { d with queues := d.queues.map fun q => q.filter (· != name) } else d) s

/-- A launch is refused (13 R299): a record of KIND 4, and then it completes. -/
def refuse (l : Launch) (code : Nat) (info : Word) (s : State) : State :=
  let s := popCopies (fun _ => true) l.name (sinkRecord l.name (launchSink code 4 info 0 0) s)
  let s := modLaunch l.name (fun x => { x with st := .admitted, started := x.started.map fun _ => x.info.team }) s
  later 1 .none (.launchCompletion l.name) s

/-- The replicas of a block that are not lost. -/
def replicaKeys (s : State) (l : Launch) (b : Nat) : List BlockKey :=
  ((List.range (max l.info.nrep 1)).map fun k => ⟨l.name, k, b⟩).filter fun k => !replicaLost s k

/-- Every block of a launch that is to start, with its replicas. -/
def allKeys (s : State) (l : Launch) : List BlockKey :=
  ((List.range l.blocks).filter fun b => !l.begun b).flatMap (replicaKeys s l)

/-- The module as though no launch held anything: supervisor crews' holdings alone are counted (13 R299). -/
def emptied (s : State) : State :=
  let crew := fun (b : BlockKey) => ((launchOf b.name s).bind (·.crewOf)).isSome
  mapBlocks (fun b => if crew b.key then b else { b with st := .vacant }) (mapGangs (fun g => if crew g.blk then g else { g with live := false }) s)

/-- A die holds a resident block of a launch of the other kind than PROLOGUE says (13 R299). -/
def prologueBars (s : State) (l : Launch) (d : Nat) : Bool :=
  if l.info.prologue then wsLocked s d
  else (allBlocks s).any fun b => b.die == d && b.st == .resident && (launchOf b.key.name s).any fun x => x.crewOf.isNone && x.info.prologue

/-- The version that a launch's record names, when it is a handle of a published one (15 R347). -/
def namedVersion (s : State) (l : Launch) : Option Ver :=
  match verIn s l.ctx.toNat l.info.codev with
  | none => none
  | some h => if h.hdl then (verIn s l.ctx.toNat h.cur).filter fun e => e.state == 2 else none

/-- Next place in the order of admission. -/
def nextSeq (s : State) : Nat := ((s.launches.map (·.seq)).max?.getD 0) + 1

/-- A launch is admitted: it holds the version it binds (13 R299, 15 R347). -/
def holdVersion (l : Launch) (v : Nat) (s : State) : State :=
  modLaunch l.name (fun x => { x with st := .admitted, vers := [v], seq := nextSeq s }) s

/-- Admission of the head of a queue of a die (13 R299); none where the record stays at its head. -/
def tryAdmit (d name : Nat) (s : State) : Option State :=
  match launchOf name s with
  | none => some (popCopies (· == d) name s)
  | some l =>
    let rm := l.info.mode.toNat % 8
    if l.st = .complete then some (popCopies (· == d) name s)
    else if l.st = .admitted then (if prologueBars s l d then none else some (popCopies (· == d) name s))
    else if rm = 0 ∨ 5 < rm then some (refuse l 0x55 1 s)
    else match namedVersion s l with
    | none => some (refuse l 0x55 2 s)
    | some v =>
      if v.secv.toNat < s.fuse.toNat then some (refuse l 0x50 0 s)
      else if l.info.cls = .c then
        let ks := allKeys s l
        if (placeAll ks (emptied (holdVersion l v.num s))).isNone then some (refuse l 0x51 0 s)
        else if l.dies.any fun e => prologueBars s l e || !l.lrefs.any fun x => x.1 == e then none
        else (placeAll ks (holdVersion l v.num s)).map fun s =>
          popCopies (fun _ => true) name (modLaunch name (fun x => { x with reserved := true, started := x.started.map fun _ => x.info.team }) s)
      else if l.dies.any fun e => prologueBars s l e then none
      else some (popCopies (· == d) name (holdVersion l v.num s))

/-- The queue heads of a die in the order in which they are served: queue and launch (13 R298). -/
def headsOf (s : State) (d : Die) : List (Nat × Nat) :=
  [3, 2, 1, 0].flatMap fun p => (List.range 4).filterMap fun i =>
    let q := 4 * p + (nth 3 d.rot p + 1 + i) % 4
    ((nth [] d.queues q).head?).bind fun n => match launchOf n s with
      | none => some (q, n)
      | some l => if (ctxOf l.ctx.toNat s).suspended ∨ !afterReady d l then none else some (q, n)

/-- Pop one ready head of a die that can be admitted now. -/
def popOne (d : Nat) (s : State) : Option State :=
  (headsOf s (dieOf d s)).findSome? fun h => (tryAdmit d h.2 s).map fun s =>
    onDie d (modDie fun y => { y with rot := modNth y.rot (h.1 / 4) fun _ => h.1 % 4 }) s

/-- The copies of a launch have left the queues of a die and were there (13 R299). -/
def poppedOn (s : State) (l : Launch) (d : Nat) : Bool :=
  l.lrefs.any (fun x => x.1 == d) && !(dieOf d s).queues.any fun q => q.contains l.name

/-- The present replicas of a block that has begun: those not lost. -/
def liveKeys (s : State) (l : Launch) (b : Nat) : List BlockKey :=
  (replicaKeys s l b).filter fun k => (blockOf k s).any fun x => x.st != .ended

/-- The blocks of a launch that are flushed, with a replica on a die, in increasing order; every replica is flushed. -/
def flushedOn (s : State) (l : Launch) (d : Nat) : List Nat :=
  (List.range l.blocks).filter fun b =>
    let ks := liveKeys s l b
    !ks.isEmpty && ks.all (fun k => (blockOf k s).any fun x => x.st == .flushed) && ks.any fun k => l.dieFor k.rep b == d

/-- The next block of a launch to start on a die (13 R299). -/
def unstartedOn (l : Launch) (d : Nat) : Option Nat :=
  let team := max l.info.team 1
  (List.range l.teams).findSome? fun i =>
    if (List.range (max l.info.nrep 1)).any fun k => nth 0 l.dies (k * l.teams + i) == d then
      (List.range l.info.team).findSome? fun j => if l.begun (i * team + j) then none else some (i * team + j)
    else none

/-- The blocks of a launch to deal next on a die (13 R299): its flushed ones first. -/
def nextOf (s : State) (l : Launch) (d : Nat) : List BlockKey :=
  let fit := fun (ks : List BlockKey) => !ks.isEmpty && (placeAll ks s).isSome
  let fl := flushedOn s l d
  let fresh := match unstartedOn l d with
    | some b => if fit (replicaKeys s l b) then replicaKeys s l b else []
    | none => []
  match l.info.cls with
  | .c =>
    let ks := ((List.range l.blocks).flatMap (liveKeys s l)).filter fun k => (blockOf k s).any fun x => x.st == .flushed
    if fl.isEmpty ∨ !fit ks then [] else ks
  | .p => match fl with
    | b :: _ => if fit (liveKeys s l b) then liveKeys s l b else []
    | [] => fresh
  | .w => match fl.find? fun b => fit (liveKeys s l b) with
    | some b => liveKeys s l b
    | none => fresh

/-- The launches in the order in which a die deals their blocks: by priority, then by admission (13 R299). -/
def dealOrder (s : State) : List Launch :=
  let ls := s.launches.filter fun l => decide (l.st = .admitted) && l.crewOf.isNone && !(ctxOf l.ctx.toNat s).suspended
  let add := fun (l : Launch) (acc : List Launch) =>
    let first := acc.takeWhile fun x => decide (l.info.prio < x.info.prio) || (l.info.prio == x.info.prio && decide (x.seq < l.seq))
    first ++ l :: acc.drop first.length
  ls.foldl (fun acc l => add l acc) []

/-- A struck replica waits for a core of a die, which deals nothing before it (19 R422). -/
def struckWaits (s : State) (d : Nat) : Bool := s.resyncs.any fun r => (blockOf r.dst s).any fun b => b.struck && b.st == .flushed && b.die == d

/-- What a die deals next. -/
def nextDeal (s : State) (d : Nat) : List BlockKey :=
  if struckWaits s d then [] else ((dealOrder s).findSome? fun l =>
    if l.dies.contains d && l.dies.all (fun e => poppedOn s l e || decide (l.info.nrep < 2)) && poppedOn s l d then
      (let ks := nextOf s l d; if ks.isEmpty then none else some ks) else none).getD []

/-- The scheduler of a die pops one ready head, and when none can be, deals what fits (13 R298, R299). -/
def execAdmission (die : Nat) (s : State) : Host.Outcome State Fault Refusal :=
  if !dieThere die then .fault .noSuchUnit
  else
    let heads := (dieOf die s).queues.filterMap fun q => q.head?.bind fun n => launchOf n s
    let s := heads.foldl (fun s l => readAfters die l s) s
    .next (match popOne die s with
      | some s => later 0 .none (.admission die) s
      | none =>
        let ks := nextDeal s die
        if ks.isEmpty then s
        else later 0 .none (.admission die) (ks.foldl (fun s k => later 0 .none (.blockDeal k) s) s))

/-- The blocks that are dealt with a block in one step, all or none: the live replicas of its index (19 R408), and for a class C launch all
that are flushed with it (18 R402). -/
def dealtWith (s : State) (b : BlockKey) : List BlockKey :=
  match launchOf b.name s with
  | none => [b]
  | some l =>
    let flushed := fun (ks : List BlockKey) => ks.filter fun k => (blockOf k s).any fun x => x.st == .flushed
    if (flushed [b]).isEmpty then (replicaKeys s l b.idx).filter fun k => !(blockOf k s).any placed
    else if l.info.cls = .c then flushed ((List.range l.blocks).flatMap (liveKeys s l)) else flushed (liveKeys s l b.idx)

/-- A block is placed on the fitting core of least load (13 R300), with those that are dealt with it; an unstarted one has begun. -/
def execBlockDeal (b : BlockKey) (s : State) : Host.Outcome State Fault Refusal :=
  .next (match placeAll (dealtWith s b) s with
    | none => s
    | some s => modLaunch b.name (fun l =>
        let team := max l.info.team 1
        { l with started := modNth l.started (b.idx / team) fun n => max n (b.idx % team + 1) }) s)

/-- Every block of a launch has ended (13 R301). -/
def blocksEnded (s : State) (l : Launch) : Bool :=
  (List.range l.blocks).all l.begun && !(allBlocks s).any fun b => b.key.name == l.name && b.st != .ended

/-- The entries and engine operations of a launch are done (13 R301). -/
def launchDrained (s : State) (name : Nat) : Bool :=
  !(allCores s).any fun c => c.muck.any (fun e => e.blk.name == name) || c.cmds.any fun q => q.any fun x => x.blk.name == name

/-- The remaining task entries of a launch: their number, and the state without them (13 R301). -/
def dropTasks (l : Launch) (s : State) : Nat × State :=
  let mine := fun (d : Nat) (t : Task) => l.lrefs.any fun x => x.1 == d && x.2 == t.lref
  let n := ((allCores s).map fun c => (c.taskq.filter (mine c.die)).length + (c.coming.filter fun t => mine c.die t.2).length).sum
  (n, mapCores (fun c => { c with taskq := c.taskq.filter fun t => !mine c.die t, coming := c.coming.filter fun t => !mine c.die t.2 }) s)

/-- The core and partition of a supervisor crew (13 R307): those chosen at bring-up, or once its core is offline (01 R19) the lowest core
that it fits. -/
def crewPlace (l : Launch) (d : Nat) (s : State) : Option (Nat × Nat) :=
  if (coreOf d l.place.1 s).ports ≠ 3 then some l.place
  else ((List.range 480).find? fun c => fits (modLaunch l.name (fun x => { x with kept := [] }) s) l d c).map fun c => (c, 0)

/-- Firmware starts a supervisor crew (13 R307) on its core and partition, whose slots, registers and scratch it keeps. -/
def startCrew (l : Launch) (d : Nat) (s : State) : State :=
  let b : BlockKey := ⟨l.name, 0, 0⟩
  match crewPlace l d s with
  | none => s
  | some p =>
    let s := { s with blocks := s.blocks.filter fun x => decide (x.key ≠ b) }
    let l := { l with place := p, kept := if p = l.place then l.kept else [] }
    let s := placeOn l b d p.1 p.2 .supervisor (modLaunch l.name (fun x => { x with place := p, kept := [] }) s)
    let kept := ((List.range 32).filterMap fun g => (gangsOf b s).find? fun x => x.gno == g).map fun g => (g.key, g.kit)
    startZeroing b (modLaunch l.name (fun x => { x with kept := kept }) s)

/-- Names of the launches that stand for supervisor crews: serial 1 + die of context 0. -/
def crewName (d : Nat) : Nat := d + 1

/-- A held store to the word at DONE makes its atomic wait (11 R253). -/
def doneWaits (s : State) (l : Launch) : Bool :=
  match xlateUnit s l.ctx.toNat l.info.done .store with
  | .ok _ k => heldAny s k 8
  | _ => false

/-- A launch completes (13 R301): its tasks are discarded and reported, DONE rises, and what it held is free. Firmware starts a supervisor
crew again (13 R307); the walker routine's launches complete nothing. -/
def execLaunchCompletion (name : Nat) (s : State) : Host.Outcome State Fault Refusal :=
  .next (match launchOf name s with
    | none => s
    | some l =>
      if l.st ≠ .admitted ∧ ¬(List.range l.blocks).all l.begun then s
      else if l.st = .complete ∨ !blocksEnded s l then s
      else if !launchDrained s name then later 1 .none (.launchCompletion name) s
      else if l.crewOf.isSome then
        match l.crewOf with
        | some d => if name = crewName d then startCrew l d s else s
        | none => s
      else if doneWaits s l then later 1 .none (.launchCompletion name) s
      else
        let (n, s) := dropTasks l s
        let s := if n = 0 then s else sinkRecord name (launchSink 0 5 0 0 n) s
        let s := (unitAdd l.ctx.toNat l.info.done 1 s l.time).getD s
        let s := popCopies (fun _ => true) name (modLaunch name (fun x => { x with st := .complete }) s)
        let s := { s with
          past := ((allBlocks s).filter fun b => b.key.name == name) ++ s.past
          blocks := s.blocks.filter fun b => decide (b.key.name ≠ name), votes := s.votes.filter fun v => v.name != name }
        let s := l.vers.foldl (fun s v => later 1 .none (.versionFree l.ctx.toNat v) s) s
        (((allDies s).filter fun d => d.queues.any fun q => !q.isEmpty).map (·.die)).foldl (fun s d => later 1 .none (.dependencePoll d) s) s)

/-- Non-provisional entries of a task queue (13 R305). -/
def taskDepth (c : Core) : Nat := (c.taskq.filter fun t => t.prov.isNone).length

/-- Mesh neighbours of a core, ascending (01 R15). -/
def meshNear (c : Nat) : List Nat :=
  ((if 30 ≤ c then [c - 30] else []) ++ (if c % 30 = 0 then [] else [c - 1]) ++ (if c % 30 = 29 then [] else [c + 1]) ++
    (if c + 30 < 480 then [c + 30] else []))

/-- The launch of a task entry has a block resident on a core (13 R305). -/
def taskMoves (s : State) (d n : Nat) (t : Task) : Bool :=
  t.prov.isNone && (allBlocks s).any fun b => b.die == d && b.core == n && b.st == .resident &&
    (launchOf b.key.name s).any fun l => l.lrefs.any fun x => x.1 == d && x.2 == t.lref

/-- Take the `k` youngest entries that meet a test out of a queue: those taken, in their order, and the rest. -/
def takeYoungest (p : Task → Bool) (k : Nat) (q : List Task) : List Task × List Task :=
  q.reverse.foldl (fun (r : List Task × List Task) t => if p t && decide (r.1.length < k) then (t :: r.1, r.2) else (r.1, t :: r.2)) ([], [])

/-- A core acts on one neighbour (13 R305): `own` is its depth as the exchange has left it. -/
def balanceOne (d c thr : Nat) (r : Nat × State) (n : Nat × Nat) : Nat × State :=
  let (own, s) := r
  if own ≤ n.1 + thr then r
  else
    let (out, rest) := takeYoungest (taskMoves s d n.2) ((own - n.1) / 2) (coreOf d c s).taskq
    if out.isEmpty then r
    else
      let s := onCore d c (modCore fun x => perfAdd 28 0 out.length { x with taskq := rest }) s
      let s := onCore d n.2 (modCore fun x => { x with coming := x.coming ++ out.map fun t => (s.clk + 64, t) }) s
      (own - out.length, later 64 .none (.balanceArrival d n.2) s)

/-- Every online core of a die balances its task queue with its neighbours, from one snapshot (13 R305). -/
def execBalanceTick (die : Nat) (s : State) : Host.Outcome State Fault Refusal :=
  if !dieThere die then .fault .noSuchUnit
  else
    let thr := fld (dieOf die s).balcfg.toNat 16 8
    let on := fun (c : Nat) => decide ((coreOf die c s).ports ≠ 3)
    let depth := fun (c : Nat) => taskDepth (coreOf die c s)
    let order := fun (c : Nat) =>
      let ns := ((meshNear c).filter on).map fun n => (depth n, n)
      ns.foldl (fun (acc : List (Nat × Nat)) x => acc.takeWhile (fun y => decide (y.1 ≤ x.1)) ++ x :: acc.dropWhile fun y => decide (y.1 ≤ x.1)) []
    let cores := (List.range 480).filter fun c => on c && decide (0 < depth c)
    .next (if 128 ≤ die then s else cores.foldl (fun s' c => ((order c).foldl (balanceOne die c thr) (depth c, s')).2) s)

/-- Moved task entries appear at the receiver's tail (13 R305). -/
def execBalanceArrival (die core : Nat) (s : State) : Host.Outcome State Fault Refusal :=
  if !coreThere die core then .fault .noSuchUnit
  else .next (onCore die core (modCore fun c =>
    let new := (c.coming.filter fun t => decide (t.1 ≤ s.clk)).map (·.2)
    perfAdd 27 0 new.length { c with taskq := c.taskq ++ new, coming := c.coming.filter fun t => decide (s.clk < t.1) }) s)

/-- A fragment that was eligible for 64 clk without issuing is boosted (13 R306). -/
def execBoost (k : GangKey) (slice : Nat) (s : State) : Host.Outcome State Fault Refusal :=
  if !slotThere k then .fault .noSuchUnit
  else
    let up := fun (e : SplitEntry) => { e with boost := some s.clk }
    .next (onGang k (fun s =>
      let e := entryOf s.gang slice
      if s.gang.live ∧ 64 ≤ e.elig ∧ e.boost.isNone then
        modCore (perfAdd 6 (gangFilter s s.gang) 1) (modSplit (sliceSet (· == slice)) up s) else s) s)

/-- The logical clock of a core rises by 1 (11 R251). -/
def execLclkTick (s : State) : Host.Outcome State Fault Refusal := .next (modCore (fun c => { c with lclk := c.lclk + 1 }) s)

/-- A weight-store bank opens or closes its refresh window (10 R241): fragments that a window holds up try again. -/
def execWsRefreshWindow (s : State) : Host.Outcome State Fault Refusal :=
  .next { s with gaveUp := s.gaveUp.filter fun x => decide (x.1.die ≠ s.die.die) }

/-- Change the retention of one array of the core in focus. -/
def modRetain (acc : Bool) (f : Retain → Retain) (s : State) : State :=
  modCore (fun c => if acc then { c with accr := f c.accr } else { c with scr := f c.scr }) s

/-- An array that has had no access for 65,536 clk begins to enter retention; an entry that has ended leaves it retained
(10 R245). The rule speaks of retained arrays where RETN's enable is cleared: DESIGN CHOICE, one that is still entering goes on, and stays retained
until its next access or RETN write (log 72). -/
def execRetentionEntry (die core : Nat) (acc : Bool) (s : State) : Host.Outcome State Fault Refusal :=
  if !coreThere die core then .fault .noSuchUnit
  else .next (onCore die core (fun s =>
    let r := if acc then s.core.accr else s.core.scr
    let n := if acc then 1366 else 2048
    match r.retained, r.busy with
    | false, none =>
      if (if acc then (dieOf die s).retnAccs else (dieOf die s).retnScr) && decide (r.last + 65536 ≤ s.clk) then
        later n .none (.retentionEntry die core acc) (modRetain acc (fun r => { r with busy := some (s.clk + n) }) s)
      else s
    | false, some t => if t ≤ s.clk then modRetain acc (fun r => { r with retained := true, busy := none }) s else s
    | true, _ => s) s)

/-- A retained array completes its exit (10 R245). -/
def execRetentionExit (die core : Nat) (acc : Bool) (s : State) : Host.Outcome State Fault Refusal :=
  if !coreThere die core then .fault .noSuchUnit
  else .next (onCore die core (fun s =>
    let r := if acc then s.core.accr else s.core.scr
    match r.retained, r.busy with
    | true, some t => if t ≤ s.clk then modRetain acc (fun _ => ⟨s.clk, false, none⟩) s else s
    | _, _ => s) s)

end Sys2Proof.Machine
end

