-- ==== Sys2Proof/Machine/Responses.lean ====
section
/-! DEFINITION. What reaches a gang, a core or a home after an issue: clause headers (04 R85 to R87, 18 R393), reconvergence
(02 R35), gang exit (15 R342), completions (17 R375, 12 R269), releases of held entries (18 R398), faults that homes report (12 R266,
R267, 14 R313), the memory-side TLB (16 R359, R360), remote accesses (11 R258, 18 R404), the array's events (08 R210) and the
starvation timer (17 R383). -/

namespace Sys2Proof.Machine

/-- The first failing check of a header itself: code and TRAPINFO (04 R86). -/
def headerBad (h : Word) : Option (Nat × Word) :=
  if fld h.toNat 4 4 ≠ 15 ∨ fld h.toNat 28 4 ≠ 0 ∨ hdrLen h = 0 ∨ 5 ≤ hdrCls h ∨ hdrGen h = 0 then some (0x01, 0)
  else if 1 < hdrGen h then some (0x06, BitVec.ofNat 32 (hdrGen h)) else none

/-- The breakpoint slot that a header's position meets (09 R228). -/
def breakpointAt (s : State) (pos : Word) : Option Nat :=
  let p := ownPart s
  if !p.bpen then none
  else (List.range 4).find? fun i =>
    let b : Word × Nat × Bool := nth (0, 0, false) p.bps i
    b.2.2 && b.1.toNat == pos.toNat % 2 ^ 20 && b.2.1 == pos.toNat / 2 ^ 20

/-- The issuing fragment begins the clause of a header whose waits are met (04 R87); its role is judged at its first instruction
(02 R45). -/
def beginClause (h : Word) (s : State) : State :=
  let s := modSplit s.frag (fun e => { e with ix := 1, left := hdrLen h, hdr := h, wait := .none }) (relDone s)
  modCore (perfAdd 3 (gangFilter s s.gang) 1) s

/-- The issuing fragment waits at its header (04 R87). -/
def headerWait (s : State) : State := askRecon (giveUp (modSplit s.frag (fun e => { e with wait := .header }) (relDone s)))

/-- A clause header is reached (04 R86, R87): an entry in error kills the block (05 R120); the deliveries of 18 R393 come first, a gang whose deferred stores are not resolved
stops (12 R267), then breakpoints, the header's own checks, the release point of a redundant gang (19 R413) and the waits. -/
def execClauseHeader (h : BitVec 32) (s : State) : Host.Outcome State Fault Refusal :=
  .next (
    let g := s.gang
    if !g.live then s
    else if g.errs.any fun e => match e with | .split k => s.frag.getLsbD k | _ => false then
      killBlock g.blk (gangSink s g 0x32 2 0 (herePos s) (Config.arrayNumber 1) 0) true s
    else if !g.defer.isEmpty then giveUp s
    else match (if g.frame.isNone then g.deliver else []) with
    | d :: _ => takeTrap d.code d.info d.addr (modGang (fun g => { g with deliver := g.deliver.drop 1 }) s)
    | [] => match breakpointAt s (herePos s) with
    | some n => takeTrap 0x52 (BitVec.ofNat 32 n) 0 s
    | none => match headerBad h with
    | some (code, info) => takeTrap code info 0 s
    | none =>
      let go := if headerMet s.gang h then beginClause h s else headerWait s
      if folding s ∧ fld h.toNat 17 2 ≠ 3 ∧ (cur s).wait ≠ .header then
        match g.rel with
        | .none => giveUp (sendRecord 8 s)
        | .sent .. => giveUp s
        | .matched .. => go
      else go)

/-- The thresholds that a fragment of the gang in focus waits for at its header are met (04 R87): in this clk it stands at its header
again, past the release point that it has met, and its clause's first instruction may issue. -/
def execHeaderWaitMet (s : State) : Host.Outcome State Fault Refusal :=
  .next { s with gaveUp := s.gaveUp.filter fun x => decide (x.1 ≠ s.gang.key) }

/-- Slices that wait at reconvergence are released, fused (02 R35). -/
def execReconvergenceRelease (k : GangKey) (rpc : BitVec 32) (s : State) : Host.Outcome State Fault Refusal :=
  if !slotThere k then .fault .noSuchUnit
  else .next (onGang k (fun s =>
    if s.gang.live ∧ reconReady s.gang rpc then
      modSplit (reconSet s.gang rpc) (fun e => { e with fu := true, rpc := noPos, st := .ready, wait := .none, since := s.clk }) s
    else s) s)

/-- An entry of the gang in focus has one part fewer to wait for; what can retire does (17 R375). -/
def finishPart (id n : Nat) (s : State) : State :=
  let s := retireGang (completePart id n s)
  if (List.range s.gang.slices).any fun k => (entryOf s.gang k).wait == .header then later 1 (.gang s.gang.key) .headerWaitMet s else s

/-- As `finishPart`, of a gang in its slot. -/
def finishOf (k : GangKey) (id n : Nat) (s : State) : State := onGang k (fun s => if s.gang.live then finishPart id n s else s) s

/-- An MST of the gang in focus writes its tile (08 R204, R206, R211) at its completion; team scratch in a redundant launch through
the quarantine buffer (12 R270). -/
def performMst (p : Pend) (own : Bool) (s : State) : State :=
  let ts := p.bytes.filterMap fun b => if b.1 = .ts then some (b.2.1, b.2.2) else none
  let core := p.bytes.filterMap fun b => if b.1 = .core then some (b.2.1, b.2.2) else none
  let s := modGang (fun g => { g with pend := g.pend.map fun q => if q.id = p.id then { q with bytes := [], flush := [] } else q }) s
  let s := modBlock (fun b => { b with
    scratch := putAll b.scratch core, fresh := b.fresh.map fun x => (x.1, x.2.1, x.2.2.filter fun c => !core.any fun d => d.1 == c.1) }) s
  let s := wakeValues .core (fun g => g.blk == s.block.key) (uniq (core.map fun c => c.1 / 4)) s
  if ts.isEmpty then (if own then finishPart p.id 1 s else s)
  else if !folding s then
    let w := writeTime s true ts
    let s := modCore (fun c => { c with lclk := max64 c.lclk w }) (teamStore ts (trimHeld true s.die.die w.toNat none ts s))
    let s := (sectorsOf ts).foldl (fun s x => modDie (fun d => { d with tsw := put d.tsw x w }) s) s
    if own then finishPart p.id 1 s else s
  else
    let n := s.core.muck.length
    let s := holdWrite true ts (if own then some p.id else none) none s
    let ok := decide (s.block.nrep < 2) || !p.flush.isEmpty || !own
    let s := modCore (fun c => { c with muck := c.muck.take n ++ (c.muck.drop n).map fun e => { e with matched := e.matched || ok } }) s
    if own then growPend p.id [] ((sectorsOf ts).length - 1) s else s

/-- Sectors of team scratch that an MST writes: the entries that it asks of the quarantine buffer (12 R270, 18 R397). -/
def mstSectors (p : Pend) : Nat := (sectorsOf (p.bytes.filterMap fun b => if b.1 = .ts then some (b.2.1, b.2.2) else none)).length

/-- The tile of an MST is written (08 R204). -/
def execMstComplete (k : GangKey) (id : Nat) (s : State) : Host.Outcome State Fault Refusal :=
  if !slotThere k then .fault .noSuchUnit
  else .next (onGang k (fun s =>
    match s.gang.pend.find? fun p => p.id == id && !p.bytes.isEmpty with
    | none => s
    | some p => if folding s ∧ !muckRoom s (mstSectors p) then later 1 .none (.mstComplete k id) s else performMst p true s) s)

/-- The gang in focus leaves its slot (15 R342, R341, 13 R304, 17 R381, 02 R61): it waits for its loads, holds its last resume entry,
a GROW that still waits in its trap frame goes (09 R219, R227), and its block ends with its last gang. -/
def leaveSlot (s : State) : State :=
  let g := s.gang
  let k := g.key
  let s := (g.pend.filter fun p => !p.bytes.isEmpty).foldl (fun s p => performMst p false s) (landFlush g s)
  let s := holdResume 0 (leBytes 4 noPos.toNat) none s
  let s := modCore (fun c => { c with
    taskq := c.taskq.filter fun t => (t.prov.map (·.1)) != some k
    parts := modNth c.parts k.part fun p => { p with growq := p.growq.filter fun q => q.1 != k.slot } }) s
  let left := s.block.gangs &&& ~~~(maskOf (· == g.gno))
  let s := modBlock (fun b => { b with rolled := b.rolled &&& ~~~(maskOf (· == g.gno)), gangs := left, bars := b.bars.map (·.leave g.gno s.clk) }) s
  let s := if left ≠ 0 ∧ g.pinned then unpin s else s
  let rests : Gang := { Gang.vacant k with
    blk := g.blk, gno := g.gno, regs := g.regs, kit := g.kit, v := g.v, s := g.s, p := g.p, mode := g.mode, active := g.active, dead := g.dead }
  let s := orphanWaits k { s with gang := Gang.vacant k, exited := rests :: s.exited.filter fun x => decide (x.key ≠ k) }
  let s := wakeDies (later 0 .none (.growGrant k.die k.core k.part) s)
  let s := if 128 ≤ k.die then later 0 .none (.walkerStart (k.die - 128)) s else s
  if left = 0 then endBlock g.blk s else s

/-- The gang's last slice has ended (15 R342). -/
def execGangExit (s : State) : Host.Outcome State Fault Refusal :=
  .next (if !s.gang.live ∨ !s.gang.leaving then s
    else if (s.gang.pend.any fun p => p.cls == .ld && !p.fin) ∨ !muckRoom s (1 + if folding s then (s.gang.pend.map mstSectors).sum else 0) then later 1 (.gang s.gang.key) .gangExit s
    else leaveSlot s)

/-- A block of a LAUNCH variant's flush has drained (18 R401). -/
def awaitedGone (s : State) (x : Nat × Nat) : Bool := drained s ⟨x.1, x.2 / 2 ^ 32, x.2 % 2 ^ 32⟩

/-- A result is written and its pending tag clears (05 R121); that of a LAUNCH variant once what it began has drained (18 R401). -/
def execResultWriteback (k : GangKey) (id : Nat) (s : State) : Host.Outcome State Fault Refusal :=
  if !slotThere k then .fault .noSuchUnit
  else .next (onGang k (fun s =>
    match s.gang.pend.find? fun p => p.id == id && s.gang.live with
    | none => s
    | some p =>
      if p.cls = .none ∧ !p.flush.isEmpty then later 1 (.gang k) (.resultWriteback k id) s
      else
        let told := p.writes.map fun w => match w with | .scal _ v => v | .lane _ _ v => v | .pred _ _ v => v
        finishPart id 1 (if p.tells then forwardAt p.pos 0 told s else s)) s)

/-- Add to STALE_RSP of a die (17 R385). -/
def staleRsp (d n : Nat) (s : State) : State :=
  onDie d (modDie fun x => { x with stalersp := BitVec.ofNat 32 (min (x.stalersp.toNat + n) (2 ^ 32 - 1)) }) s

/-- A load's data arrives (17 R375). -/
def execLoadComplete (k : GangKey) (id : Nat) (s : State) : Host.Outcome State Fault Refusal :=
  if !slotThere k then .fault .noSuchUnit else .next (finishOf k id 1 s)

/-- A CFLUSH has still older held writes of its gang before it, those of atomics with a return among them (12 R288). -/
def flushWaits (s : State) (id : Nat) : Bool :=
  s.core.muck.any fun e => e.gang == s.gang.key && e.blk == s.gang.blk && decide (e.ord ≤ id)

/-- A released store is accepted at its home (12 R269); a CFLUSH pushes its lines once its gang's earlier stores are released, and
completes when they have arrived (12 R288, R277). -/
def execStoreAccepted (k : GangKey) (id : Nat) (s : State) : Host.Outcome State Fault Refusal :=
  if !slotThere k then .fault .noSuchUnit
  else .next (onGang k (fun s =>
    match s.gang.pend.find? fun p => p.id == id && s.gang.live with
    | none => s
    | some p =>
      if p.cls ≠ .st ∨ p.flush.isEmpty ∨ !p.bytes.isEmpty then finishPart id 1 s
      else if flushWaits s id then later 1 (.gang k) (.storeAccepted k id) s
      else
        let s := p.flush.foldl (fun s x => pushLine x.1 x.2 s) s
        let way := ((p.flush.map fun x => homeTrip k.die (homeOfKey (128 * x.1)) + (if x.2 = 2 then 150 else 0)).max?).getD 1
        let s := modGang (fun g => { g with pend := g.pend.map fun q => if q.id = id then { q with parts := q.parts - 1, flush := [], reqs := p.flush.length } else q }) s
        later way .none (.storeAccepted k id) s) s)

/-- FENCE holds no longer what it held for: no earlier remote access of the kind is open (12 R290). -/
def endFence (k : GangKey) (s : State) : State :=
  let opened := fun (w : Bool) => s.remotes.any fun r => r.gang == k && r.engine.isNone && r.write == w
  mapGangs (fun g => if g.live ∧ g.key = k then { g with fenceLd := g.fenceLd && opened false, fenceSt := g.fenceSt && opened true } else g) s

/-- A request of a held store to a remote window leaves its port (18 R397): it goes to the peer, and its timer starts (12 R268). -/
def sendHeld (e : Held) (link : Nat) (x : Nat × Nat × Nat) (s : State) : State :=
  let data := ((s.remotes.find? fun r => r.tag == x.1).map (·.bytes)).getD []
  let q : RemoteReq := ⟨x.1, BitVec.ofNat 16 e.home, BitVec.ofNat 64 x.2.1, true, x.2.2, data, false⟩
  let s := { s with remotes := s.remotes.map fun r => if r.tag = x.1 then { r with sent := s.clk } else r }
  let s := modCore (fun c => { c with samples := c.samples.map fun y => if y.tags.contains x.1 then { y with stages := y.stages.set 7 (s.clk - y.start) } else y }) s
  later Config.remoteTimer .none (.remoteTimeout x.1) (sendLink link (.req q) s)

/-- The peer has answered a request, with `flags`, or never will: the sample that it belongs to is due with its last answer (17 R387, R388). -/
def answerSample (tag : Nat) (flags : Option Nat) (s : State) : State :=
  let take := fun (y : Sample) => if !y.tags.contains tag then some y
    else flags.map fun f =>
      let rest := y.tags.filter (· != tag)
      { y with flags := y.flags ||| f, tags := rest, due := if rest.isEmpty then some s.clk else none }
  mapCores (fun c => if c.samples.isEmpty then c else { c with samples := c.samples.filterMap take }) s

/-- Release one held entry of the core in focus (18 R398): this replica writes it, or its primary does (19 R416). -/
def releaseHeld (e : Held) (s : State) : State :=
  let f := ((allGangs s).find? fun g => g.key == e.gang && g.blk == e.blk).elim 0 (gangFilter s)
  let s := modCore (perfAdd 19 f 1) s
  let own := fun (way : Nat) (s : State) => match e.id with
    | some id => later way .none (.storeAccepted e.gang id) s
    | none => s
  let way := Config.hop * meshDist (dieSite s.core.die) (homeSite e.home)
  let mine := fun (x : Sample) => x.gang == e.gang && !e.ts && e.remote.isNone && x.held == some (e.ord, e.sector / 4)
  let leave := fun (x : Sample) =>
    if mine x then { x with due := some (s.clk + way), stages := x.stages.set 7 (s.clk - (x.start + x.stages.getD 6 0)) } else x
  let s := if s.core.muck.any fun f => f.gang == e.gang && !f.ts && f.ord == e.ord && f.sector / 4 == e.sector / 4 then s
    else modCore (fun c => { c with samples := c.samples.map leave }) s
  match e.remote with
  | some (link, l) => if e.writes then l.foldl (fun s x => sendHeld e link x s) s
      else endFence e.gang (l.foldl (fun s _ => own 1 s) { s with remotes := s.remotes.filter fun r => !l.any fun x => x.1 == r.tag })
  | none =>
    let s := if e.writes then landHeld e s else s
    own (if e.ts then 0 else way) s

/-- The next entry of a quarantine buffer to be released (18 R398): the oldest that is written, when its time has come. DEDUCED (log 99): an entry of a
backup, which leaves with its primary's (19 R416), keeps back only those of its own block. -/
def nextHeld (clk : Nat) (stay : List BlockKey) : List Held → Option Held
  | [] => none
  | e :: t =>
    if !e.writes || stay.contains e.blk then nextHeld clk (e.blk :: stay) t
    else if e.matched && decide (e.clk + Config.sw ≤ clk) then some e else none

/-- Two held entries are counterparts in the replicas of one block (19 R416). -/
def sameHeld (e f : Held) : Bool :=
  e.blk.name == f.blk.name && e.blk.idx == f.blk.idx && e.blk.rep != f.blk.rep && e.seq.isSome && e.seq == f.seq && !e.ts && !f.ts

/-- The entries of a backup whose primary counterpart is released leave in the same clk, unwritten (19 R416). -/
def dropCounterparts (e : Held) (s : State) : State :=
  let gone := fun (c : Core) => c.muck.find? fun f => !f.writes && sameHeld e f
  let at' := (allCores s).filter fun c => (gone c).isSome
  at'.foldl (fun s c => onDie c.die (onCore c.die c.core fun s => match gone s.core with
    | none => s
    | some f => later 0 .none (.quarantineRelease c.die c.core) (releaseHeld f (modCore (fun c => { c with muck := c.muck.erase f }) s))) s) s

/-- Release every entry of the core in focus whose time has come, in order (18 R398). -/
def releaseDue : Nat → State → State
  | 0, s => s
  | n + 1, s => match nextHeld s.clk [] s.core.muck with
    | none => s
    | some e => releaseDue n (dropCounterparts e (releaseHeld e (modCore (fun c => { c with muck := c.muck.erase e }) s)))

/-- Held entries have aged SW clk and are released in order (18 R398). -/
def execQuarantineRelease (die core : Nat) (s : State) : Host.Outcome State Fault Refusal :=
  if !coreThere die core then .fault .noSuchUnit
  else .next (onDie die (onCore die core fun s => releaseDue s.core.muck.length s) s)

/-- Refusals so far of a request. -/
def triesOf (h : Home) (c : Nat) (st : Bool) (g : Nat) (w : Waiter) : Nat :=
  ((h.tries.find? fun x => x.1 == c && x.2.1 == st && x.2.2.1 == g && x.2.2.2.1 == w).map (·.2.2.2.2)).getD 0

/-- A home's account of the refusals of a request. -/
def setTries (c : Nat) (st : Bool) (g : Nat) (w : Waiter) (n : Nat) (h : Home) : Home :=
  let rest := h.tries.filter fun x => !(x.1 == c && x.2.1 == st && x.2.2.1 == g && x.2.2.2.1 == w)
  { h with tries := if n = 0 then rest else (c, st, g, w, n) :: rest }

/-- A fault record for a gang's access, under the incarnation its die has now (16 R365); one whose issuer has gone says so. -/
def recordFault (k : GangKey) (f : HomeFault) (s : State) : State :=
  appendFault f k (vdZero s k.die) k.core k.part k.slot (dieOf k.die s).incarn s

/-- Clk after which a refused request is made again, by its refusals so far (16 R359). -/
def backoff (n : Nat) : Nat := min 4096 (256 * 2 ^ n)

/-- A home refuses a request whose record its full fault queue cannot take: it is made again as after a miss (16 R365, R359). -/
def refuseFor (home c a : Nat) (w : Waiter) (ev : Instr) (s : State) : State :=
  let n := triesOf (homeOf home s) c false a w
  later (backoff n) .none ev (modHome home (setTries c false a w (n + 1)) s)

/-- The requester's core counts a retry of a refused request (17 R386). -/
def countRetry (w : Waiter) (s : State) : State :=
  let f := ((allGangs s).find? fun g => g.key == w.gang).elim 0 (gangFilter s)
  onCore w.gang.die w.gang.core (modCore (perfAdd 17 f 1)) s

/-- A request that faults at its home (16 R365): one that was refused before is translated afresh, and goes on with `again` where it faults no
longer; a full fault queue refuses it; else it leaves its record and goes on with `made`. -/
def faultAt (f : HomeFault) (w : Waiter) (acc : Access) (ev : HomeFault → Instr) (again made : HomeFault → State → State) (s : State) : State :=
  let c := f.ctx.toNat
  let a := f.addr.toNat
  let retry := decide (0 < triesOf (homeOf f.home s) c false a w)
  let s := if retry then countRetry w s else s
  let clear := fun (s : State) => modHome f.home (setTries c false a w 0) s
  let code : Option Nat := if !retry then some f.code else match xlateUnit s c f.addr acc with
    | .fault _ x => some x
    | .ok _ k => if acc == .store && boundFrame s k then some 0x19 else none
    | .remote .. => none
    | _ => some 0x10
  match code with
  | none => again f (clear s)
  | some x => if fqFull s f.home then refuseFor f.home c a w (ev { f with code := x }) s else made { f with code := x } (clear s)

/-- A load faults at its home (12 R266, R475, R476): its gang is parked, and the record is made. -/
def execHomeLoadFault (k : GangKey) (f : HomeFault) (s : State) : Host.Outcome State Fault Refusal :=
  if !slotThere k || decide (40 ≤ f.home) then .fault .noSuchUnit
  else .next (faultAt f ⟨k, none⟩ .load (.homeLoadFault k) (resolveLoad false k) (recordFault k) s)

/-- A store faults at its home (12 R267): the record completes it for its counter. -/
def execDeferredStoreFault (k : GangKey) (f : HomeFault) (s : State) : Host.Outcome State Fault Refusal :=
  if !slotThere k || decide (40 ≤ f.home) then .fault .noSuchUnit
  else
    let made := fun (f : HomeFault) (s : State) =>
      let there := (allGangs s).any fun g => g.key == k && ((g.pend.any fun p => p.id == f.id) || g.defer.any fun x => x.id == f.id)
      finishOf k f.id 1 (recordFault k { f with flags := f.flags + 4 * bnat !there } s)
    let ends := fun (f : HomeFault) (s : State) => finishOf k f.id 1 (resolveStore none k f s)
    let again := fun (f : HomeFault) (s : State) => match xlateUnit s f.ctx.toNat f.addr .store with
      | .ok _ key => ends f (onDie k.die (onCore k.die k.core (coreOrdered (sectorCells f key))) s)
      | .remote _ link pctx pva => ends f (replayRemote k f link pctx pva s)
      | _ => s
    .next (faultAt f ⟨k, none⟩ .store (.deferredStoreFault k) again made s)

/-- A copy engine's access faults at its home (14 R313): its stream has stopped, and the record is made. -/
def execEngineAccessFault (die core n : Nat) (f : HomeFault) (s : State) : Host.Outcome State Fault Refusal :=
  if !coreThere die core || decide (5 ≤ n) || decide (40 ≤ f.home) then .fault .noSuchUnit
  else
    let c := (streamOf (coreOf die core s) n).find? fun c => c.id == f.id
    let k := (c.map (·.gang)).getD ⟨die, core, 0, 0⟩
    let again := fun (f : HomeFault) (s : State) => onDie die (onCore die core (modCmd n f.id fun c => { c with stopped := none })) s
    let acc := if c.any fun c => c.moves.any fun m => m.src.any fun l => l.sp == .glob && l.addr == f.addr.toNat then Access.load else .store
    .next (faultAt f ⟨k, some n⟩ acc (.engineAccessFault die core n) again (recordFault k) s)

/-- Forget the requests of a gang's load to peers. -/
def dropAsked (k : GangKey) (id : Nat) (s : State) : State :=
  { s with remotes := s.remotes.filter fun r => !(r.gang == k && r.engine.isNone && !r.write && r.id == id) }

/-- The lanes of a gang's load that peers have not answered. -/
def askedLanes (s : State) (k : GangKey) (id : Nat) : Word :=
  maskOf fun l => s.remotes.any fun r => r.gang == k && r.engine.isNone && !r.write && r.id == id && r.lane == l

/-- The gang that waits at its load for peers, and the parked record. -/
def waitsAt (s : State) (r : Remote) : Option Park :=
  ((allGangs s).find? fun g => g.key == r.gang).bind fun g => g.park.filter fun p => p.id.getD 0 == r.id && p.code == 0x16

/-- The address of the lowest unfinished lane of a load to peers. -/
def askedAddr (s : State) (k : GangKey) (id : Nat) (m : Word) : DWord :=
  ((s.remotes.find? fun r => r.gang == k && r.engine.isNone && !r.write && r.id == id && r.lane == (lanesOf m).headD 0).map (·.addr)).getD 0

/-- A load to peers fails for its unfinished lanes: with REMOTE_TIMEOUT it traps at the load (12 R268), with another code its gang
parks for the supervisor (12 R266, 18 R404). -/
def failAsked (r : Remote) (code : Nat) (s : State) : State :=
  match waitsAt s r with
  | none => dropAsked r.gang r.id s
  | some p =>
    let m := askedLanes s r.gang r.id
    let n := (s.remotes.filter fun x => x.gang == r.gang && x.engine.isNone && !x.write && x.id == r.id).length
    let va := askedAddr s r.gang r.id m
    let s := dropAsked r.gang r.id s
    if code = 0x16 then
      onFragment r.gang p.slices (fun s =>
        let s := modGang (fun g => { g with park := none, got := [] }) s
        let s := match p.id with
          | some id => finishPart id n s
          | none => s
        takeTrap 0x16 m va s) s
    else
      let home := ((ownerVh va).bind fun o => ((allGangs s).find? fun g => g.key == r.gang).bind fun g => vhHome s g.ctx.toNat o.1).getD 0
      onGang r.gang (fun s =>
        let s := modGang (fun g => { g with park := some ⟨p.id, p.slices, m, code, va⟩, got := [] }) s
        let s := match p.id with
          | some id => growPend id [] (1 - (n : Int)) s
          | none => s
        let f : HomeFault := ⟨home, p.id.getD 0, 1, code, 0, s.gang.ctx, r.pos, va, m, []⟩
        later (homeTrip r.gang.die home) .none (.homeLoadFault r.gang f) s) s

/-- A store to a peer fails (12 R267, R268): with REMOTE_TIMEOUT its gang takes the code at its next header; with another code the
home records it as deferred. -/
def failStore (r : Remote) (code : Nat) (s : State) : State :=
  let s := endFence r.gang { s with remotes := s.remotes.filter fun x => x.tag != r.tag }
  onGang r.gang (fun s =>
    if !(s.gang.live ∧ (r.lane = 32 ∨ s.gang.pend.any fun p => p.id == r.id)) then s
    else if code = 0x16 then finishPart r.id 1 (modGang (fun g => { g with deliver := g.deliver ++ [⟨0x16, r.addr, r.pos⟩] }) s)
    else
      let home := ((ownerVh r.addr).bind fun o => vhHome s s.gang.ctx.toNat o.1).getD 0
      let bad := (List.range r.bytes.length).map fun i => (r.addr + BitVec.ofNat 64 i, r.bytes.getD i 0, home, code)
      let recs := (deferRecords s r.id bad).map fun f => { f with pos := r.pos }
      deferStores r.id r.addr.toNat recs (growPend r.id [] ((recs.length : Int) - 1) s)) s

/-- A copy's request to a peer fails (14 R313, R321): its stream stops for the supervisor, after whose repair the access is made again. -/
def failEngine (r : Remote) (d c n code : Nat) (s : State) : State :=
  let s := { s with remotes := s.remotes.filter fun x => x.tag != r.tag }
  onDie d (onCore d c fun s =>
    match (streamOf s.core n).find? fun x => x.id == r.id with
    | none => s
    | some x =>
      if !x.far.contains r.tag then s
      else
        let home := ((ownerVh r.addr).bind fun o => vhHome s x.ctx.toNat o.1).getD 0
        let again : List Move := match r.dst with
          | .place sp a len => [if r.write then ⟨none, r.bytes, ⟨sp, a⟩, len⟩ else ⟨some ⟨.glob, r.addr.toNat⟩, [], ⟨sp, a⟩, len⟩]
          | _ => []
        stopCmd n x home code r.addr (modCmd n x.id (fun y => { y with moves := again ++ y.moves, far := y.far.filter (· != r.tag) }) s)) s

/-- A peer has answered a die scheduler about a dependence counter, with its value or a fault code (13 R298). -/
def answerAfter (r : Remote) (d name i : Nat) (v : Option Nat) (code : Nat) (s : State) : State :=
  let s := { s with remotes := s.remotes.filter fun x => x.tag != r.tag }
  let bound := ((launchOf name s).bind fun l => l.info.afters[i]?).map fun x => x.2.toNat
  later 0 .none (.admission d) (match v, bound with
    | some n, some b => setAfter d name i (some (decide (b ≤ n))) s
    | some _, none => s
    | none, _ => badAfter d name i code r.addr s)

/-- An access to a peer module fails with a code. -/
def failRemote (r : Remote) (code : Nat) (s : State) : State :=
  match r.dst, r.engine with
  | .after name i, some (d, _, _) => answerAfter r d name i none code s
  | _, some (d, c, n) => failEngine r d c n code s
  | _, none => if r.write then failStore r code s else failAsked r code s

/-- No response has come within the initiator's timer (12 R268); a later response is dropped by its tag. -/
def execRemoteTimeout (tag : Nat) (s : State) : Host.Outcome State Fault Refusal :=
  .next (match s.remotes.find? fun r => r.tag == tag with
    | none => s
    | some r =>
      let waits := (linkOf r.link s).queued.any fun x => match x.2 with | .req q => q.tag == tag | _ => false
      if waits then later Config.remoteTimer .none (.remoteTimeout tag) s
      else if s.clk < r.sent + Config.remoteTimer then later (r.sent + Config.remoteTimer - s.clk) .none (.remoteTimeout tag) s
      else if r.old then { s with remotes := s.remotes.filter fun x => x.tag != tag } else answerSample tag none (failRemote r 0x16 s))

/-- The peer answers a gang's access (11 R258): data of a load, or the acknowledgement of a store. When a load's last answer is in,
its gang goes on. -/
def answerGang (r : Remote) (data : List Byte) (s : State) : State :=
  endFence r.gang (onGang r.gang (fun s =>
    if !s.gang.live then s
    else if r.write then finishPart r.id 1 s
    else
      let s := if inReplay s && !takesValues s && r.dst != .whole then forwardLoaded r.pos 0 (.far r.lane r.addr) (wordsOfBytes data) s else s
      let s := if r.dst = .whole then modGang (fun g => { g with got := g.got ++ [(r.addr, data)] }) s
        else finishPart r.id 1 (growPend r.id (dstWrites s r.dst data) 0 s)
      match s.gang.park with
      | some p =>
        if p.code = 0x16 ∧ p.id.getD 0 = r.id ∧ askedLanes s r.gang r.id = 0 then
          modGang (fun g => { g with park := none, redo := if p.id.isSome then some { p with mask := 0 } else none }) s
        else s
      | none => s) s)

/-- The peer answers a copy's request (14 R321): data is a move that the engine has still to make, and the last answer completes the
operation. -/
def answerEngine (r : Remote) (d c n : Nat) (data : List Byte) (s : State) : State :=
  onDie d (onCore d c fun s =>
    match (streamOf s.core n).find? fun x => x.id == r.id with
    | none => s
    | some x =>
      if !x.far.contains r.tag then s
      else
        let many := (blockOf x.blk s).any fun b => decide (2 ≤ b.nrep)
        let take := fun (y : Cmd) => match r.write, r.dst with
          | false, .place sp a _ => { y with
              moves := liveMoves (⟨none, data, ⟨sp, a⟩, data.length⟩ :: y.moves), got := if sp = .glob || !many then y.got else addCells (cellsAt a data) y.got }
          | _, _ => y
        let s := modCmd n x.id (fun y => take { y with far := y.far.filter (· != r.tag) }) s
        if (streamOf s.core n).any fun y => y.id == r.id && y.moves.isEmpty && y.far.isEmpty && y.start.isSome then
          later (x.till - s.clk) .none (.copyComplete d c n) s
        else s) s

/-- A response of a peer module, by its tag (11 R258, 18 R403, R404): one of an earlier incarnation is dropped and counted; one
whose timer has fired is dropped. -/
def takeAnswer (tag : Nat) (code : Option Nat) (data : List Byte) (s : State) : State :=
  match s.remotes.find? fun r => r.tag == tag with
  | none => s
  | some r =>
    if r.old then staleRsp r.gang.die 1 { s with remotes := s.remotes.filter fun x => x.tag != tag }
    else match code with
    | some c => answerSample tag (some 64) (failRemote r (if c = 0x16 then 0x16 else 0x17) s)
    | none =>
      let s := answerSample tag (some 0) { s with remotes := s.remotes.filter fun x => x.tag != tag }
      match r.dst, r.engine with
      | .after name i, some (d, _, _) => answerAfter r d name i (some (leNat data)) 0 s
      | _, some (d, c, n) => answerEngine r d c n data s
      | _, none => answerGang r data s

/-- A peer's load of physical bytes is performed (11 R258): its port is a party of the order, which takes the time of what it reads, waits
for what others hold from then, and has every later write of the line come after it. -/
def peerLoad (link : Nat) (q : RemoteReq) (k : Nat) (s : State) : State :=
  let t := max64 (linkOf link s).lclk (wtOf s (lineOf k))
  if heldBefore s k q.size t then later 1 .none (.inboundRemoteAccess link q) s
  else sendLink link (.answer q.tag (readBytes s.mem k q.size)) (modLink link (fun l => { l with lclk := t }) (grantLease (lineOf k) (192 + link) t s)) q.copy

/-- A peer's store of physical bytes is performed (11 R258). -/
def peerStore (link : Nat) (q : RemoteReq) (k : Nat) (s : State) : State :=
  let (w, s) := homeOrdered (linkOf link s).lclk (cellsAt k q.data) s
  sendLink link (.answer q.tag []) (modLink link (fun l => { l with lclk := w }) s) q.copy

/-- An access of a peer module (11 R258, 18 R404): it is performed as an ordinary access of this module, or its home refuses it, with
a record of KIND 6 and a NACK. -/
def execInboundRemoteAccess (link : Nat) (q : RemoteReq) (s : State) : Host.Outcome State Fault Refusal :=
  if 16 ≤ link then .fault .noSuchUnit
  else
    let refuse := fun (home : Option Nat) (code : Nat) =>
      match home with
      | none => sendLink link (.nack q.tag code) s
      | some h =>
        let w : Waiter := ⟨⟨192 + link, 0, 0, 0⟩, none⟩
        if fqFull s h then refuseFor h q.ctx.toNat q.tag w (.inboundRemoteAccess link q) s
        else
          let s := modHome h (setTries q.ctx.toNat false q.tag w 0) s
          let f : HomeFault := ⟨h, 0, 6, code, 0, q.ctx, 0, q.addr, 0, []⟩
          let core := q.tag / 2 ^ 16 % 2 ^ 16
          sendLink link (.nack q.tag code) (appendFault f ⟨0, 0, 0, 0⟩ link core (q.tag / 2 ^ 8 % 2 ^ 8) (q.tag % 2 ^ 8) 0 s)
    if unitWaits s q.ctx.toNat q.addr then .next (later 1 .none (.inboundRemoteAccess link q) s)
    else
    let s := useEntry true q.ctx.toNat q.addr s
    .next (match xlateUnit s q.ctx.toNat q.addr (if q.write then .store else .load) with
      | .ok h k =>
        if q.write then (if boundFrame s k then refuse (some h) 0x19 else peerStore link q k s)
        else if (List.range q.size).any fun i => s.poison.contains (sectorOf (k + i)) then refuse (some h) 0x32
        else peerLoad link q k s
      | .fault h code => refuse (some h) code
      | .remote h .. => refuse (some h) 0x11
      | _ => refuse none 0x10)

/-- Lowest free record number of a home (16 R359). -/
def freeRecord (h : Home) : Option Nat := (List.range 264).find? fun n => !h.recs.any fun r => r.num == n

/-- A request misses the TLB of its home (16 R359): it joins a record, makes one, or is refused and tries again. One whose granule
is filled meanwhile, or whose requester has gone, is done. -/
def missAt (home c : Nat) (st : Bool) (g : Nat) (w : Waiter) (s : State) : State :=
  let h := homeOf home s
  let done := modHome home (setTries c st g w 0)
  if (tlbFind h c st (g * 65536)).isSome then wakeWaiters [w] (done s)
  else if !((allGangs s).any fun x => x.key == w.gang) ∧ w.engine.isNone then done s
  else
    let again :=
      let n := triesOf h c st g w
      later (backoff n) .none (.translationRetry home c st g w) (modHome home (setTries c st g w (n + 1)) s)
    match h.recs.find? fun r => r.ctx == c && r.striped == st && r.gran == g with
    | some r =>
      if r.waiters.contains w then s
      else if 64 ≤ r.waiters.length then again
      else done (modHome home (fun h => { h with recs := h.recs.map fun x => if x.num = r.num then { x with waiters := x.waiters ++ [w] } else x }) s)
    | none => match freeRecord h with
      | none => again
      | some n =>
        let s := modHome home (fun h => { h with recs := h.recs ++ [⟨n, c, st, g, [w], none, false⟩], walkq := h.walkq ++ [n] }) s
        later 0 .none (.walkerStart home) (done s)

/-- A home, a context and a requester of the module. -/
def missThere (home c : Nat) (w : Waiter) : Bool := decide (home < 40) && decide (c < 65536) && slotThere w.gang && (match w.engine with
  | some n => decide (n < 5)
  | none => true)

/-- TLB_MISS (16 R359). -/
def execTlbMiss (home ctx : Nat) (striped : Bool) (gran : Nat) (w : Waiter) (s : State) : Host.Outcome State Fault Refusal :=
  if !missThere home ctx w then .fault .noSuchUnit else .next (missAt home ctx striped gran w s)

/-- TRANSLATION_RETRY (16 R359): each retry counts as a performance event of the requester's core (17 R386). -/
def execTranslationRetry (home ctx : Nat) (striped : Bool) (gran : Nat) (w : Waiter) (s : State) : Host.Outcome State Fault Refusal :=
  if !missThere home ctx w then .fault .noSuchUnit
  else .next (missAt home ctx striped gran w (countRetry w s))

/-- Name of the launch that stands for the walker routine in a slot (16 R360); no launch of a context has it. -/
def walkerName (home n : Nat) : Nat := 2 ^ 64 + 8 * home + n

/-- The walker gang of a record, in walker slot `n` of a home (16 R360), at the routine's entry with the registers of 16 R360. -/
def walkerGang (s : State) (home n : Nat) (r : MissRec) : Gang :=
  let k : GangKey := ⟨128 + home, n / 2, 0, n % 2⟩
  let w32 := fun (x : Nat) => (BitVec.ofNat 32 x : Word)
  let off := r.gran * 65536
  let vh := ((List.range 40).find? fun v => decide (vhHome s r.ctx v = some home)).getD 0
  let root := ((ctxOf r.ctx s).vdt.bind fun t => nth none (if r.striped then t.sroots else t.roots) vh).elim 0 (· + 1)
  { Gang.vacant k with
    live := true, blk := ⟨walkerName home n, 0, 0⟩, level := .firmware, role := .vector, regs := 1, mode := 1, active := 0xFFFFFFFF, trapvec := noPos,
    split := (List.range 8).map (startEntry ⟨s.walker, 0, 0xFFFFFFFF, 0⟩ s.clk), resumePc := s.walker,
    s := canon [(16, w32 r.num), (17, w32 r.ctx), (18, w32 off), (19, w32 (off / 2 ^ 32)), (20, w32 (bnat r.striped)), (21, w32 home),
      (22, w32 root), (23, w32 (root / 2 ^ 32))] }

/-- Start the walker routine for a record (16 R360): its launch, its block and its gang. -/
def startWalker (home n : Nat) (r : MissRec) (s : State) : State :=
  let g := walkerGang s home n r
  let l : Launch := ⟨walkerName home n, 0, 0, plainRecord, 0, .admitted, [128 + home], [(128 + home, n)], [s.walker.toNat / 2 ^ 20], [1], 0, true, [],
    false, 0, some (128 + home), (n / 2, 0), [], 0⟩
  let b : Block := { Block.vacant with key := g.blk, st := .resident, die := 128 + home, core := n / 2, gangs := 1 }
  let s := { s with launches := l :: s.launches.filter fun x => decide (x.name ≠ l.name), blocks := s.blocks.filter fun x => decide (x.key ≠ g.blk) }
  let s := modHome home (fun h => { h with recs := h.recs.map fun x => if x.num = r.num then { x with slot := some n } else x }) s
  putBlock b (putGang g s)

/-- The free walker slots of a home take the oldest queued records (16 R360); a record that a leaf filled meanwhile covers completes
without a walk. -/
def startWalks (home : Nat) : Nat → State → State
  | 0, s => s
  | fuel + 1, s =>
    let h := homeOf home s
    let busy := fun (n : Nat) => (h.recs.any fun r => r.slot == some n) || (allGangs s).any fun g => g.key == ⟨128 + home, n / 2, 0, n % 2⟩
    match h.walkq, (List.range 8).find? fun n => !busy n with
    | num :: rest, some n =>
      let s := modHome home (fun h => { h with walkq := rest }) s
      match h.recs.find? fun r => r.num == num with
      | none => startWalks home fuel s
      | some r =>
        if (tlbFind h r.ctx r.striped (r.gran * 65536)).isSome then
          startWalks home fuel (wakeWaiters r.waiters (modHome home (fun h => { h with recs := h.recs.filter fun x => x.num != num }) s))
        else startWalks home fuel (startWalker home n r s)
    | _, _ => s

/-- WALKER_START (16 R360). -/
def execWalkerStart (home : Nat) (s : State) : Host.Outcome State Fault Refusal :=
  if 40 ≤ home then .fault .noSuchUnit else .next (startWalks home 272 s)

/-- A copy operation completes in its stream (14 R311). -/
def execCopyComplete (die core n : Nat) (s : State) : Host.Outcome State Fault Refusal :=
  if !coreThere die core || decide (5 ≤ n) then .fault .noSuchUnit else .next (onDie die (onCore die core (runCmd n)) s)

/-- An MLDW's shadow plane becomes ready (08 R210). -/
def execShadowPlaneReady (die core : Nat) (s : State) : Host.Outcome State Fault Refusal :=
  if !coreThere die core then .fault .noSuchUnit else .next (onCore die core (modCore fun c => { c with shadowReady := true }) s)

/-- A stream row's results are written (08 R210). -/
def execStreamRowWritten (die core : Nat) (s : State) : Host.Outcome State Fault Refusal :=
  if !coreThere die core then .fault .noSuchUnit else .next (onDie die (onCore die core stepStream) s)

/-- An MCBL's codebook becomes ready (08 R210). -/
def execCodebookReady (die core : Nat) (s : State) : Host.Outcome State Fault Refusal :=
  if !coreThere die core then .fault .noSuchUnit else .next (onCore die core (modCore fun c => { c with cbWait := c.cbWait.filter fun x => decide (s.clk < x.2) }) s)

/-- The major of the instruction at which a slice waits, or 0xFF for a header (18 R392). -/
def waitMajor (s : State) (e : SplitEntry) : Nat :=
  if e.wait = .header then 0xFF else ((fetchWord s s.gang.ctx.toNat (posAdd e.pc e.ix)).getD 0) % 256

/-- Abandon the wait of a slice: at REGANG or IDEM it stands there, ready (02 R54). -/
def SplitEntry.giveWait (e : SplitEntry) : SplitEntry := { e with wait := .none, st := if e.st = .regang then .ready else e.st, rgm := 0 }

/-- The slices that the starvation timer of the gang in focus speaks for: those of the lowest slice whose wait goes on, with those that
wait with it. DESIGN CHOICE (log 85): the spec does not say which of several waiting fragments takes STARVATION. -/
def waitingFrag (s : State) : BitVec 8 :=
  match (List.range s.gang.slices).find? fun k => !waitOver s s.gang (entryOf s.gang k) with
  | none => 0
  | some k =>
    let e := entryOf s.gang k
    sliceSet fun j => decide (j < s.gang.slices) && (entryOf s.gang j).wait == e.wait && (entryOf s.gang j).pc == e.pc && (entryOf s.gang j).ix == e.ix

/-- A BAR is abandoned without effect (02 R54, log 85): while its phase lasts, the arrival that it made is withdrawn, unless another
fragment of the gang has made it too and waits; a count that no other arrival or waiter has declared goes with it. -/
def leaveBar (fr : BitVec 8) (s : State) : State :=
  match (entryOf s.gang (lowSlice fr)).wait with
  | .bar n ph arr =>
    let waits := fun (g : Gang) (k : Nat) => match (entryOf g k).wait with
      | .bar n' ph' _ => n' == n && ph' == ph && !(g.key == s.gang.key && fr.getLsbD k)
      | _ => false
    let again := fun (k : Nat) => !fr.getLsbD k && (entryOf s.gang k).wait == .bar n ph .again
    let others := (gangsOf s.gang.blk s).any fun g => (List.range g.slices).any (waits g)
    let back := fun (b : Barrier) => if b.ph ≠ ph then b
      else
        let b := if arr = .counted then { b with curm := b.curm &&& ~~~(maskOf (· == s.gang.gno)), arr := b.arr - 1 } else b
        if b.arr = 0 ∧ !others then { b with cnt := 0 } else b
    if arr = .counted ∧ (List.range s.gang.slices).any again then
      modSplit (sliceSet again) (fun e => { e with wait := .bar n ph .counted }) s
    else modBlock (fun y => { y with bars := modNth y.bars n back }) s
  | _ => s

/-- A starvation timer reaches STRVT (02 R54, 17 R383): in class C or P the waiting instruction is abandoned and the gang takes
STARVATION; in class W it counts. -/
def execStarvationTimerExpiry (s : State) : Host.Outcome State Fault Refusal :=
  let g := s.gang
  let fr := waitingFrag s
  .next (if !g.live ∨ fr = 0 ∨ g.timer < (dieOf g.key.die s).strvt.toNat then s
    else
      let s := modGang (fun g => { g with timer := 0 }) s
      if classOfLaunch s = .w then
        modCore (perfAdd 10 (gangFilter s g) 1) (modGang (fun g => { g with starve := min (g.starve + 1) 0xFFFF }) s)
      else
        let info := BitVec.ofNat 32 (waitMajor s (entryOf g (lowSlice fr)))
        let s := modSplit fr SplitEntry.giveWait (leaveBar fr s)
        let s := modCore (fun c => { c with parts := modNth c.parts g.key.part fun p =>
          { p with growq := p.growq.filter fun q => !(q.1 == g.key.slot && fr.getLsbD q.2.1) } }) s
        let s := later 0 .none (.growGrant g.key.die g.key.core g.key.part) s
        takeTrap 0x21 info 0 { s with frag := fr })

/-- A reserved opcode reaches issue (04 R94, R95): the first check of all. -/
def execReservedOpcodeIssue (w : BitVec 32) (s : State) : Host.Outcome State Fault Refusal :=
  .next (if s.gang.live then takeTrap 0x02 (BitVec.ofNat 32 (w.toNat % 256)) 0 s else s)

/-- 64 clk have passed since a team-scratch WAITV's last load (12 R282): it loads again. -/
def execWaitvReloadTimeout (s : State) : Host.Outcome State Fault Refusal :=
  let due := fun (e : SplitEntry) => match e.wait with
    | .value .ts key t ext held => if t ≤ s.clk then { e with wait := .value .ts key 0 ext held } else e
    | _ => e
  .next (modSplit (sliceSet fun k => decide (k < s.gang.slices)) due s)

/-- The outstanding entry of a copy that the primary alone performs, at the position that a forwarded result names alone (19 R419). -/
def copyAwaited (s : State) (g : Gang) (vals : List Word) : Option Nat :=
  match vals with
  | [p] => (g.pend.find? fun x => (x.cls == .cp || x.cls == .tl) && !x.fin && x.pos == p &&
      !((coreOf g.key.die g.key.core s).cmds.any fun q => q.any fun c => c.id == x.id)).map (·.id)
  | _ => none

/-- A result of the primary reaches a backup (19 R419): it stands ready for its instruction, or completes a copy's entry. -/
def execForwardArrival (k : GangKey) (vals : List (BitVec 32)) (s : State) : Host.Outcome State Fault Refusal :=
  if !slotThere k then .fault .noSuchUnit
  else .next (match (((allGangs s).find? fun g => g.live && g.key == k).bind fun g => copyAwaited s g vals) with
    | some id => finishOf k id 1 s
    | none => mapGangs (fun g => if g.live ∧ g.key = k then { g with fwd := g.fwd ++ [vals] } else g) s)

/-- A home cache evicts a dirty line to its stack (10 R243, 16 R357). -/
def execHomeCacheWriteback (home line : Nat) (s : State) : Host.Outcome State Fault Refusal :=
  if 40 ≤ home ∨ homeOfKey (128 * line) ≠ home then .fault .noSuchUnit
  else .next (modHome home (fun h => { h with lines := h.lines.filter fun x => x.line != line }) (homeWriteBack line s))

end Sys2Proof.Machine
end

