-- ==== Sys2Proof/Machine/Recovery.lean ====
section
/-! DEFINITION. Failures and what recovers from them: ports of a core (01 R19), strike reports (18 R399, R400, 19 R422), votes,
verdicts, rollbacks and resynchronisation of replicas (19 R414 to R421), the lifetime record (17 R389, R390), and die and home
resets (10 R246, 18 R403). -/

namespace Sys2Proof.Machine

/-- In replay mode the run is no longer exact: BOOTST says that it has diverged (20 R433). -/
def diverge (s : State) : State := if s.replay then { s with bootErr := 5 } else s

/-- First byte of the entry of a core in the lifetime record's port table (17 R389): by compute site and physical core. -/
def portEntry (d c : Nat) : Nat := 0x021000 + 4 * (512 * d + Config.physicalCore d c % 512)

/-- PORTS as the lifetime record has it (17 R389, 01 R20). -/
def lifePorts (s : State) (d c : Nat) : Nat := (look s.life (portEntry d c)).toNat % 4

/-- Write a port state to the lifetime record (17 R389, R390): PORTS, "changed in service", the worst margin of each half, whose values are open
(log 53), and one more degradation. -/
def writePorts (d c ports : Nat) (inService : Bool) (s : State) : State :=
  let a := portEntry d c
  let old := (look s.life a).toNat
  let n := min ((look s.life (a + 3)).toNat + 1) 255
  let first : Byte := BitVec.ofNat 8 (old / 8 * 8 + (if inService then 4 else old / 4 % 2 * 4) + ports)
  let margin := fun (half : Bool) => Config.portMargin d c half s.free
  { s with free := s.free + 1, life := put (put (put (put s.life a first) (a + 1) (margin false)) (a + 2) (margin true)) (a + 3) (BitVec.ofNat 8 n) }

/-- A switch to half width is under way on a core (01 R19). -/
def switching (s : State) (d c : Nat) : Bool := s.agenda.any fun x => decide (x.ev = .halfWidthSwitch d c)

/-- PORTS of a core, a switch under way counted as made. -/
def portsNow (s : State) (d c : Nat) : Nat := if switching s d c then lifePorts s d c else (coreOf d c s).ports.toNat

/-- Report a degraded port to the die fault queue (18 R396 KIND 8, R392). -/
def portRecord (d c : Nat) (halfB : Bool) (s : State) : State :=
  appendDie (dieOf d s).fqBase (faultRecord ⟨0, 0, 8, 0x33, 0, 0, 0, 0, BitVec.ofNat 32 (bnat halfB), []⟩ (vdZero s d) c 0 0) s

/-- The blocks that a core's loss of its ports ends (01 R19, 08 R188): its own, and those under twin hold that it follows. -/
def blocksOn (s : State) (d c : Nat) : List Block :=
  (allBlocks s).filter fun b => placed b && b.die == d && (b.core == c || (b.twin && b.core + 1 == c))

/-- End a block whose core has failed (01 R19): killed with its entries drained; a replica is lost (19 R421). -/
def failBlock (b : Block) (halfB : Bool) (s : State) : State :=
  if 2 ≤ b.nrep then loseReplica b.key s
  else killBlock b.key (blockSink s b 0x33 2 0 (BitVec.ofNat 32 (bnat halfB))) false s

/-- One half of a core's ports has failed in service (01 R19): the core pauses and goes on at half width, or it goes offline. -/
def portFails (d c : Nat) (halfB : Bool) (s : State) : State :=
  let p := portsNow s d c
  let mine := if halfB then 2 else 1
  if p = 3 ∨ p = mine then s
  else if p = 0 then
    let s := portRecord d c halfB (writePorts d c mine true (diverge s))
    later 256 .none (.halfWidthSwitch d c) (modCoreAt d c (fun x => { x with pause := s.clk + 256 }) s)
  else
    let s := writePorts d c 3 true (diverge s)
    let bs := blocksOn s d c
    let s := modCoreAt d c (fun x => { x with ports := 3, insvc := true }) s
    bs.foldl (fun s b => failBlock b halfB s) s

/-- MARGIN_MONITOR_REPORT (01 R19). -/
def execMarginMonitorReport (die core : Nat) (halfB : Bool) (s : State) : Host.Outcome State Fault Refusal :=
  if !(decide (die < 40) && coreThere die core) then .fault .noSuchUnit else .next (portFails die core halfB s)

/-- The core resumes on its surviving half (01 R19). -/
def execHalfWidthSwitch (die core : Nat) (s : State) : Host.Outcome State Fault Refusal :=
  if !(decide (die < 40) && coreThere die core) then .fault .noSuchUnit
  else
    let p := BitVec.ofNat 2 (lifePorts s die core)
    .next (modCoreAt die core (fun x => if x.ports = 3 then x else { x with ports := p, insvc := x.insvc || x.ports != p, pause := 0 }) s)

/-- Row and column of the sensor region over a physical core (18 R399). -/
def regionOf (p : Nat) : Nat × Nat := (p / 64, p % 64 / 8)

/-- The region of a logical core, as a number. -/
def coreRegion (d c : Nat) : Nat :=
  let r := regionOf (Config.physicalCore d c % 512)
  8 * r.1 + r.2

/-- A report of a region covers a logical core of its die (18 R399): the same region, or one that shares an edge. -/
def covers (region d c : Nat) : Bool :=
  let a := regionOf (Config.physicalCore d c % 512)
  decide (meshDist a (region / 8, region % 8) ≤ 1)

/-- A block begins its zeroing or its restart again (18 R400). -/
def beginAgain (b : Block) (s : State) : State :=
  let s := { s with agenda := s.agenda.filter fun d => d.ev != .blockStart b.key && !(d.ev == .blockRestart && d.subj == .block b.key) }
  startZeroing b.key s

/-- The supervisor crew's block restarts where it stood (18 R400, 13 R307). -/
def restartCrew (b : Block) (l : Launch) (s : State) : State :=
  let s := flushOne b.key (fun _ => true) s
  startZeroing b.key (placeOn l b.key b.die b.core l.place.2 .supervisor s)

/-- A block cannot be restarted from what is released: it is pinned, or a resume entry it wrote under a pin is discarded (18 R400). -/
def uncontained (s : State) (b : Block) : Bool :=
  blockPinned s b.key || (allCores s).any fun c => c.muck.any fun e => e.blk == b.key && e.idem == some true

/-- A struck replica of three is flushed with discard and waits (19 R422); the other two go on as a pair, and what a struck primary had not performed
the lower of them performs. DESIGN CHOICE (log 100): an effect of an atomic that the struck primary had performed and still held is gone with its
entry, as 18 R400 discards every one. -/
def strikeReplica (b : Block) (s : State) : State :=
  let todo := unperformed s b.key
  handOver b.key todo (mapBlocks (fun x => if x.key = b.key then { x with struck := true } else x) (flushOne b.key (fun _ => true) s))

/-- What a strike report does to a block that it covers (18 R400, 19 R422); `bad` tells that it is uncontained. -/
def strikeBlock (info : Word) (b : Block) (bad : Bool) (s : State) : State :=
  if b.st = .starting ∧ !bad then beginAgain b s
  else if 3 ≤ b.nrep then strikeReplica b s
  else if b.nrep = 2 then (if bad then loseReplica b.key s else
    later 1 .none (.admission b.die) (flushBlock b.key.name b.key.idx false (flushOne b.key (fun _ => true) s)))
  else if bad then killBlock b.key (blockSink s b 0x31 2 0 info) true s
  else match (launchOf b.key.name s).filter fun l => l.crewOf.isSome with
    | some l => restartCrew b l s
    | none => flushBlock b.key.name b.key.idx true s

/-- A strike report that covers some cores of a die (18 R400): their unreleased entries are discarded, and their blocks restart or
end. -/
def strike (d : Nat) (cores : List Nat) (info : Word) (s : State) : State :=
  let cores := cores.filter fun c => decide ((coreOf d c s).ports ≠ 3)
  let blocks := (allBlocks s).filter fun b => placed b && b.die == d && (cores.contains b.core || (b.twin && cores.contains (b.core + 1)))
  let judged := blocks.map fun b => (b, uncontained s b || (decide (2 ≤ b.nrep) && anyPinned s b.key.name b.key.idx))
  let s := cores.foldl (fun s c => modCoreAt d c (perfAdd 25 0 1) s) (diverge s)
  let s := discardHeld (fun e => e.gang.die == d && cores.contains e.gang.core) s
  judged.foldl (fun s x => strikeBlock info x.1 x.2 s) s

/-- STRIKE_REPORT (18 R399, R400): a report of a region of a compute die or its L-die, counted in the lifetime record. -/
def execStrikeReport (die : Nat) (lDie : Bool) (region : Nat) (s : State) : Host.Outcome State Fault Refusal :=
  if 40 ≤ die ∨ 64 ≤ region then .fault .noSuchUnit
  else
    let info : Word := BitVec.ofNat 32 (256 * bnat lDie + region)
    let s := tally (0x019000 + 256 * (die + 40 * bnat lDie) + 4 * region) 1 s
    .next (strike die ((List.range 480).filter (covers region die)) info s)

/-- A crossing's check code detects corrupted data (01 R19): a strike report that covers this core alone, counted as one of its region of
the compute die (18 R399; the rule does not say which die of the pair: log 77), and then the half is disabled. -/
def execCrossingCheckError (die core : Nat) (halfB : Bool) (s : State) : Host.Outcome State Fault Refusal :=
  if !(decide (die < 40) && coreThere die core) then .fault .noSuchUnit
  else
    let s := tally (0x019000 + 256 * die + 4 * coreRegion die core) 1 s
    .next (portFails die core halfB (strike die [core] (BitVec.ofNat 32 (coreRegion die core)) s))

/-- Two comparison records are equal (19 R414). -/
def sameRec (a b : VoteRec) : Bool := a.sigs == b.sigs && a.sigk == b.sigk && a.kind == b.kind && a.pos == b.pos

/-- Kill every replica of a block (19 R417): MISMATCH, entries discarded. -/
def killReplicas (name idx : Nat) (s : State) : State :=
  let bs := ((allBlocks s).filter fun b => b.key.name == name && b.key.idx == idx && b.st != .ended).map fun b => (b.key, killRecord s b 0x41 0)
  let rest := (restOf s ⟨name, 0, idx⟩ 0x41 0).filter fun x => !bs.any fun b => b.1 == x.1
  let s' := bs.foldl (fun s b => killOne b.1 b.2 true s) s
  let all : Bool := match launchOf name s with
    | none => false
    | some l => decide (l.info.cls = .c) || (match unitRead s l.ctx.toNat (l.info.sink + 1) 1 with
      | some p => natb ((p.getD 0 0).toNat)
      | none => false)
  match bs with
  | b :: _ => if all then killRest b.1 rest s' else s'
  | [] => s'

/-- Roll back every replica of a block (19 R417); `fwd` asks for a forwarded replay (19 R420). -/
def rollBack (name idx : Nat) (fwd : Bool) (s : State) : State :=
  let s := flushBlock name idx false s
  let gangs := fun (b : Block) => match launchOf b.key.name s with
    | some l => maskOf fun g => (blockGangs l).contains g
    | none => b.gangs
  mapBlocks (fun b => if b.key.name = name ∧ b.key.idx = idx ∧ b.st ≠ .ended then { b with rolled := gangs b, replay := fwd } else b) s

/-- A mismatch (19 R417): the block is killed when a gang of the vote is pinned or it has rolled back since its gangs' latest IDEM;
else it rolls back. -/
def mismatch (v : Vote) (recs : List VoteRec) (s : State) : State :=
  let mine := fun (k : BlockKey) => k.name == v.name && k.idx == v.blk
  let pinned := (allGangs s).any fun g => mine g.blk && g.gno == v.gno && g.pinned
  let again := (allBlocks s).any fun b => mine b.key && b.st != .ended && b.rolled != 0
  let input := recs.any fun a => recs.any fun b => a.sigs != b.sigs && a.sigl != b.sigl
  if pinned ∨ again then killReplicas v.name v.blk s else rollBack v.name v.blk input s

/-- A resynchronisation of a replica from another begins (19 R418): the loser's records leave the open votes. -/
def beginResync (dst src : BlockKey) (s : State) : State :=
  if s.resyncs.any fun r => r.dst == dst then s
  else
    let drop := fun (v : Vote) => if v.name = dst.name ∧ v.blk = dst.idx ∧ v.verdict.isEmpty then
      { v with recs := v.recs.filter fun r => r.rep != dst.rep } else v
    later 0 .none (.resyncImageArrival dst) { s with resyncs := s.resyncs ++ [⟨dst, src, none⟩], votes := s.votes.map drop }

/-- A gang of an image whose vote has agreed since the image was read: its trick has matched (19 R418). -/
def imageMatched (gno : Nat) (g : Gang) : Gang :=
  match g.rel with
  | .sent _ slice => if g.gno = gno then { g with rel := .matched false slice, sigs := 0, sigl := 0, sigk := 0 } else g
  | _ => g

/-- A vote is decided: each replica's verdict is on its way from the primary's core (19 R414), and an image that is on its way holds
the match (19 R418). -/
def decide' (v : Vote) (bs : List Block) (verdict : List (Nat × Nat)) (s : State) : State :=
  let same := fun (x : Vote) => x.name == v.name && x.blk == v.blk && x.gno == v.gno && x.verdict.isEmpty
  let turn := fun (r : Resync) => if r.dst.name = v.name ∧ r.dst.idx = v.blk then
    { r with image := r.image.map fun im => { im with gangs := im.gangs.map (imageMatched v.gno) } } else r
  let s := { s with votes := (s.votes.filter fun x => !same x) ++ [{ v with verdict := verdict }], resyncs := s.resyncs.map turn }
  let hub := primaryOf s v.name v.blk
  bs.foldl (fun s b =>
    match (gangsOf b.key s).find? fun g => g.gno == v.gno with
    | none => s
    | some g => later (hub.elim 0 fun p => transit p b) (.gang g.key) .verdictArrival s) s

/-- The vote among the records of a gang's replicas (19 R415, R422). -/
def takeVote (v : Vote) (bs : List Block) (s : State) : State :=
  let recs := v.recs.filter fun r => bs.any fun b => b.key.rep == r.rep
  let recOf := fun (b : Block) => recs.find? fun r => r.rep == b.key.rep
  let agree := fun (a b : Block) => match recOf a, recOf b with
    | some x, some y => sameRec x y
    | _, _ => false
  let win := bs.filter fun a => decide (2 ≤ (bs.filter (agree a)).length) || decide (bs.length < 2)
  match lowest win with
  | none => mismatch v recs s
  | some first =>
    if !win.all (agree first) then mismatch v recs s
    else
      let verdict := bs.map fun b => (b.key.rep, if b.key = first.key then 0 else if agree first b then 1 else 2)
      let s := decide' v bs verdict s
      let out := (bs.filter fun b => !agree first b).map (·.key)
      let waits := ((allBlocks s).filter fun b => b.key.name == v.name && b.key.idx == v.blk && b.struck && !b.lost).map (·.key)
      (out ++ waits).foldl (fun s k => beginResync k first.key s) s

/-- REPLICA_VOTE (19 R415): once 4 clk have passed since the last voter's record arrived. -/
def execReplicaVote (name blk gang : Nat) (s : State) : Host.Outcome State Fault Refusal :=
  let bs := voters s name blk
  .next (match s.votes.find? fun v => v.name == name && v.blk == blk && v.gno == gang && v.verdict.isEmpty with
    | none => s
    | some v =>
      if bs.all fun b => v.recs.any fun r => r.rep == b.key.rep && decide (r.arrives + 4 ≤ s.clk) then takeVote v bs s else s)

/-- A record is missing STRVT clk after the first of its vote (19 R421): its replica is lost, and the others vote. -/
def execReplicaRecordTimeout (name blk gang : Nat) (s : State) : Host.Outcome State Fault Refusal :=
  .next (match s.votes.find? fun v => v.name == name && v.blk == blk && v.gno == gang && v.verdict.isEmpty with
    | none => s
    | some v =>
      if !voteLate s v then s
      else
        let gone := (voters s name blk).filter fun b => !v.recs.any fun r => r.rep == b.key.rep && decide (r.arrives ≤ s.clk)
        gone.foldl (fun s b => loseReplica b.key s) s)

/-- The held entries and MSTs of the trick that the gang in focus has ended are matched (19 R416): this replica writes them, or its
acting primary does. -/
def matchTrick (performs : Bool) (s : State) : State :=
  let g := s.gang
  let mark := fun (e : Held) => if e.gang = g.key ∧ e.blk = g.blk ∧ !e.matched then { e with matched := true, writes := performs || e.ts } else e
  let s := modCore (fun c => { c with muck := c.muck.map mark }) s
  modGang (fun g => { g with pend := g.pend.map fun p => if p.cls = .st ∧ !p.bytes.isEmpty then { p with flush := [(0, 0)] } else p }) s

/-- The release points of the instructions that pin (02 R57, 19 R413); 45 is that of a copy into global memory. -/
def pinKinds : List Nat := [1, 2, 3, 5, 6, 7, 11, 12, 45]

/-- A verdict reaches a replica's gang (19 R414, R415, R418); at a match the pin of the instruction starts (19 R417). -/
def takeVerdict (o kind slice : Nat) (s : State) : State :=
  let g := s.gang
  if o = 2 then
    let s := sinkRecord g.blk.name (gangSink s g 0x40 3 0 (herePos s) (BitVec.ofNat 32 s.block.repl) 0) s
    discardHeld (fun e => e.gang == g.key && e.blk == g.blk && !e.matched) s
  else
    let s := matchTrick (o == 0) s
    modGang (fun g => { g with
      sigs := 0, sigl := 0, sigk := 0, lclkV := s.core.lclk, rel := .matched (o == 0) slice, pinned := g.pinned || pinKinds.contains kind }) s

/-- VERDICT_ARRIVAL (19 R414). -/
def execVerdictArrival (s : State) : Host.Outcome State Fault Refusal :=
  let g := s.gang
  let mine := fun (v : Vote) => v.name == g.blk.name && v.blk == g.blk.idx && v.gno == g.gno && v.verdict.any fun x => x.1 == g.blk.rep
  .next (match g.rel, s.votes.find? mine with
    | .sent kind slice, some v =>
      if !g.live then s
      else
        let o := ((v.verdict.find? fun x => x.1 == g.blk.rep).map (·.2)).getD 1
        let rest := v.verdict.filter fun x => x.1 != g.blk.rep
        let others := s.votes.filter fun x => x != v
        takeVerdict o kind slice { s with frag := sliceSet (· == slice), votes := if rest.isEmpty then others else { v with verdict := rest } :: others }
    | _, _ => s)

/-- A verdict is on its way to a gang. -/
def verdictComing (s : State) (g : Gang) : Bool :=
  s.votes.any fun v => v.name == g.blk.name && v.blk == g.blk.idx && v.gno == g.gno && v.verdict.any fun x => x.1 == g.blk.rep

/-- The source of a resynchronisation has come to rest (19 R418): loads, copies and pending results are complete, no effect of a
matched trick is left to perform, and its array is still. -/
def atRest (s : State) (b : Block) : Bool :=
  let still := fun (c : Core) => c.streams.isEmpty && c.cbWait.isEmpty && c.shadowReady
  ((gangsOf b.key s).all fun g =>
    g.park.isNone && g.redo.isNone && !verdictComing s g && !s.csrq.any (fun w => w.gang == g.key) && (match g.rel with | .matched .. => false | _ => true) &&
    g.pend.all fun p => p.fin || (p.cls == .st && p.bytes.isEmpty && p.flush.isEmpty)) &&
  (!b.array || (still (coreOf b.die b.core s) && (!b.twin || still (coreOf b.die (b.core + 1) s))))

/-- Bytes of a block's image (19 R418): its registers, its scratch, and the tiles of its arrays. -/
def imageSize (s : State) (b : Block) : Nat :=
  ((gangsOf b.key s).map fun g => 2048 * g.regs).sum + b.size + 65536 * (bnat b.array + bnat b.twin)

/-- The image of a block, which resumes at a clk; both blocks' outstanding counters are 0 from here on (19 R418). -/
def readImage (r : Resync) (b : Block) (s : State) : State :=
  let t := s.clk + 64 + (imageSize s b + 511) / 512
  let cores := if b.array then coreOf b.die b.core s :: (if b.twin then [coreOf b.die (b.core + 1) s] else []) else []
  let im : Image := ⟨gangsOf b.key s, b, cores, t⟩
  let keys := (gangsOf r.dst s).map (·.key)
  let way := (blockOf r.dst s).elim 0 fun x => transit b x
  let s := mapGangs (fun g => if g.blk = b.key then { g with pend := [] } else if g.blk = r.dst then { g with fwd := [] } else g) s
  let s := { s with
    agenda := s.agenda.filter (fun d => match d.ev with | .forwardArrival k _ => !keys.contains k | _ => true)
    resyncs := s.resyncs.map fun x => if x.dst = r.dst then { x with image := some im } else x }
  later (t + way - s.clk) .none (.resyncImageArrival r.dst) s

/-- The gang of the loser as the image gives it (19 R418): in its own slot, with the values forwarded since. -/
def imageGang (im : Image) (lclk : DWord) (g : Gang) : Gang :=
  match im.gangs.find? fun x => x.gno == g.gno with
  | none => Gang.vacant g.key
  | some x => { x with key := g.key, blk := g.blk, pend := [], timer := 0, fwd := g.fwd, lclkV := lclk, defer := [], answers := [] }

/-- A gang of the loser stands at a release point as its source did (19 R418): its record stands beside the source's in the
vote, which is open. -/
def rejoin (src : BlockKey) (g : Gang) (s : State) : State :=
  match g.rel with
  | .sent .. =>
    let mine := fun (v : Vote) => v.name == g.blk.name && v.blk == g.blk.idx && v.gno == g.gno && v.verdict.isEmpty
    match (s.votes.find? mine).bind fun v => (v.recs.find? fun r => r.rep == src.rep).map fun r => (v, r) with
    | some (v, r) =>
      let way := match primaryOf s g.blk.name g.blk.idx, blockOf g.blk s with
        | some p, some b => transit p b
        | _, _ => 0
      let v := { v with recs := v.recs.filter (fun x => x.rep != g.blk.rep) ++ [{ r with rep := g.blk.rep, arrives := s.clk + way }] }
      askVote v { s with votes := v :: s.votes.filter fun x => !mine x }
    | none => s
  | _ => s

/-- The array state of a core as another's. -/
def copyArray (a : Core) (c : Core) : Core :=
  { c with live := a.live, shadow := a.shadow, shadowReady := true, acc := a.acc, cb := a.cb, cbWait := [], om := a.om, streams := [], tiles := [], rings := a.rings }

/-- The loser's block takes the image and resumes (19 R418). -/
def takeImage (r : Resync) (im : Image) (b : Block) (s : State) : State :=
  let gs := gangsOf b.key s
  let keys := gs.map (·.key)
  let keep := fun (d : Due) => !concerns keys d || (match d.ev with | .forwardArrival .. => true | _ => false)
  let rep := b.key.rep
  let left := fun (v : Vote) => v.verdict.filter fun x => x.1 != rep
  let turn := fun (v : Vote) => if v.name = b.key.name ∧ v.blk = b.key.idx then { v with verdict := left v } else v
  let done := s.votes.filter fun v => v.name == b.key.name && v.blk == b.key.idx && !v.verdict.isEmpty && v.verdict.all fun x => x.1 == rep
  let s := { s with
    agenda := s.agenda.filter keep
    remotes := s.remotes.filter fun x => x.write || x.engine.isSome || !keys.contains x.gang
    csrq := s.csrq.filter fun w => !(w.ofGang && keys.contains w.gang)
    votes := (s.votes.filter fun v => !done.contains v).map turn
    resyncs := s.resyncs.filter fun x => x.dst != r.dst }
  let lclk := (coreOf b.die b.core s).lclk
  let grows := fun (p : Nat) => gs.flatMap fun g => if g.key.part ≠ p then [] else
    let x := imageGang im lclk g
    (List.range x.slices).filterMap fun k => match (entryOf x k).wait with
      | .grow n false low => if low ≠ k then none else some (g.key.slot, k, n, fld ((fetchWord s x.ctx.toNat (posAdd (entryOf x k).pc (entryOf x k).ix)).getD 0) 8 8)
      | _ => none
  let s := modCoreAt b.die b.core (fun c => orphanCmds b.key { c with parts := c.parts.mapIdx fun p x =>
    { x with growq := (x.growq.filter fun q => !keys.contains ⟨c.die, c.core, p, q.1⟩) ++ grows p } }) s
  let s := im.cores.zip [b.core, b.core + 1] |>.foldl (fun s x => modCoreAt b.die x.2 (copyArray x.1) s) s
  let s := mapGangs (fun g => if g.live ∧ g.blk = b.key then imageGang im lclk g else g) s
  let s := mapBlocks (fun x => if x.key = b.key then { im.blk with
    key := x.key, st := .resident, die := x.die, core := x.core, flushReq := x.flushReq, repl := x.repl, nrep := x.nrep, degr := x.degr,
    struck := false, lost := x.lost, recorded := x.recorded } else x) s
  (gangsOf b.key s).foldl (fun s g => rejoin im.blk.key g s) s

/-- The sources of resynchronisations that have come to rest in this clk stop and are read (19 R418). -/
def readImages (s : State) : State :=
  (s.resyncs.filter fun r => r.image.isNone).foldl (fun s r => match blockOf r.dst s, blockOf r.src s with
    | some x, some y => if x.st ≠ .flushed ∧ y.st = .resident ∧ atRest s y then readImage r y s else s
    | _, _ => s) s

/-- RESYNC_IMAGE_ARRIVAL (19 R418, R422): a struck replica takes a core of its die, and from then on its records are awaited like any replica's,
or the image reaches the loser. -/
def execResyncImageArrival (b : BlockKey) (s : State) : Host.Outcome State Fault Refusal :=
  .next (match s.resyncs.find? fun r => r.dst == b, blockOf b s with
    | some r, some x =>
      let again := later 1 .none (.resyncImageArrival b) s
      if x.st = .flushed then
        match launchOf b.name s with
        | none => s
        | some l => match bestCore s l x.die with
          | none => again
          | some c => later 1 .none (.resyncImageArrival b)
              (mapBlocks (fun y => if y.key = b then { y with struck := false } else y) (placeOn l b x.die c 0 .kernel s))
      else match r.image, blockOf r.src s with
      | some im, _ => if im.resume ≤ s.clk then takeImage r im x s else s
      | none, _ => s
    | _, _ => s)

/-- Bytes of a count of the lifetime record (17 R389): strikes by region have 4, all others 8. -/
def countBytes (off : Nat) : Nat := if 0x019000 ≤ off ∧ off < 0x021000 then 4 else 8

/-- Add to a count of the lifetime record; it saturates at all ones (17 R389). -/
def addLife (off n : Nat) (s : State) : State :=
  let w := countBytes off
  let v := min (leNat (readBytes s.life off w) + n) (2 ^ (8 * w) - 1)
  { s with life := writeBytes s.life off (leBytes w v) }

/-- The counts of a pod link, with their offsets in the lifetime record (17 R389). -/
def linkCounts (l : Link) : List (Nat × Nat) :=
  [(0x041000 + 32 * l.link, l.fixed), (0x041008 + 32 * l.link, l.failed), (0x041010 + 32 * l.link, l.repeated), (0x041018 + 32 * l.link, l.retrained)]

/-- Write a word of the first region of the lifetime record (17 R389, log 53). -/
def lifeWord (off v : Nat) (s : State) : State := { s with life := writeBytes s.life off (leBytes 4 v) }

/-- Seconds of power since the last fold, counted whole, and for each die at its temperature (17 R389); which it is stays open (log 53). -/
def foldSeconds (s : State) : State :=
  let n := (s.clk - s.foldAt) / Config.second
  if n = 0 then s
  else
    let s := (List.range 124).foldl (fun s d => addLife (0x001000 + 256 * d + 8 * min 31 (Config.temperature d s.free / 4)) n s) s
    addLife 0x000010 n { s with foldAt := s.foldAt + n * Config.second, free := s.free + 1 }

/-- Firmware folds its on-die accumulators into the lifetime record (17 R390). -/
def foldLife (s : State) : State :=
  let s := foldSeconds s
  let add := fun (s : State) (x : Nat × Nat) => if x.2 = 0 then s else addLife x.1 x.2 s
  let s := (s.counts.map fun c => (c.1, c.2.toNat)).foldl add s
  let s := (s.links.flatMap linkCounts).foldl add s
  { s with counts := [], links := s.links.map fun l => { l with fixed := 0, failed := 0, repeated := 0, retrained := 0 } }

/-- LIFETIME_FOLD (17 R390). -/
def execLifetimeFold (s : State) : Host.Outcome State Fault Refusal := .next (foldLife s)

/-- ORDERLY_SHUTDOWN (17 R390). -/
def execOrderlyShutdown (s : State) : Host.Outcome State Fault Refusal := .next (foldLife s)

/-- An event of the module's own that a die reset ends: the die's CSR writes, copies, array results and starts under way. -/
def endsWithDie (d : Nat) (ev : Instr) : Bool :=
  match ev with
  | .waypWrite e _ => e == d
  | .retnWrite e _ => e == d
  | .smplcfgWrite e _ _ => e == d
  | .repartitionComplete e => e == d
  | .retentionEntry e _ _ => e == d
  | .retentionExit e _ _ => e == d
  | .copyComplete e _ _ => e == d
  | .shadowPlaneReady e _ => e == d
  | .streamRowWritten e _ => e == d
  | .codebookReady e _ => e == d
  | .balanceArrival e _ => e == d
  | .engineAccessFault e _ _ _ => e == d
  | .forwardArrival k _ => k.die == d
  | .mstComplete k _ => k.die == d
  | .resultWriteback k _ => k.die == d
  | _ => false

/-- An event whose subject is a gang of a die, or a response on its way to one (18 R403). -/
def gangEvent (d : Nat) (x : Due) : Bool :=
  match x.subj, x.ev with
  | .none, .loadComplete k _ => k.die == d
  | .none, .storeAccepted k _ => k.die == d
  | .gang k, _ => k.die == d
  | _, _ => false

/-- When the responses to the requests of a die that are under way come (18 R403). DESIGN CHOICE (log 98) of what one response is: one for each
line of a load or an atomic, each released store, each line of a CFLUSH, each result of a unit, each granule that a copy engine is reading,
and the last write of a copy. Peers answer by tag. -/
def responsesDue (d : Nat) (s : State) : List Nat :=
  let reqs := fun (k : GangKey) (id : Nat) =>
    (((allGangs s).find? fun g => g.key == k).bind fun g => (g.pend.find? fun p => p.id == id).map fun p => max 1 p.reqs).getD 1
  let waiting := s.agenda.flatMap fun x => match x.subj, x.ev with
    | .none, .loadComplete k id => if k.die = d then List.replicate (reqs k id) x.clk else []
    | .none, .storeAccepted k id => if k.die = d then List.replicate (reqs k id) x.clk else []
    | _, .resultWriteback k _ => if k.die = d then [x.clk] else []
    | _, .copyComplete e _ _ => if e = d then [x.clk] else []
    | _, _ => []
  let reading := ((allCores s).filter fun c => c.die == d).flatMap fun c => c.cmds.flatMap fun q => ((activeCmd q).map fun x =>
    let m := (nextGranule Move.empty x.moves).1
    match x.start, m.src with
    | some t, some l => if l.sp = .glob then (List.range (min (s.clk + 1 - t) ((x.moves.map (·.len)).sum / 128 + 1))).map fun i => t + i + sourceLat (focusGang x.gang s) x m else []
    | _, _ => []).getD []
  waiting ++ reading

/-- The dirty sectors of a die cache are lost without write-back (10 R246): their lines hold the homes' bytes again, at a new time. -/
def loseDirty (d : Nat) (s : State) : State :=
  let cells := (dieOf d s).dirty.flatMap fun c => cellsAt (32 * c.1) c.2
  mapDies (fun x => if x.die = d then { x with dirty := [] } else x) { (stampLines 0 cells s).2 with mem := putAll s.mem cells }

/-- Home fault records that name the die's earlier incarnation are marked "issuer gone" (18 R403, 16 R365). -/
def markGone (d : Nat) (s : State) : State :=
  s.homes.foldl (fun s h => (h.live.filter fun x => x.2.2.1.die == d).foldl (fun s x =>
    let a := reservedAt h.home (64 * x.1 + 2)
    homeStore [(a, look s.mem a ||| 4)] s) s) s

/-- The launches with a block placed or a copy queued on a die (18 R403). -/
def onDieNow (s : State) (d : Nat) : List Launch :=
  let q := (dieOf d s).queues.flatten
  s.launches.filter fun l => decide (l.st ≠ .complete) && (q.contains l.name || (allBlocks s).any fun b => b.key.name == l.name && placed b && b.die == d)

/-- The share of a launch on a reset die has ended (18 R403): blocks there have ended, unstarted ones never start, and replicas there
are lost (19 R421). -/
def endShare (d : Nat) (l : Launch) (s : State) : State :=
  let mine := (List.range l.blocks).flatMap fun b => ((List.range (max l.info.nrep 1)).filter fun k => l.dieFor k b == d).map fun k => (⟨l.name, k, b⟩ : BlockKey)
  let s :=
    if 2 ≤ l.info.nrep then mine.foldl (fun s k =>
      match blockOf k s with
      | some b => if b.st = .ended then s else loseReplica k s
      | none => { s with blocks := { Block.vacant with key := k, st := .ended, repl := k.rep, lost := true } :: s.blocks }) s
    else
      let s := modLaunch l.name (fun x => { x with barred := x.barred ++ (mine.filter fun k => (blockOf k s).isNone && !x.begun k.idx).map (·.idx) }) s
      mine.foldl (fun s k => match blockOf k s with
        | some b => if b.st = .ended then s else endBlock k s
        | none => s) s
  later 1 .none (.launchCompletion l.name) s

/-- The KIND 6 record of a launch about the reset of a die (18 R403, R395). -/
def resetRecord (d : Nat) (l : Launch) (s : State) : State :=
  let site := ((List.range 40).find? fun v => decide ((vdsOf s l.ctx.toNat)[v]? = some d)).getD 0
  sinkRecord l.name { launchSink 0x32 6 0 0 0 with site := site } s

/-- The state of a die is lost (10 R246, 18 R403): its gangs, cores, caches, scratch and queues are as its reset leaves them; port
states stay (01 R19). -/
def clearDie (d : Nat) (s : State) : State :=
  let old := dieOf d s
  let new : Die := { Die.reset d (old.incarn + 1) s.clk with nextLref := old.nextLref, stale := old.stale ++ responsesDue d s, fqBase := old.fqBase, dqBase := old.dqBase, crew := old.crew }
  let peers := ((allCores s).filter fun c => c.die == d).flatMap fun c => c.cmds.flatten.flatMap fun x => x.peers.map fun k => (k, x.pos)
  let s := peers.foldl (fun s x => later 1 .none (.forwardArrival x.1 [x.2]) s) s
  let core := fun (c : Core) => if c.die = d then { Core.reset d c.core s.clk with ports := c.ports, insvc := c.insvc } else c
  let s := mapCores core (mapDies (fun x => if x.die = d then new else x) (onDie d id s))
  let s := mapGangs (fun g => if g.key.die = d then Gang.vacant g.key else g)
    { s with exited := s.exited.filter fun g => g.key.die != d, past := s.past.filter fun b => b.die != d }
  let other := fun (l : List (Nat × Nat)) => l.filter fun x => x.1 != d
  let drop := fun (h : Home) => { h with
    rl := h.rl.filter fun x => x.1 % 256 != d, tlb := h.tlb.map fun e => { e with leases := other e.leases }
    recs := h.recs.map fun r => { r with waiters := r.waiters.filter fun w => w.gang.die != d }
    settling := h.settling.map fun x => { x with
      who := if x.who.1.die = d then (x.who.1, 8) else x.who, acks := x.acks.filter (· != d), till := other x.till } }
  { s with
    homes := s.homes.map drop
    agenda := s.agenda.filter fun x => !endsWithDie d x.ev && !gangEvent d x
    remotes := s.remotes.map fun r => if r.gang.die = d then { r with old := true } else r
    csrq := s.csrq.filter fun w => w.gang.die != d
    spent := s.spent.filter fun x => x.1 != d
    gaveUp := s.gaveUp.filter fun x => x.1.die != d }

/-- DIE_RESET (18 R403, 10 R246). -/
def execDieReset (die : Nat) (s : State) : Host.Outcome State Fault Refusal :=
  if 40 ≤ die then .fault .noSuchUnit
  else
    let ls := onDieNow s die
    let s := clearDie die (markGone die (loseDirty die (diverge s)))
    let s := ls.foldl (fun s l => endShare die l (resetRecord die l s)) s
    .next (appendDie (dieOf die s).fqBase (faultRecord ⟨0, 0, 10, 0x32, 0, 0, 0, 0, 0, []⟩ (vdZero s die) 0 0 0) s)

/-- The struck replicas that wait for a core and lose a home (19 R422). DESIGN CHOICE (log 101): a home of the launch's context. -/
def homeless (home : Nat) (s : State) : List BlockKey :=
  ((allBlocks s).filter fun b => b.struck && !b.lost && b.st == .flushed && (launchOf b.key.name s).any fun l =>
    (List.range 40).any fun v => decide (vhHome s l.ctx.toNat v = some home)).map (·.key)

/-- HOME_RESET (10 R246): the home cache's dirty lines are lost, and each launch whose stores they were receives UNCORRECTABLE. -/
def execHomeReset (home : Nat) (s : State) : Host.Outcome State Fault Refusal :=
  if 40 ≤ home then .fault .noSuchUnit
  else
    let h := homeOf home s
    let inDie := fun (x : Nat) => (allDies s).any fun d => d.dirty.any fun c => c.1 == x
    let back := fun (c : Nat × List Byte) => match h.dirty.find? fun y => y.1 == c.1 with
      | some y => y
      | none => c
    let names := uniq ((h.writers.filter fun w => h.dirty.any fun c => c.1 == w.1).map (·.2))
    let cells := (h.dirty.filter fun c => !inDie c.1).flatMap fun c => cellsAt (32 * c.1) c.2
    let s := mapDies (fun d => { d with dirty := d.dirty.map back }) { s with mem := putAll s.mem cells }
    let s := modHome home (fun h => { h with dirty := [], lines := [], writers := h.writers.filter fun w => inDie w.1 }) s
    let s := names.foldl (fun s n => sinkRecord n (launchSink 0x32 3 0 0 0) s) s
    .next ((homeless home s).foldl (fun s b => loseReplica b s) s)

end Sys2Proof.Machine
end

