-- ==== Sys2Proof/Machine/Module.lean ====
section
/-! DEFINITION. The module as a whole: power, bring-up and the management ports (20 R427, R428, 17 R390), life cycle and tokens
(20 R434, R435), pod links, the arrival log and replay (20 R429 to R433), accesses of application cores (11 R247), and the Abail
translator (04 R107 to R110, 16 R370). -/

namespace Sys2Proof.Machine

/-- What the module keeps without supply: its variant, its fuses, its lifetime record, its identity and a frozen log; the free
values and events still to come are not state of the module. -/
def unpowered (s : State) : State :=
  { State.reset with
    profD := s.profD, disabled := s.disabled, fuse := s.fuse, lcs := s.lcs, lcsNext := s.lcsNext, idErased := s.idErased, life := s.life,
    logFrozen := s.logFrozen, draws := s.draws, free := s.free, inbox := s.inbox, upsets := s.upsets, stage := 0 }

/-- POWER_LOSS (17 R390): every volatile state is lost, and counts not folded with it. -/
def execPowerLoss (s : State) : Host.Outcome State Fault Refusal := .next (unpowered s)

/-- POWER_UP (20 R428, R434): the boot ROM waits for an image; a life-cycle state written before takes effect, and RETURN erases the
device identity key on entry. -/
def execPowerUp (s : State) : Host.Outcome State Fault Refusal :=
  let s := unpowered s
  .next { s with stage := 1, lcs := s.lcsNext, idErased := s.idErased || s.lcsNext == 3 }

/-- A module reset (20 R435, 05 R123): TIME is 0, and the features that a token opened close. -/
def execModuleReset (s : State) : Host.Outcome State Fault Refusal :=
  .next { s with timeBase := s.clk, tokDebug := false, tokReplay := false }

/-- BOOTST (20 R427). -/
def bootst (s : State) : Nat := s.stage.toNat + s.bootErr.toNat * 2 ^ 4 + bnat s.replay * 2 ^ 8 + s.fuse.toNat * 2 ^ 16

/-- MGMT_STATUS (20 R427). -/
def execMgmtStatus (s : State) : Host.Outcome State Fault Refusal :=
  .next (if s.stage = 0 then s else { s with answer := leBytes 4 (bootst s) })

/-- MGMT_LIFE (20 R427): up to 1,024 bytes of the lifetime record, after step 3. -/
def execMgmtLife (port off len : Nat) (s : State) : Host.Outcome State Fault Refusal :=
  if 2 ≤ port then .fault .noSuchUnit
  else .next (if s.stage.toNat < 4 then s
    else { s with answer := readBytes s.life off (min (min len 1024) (0x400000 - off)) })

/-- A debug token is good (20 R435): its magic and format, this device's digest, its signature, and no SECV below the counter. -/
def tokenGood (s : State) (tok : List Byte) : Bool :=
  tok.length == 160 && recField' tok 0 4 == 0x4B544244 && recField' tok 4 2 == 1 && (tok.drop 8).take 48 == Config.identityDigest && !s.idErased &&
  Config.ecdsaOk 2 (tok.take 64) ((tok.drop 64).take 96) && decide (s.fuse.toNat ≤ recField' tok 56 2)
where
  /-- A little-endian field of a token. -/
  recField' (bs : List Byte) (pos n : Nat) : Nat := leNat ((bs.drop pos).take n)

/-- LIFECYCLE_ADVANCE (20 R434): the fuses advance one way, on a signed request, for the next power-up. -/
def execLifecycleAdvance (signed : Bool) (dest : BitVec 2) (s : State) : Host.Outcome State Fault Refusal :=
  .next (if signed ∧ s.lcsNext.toNat < dest.toNat then { s with lcsNext := dest } else s)

/-- The image's signature holds (20 R428, R434). -/
def imageSigned (s : State) (img : FwImage) : Bool :=
  Config.ecdsaOk 0 img.bytes img.sig || (s.lcs == 0 && Config.ecdsaOk 1 img.bytes img.sig)

/-- The bad-frame list of a home as the lifetime record has it (16 R369). -/
def lifeBad (s : State) (h : Nat) : List (Nat × Nat) :=
  (List.range 1024).filterMap fun i =>
    let w := leNat (readBytes s.life (0x042000 + 4096 * h + 4 * i) 4)
    if natb (w / 2 ^ 31) then some (w % 2 ^ 20, fld w 20 4) else none

/-- The homes with a list in the lifetime record take it (20 R428 step 4); their stack copies are written (16 R369). -/
def loadBad (s : State) : State :=
  let named := uniq ((s.life.filter fun c => decide (0x042000 ≤ c.1) && decide (c.1 < 0x06A000)).map fun c => (c.1 - 0x042000) / 4096)
  named.foldl (fun s h =>
    let l := lifeBad s h
    let bs := l.flatMap fun x => leBytes 4 (x.1 + x.2 * 2 ^ 20 + 2 ^ 31)
    modHome h (fun y => { y with bad := l }) { s with mem := putAll s.mem (cellsAt (reservedAt h 0x400000) bs) }) s

/-- PORTS of a core at bring-up (01 R19): what the record has comes first, and a test never restores a half. -/
def startPorts (life test : Nat) : Nat := if life = 0 then test else if test = 0 ∨ life = test then life else 3

/-- The port test (01 R19, 20 R428 step 4): states in the lifetime record and findings of the test. -/
def testPorts (img : FwImage) (s : State) : State :=
  let marked := s.life.any fun c => decide (0x021000 ≤ c.1) && decide (c.1 < 0x041000)
  let old := if marked then (List.range 40).flatMap fun d => (List.range 480).filterMap fun c =>
    if lifePorts s d c = 0 then none else some (d, c) else []
  let found := (img.ports.filter fun x => decide (x.1 < 40) && decide (x.2.1 < 480)).map fun x => (x.1, x.2.1)
  let test := fun (x : Nat × Nat) => ((img.ports.find? fun y => y.1 == x.1 && y.2.1 == x.2).map (·.2.2.toNat)).getD 0
  (old ++ found.filter fun x => !old.contains x).foldl (fun s x =>
    let l := lifePorts s x.1 x.2
    let p := startPorts l (test x)
    let s := if p = l then s else writePorts x.1 x.2 p false s
    modCoreAt x.1 x.2 (fun c => { c with ports := BitVec.ofNat 2 p }) s) s

/-- A code version that firmware lays down (log 8): published, and its own handle. -/
def layVersion (secv : BitVec 16) (s : State) (x : Nat × Nat × DWord × Nat × DWord × Nat) : State :=
  let (c, n, base, words, ltab, ltn) := x
  let v : Ver := ⟨n, base, words, n, ltab, ltn, 2, true, secv, []⟩
  let fs := (framesOf s c v).getD []
  bindFrames c n fs (modCtx c (fun y => { y with vers := y.vers.filter (fun e => e.num != n) ++ [{ v with frames := fs }] }) s)

/-- Start the supervisor crew of a die at bring-up (13 R307, 18 R396). -/
def bringCrew (s : State) (p : CrewPlan) : State :=
  let half := fun (v : DWord) (i : Nat) => v.extractLsb' (32 * i) 32
  let r := launchRecOf p.record
  let r := { r with uarg := [half p.fq 0, half p.fq 1, half p.dq 0, half p.dq 1] ++ (r.uarg.drop 4) }
  let v := (((ctxOf 0 s).vers.find? fun e => e.num == r.codev).map (·.cur)).getD r.codev
  let n := freshLref p.die s
  let l : Launch := ⟨crewName p.die, 0, 0, r, 0, .admitted, [p.die], [(p.die, n)], [v], [r.team], 0, true, [], false, 0, some p.die, (p.core, p.part), [], 0⟩
  let s := { s with launches := l :: s.launches.filter fun x => decide (x.name ≠ l.name) }
  startCrew l p.die (onDie p.die (modDie fun d => { d with fqBase := p.fq, dqBase := p.dq, crew := true, nextLref := (n + 1) % 4096 }) s)

/-- The 288 bytes of an arrival-log record (20 R432). -/
def logRecord (time link chan seq slots : Nat) (bytes : List Byte) : List Byte :=
  leBytes 8 time ++ leBytes 1 link ++ leBytes 1 chan ++ leBytes 2 seq ++ leBytes 4 slots ++ leBytes 16 0 ++ ((bytes ++ List.replicate 256 0).take 256)

/-- Records that the arrival log holds (20 R432). -/
def logSize : Nat := 18641320

/-- Physical byte of record `n` of the arrival log (20 R432). -/
def logAt (n : Nat) : Nat := reservedAt (n % 40) (0x08000000 + 288 * (n / 40 % 466033))

/-- Append a record to the arrival log, unless it is frozen (20 R432). -/
def logFlit (bs : List Byte) (s : State) : State :=
  if s.logFrozen then s else { s with mem := putAll s.mem (cellsAt (logAt s.logNext) bs), logNext := (s.logNext + 1) % logSize }

/-- The good flits of the clk go to the arrival log (20 R432): ties in TIME to the lower link. -/
def writeLog (s : State) : State :=
  ((List.range 16).flatMap fun l => (s.logWait.filter fun x => x.1 == l).map (·.2)).foldl (fun s bs => logFlit bs s) { s with logWait := [] }

/-- A byte is the STATE of an entry of a request ring (20 R425). -/
def isRingState (k : Nat) : Bool :=
  let o := k - reservedAt 0 0x02000000
  decide (reservedAt 0 0x02000000 ≤ k) && decide (o < 40 * 16384) && o % 64 == 0

/-- Steps 4 to 6 of bring-up by firmware (20 R428). -/
def firmware (img : FwImage) (s : State) : State :=
  let s := addLife 0x000008 1 (lifeWord 0x000000 1 { s with foldAt := s.clk })
  let s := lifeWord 0x000018 s.lcs.toNat (lifeWord 0x00001C s.fuse.toNat s)
  let s := testPorts img (loadBad s)
  let s := { s with mem := putAll s.mem (img.place.map fun x => (x.1 * Config.stackBytes + x.2.1, x.2.2)), walker := img.walker }
  let s := img.code.foldl (layVersion img.secv) s
  let crews := img.crews.filter fun p => (enabledDies s).contains p.die && decide ((coreOf p.die p.core s).ports ≠ 3) && decide (p.core < 480) && decide (p.part < 4)
  let s := crews.foldl bringCrew s
  let s := if s.replay then { s with replayMark := timeOf s, logMark := leNat (readBytes s.mem (logAt 0) 8) }
    else logFlit (logRecord (timeOf s) 0xFF 0 0 0 []) { s with logNext := 0, logMark := timeOf s }
  let s := { s with mem := s.mem.filter fun c => !isRingState c.1, stage := 8 }
  if s.replay then later 0 .none (.replayInject 1) s else s

/-- The module enters replay mode (20 R433): its links stay untrained. -/
def enterReplay (img : FwImage) (s : State) : State :=
  firmware img { s with replay := true, seed := img.seed, draws := 0, links := (List.range 16).map Link.reset }

/-- MGMT_LOAD (20 R427, R428, R433): the boot ROM verifies an image, and firmware brings the module up; where the image requests the replay of
a frozen log, bring-up waits behind step 3 for the token that allows it (log 51). -/
def execMgmtLoad (port : Nat) (img : FwImage) (s : State) : Host.Outcome State Fault Refusal :=
  if 2 ≤ port then .fault .noSuchUnit
  else .next (
    if s.stage ≠ 1 ∧ (s.bootErr = 0 ∨ s.bootErr = 5 ∨ s.stage = 0) then s
    else if !imageSigned s img then { s with stage := 2, bootErr := 1 }
    else if img.secv.toNat < s.fuse.toNat then { s with stage := 2, bootErr := 2 }
    else
      let s := { s with
        fuse := img.secv, bootErr := 0, image := some img, replay := false, xcache := s.xcache.filter fun e => decide (img.secv.toNat ≤ e.secv.toNat) }
      if !img.trains then { s with stage := 3, bootErr := 3 }
      else if !img.memOk then { s with stage := 3, bootErr := 4 }
      else if img.replay && s.logFrozen then (if s.tokReplay then enterReplay img s else { s with stage := 4 })
      else firmware img { s with logFrozen := false, links := (List.range 16).map fun l => { Link.reset l with trained := true } })

/-- MGMT_TOKEN (20 R435): an accepted token opens its features; bring-up that waits for the replay feature goes on (20 R433, log 51). -/
def execMgmtToken (port : Nat) (tok : List (BitVec 8)) (s : State) : Host.Outcome State Fault Refusal :=
  if 2 ≤ port then .fault .noSuchUnit
  else
    let f := leNat ((tok.drop 6).take 2)
    let t := { s with tokDebug := s.tokDebug || natb f, tokReplay := s.tokReplay || natb (f / 2) }
    .next (if s.stage.toNat < 4 ∨ !tokenGood s tok then s
      else match s.image with
      | some img => if s.stage = 4 ∧ t.tokReplay then enterReplay img t else t
      | none => t)

/-- LOG_FREEZE (20 R432): what has arrived in this clk is logged before. -/
def execLogFreeze (s : State) : Host.Outcome State Fault Refusal := .next { writeLog s with logFrozen := true }

/-- Messages that wait leave a port while the sender holds fewer than 4,096 flits (20 R429); the timer of a request starts then (12 R268). -/
def sendQueued (link : Nat) : Nat → State → State
  | 0, s => s
  | n + 1, s =>
    let l := linkOf link s
    match l.queued with
    | [] => s
    | (u, m) :: t =>
      if 4096 ≤ l.unacked.length then s
      else
        let tag := match m with | .req q => some q.tag | _ => none
        let s := modLink link (fun l => { l with queued := t }.send s.replay u m) s
        sendQueued link n { s with remotes := s.remotes.map fun r => if tag = some r.tag then { r with sent := s.clk } else r }

/-- Whether an acknowledgement covers a flit (20 R429): of the ordered channel it covers all earlier ones too. -/
def acks (u : Bool) (seq : BitVec 16) (x : Bool × BitVec 16 × FlitMsg) : Bool :=
  x.1 == u && if u then x.2.1 == seq else decide ((seq - x.2.1).toNat < 2 ^ 15)

/-- A message of a peer module takes effect (20 R429, R430, 11 R258). -/
def takeMsg (link : Nat) (unordered : Bool) (m : FlitMsg) (s : State) : State :=
  match m with
  | .idle => s
  | .req q => later 0 .none (.inboundRemoteAccess link { q with copy := unordered }) s
  | .answer tag data => takeAnswer tag none data s
  | .nack tag code => takeAnswer tag (some code) [] s
  | .again u seq => modLink link (fun l => if l.unacked.any fun x => x.1 == u && x.2.1 == seq then { l with repeated := l.repeated + 1 } else l) s
  | .ack u seq =>
    let s := modLink link (fun l => { l with unacked := l.unacked.filter fun x => !acks u seq x }) s
    sendQueued link (linkOf link s).queued.length s

/-- Deliver the ordered flits of a link that wait and whose turn has come (20 R430). -/
def drainLink (link : Nat) : Nat → State → State
  | 0, s => s
  | n + 1, s =>
    let l := linkOf link s
    match l.waiting.find? fun f => f.seq == l.rxSeq with
    | none => s
    | some f => drainLink link n (takeMsg link false f.msg (modLink link (fun l => { l with rxSeq := l.rxSeq + 1, waiting := l.waiting.filter fun x => x.seq != f.seq }) s))

/-- A good flit is delivered by its channel (20 R430): at once, or in order; one that has been taken before is dropped (14 R321). The port
acknowledges what it has taken, and counts the buffer slots that the peer returns (20 R429). -/
def takeFlit (link : Nat) (f : Flit) (log : Bool) (s : State) : State :=
  let l := linkOf link s
  let rec' := logRecord (timeOf s) link (bnat f.unordered) f.seq.toNat f.slots.toNat f.bytes
  let note := fun (s : State) => if log then { s with logWait := s.logWait ++ [(link, rec')] } else s
  let s := modLink link (fun l => { l with
    repeats := l.repeats.filter fun r => !(r.1 == f.unordered && r.2.1 == f.seq), slots := l.slots + f.slots.toNat }) s
  let told := fun (u : Bool) (seq : BitVec 16) => modLink link fun l => { l with control := l.control ++ [.ack u seq] }
  if f.unordered then
    if l.taken.contains f.seq then told true f.seq s
    else
      let recent := fun (x : BitVec 16) => decide ((f.seq - x).toNat < 2 ^ 14) || decide ((x - f.seq).toNat < 2 ^ 14)
      takeMsg link true f.msg (told true f.seq (modLink link (fun l => { l with taken := f.seq :: l.taken.filter recent }) (note s)))
  else
    let s := if l.waiting.any (fun x => x.seq == f.seq) ∨ 2 ^ 15 ≤ (f.seq - l.rxSeq).toNat then s
      else drainLink link 65536 (modLink link (fun l => { l with waiting := l.waiting ++ [f] }) (note s))
    told false ((linkOf link s).rxSeq - 1) s

/-- A flit fails its CRC after correction (20 R429): it is asked for again, and the eighth time in vain the link retrains. -/
def failFlit (link : Nat) (u : Bool) (seq : BitVec 16) (s : State) : State :=
  let l := linkOf link s
  let same := fun (r : Bool × BitVec 16 × Nat) => r.1 == u && r.2.1 == seq
  let n := ((l.repeats.find? same).map (·.2.2)).getD 0
  let s := modLink link (fun l => { l with
    failed := l.failed + 1, repeats := (u, seq, n + 1) :: l.repeats.filter fun r => !same r, control := l.control ++ [.again u seq] }) s
  if 8 ≤ n then later 0 .none (.linkRetrain link) s else s

/-- FLIT_ARRIVAL (20 R429, R430, R432). -/
def execFlitArrival (link : Nat) (f : Flit) (s : State) : Host.Outcome State Fault Refusal :=
  if 16 ≤ link then .fault .noSuchUnit
  else .next (if !(linkOf link s).trained then s
    else
      let s := modLink link (fun l => { l with fixed := l.fixed + f.fixed }) s
      if f.good then takeFlit link f true s else failFlit link f.unordered f.seq s)

/-- LINK_RETRAIN (20 R429): the link is trained anew and its requests begin again; what it carries stays (11 R258, 12 R268). -/
def execLinkRetrain (link : Nat) (s : State) : Host.Outcome State Fault Refusal :=
  if 16 ≤ link then .fault .noSuchUnit
  else .next (modLink link (fun l => { l with repeats := [], retrained := l.retrained + 1 }) s)

/-- What a logged flit carries (20 R433); the layout is not given (log 15). -/
def loggedMsg (bs : List Byte) : FlitMsg :=
  match Config.flitParts bs with
  | 1 :: tag :: ctx :: addr :: w :: size :: data =>
    .req ⟨tag, BitVec.ofNat 16 ctx, BitVec.ofNat 64 addr, natb w, size, data.map (BitVec.ofNat 8), false⟩
  | 2 :: tag :: data => .answer tag (data.map (BitVec.ofNat 8))
  | 3 :: tag :: code :: _ => .nack tag code
  | 4 :: u :: seq :: _ => .again (natb u) (BitVec.ofNat 16 seq)
  | 5 :: u :: seq :: _ => .ack (natb u) (BitVec.ofNat 16 seq)
  | _ => .idle

/-- REPLAY_INJECT (20 R433): record `n` of the frozen log is injected at its logged time after the mark; at the log's end the run has
diverged. -/
def execReplayInject (n : Nat) (s : State) : Host.Outcome State Fault Refusal :=
  .next (if !s.replay then s
    else
      let b := fun (pos len : Nat) => leNat (readBytes s.mem (logAt n + pos) len)
      let time := b 0 8
      let link := b 8 1
      let due := s.replayMark + (time - s.logMark)
      if logSize ≤ n ∨ time < s.logMark ∨ 16 ≤ link then diverge s
      else if timeOf s < due then later (due - timeOf s) .none (.replayInject n) s
      else
        let bytes := readBytes s.mem (logAt n + 32) 256
        let f : Flit := ⟨natb (b 9 1), BitVec.ofNat 16 (b 10 2), BitVec.ofNat 15 (b 12 4), true, 0, bytes, loggedMsg bytes⟩
        later 0 .none (.replayInject (n + 1)) (takeFlit link f false s))

/-- APPLICATION_CORE_ACCESS (11 R247, R253): performed at its home, where it takes its place in the order; it waits for held entries of
its bytes, and a write to a bound frame is refused (15 R349). -/
def execApplicationCoreAccess (q : HostAccess) (s : State) : Host.Outcome State Fault Refusal :=
  let n := match q.store with
    | some bs => bs.length
    | none => q.size
  let k := q.home * Config.stackBytes + q.off
  if 40 ≤ q.home ∨ Config.stackBytes < q.off + n then .fault .noSuchUnit
  else .next (if s.stage ≠ 8 then s
      else if heldAny s k n then later 1 .none (.applicationCoreAccess q) s
      else match q.store with
      | some bs => if boundFrame s k then s else (homeOrdered 0 (cellsAt k bs) s).2
      | none => { s with answer := readBytes s.mem k n })

/-- An Abail instruction as the translator takes it (04 R107). -/
structure Abail where
  low : Nat
  high : Nat
  ext : Word

/-- Majors of form L (04 R93). -/
def formL (m : Nat) : Bool := m == 0x05 || m == 0x39 || m == 0xC1 || m == 0xCE

/-- An Abail instruction of form X. -/
def Abail.isX (a : Abail) : Bool := wordsOf (a.low % 256) == some 2 && !formL (a.low % 256)

/-- The guard of an Abail instruction: GRD and GN (04 R107). -/
def Abail.guard (a : Abail) : Nat := fld a.high 19 4

/-- The Giric words of an Abail instruction (04 R109), its offsets as they stand. -/
def Abail.words (a : Abail) (go : Bool) : List Nat :=
  if formL (a.low % 256) then [a.low, a.ext.toNat]
  else if a.isX then [a.low, a.high - fld a.high 23 1 * 2 ^ 23 + bnat go * 2 ^ 23] else [a.low]

/-- The Abail instructions of a module. -/
def abailOf (m : AbailModule) : List Abail := m.code.map fun c => ⟨c.1.toNat % 2 ^ 32, c.1.toNat / 2 ^ 32, c.2⟩

/-- The signed offsets, in instructions, of a direct transfer (04 R107): BR, CALL, and BRC with its reconvergence instruction. -/
def Abail.offsets (a : Abail) : List Int :=
  let i := sextN (a.low / 2 ^ 16) 16
  match a.low % 256 with
  | 0xC0 => [i]
  | 0xC2 => [i]
  | 0xC1 => [sextN a.ext.toNat 32] ++ (match decode a.low a.ext.toNat with
    | .ok (.brc _ _ _ true _ _, _) => [i]
    | _ => [])
  | _ => []

/-- An FP64 form names an odd register as the base of a pair (04 R90, 07 R162). -/
def fp64Odd : Instr → Bool
  | .dfma d a b c _ _ _ op _ => natb d.toNat || natb a.toNat || natb b.toNat || (op == .fma && natb c.toNat)
  | .fmov d a b ty op _ => ty == .f64 && (natb d.toNat || natb a.toNat || (op == .cpsgn && natb b.toNat))
  | .fcmp _ a b _ _ ty _ _ _ _ => ty == .f64 && (natb a.toNat || natb b.toNat)
  | .fclass _ a _ _ ty _ _ => ty == .f64 && natb a.toNat
  | .frnd d a _ _ ty _ _ => ty == .f64 && (natb d.toNat || natb a.toNat)
  | .cvt d a _ _ _ _ _ _ sty dty _ => (sty == .f64 && natb a.toNat) || (dty == .f64 && natb d.toNat)
  | _ => false

/-- R94 or R107 forbids an Abail instruction, a reserved major among them, or an offset of it leaves the module (04 R110); on profile D an FP64
form with an odd pair base is forbidden too (04 R90), and elsewhere it is a form of another profile, which runs into its trap (07 R162). -/
def abailBad (profD : Bool) (n : Nat) (x : Nat × Abail) : Bool :=
  let a := x.2
  let m := a.low % 256
  let xw := fld a.high 23 1
  let plain := !formL m && !a.isX
  (match decode a.low ((a.words true).getD 1 0) with
    | .ok (.reservedOpcodeIssue _, _) => true
    | .ok (i, _) => profD && fp64Odd i
    | .error _ => true) || xw != bnat (formL m) || (plain && (fld a.high 8 11 != 0 || fld a.high 24 8 != 0)) ||
  a.offsets.any fun o => decide ((x.1 : Int) + o < 0) || decide ((n : Int) ≤ x.1 + o)

/-- A clause that the translator forms (04 R109): its first instruction, its length, class and guard. -/
structure AbailClause where
  first : Nat
  len : Nat
  cls : EngClass
  guard : Option Nat

/-- An instruction can join a clause (04 R102, R109); a copy stands alone in its clause, so that nothing overtakes it. -/
def AbailClause.takes (c : AbailClause) (a : Abail) : Bool :=
  let k := classOf (a.low % 256)
  decide (c.len < if k == .cpy || c.cls == .cpy then 1 else 15) && (k == .gen || c.cls == .gen || k == c.cls) && (a.isX || c.guard.isNone || c.guard == some a.guard)

/-- A clause with one more instruction. -/
def AbailClause.add (c : AbailClause) (a : Abail) : AbailClause :=
  { c with
    len := c.len + 1
    cls := if c.cls = .gen then classOf (a.low % 256) else c.cls
    guard := if a.isX then c.guard else some (c.guard.getD a.guard) }

/-- The clauses of a module, in Abail order (04 R109): one starts at every index of a list, and behind every clause-ending
instruction. -/
def clausesOf (starts : List Nat) (l : List (Nat × Abail)) : List AbailClause :=
  (l.foldl (fun (r : List AbailClause × Bool) x =>
    let new := (AbailClause.mk x.1 0 .gen none).add x.2
    let ends := endsClause (x.2.low % 256)
    match r.1 with
    | c :: t => if !r.2 && !starts.contains x.1 && c.takes x.2 then (c.add x.2 :: t, ends) else (new :: r.1, ends)
    | [] => ([new], ends)) ([], false)).1.reverse

/-- The header of a clause: generation 1, its guard, and wait codes of 0, by which it waits until every outstanding operation is complete
(04 R85, R87; log 62). -/
def AbailClause.header (c : AbailClause) : Nat := 0x000000F1 + c.len * 2 ^ 8 + c.cls.code * 2 ^ 12 + (c.guard.getD 0) * 2 ^ 23

/-- Word offsets of the headers of clauses and of their instructions. -/
def layout (l : List Abail) (cs : List AbailClause) : List (Nat × Nat) × List Nat :=
  let size := fun (i : Nat) => ((l[i]?).map fun a => (a.words true).length).getD 1
  let r := cs.foldl (fun (r : Nat × List (Nat × Nat) × List Nat) c =>
    let (o, hs, ix) := r
    let body := (List.range c.len).foldl (fun (b : Nat × List Nat) i => (b.1 + size (c.first + i), b.2 ++ [b.1])) (o + 1, [])
    (body.1, hs ++ [(c.first, o)], ix ++ body.2)) (0, [], [])
  (r.2.1, r.2.2)

/-- The words of an instruction with its offsets translated (04 R109): `here` is its clause's header and `find` gives that of the clause
that begins at an index; none where an offset leaves the range of its form. -/
def Abail.place (a : Abail) (i : Nat) (go : Bool) (here : Nat) (find : Nat → Nat) : Option (List Nat) :=
  let rel := fun (o : Int) => (find (i + o).toNat : Int) - here
  let fits := fun (v : Int) => decide (-32768 ≤ v) && decide (v < 32768)
  let low := fun (v : Int) => a.low % 2 ^ 16 + (v % 2 ^ 16).toNat * 2 ^ 16
  match a.low % 256, a.offsets with
  | 0xC1, t :: rest =>
    let w1 := (rel t % 2 ^ 32).toNat
    match rest with
    | r :: _ => if fits (rel r) then some [low (rel r), w1] else none
    | [] => some [a.low, w1]
  | _, o :: _ => if fits (rel o) then some [low (rel o)] else none
  | _, [] => some (a.words go)

/-- The little-endian field of `n` bytes at a place of an entry. -/
def entryField (bs : List Byte) (pos n : Nat) : Nat := leNat ((bs.drop pos).take n)

/-- The instruction indices at which the kernels of a module and its link table enter it (04 R104, R105, R108): each begins a clause. -/
def abailEntries (m : AbailModule) : List Nat :=
  m.kernels.map (entryField · 4 4) ++ (m.links.filter fun e => natb (entryField e 7 1 / 128)).map (entryField · 0 4)

/-- The Giric image of a module and its map, or the first instruction that is refused (04 R109, R110). -/
def translate (profD : Bool) (m : AbailModule) : Except Nat (List Word × List Nat) :=
  let l := abailOf m
  let n := l.length
  let il := (List.range n).zip l
  match il.find? (abailBad profD n) with
  | some x => .error x.1
  | none =>
    let starts := m.targets ++ abailEntries m ++ il.flatMap fun x => x.2.offsets.map fun o => ((x.1 : Int) + o).toNat
    let cs := clausesOf starts il
    let (hs, ix) := layout l cs
    let find := fun (i : Nat) => ((hs.find? fun h => h.1 == i).map (·.2)).getD 0
    let body := cs.map fun c => (c, (il.drop c.first).take c.len |>.map fun x =>
      (x.1, x.2.place x.1 (x.2.isX && x.2.guard != c.guard.getD 0) (find c.first) find))
    match (body.flatMap (·.2)).find? fun x => x.2.isNone with
    | some x => .error x.1
    | none => .ok ((body.flatMap fun b => b.1.header :: b.2.flatMap fun x => x.2.getD []).map (BitVec.ofNat 32), ix)

/-- The word offset of the clause that begins at an entry point (04 R109): its header stands before the instruction; one beyond the module
stays. -/
def entryOffset (map : List Nat) (i : Nat) : Nat := (map[i]?).elim i (· - 1)

/-- The link table and the kernel descriptors of a module with their entry points as word offsets (04 R104, R105, R108). -/
def entriesOf (m : AbailModule) (map : List Nat) : List Byte :=
  let at' := fun (pos : Nat) (bs : List Byte) => bs.take pos ++ leBytes 4 (entryOffset map (entryField bs pos 4)) ++ bs.drop (pos + 4)
  (m.links.flatMap fun e => if natb (entryField e 7 1 / 128) then at' 0 e else e) ++ m.kernels.flatMap (at' 4)

/-- The bytes of a module, its header first (04 R108); an entry of the indirect-target list takes 4 bytes, which no rule states (log 62). The link
table and the descriptors follow the module. -/
def abailBytes (m : AbailModule) : List Byte :=
  let code := m.code.flatMap fun c => leBytes 8 c.1.toNat ++ (if natb (c.1.toNat / 2 ^ 55) then leBytes 4 c.2.toNat else [])
  leBytes 4 0x49414241 ++ leBytes 2 m.gen.toNat ++ [m.blocks, 0] ++ leBytes 4 m.code.length ++ leBytes 4 (32 + code.length) ++
    leBytes 4 m.targets.length ++ leBytes 12 0 ++ code ++ m.targets.flatMap (leBytes 4)

/-- What the device identity key signs of a translation (16 R370). -/
def signedPart (digest : List Byte) (gen : BitVec 16) (image : List Word) (map : List Nat) (secv : BitVec 16) : List Byte :=
  digest ++ leBytes 2 gen.toNat ++ image.flatMap (fun w => leBytes 4 w.toNat) ++ map.flatMap (leBytes 4) ++ leBytes 2 secv.toNat

/-- The signature of a cache entry holds (16 R370, 20 R434). -/
def entryGood (s : State) (e : XCache) : Bool := !s.idErased && Config.ecdsaOk 3 (signedPart e.digest e.gen e.image e.map e.secv) e.sig

/-- The image of a version, as its words stand, is a translation's. -/
def holdsImage (s : State) (c : Nat) (v : Ver) (image : List Word) : Bool :=
  v.words == image.length && ((List.range v.words).zip image).all fun x =>
    fetchWord s c (BitVec.ofNat 32 (v.num * 2 ^ 20 + x.1)) == some x.2.toNat

/-- A translation below the fuse counter is refused (16 R371): a launch that needs it, whose version holds its image, fails with LAUNCH_REVOKED,
and so does one that the loader has still to make, as the answer tells it. -/
def revoke (image : List Word) (s : State) : State :=
  let needs := s.launches.filter fun l => decide (l.st = .queued) && (namedVersion s l).any fun v => holdsImage s l.ctx.toNat v image
  needs.foldl (fun s l => refuse l 0x50 0 s) { s with answer := [0x50] }

/-- ABAIL_TRANSLATION (04 R109, R110, 16 R370, R371): a good cached translation is used, one below the fuse counter purged; else the
module is translated, signed and held, or its first offending instruction is named. What the loader is given is the link table and the
descriptors (04 R108). -/
def execAbailTranslation (m : AbailModule) (s : State) : Host.Outcome State Fault Refusal :=
  let dig := Config.sha384 (abailBytes m)
  let mine := fun (e : XCache) => e.digest == dig && e.gen == m.gen
  let rest := s.xcache.filter fun e => !mine e
  let fresh : State := match translate s.profD m with
    | .error i => { s with xcache := rest, answer := leBytes 4 i }
    | .ok (image, map) =>
      if m.secv.toNat < s.fuse.toNat then revoke image { s with xcache := rest }
      else { s with answer := entriesOf m map, xcache := (⟨dig, m.gen, image, map, m.secv, Config.ecdsaSign (signedPart dig m.gen image map m.secv)⟩ :: rest).take 8192 }
  .next (match s.xcache.find? mine with
    | some e => if !entryGood s e then fresh else if e.secv.toNat < s.fuse.toNat then revoke e.image { s with xcache := rest } else { s with xcache := e :: rest, answer := entriesOf m e.map }
    | none => fresh)

end Sys2Proof.Machine
end

