-- ==== Sys2Proof/Machine/Special.lean ====
section
/-! DEFINITION. Special functions and division (07 R179 to R182). A result that the spec gives exactly is that result;
any other lies within the bound of 03 R80 and is fixed by `Config.specialPick` (log 7). The exact result
is computed in fixed point with `fxBits` fraction bits, far finer than any bound. -/

namespace Sys2Proof.Machine

/-- Fraction bits of the fixed-point values. -/
def fxBits : Nat := 256
/-- One in fixed point. -/
def fxOne : Nat := 2 ^ 256
/-- ln 2 in fixed point. -/
def fxLn2 : Nat := 0xb17217f7d1cf79abc9e3b39803f2f6af40f343267298b62d8a0d175b8baafa2b
/-- log2 e in fixed point. -/
def fxLog2e : Nat := 0x171547652b82fe1777d0ffda0d23a7d11d6aef551bad2b4b1164a2cd9a342648f
/-- π in fixed point. -/
def fxPi : Nat := 0x3243f6a8885a308d313198a2e03707344a4093822299f31d0082efa98ec4e6c89

/-- The product of two fixed-point values. -/
def fxMul (a b : Nat) : Nat := a * b / fxOne

/-- A value in fixed point, its sign apart, rounded down. -/
def fxOf (m : Nat) (e : Int) : Nat := (roundAt .tz false m e (-256)).1

/-- e^t by Horner's rule, for t from 0 to below 1: 1 + t/k × (1 + t/(k+1) × …). -/
def fxExpTail (t : Nat) : Nat → Nat → Nat
  | 0, _ => fxOne
  | n + 1, k => fxOne + fxMul t (fxExpTail t n (k + 1)) / k

/-- 2^x for a fixed-point x that may be negative: a mantissa in fixed point and a power of two. -/
def fxExp2 (x : Int) : Nat × Int :=
  let n := x / (fxOne : Int)
  (fxExpTail (fxMul (x - n * (fxOne : Int)).toNat fxLn2) 64 1, n)

/-- e^−x in fixed point, for x not below 0. -/
def fxExpNeg (x : Nat) : Nat :=
  let p := fxExp2 (-(fxMul x fxLog2e : Int))
  p.1 / 2 ^ (-p.2).toNat

/-- The alternating series of sine and cosine over t²: 1 − u/(k(k+1)) × (1 − …). -/
def fxTrigTail (u : Nat) : Nat → Nat → Nat
  | 0, _ => fxOne
  | n + 1, k => fxOne - fxMul u (fxTrigTail u n (k + 2)) / (k * (k + 1))

/-- sin(π r) in fixed point, for r from 0 to 1/4. -/
def fxSinPi (r : Nat) : Nat :=
  let t := fxMul r fxPi
  fxMul t (fxTrigTail (fxMul t t) 40 2)

/-- cos(π r) in fixed point, for r from 0 to 1/4. -/
def fxCosPi (r : Nat) : Nat :=
  let t := fxMul r fxPi
  fxTrigTail (fxMul t t) 40 1

/-- The series of atanh: u × (1/k + u² × (1/(k+2) + …)). -/
def fxAtanhTail (u2 : Nat) : Nat → Nat → Nat
  | 0, _ => 0
  | n + 1, k => fxOne / k + fxMul u2 (fxAtanhTail u2 n (k + 2))

/-- log2 of m × 2^e in fixed point, for m above 0. -/
def fxLog2 (m : Nat) (e : Int) : Int :=
  let il := ilog m e
  let z := fxOf m (e - il)
  let (z, il) := if 6 * fxOne < 4 * z then (z / 2, il + 1) else (z, il)
  let num : Int := (z : Int) - fxOne
  let u := num.natAbs * fxOne / (z + fxOne)
  let ln := 2 * fxMul u (fxAtanhTail (fxMul u u) 64 1)
  let lg := fxMul ln fxLog2e
  il * (fxOne : Int) + (if num < 0 then -(lg : Int) else lg)

/-- The result of a function on an operand whose exact value is ±m × 2^e: the FP32 value that the part gives, which lies
within `bound` of it (03 R80, log 7). -/
def pickResult (fn : Nat) (x : Word) (s : Bool) (m : Nat) (e : Int) (bound : Val) : Val :=
  let y : Val := .num s m e
  let c := Fmt.fp32.unpack false (Config.specialPick fn x).toNat
  if !c.isNan && !c.isInf && decide ((c.dist y).cmp bound ≤ 0) then c
  else Fmt.fp32.unpack false (Fmt.fp32.round .ne false false y).1

/-- The exponent of the unit in the last place (03 R80). -/
def ulpExp (m : Nat) (e : Int) : Int := (if ilog m e < -126 then -126 else ilog m e) - 23

/-- A result within a bound, with NX, and UF when it is subnormal or zero (07 R182). -/
def within (fn : Nat) (x : Word) (fo s : Bool) (m : Nat) (e : Int) (bound : Val) : Nat × Fl :=
  let r := Fmt.fp32.round .ne false fo (pickResult fn x s m e bound)
  (r.1, { nx := true, uf := decide (r.1 % 2 ^ 31 < 2 ^ 23) })

/-- The result of a function that 07 R181 does not give exactly, within `k` units in the last place. -/
def inexact (fn : Nat) (x : Word) (fo s : Bool) (m : Nat) (e : Int) (k : Nat) : Nat × Fl :=
  within fn x fo s m e (.num false k (ulpExp m e))

/-- A result that 07 R181 gives exactly; FTZO may still flush it. -/
def exactly (fo : Bool) (v : Val) : Nat × Fl := Fmt.fp32.round .ne false fo v

/-- One. -/
def Val.one (s : Bool) : Val := .num s 1 0

/-- A power of two: its exponent. -/
def pow2Of (m : Nat) (e : Int) : Option Int := if m = 2 ^ m.log2 then some (ilog m e) else none

/-- RCP (07 R181). -/
def rcpBits (fo : Bool) (x : Word) (v : Val) : Nat × Fl :=
  match v with
  | .nan g => (Fmt.fp32.nan, { nv := g })
  | .inf s => exactly fo (.num s 0 0)
  | .num s m e =>
    if m = 0 then ((exactly fo (.inf s)).1, { dz := true })
    else match pow2Of m e with
      | some n => Fmt.fp32.round .ne false fo (.num s 1 (-n))
      | none =>
        let q := 2 ^ 200 / m
        if 127 < ilog q (-200 - e) then ((exactly fo (.inf s)).1, { of := true, nx := true })
        else inexact 0 x fo s q (-200 - e) 1

/-- RSQ (07 R181). -/
def rsqBits (fo : Bool) (x : Word) (v : Val) : Nat × Fl :=
  match v with
  | .nan g => (Fmt.fp32.nan, { nv := g })
  | .inf s => if s then (Fmt.fp32.nan, { nv := true }) else exactly fo (.num false 0 0)
  | .num s m e =>
    if m = 0 then ((exactly fo (.inf s)).1, { dz := true })
    else if s then (Fmt.fp32.nan, { nv := true })
    else match pow2Of m e with
      | some n => if n % 2 = 0 then exactly fo (.num false 1 (-(n / 2))) else rest m e
      | none => rest m e
where
  rest (m : Nat) (e : Int) : Nat × Fl :=
    let (m, e) := if e % 2 = 0 then (m, e) else (2 * m, e - 1)
    inexact 1 x fo false (isqrtFrom (2 ^ 400 / m) 201 0) (-200 - e / 2) 1

/-- EXP2 (07 R181). -/
def exp2Bits (fo : Bool) (x : Word) (v : Val) : Nat × Fl :=
  match v with
  | .nan g => (Fmt.fp32.nan, { nv := g })
  | .inf s => if s then exactly fo (.num false 0 0) else exactly fo (.inf false)
  | .num s m e =>
    let big := v.cmp (.num false 128 0)
    let small := v.cmp (.num true 150 0)
    if 0 ≤ big then (0x7F800000, { of := true, nx := true })
    else if small < 0 then (0, { uf := true, nx := true })
    else
      let f : Int := if s then -(fxOf m e : Int) else fxOf m e
      let whole := m = 0 ∨ (roundAt .tz false m e 0).2 = false
      if whole ∧ -149 * (fxOne : Int) ≤ f then exactly fo (.num false 1 (f / (fxOne : Int)))
      else
        let p := fxExp2 f
        inexact 2 x fo false p.1 (p.2 - 256) 2

/-- LOG2 (07 R181, 03 R80): from 0.75 to 1.5 the bound is 2^−22. -/
def log2Bits (fo : Bool) (x : Word) (v : Val) : Nat × Fl :=
  match v with
  | .nan g => (Fmt.fp32.nan, { nv := g })
  | .inf s => if s then (Fmt.fp32.nan, { nv := true }) else exactly fo (.inf false)
  | .num s m e =>
    if m = 0 then (0xFF800000, { dz := true })
    else if s then (Fmt.fp32.nan, { nv := true })
    else match pow2Of m e with
      | some n => exactly fo (.num (decide (n < 0)) n.natAbs 0)
      | none =>
        let y := fxLog2 m e
        if 0 ≤ v.cmp (.num false 3 (-2)) ∧ v.cmp (.num false 3 (-1)) ≤ 0 then
          within 3 x fo (decide (y < 0)) y.natAbs (-256) (.num false 1 (-22))
        else inexact 3 x fo (decide (y < 0)) y.natAbs (-256) 2

/-- A value modulo 2 in fixed point, from its magnitude; exact for every FP32 value. -/
def mod2 (m : Nat) (e : Int) : Nat := fxOf m e % (2 * fxOne)

/-- sin(π r) for r in [0, 2) in fixed point: sign and magnitude. -/
def fxSinTurn (r : Nat) : Bool × Nat :=
  let neg := decide (fxOne ≤ r)
  let r := r % fxOne
  let r := if fxOne < 2 * r then fxOne - r else r
  (neg, if 4 * r ≤ fxOne then fxSinPi r else fxCosPi (fxOne / 2 - r))

/-- SINPI (07 R181). -/
def sinpiBits (fo : Bool) (x : Word) (v : Val) : Nat × Fl :=
  match v with
  | .nan g => (Fmt.fp32.nan, { nv := g })
  | .inf _ => (Fmt.fp32.nan, { nv := true })
  | .num s m e =>
    let r := mod2 m e
    if m = 0 ∨ r % fxOne = 0 then exactly fo (.num s 0 0)
    else if 2 * r % fxOne = 0 then exactly fo (.one (s != decide (fxOne ≤ r)))
    else
      let y := fxSinTurn r
      inexact 4 x fo (s != y.1) y.2 (-256) 2

/-- COSPI (07 R181): cos(π x) is sin(π (x + 1/2)). -/
def cospiBits (fo : Bool) (x : Word) (v : Val) : Nat × Fl :=
  match v with
  | .nan g => (Fmt.fp32.nan, { nv := g })
  | .inf _ => (Fmt.fp32.nan, { nv := true })
  | .num _ m e =>
    let r := mod2 m e
    if r % fxOne = 0 then exactly fo (.one (decide (fxOne ≤ r)))
    else if 2 * r % fxOne = 0 then exactly fo (.num false 0 0)
    else
      let y := fxSinTurn ((r + fxOne / 2) % (2 * fxOne))
      inexact 5 x fo y.1 y.2 (-256) 2

/-- TANH (07 R181). -/
def tanhBits (fo : Bool) (x : Word) (v : Val) : Nat × Fl :=
  match v with
  | .nan g => (Fmt.fp32.nan, { nv := g })
  | .inf s => exactly fo (.one s)
  | .num s m e =>
    if m = 0 then exactly fo v
    else if 0 ≤ v.mag.cmp (.num false 9 0) then ((exactly fo (.one s)).1, { nx := true })
    else
      let t := fxExpNeg (2 * fxOf m e)
      inexact 6 x fo s ((fxOne - t) * fxOne / (fxOne + t)) (-256) 2

/-- SIGM (07 R181). -/
def sigmBits (fo : Bool) (x : Word) (v : Val) : Nat × Fl :=
  match v with
  | .nan g => (Fmt.fp32.nan, { nv := g })
  | .inf s => if s then exactly fo (.num false 0 0) else exactly fo (.one false)
  | .num s m e =>
    if m = 0 then exactly fo (.num false 1 (-1))
    else if 0 ≤ v.cmp (.num false 17 0) then ((exactly fo (.one false)).1, { nx := true })
    else if v.cmp (.num true 104 0) ≤ 0 then (0, { uf := true, nx := true })
    else
      let t := fxExpNeg (fxOf m e)
      inexact 7 x fo false ((if s then t else fxOne) * fxOne / (fxOne + t)) (-256) 2

/-- A special function on FP32: MODE.FTZI flushes the input and MODE.FTZO the result (07 R179). -/
def specialOp (maj : Nat) (d a : VReg) (f : State → Bool → Word → Val → Nat × Fl) (s : State) : Host.Outcome State Fault Refusal :=
  fLanes (req1 maj) .f32 [a.toNat] d.toNat (fun s l _ =>
    let x := BitVec.ofNat 32 (Fmt.fp32.flushed (modeFtzi s) (rdV s a.toNat l).toNat)
    f s (modeFtzo s) x (Fmt.fp32.unpack false x.toNat)) s

/-- RCP (07 R179). -/
def execRcp (d a : VReg) (s : State) : Host.Outcome State Fault Refusal := specialOp 0x58 d a (fun _ => rcpBits) s

/-- RSQ (07 R179). -/
def execRsq (d a : VReg) (s : State) : Host.Outcome State Fault Refusal := specialOp 0x59 d a (fun _ => rsqBits) s

/-- SQRT (07 R179): correctly rounded in MODE.RM. 07 R182 does not say that an exact root which 07 R181 does not list raises no NX: DESIGN CHOICE, it
raises none (log 81). -/
def execSqrt (d a : VReg) (s : State) : Host.Outcome State Fault Refusal :=
  specialOp 0x5A d a (fun s fo _ v => Fmt.fp32.finish (modeRM s) false fo v.sqrt) s

/-- EXP2 (07 R179). -/
def execExp2 (d a : VReg) (s : State) : Host.Outcome State Fault Refusal := specialOp 0x5B d a (fun _ => exp2Bits) s

/-- LOG2 (07 R179). -/
def execLog2 (d a : VReg) (s : State) : Host.Outcome State Fault Refusal := specialOp 0x5C d a (fun _ => log2Bits) s

/-- SINPI (07 R179). -/
def execSinpi (d a : VReg) (s : State) : Host.Outcome State Fault Refusal := specialOp 0x5D d a (fun _ => sinpiBits) s

/-- COSPI (07 R179). -/
def execCospi (d a : VReg) (s : State) : Host.Outcome State Fault Refusal := specialOp 0x5E d a (fun _ => cospiBits) s

/-- TANH (07 R179). -/
def execTanh (d a : VReg) (s : State) : Host.Outcome State Fault Refusal := specialOp 0x60 d a (fun _ => tanhBits) s

/-- SIGM (07 R179). -/
def execSigm (d a : VReg) (s : State) : Host.Outcome State Fault Refusal := specialOp 0x61 d a (fun _ => sigmBits) s

/-- FDIV (07 R180). -/
def execFdiv (d a b : VReg) (rnd : Rnd) (fi fo : Bool) (x : Guard) (s : State) : Host.Outcome State Fault Refusal :=
  fLanes (reqX 0x5F x) .f32 [a.toNat, b.toNat] d.toNat (fun s l i =>
    let q := (Fmt.fp32.unpack fi (fElem s .f32 a.toNat l i)).div (Fmt.fp32.unpack fi (fElem s .f32 b.toNat l i))
    let r := Fmt.fp32.round (fpRound s rnd l i) false fo q.1
    (r.1, q.2.or r.2)) s

end Sys2Proof.Machine
end

