-- ==== Sys2Proof/Machine/Dispatch.lean ====
section
/-! DEFINITION. The meaning of every instruction and event, one direct call an arm. -/

namespace Sys2Proof.Machine

/-- The meaning of an instruction or event in a state. -/
def exec (i : Instr) (s : State) : Host.Outcome State Fault Refusal :=
  match i with
  | .mov d a => Sys2Proof.Machine.execMov d a s
  | .movi d imm => Sys2Proof.Machine.execMovi d imm s
  | .movh d imm => Sys2Proof.Machine.execMovh d imm s
  | .movl d imm => Sys2Proof.Machine.execMovl d imm s
  | .add d a b => Sys2Proof.Machine.execAdd d a b s
  | .addi d a imm => Sys2Proof.Machine.execAddi d a imm s
  | .sub d a b => Sys2Proof.Machine.execSub d a b s
  | .neg d a => Sys2Proof.Machine.execNeg d a s
  | .addsat d a b ty x => Sys2Proof.Machine.execAddsat d a b ty x s
  | .subsat d a b ty x => Sys2Proof.Machine.execSubsat d a b ty x s
  | .mullo d a b => Sys2Proof.Machine.execMullo d a b s
  | .mulhi d a b ty x => Sys2Proof.Machine.execMulhi d a b ty x s
  | .mad d a b c sat ty x => Sys2Proof.Machine.execMad d a b c sat ty x s
  | .madw d a b c ty x => Sys2Proof.Machine.execMadw d a b c ty x s
  | .abs d a => Sys2Proof.Machine.execAbs d a s
  | .min d a b ty x => Sys2Proof.Machine.execMin d a b ty x s
  | .max d a b ty x => Sys2Proof.Machine.execMax d a b ty x s
  | .and d a b => Sys2Proof.Machine.execAnd d a b s
  | .or d a b => Sys2Proof.Machine.execOr d a b s
  | .xor d a b => Sys2Proof.Machine.execXor d a b s
  | .andn d a b => Sys2Proof.Machine.execAndn d a b s
  | .andi d a imm => Sys2Proof.Machine.execAndi d a imm s
  | .ori d a imm => Sys2Proof.Machine.execOri d a imm s
  | .xori d a imm => Sys2Proof.Machine.execXori d a imm s
  | .shl d a b => Sys2Proof.Machine.execShl d a b s
  | .shr d a b => Sys2Proof.Machine.execShr d a b s
  | .sar d a b => Sys2Proof.Machine.execSar d a b s
  | .shli d a imm => Sys2Proof.Machine.execShli d a imm s
  | .shri d a imm => Sys2Proof.Machine.execShri d a imm s
  | .sari d a imm => Sys2Proof.Machine.execSari d a imm s
  | .rotl d a b => Sys2Proof.Machine.execRotl d a b s
  | .popc d a => Sys2Proof.Machine.execPopc d a s
  | .clz d a => Sys2Proof.Machine.execClz d a s
  | .brev d a => Sys2Proof.Machine.execBrev d a s
  | .bfe d a sx pos len x => Sys2Proof.Machine.execBfe d a sx pos len x s
  | .bfi d a b pos len x => Sys2Proof.Machine.execBfi d a b pos len x s
  | .lea d a b imm sh x => Sys2Proof.Machine.execLea d a b imm sh x s
  | .sel d a b c x => Sys2Proof.Machine.execSel d a b c x s
  | .cmp d a b c ty cond comb x => Sys2Proof.Machine.execCmp d a b c ty cond comb x s
  | .cmpi d a imm c ty cond comb x => Sys2Proof.Machine.execCmpi d a imm c ty cond comb x s
  | .idiv d a b ty x => Sys2Proof.Machine.execIdiv d a b ty x s
  | .irem d a b ty x => Sys2Proof.Machine.execIrem d a b ty x s
  | .sxt d a n => Sys2Proof.Machine.execSxt d a n s
  | .zxt d a n => Sys2Proof.Machine.execZxt d a n s
  | .bperm d a b c x => Sys2Proof.Machine.execBperm d a b c x s
  | .add64 d a b sub x => Sys2Proof.Machine.execAdd64 d a b sub x s
  | .shf d a b c right x => Sys2Proof.Machine.execShf d a b c right x s
  | .pand d a b => Sys2Proof.Machine.execPand d a b s
  | .por d a b => Sys2Proof.Machine.execPor d a b s
  | .pxor d a b => Sys2Proof.Machine.execPxor d a b s
  | .pnot d a => Sys2Proof.Machine.execPnot d a s
  | .pmov d a => Sys2Proof.Machine.execPmov d a s
  | .vfromp d a => Sys2Proof.Machine.execVfromp d a s
  | .salu d a b op x => Sys2Proof.Machine.execSalu d a b op x s
  | .salui d a op imm => Sys2Proof.Machine.execSalui d a op imm s
  | .smovi d imm => Sys2Proof.Machine.execSmovi d imm s
  | .bcast d a => Sys2Proof.Machine.execBcast d a s
  | .rdlane d a b n reg x => Sys2Proof.Machine.execRdlane d a b n reg x s
  | .wrlane d a b n reg x => Sys2Proof.Machine.execWrlane d a b n reg x s
  | .elect d a ws => Sys2Proof.Machine.execElect d a ws s
  | .scmp d a b c ty cond comb x => Sys2Proof.Machine.execScmp d a b c ty cond comb x s
  | .fadd d a b => Sys2Proof.Machine.execFadd d a b s
  | .fsub d a b => Sys2Proof.Machine.execFsub d a b s
  | .fmul d a b => Sys2Proof.Machine.execFmul d a b s
  | .ffma d a b c rnd fi fo ty np nc x => Sys2Proof.Machine.execFfma d a b c rnd fi fo ty np nc x s
  | .faddx d a b rnd fi fo ty sub x => Sys2Proof.Machine.execFaddx d a b rnd fi fo ty sub x s
  | .fmulx d a b rnd fi fo ty x => Sys2Proof.Machine.execFmulx d a b rnd fi fo ty x s
  | .fmin d a b fi ty x => Sys2Proof.Machine.execFmin d a b fi ty x s
  | .fmax d a b fi ty x => Sys2Proof.Machine.execFmax d a b fi ty x s
  | .fmov d a b ty op x => Sys2Proof.Machine.execFmov d a b ty op x s
  | .fcmp d a b c fi ty hi cond comb x => Sys2Proof.Machine.execFcmp d a b c fi ty hi cond comb x s
  | .fclass d a mlo mhi ty hi x => Sys2Proof.Machine.execFclass d a mlo mhi ty hi x s
  | .frnd d a rnd fi ty nx x => Sys2Proof.Machine.execFrnd d a rnd fi ty nx x s
  | .dfma d a b c rnd fi fo op x => Sys2Proof.Machine.execDfma d a b c rnd fi fo op x s
  | .cvt d a rnd fi fo sat si di sty dty x => Sys2Proof.Machine.execCvt d a rnd fi fo sat si di sty dty x s
  | .cvtpk d a b c rnd fi fo sat h bs dty x => Sys2Proof.Machine.execCvtpk d a b c rnd fi fo sat h bs dty x s
  | .cvtup d a c rnd fi fo sat h bs sty dty x => Sys2Proof.Machine.execCvtup d a c rnd fi fo sat h bs sty dty x s
  | .cbenc d a c rnd fi j x => Sys2Proof.Machine.execCbenc d a c rnd fi j x s
  | .cbdec d a c j x => Sys2Proof.Machine.execCbdec d a c j x s
  | .rcp d a => Sys2Proof.Machine.execRcp d a s
  | .rsq d a => Sys2Proof.Machine.execRsq d a s
  | .sqrt d a => Sys2Proof.Machine.execSqrt d a s
  | .exp2 d a => Sys2Proof.Machine.execExp2 d a s
  | .log2 d a => Sys2Proof.Machine.execLog2 d a s
  | .sinpi d a => Sys2Proof.Machine.execSinpi d a s
  | .cospi d a => Sys2Proof.Machine.execCospi d a s
  | .fdiv d a b rnd fi fo x => Sys2Proof.Machine.execFdiv d a b rnd fi fo x s
  | .tanh d a => Sys2Proof.Machine.execTanh d a s
  | .sigm d a => Sys2Proof.Machine.execSigm d a s
  | .shfl d a b kind k reg w x => Sys2Proof.Machine.execShfl d a b kind k reg w x s
  | .vote d a op sc x => Sys2Proof.Machine.execVote d a op sc x s
  | .redx d a rnd fi fo op sc x => Sys2Proof.Machine.execRedx d a rnd fi fo op sc x s
  | .scanx d a op ex x => Sys2Proof.Machine.execScanx d a op ex x s
  | .lid d what => Sys2Proof.Machine.execLid d what s
  | .matchLanes d a b64 x => Sys2Proof.Machine.execMatchLanes d a b64 x s
  | .ld d a b off ty p strm k lo x => Sys2Proof.Machine.execLd d a b off ty p strm k lo x s
  | .st d a b off ty p strm k lo x => Sys2Proof.Machine.execSt d a b off ty p strm k lo x s
  | .lds d b off ty sp x => Sys2Proof.Machine.execLds d b off ty sp x s
  | .sts d b off ty sp x => Sys2Proof.Machine.execSts d b off ty sp x s
  | .ldw d a off n sp strm x => Sys2Proof.Machine.execLdw d a off n sp strm x s
  | .ldp d a b off h j sp k lo x => Sys2Proof.Machine.execLdp d a b off h j sp k lo x s
  | .stp d a b off h j sp k lo x => Sys2Proof.Machine.execStp d a b off h j sp k lo x s
  | .sld d a off w64 sp x => Sys2Proof.Machine.execSld d a off w64 sp x s
  | .sst d a off w64 sp x => Sys2Proof.Machine.execSst d a off w64 sp x s
  | .atom d a b c rnd op k lo x => Sys2Proof.Machine.execAtom d a b c rnd op k lo x s
  | .red a b c rnd op k lo x => Sys2Proof.Machine.execRed a b c rnd op k lo x s
  | .atoms d b c rnd op ts nr x => Sys2Proof.Machine.execAtoms d b c rnd op ts nr x s
  | .waitv d a b c scope sp cond u nd x => Sys2Proof.Machine.execWaitv d a b c scope sp cond u nd x s
  | .tbegin d a => Sys2Proof.Machine.execTbegin d a s
  | .tabort imm => Sys2Proof.Machine.execTabort imm s
  | .pref a b off lvl k lo x => Sys2Proof.Machine.execPref a b off lvl k lo x s
  | .cflush a b off act k lo x => Sys2Proof.Machine.execCflush a b off act k lo x s
  | .fence fl fs => Sys2Proof.Machine.execFence fl fs s
  | .mldw cb a tw x => Sys2Proof.Machine.execMldw cb a tw x s
  | .mma d a tw ow x => Sys2Proof.Machine.execMma d a tw ow x s
  | .mmab d a tw ow andOp x => Sys2Proof.Machine.execMmab d a tw ow andOp x s
  | .mzero d n1 fol => Sys2Proof.Machine.execMzero d n1 fol s
  | .mrd d a fol x => Sys2Proof.Machine.execMrd d a fol x s
  | .mwr d a fol x => Sys2Proof.Machine.execMwr d a fol x s
  | .mst d a rnd fo sat fol s32 x => Sys2Proof.Machine.execMst d a rnd fo sat fol s32 x s
  | .mcbl d a sp x => Sys2Proof.Machine.execMcbl d a sp x s
  | .omset d a x => Sys2Proof.Machine.execOmset d a x s
  | .mnanr d => Sys2Proof.Machine.execMnanr d s
  | .cpy d a b dsp ssp cmd x => Sys2Proof.Machine.execCpy d a b dsp ssp cmd x s
  | .tcpy d a out ts rsc cmd x => Sys2Proof.Machine.execTcpy d a out ts rsc cmd x s
  | .gather d a b r ts cmd k x => Sys2Proof.Machine.execGather d a b r ts cmd k x s
  | .scatter d a b r ts cmd k x => Sys2Proof.Machine.execScatter d a b r ts cmd k x s
  | .rginit d a n1 slotb ts x => Sys2Proof.Machine.execRginit d a n1 slotb ts x s
  | .rgacqC d a b c ph x => Sys2Proof.Machine.execRgacqC d a b c ph x s
  | .rgacqP d a c x => Sys2Proof.Machine.execRgacqP d a c x s
  | .rgrelC a x => Sys2Proof.Machine.execRgrelC a x s
  | .rgrelP a x => Sys2Proof.Machine.execRgrelP a x s
  | .rgput d a b ssp cmd x => Sys2Proof.Machine.execRgput d a b ssp cmd x s
  | .qpush d a b x => Sys2Proof.Machine.execQpush d a b x s
  | .qpop d c w scope x => Sys2Proof.Machine.execQpop d c w scope x s
  | .launch d a b c q cx x => Sys2Proof.Machine.execLaunch d a b c q cx x s
  | .launchPre d a b x => Sys2Proof.Machine.execLaunchPre d a b x s
  | .launchKill d a b c x => Sys2Proof.Machine.execLaunchKill d a b c x s
  | .launchCtx d a x => Sys2Proof.Machine.execLaunchCtx d a x s
  | .launchRes d a x => Sys2Proof.Machine.execLaunchRes d a x s
  | .wsld d a b x => Sys2Proof.Machine.execWsld d a b x s
  | .br imm => Sys2Proof.Machine.execBr imm s
  | .brc c n mode rv rcv tgt => Sys2Proof.Machine.execBrc c n mode rv rcv tgt s
  | .call imm => Sys2Proof.Machine.execCall imm s
  | .callt imm => Sys2Proof.Machine.execCallt imm s
  | .calli a xv => Sys2Proof.Machine.execCalli a xv s
  | .ret a => Sys2Proof.Machine.execRet a s
  | .jmpi a xv => Sys2Proof.Machine.execJmpi a xv s
  | .regang m x => Sys2Proof.Machine.execRegang m x s
  | .idem a => Sys2Proof.Machine.execIdem a s
  | .trap imm => Sys2Proof.Machine.execTrap imm s
  | .wait tLd tSt tCp tTl => Sys2Proof.Machine.execWait tLd tSt tCp tTl s
  | .bar d a n op sreg x => Sys2Proof.Machine.execBar d a n op sreg x s
  | .csrr d nlo nhi x => Sys2Proof.Machine.execCsrr d nlo nhi x s
  | .csrw a nlo op nhi x => Sys2Proof.Machine.execCsrw a nlo op nhi x s
  | .grow d k => Sys2Proof.Machine.execGrow d k s
  | .shrink d k => Sys2Proof.Machine.execShrink d k s
  | .query d a item x => Sys2Proof.Machine.execQuery d a item x s
  | .hops d a b x => Sys2Proof.Machine.execHops d a b x s
  | .tlbw d a b sz x => Sys2Proof.Machine.execTlbw d a b sz x s
  | .tlbwFault d a b x => Sys2Proof.Machine.execTlbwFault d a b x s
  | .tlbiPage d a c x => Sys2Proof.Machine.execTlbiPage d a c x s
  | .tlbiCtx d a c x => Sys2Proof.Machine.execTlbiCtx d a c x s
  | .tlbiAll d c x => Sys2Proof.Machine.execTlbiAll d c x s
  | .tlbiFq d a b x => Sys2Proof.Machine.execTlbiFq d a b x s
  | .ndsrcTime d x => Sys2Proof.Machine.execNdsrcTime d x s
  | .ndsrcRand d x => Sys2Proof.Machine.execNdsrcRand d x s
  | .sigrd d what => Sys2Proof.Machine.execSigrd d what s
  | .getm d x => Sys2Proof.Machine.execGetm d x s
  | .setm a m x => Sys2Proof.Machine.execSetm a m x s
  | .dbgHalt d b x => Sys2Proof.Machine.execDbgHalt d b x s
  | .dbgRun d b x => Sys2Proof.Machine.execDbgRun d b x s
  | .dbgStep d b x => Sys2Proof.Machine.execDbgStep d b x s
  | .dbgBp d a b slot x => Sys2Proof.Machine.execDbgBp d a b slot x s
  | .dbgWp d a b slot kind len x => Sys2Proof.Machine.execDbgWp d a b slot kind len x s
  | .dbgDump d a b x => Sys2Proof.Machine.execDbgDump d a b x s
  | .codepubNew d a x => Sys2Proof.Machine.execCodepubNew d a x s
  | .codepubPub d a b x => Sys2Proof.Machine.execCodepubPub d a b x s
  | .codepubRet d a x => Sys2Proof.Machine.execCodepubRet d a x s
  | .frmigCopy d a x => Sys2Proof.Machine.execFrmigCopy d a x s
  | .frmigCommit d a b x => Sys2Proof.Machine.execFrmigCommit d a b x s
  | .frmigEnd d a x => Sys2Proof.Machine.execFrmigEnd d a x s
  | .frmigBad d a x => Sys2Proof.Machine.execFrmigBad d a x s
  | .waypWrite die v => Sys2Proof.Machine.execWaypWrite die v s
  | .vdtbWrite addr => Sys2Proof.Machine.execVdtbWrite addr s
  | .retnWrite die v => Sys2Proof.Machine.execRetnWrite die v s
  | .smplcfgWrite die core v => Sys2Proof.Machine.execSmplcfgWrite die core v s
  | .clauseHeader h => Sys2Proof.Machine.execClauseHeader h s
  | .reconvergenceRelease k rpc => Sys2Proof.Machine.execReconvergenceRelease k rpc s
  | .resultWriteback k id => Sys2Proof.Machine.execResultWriteback k id s
  | .loadComplete k id => Sys2Proof.Machine.execLoadComplete k id s
  | .storeAccepted k id => Sys2Proof.Machine.execStoreAccepted k id s
  | .quarantineRelease die core => Sys2Proof.Machine.execQuarantineRelease die core s
  | .homeLoadFault k f => Sys2Proof.Machine.execHomeLoadFault k f s
  | .deferredStoreFault k f => Sys2Proof.Machine.execDeferredStoreFault k f s
  | .engineAccessFault die core stream f => Sys2Proof.Machine.execEngineAccessFault die core stream f s
  | .remoteTimeout tag => Sys2Proof.Machine.execRemoteTimeout tag s
  | .inboundRemoteAccess link q => Sys2Proof.Machine.execInboundRemoteAccess link q s
  | .tlbMiss home ctx striped gran w => Sys2Proof.Machine.execTlbMiss home ctx striped gran w s
  | .translationRetry home ctx striped gran w => Sys2Proof.Machine.execTranslationRetry home ctx striped gran w s
  | .walkerStart home => Sys2Proof.Machine.execWalkerStart home s
  | .copyComplete die core stream => Sys2Proof.Machine.execCopyComplete die core stream s
  | .shadowPlaneReady die core => Sys2Proof.Machine.execShadowPlaneReady die core s
  | .streamRowWritten die core => Sys2Proof.Machine.execStreamRowWritten die core s
  | .mstComplete k id => Sys2Proof.Machine.execMstComplete k id s
  | .growGrant die core part => Sys2Proof.Machine.execGrowGrant die core part s
  | .boost k slice => Sys2Proof.Machine.execBoost k slice s
  | .launchAppend die name queue => Sys2Proof.Machine.execLaunchAppend die name queue s
  | .dependencePoll die => Sys2Proof.Machine.execDependencePoll die s
  | .admission die => Sys2Proof.Machine.execAdmission die s
  | .blockDeal b => Sys2Proof.Machine.execBlockDeal b s
  | .blockStart b => Sys2Proof.Machine.execBlockStart b s
  | .launchCompletion name => Sys2Proof.Machine.execLaunchCompletion name s
  | .balanceTick die => Sys2Proof.Machine.execBalanceTick die s
  | .balanceArrival die core => Sys2Proof.Machine.execBalanceArrival die core s
  | .repartitionComplete die => Sys2Proof.Machine.execRepartitionComplete die s
  | .retentionEntry die core acc => Sys2Proof.Machine.execRetentionEntry die core acc s
  | .retentionExit die core acc => Sys2Proof.Machine.execRetentionExit die core acc s
  | .homeCacheWriteback home line => Sys2Proof.Machine.execHomeCacheWriteback home line s
  | .frmigCopyDone home => Sys2Proof.Machine.execFrmigCopyDone home s
  | .versionFree ctx ver => Sys2Proof.Machine.execVersionFree ctx ver s
  | .marginMonitorReport die core halfB => Sys2Proof.Machine.execMarginMonitorReport die core halfB s
  | .halfWidthSwitch die core => Sys2Proof.Machine.execHalfWidthSwitch die core s
  | .crossingCheckError die core halfB => Sys2Proof.Machine.execCrossingCheckError die core halfB s
  | .strikeReport die lDie region => Sys2Proof.Machine.execStrikeReport die lDie region s
  | .replicaVote name blk gang => Sys2Proof.Machine.execReplicaVote name blk gang s
  | .resyncImageArrival b => Sys2Proof.Machine.execResyncImageArrival b s
  | .replicaRecordTimeout name blk gang => Sys2Proof.Machine.execReplicaRecordTimeout name blk gang s
  | .forwardArrival k vals => Sys2Proof.Machine.execForwardArrival k vals s
  | .dieReset die => Sys2Proof.Machine.execDieReset die s
  | .homeReset home => Sys2Proof.Machine.execHomeReset home s
  | .mgmtLoad port img => Sys2Proof.Machine.execMgmtLoad port img s
  | .mgmtLife port off len => Sys2Proof.Machine.execMgmtLife port off len s
  | .mgmtToken port tok => Sys2Proof.Machine.execMgmtToken port tok s
  | .lifecycleAdvance signed dest => Sys2Proof.Machine.execLifecycleAdvance signed dest s
  | .flitArrival link f => Sys2Proof.Machine.execFlitArrival link f s
  | .linkRetrain link => Sys2Proof.Machine.execLinkRetrain link s
  | .replayInject n => Sys2Proof.Machine.execReplayInject n s
  | .reservedOpcodeIssue w => Sys2Proof.Machine.execReservedOpcodeIssue w s
  | .applicationCoreAccess q => Sys2Proof.Machine.execApplicationCoreAccess q s
  | .recallArrival home die ctx lo len => Sys2Proof.Machine.execRecallArrival home die ctx lo len s
  | .codebookReady die core => Sys2Proof.Machine.execCodebookReady die core s
  | .abailTranslation m => Sys2Proof.Machine.execAbailTranslation m s
  | .nop => Sys2Proof.Machine.execNop s
  | .tend => Sys2Proof.Machine.execTend s
  | .rel => Sys2Proof.Machine.execRel s
  | .mswap => Sys2Proof.Machine.execMswap s
  | .exit => Sys2Proof.Machine.execExit s
  | .lexit => Sys2Proof.Machine.execLexit s
  | .yield => Sys2Proof.Machine.execYield s
  | .tret => Sys2Proof.Machine.execTret s
  | .headerWaitMet => Sys2Proof.Machine.execHeaderWaitMet s
  | .gangExit => Sys2Proof.Machine.execGangExit s
  | .starvationTimerExpiry => Sys2Proof.Machine.execStarvationTimerExpiry s
  | .pinEndFlush => Sys2Proof.Machine.execPinEndFlush s
  | .blockRestart => Sys2Proof.Machine.execBlockRestart s
  | .lclkTick => Sys2Proof.Machine.execLclkTick s
  | .wsRefreshWindow => Sys2Proof.Machine.execWsRefreshWindow s
  | .verdictArrival => Sys2Proof.Machine.execVerdictArrival s
  | .lifetimeFold => Sys2Proof.Machine.execLifetimeFold s
  | .powerUp => Sys2Proof.Machine.execPowerUp s
  | .mgmtStatus => Sys2Proof.Machine.execMgmtStatus s
  | .powerLoss => Sys2Proof.Machine.execPowerLoss s
  | .orderlyShutdown => Sys2Proof.Machine.execOrderlyShutdown s
  | .moduleReset => Sys2Proof.Machine.execModuleReset s
  | .logFreeze => Sys2Proof.Machine.execLogFreeze s
  | .waitvReloadTimeout => Sys2Proof.Machine.execWaitvReloadTimeout s

end Sys2Proof.Machine
end

