-- ==== Sys2Proof/Machine/Turn.lean ====
section
/-! DEFINITION. What the module does between issues: the errors that its check codes find (02 R40, 05 R120, 10 R236 to R243, 16 R367), the
CSR writes that are due (09 R215), and what one clk does in the copy engines (14 R315), in the walks of re-partitions (10 R239) and at
the homes (16 R365). -/

namespace Sys2Proof.Machine

/-- Count an error that a store's code has found, by its kind and die (17 R389); which of the counts it is stays open (log 70). -/
def tallyError (kind die : Nat) (s : State) : State := tally (0x009000 + 8 * (Config.errorCell kind die % 7936)) 1 s

/-- A frame becomes a retirement candidate (16 R367): its home owes a record of KIND 4 with its physical address. -/
def candidate (h frame code : Nat) (s : State) : State :=
  modHome h (fun y => { y with owed := y.owed ++ [⟨h, 0, 4, code, 0, 0, 0, BitVec.ofNat 64 (65536 * frame), 0, []⟩] }) s

/-- A home has corrected an error in a frame (16 R367): it counts those of the 1,024 frames that erred most recently, and the sixteenth makes the
frame a candidate. -/
def noteCorrected (h frame : Nat) (s : State) : State :=
  let n := (((homeOf h s).corr.find? fun x => x.1 == frame).map (·.2)).getD 0 + 1
  let s := modHome h (fun y => { y with corr := ((frame, n) :: y.corr.filter fun x => x.1 != frame).take 1024 }) s
  if n = 16 then candidate h frame 0 s else s

/-- An uncorrectable error in a sector that a die cache holds (10 R237): a clean sector leaves the cache and is fetched again; a dirty one is
poisoned and goes to its home. -/
def dieSectorLost (d x : Nat) (s : State) : State :=
  if (dieOf d s).dirty.any fun c => c.1 == x then
    writeBack (fun e y => e == d && y == x) { s with poison := if s.poison.contains x then s.poison else x :: s.poison }
  else if (dieOf d s).lines.any fun l => l.sects.any fun z => z.1 == x then
    tallyError 1 d (onDie d (modDie fun y => { y with lines := y.lines.map fun l => { l with sects := l.sects.filter fun z => z.1 != x } }) s)
  else s

/-- A check code finds an error (log 70). -/
def upset (u : Upset) (s : State) : State :=
  match u with
  | .corrected off => tally off 1 s
  | .gang k e => mapGangs (fun g => if g.live ∧ g.key = k then { g with errs := if g.errs.contains e then g.errs else e :: g.errs } else g) s
  | .array d c e => onCore d c (modCore fun x => { x with marks := if x.marks.contains e then x.marks else e :: x.marks }) s
  | .l1 d c l =>
    if (coreOf d c s).l1.any fun x => x.line == l then
      tallyError 0 d (onCore d c (modCore fun x => { x with l1 := x.l1.filter fun y => y.line != l }) s)
    else s
  | .dieCache d x => dieSectorLost d x s
  | .team d a => tallyError 2 d (onDie d (modDie fun y => if a < y.tsize ∧ !y.tsPoison.contains (a / 32) then { y with tsPoison := a / 32 :: y.tsPoison } else y) s)
  | .weights d a => onDie d (modDie fun y => if y.wsBad.contains (a / 8) then y else { y with wsBad := a / 8 :: y.wsBad }) s
  | .homeCorrected x => noteCorrected (homeOfKey (32 * x)) (32 * x % Config.stackBytes / 65536) s
  | .homeLost x =>
    let h := homeOfKey (32 * x)
    let frame := 32 * x % Config.stackBytes / 65536
    candidate h frame 0x32 <| modHome h (fun y => { y with lost := if y.lost.contains frame then y.lost else frame :: y.lost }) { s with poison := if s.poison.contains x then s.poison else x :: s.poison }

/-- What comes before every internal event and every issue of the clk: an error found, or a CSRW whose effect is due (09 R215), which is an event
of its own for WAYP, RETN, VDTB and SMPLCFG. -/
def duty (s : State) : Option (Option Instr × State) :=
  match s.upsets with
  | u :: t => some (none, upset u { s with upsets := t })
  | [] => (csrDue s).map fun x => match csrEvent x.1 (focusGang x.1.gang x.2) with
    | some i => (some i, x.2)
    | none => (none, onGang x.1.gang (csrWritten x.1) x.2)

/-- The walk of a growing re-partition has visited one more line (10 R239); the last ends it. -/
def walkedLine (r : Repart) (s : State) : State :=
  let s' := modDie (fun d => { d with repart := some { r with walked := r.walked + 1 } }) s
  if r.walked + 1 = 8192 * (r.new - r.old) then later 0 .none (.repartitionComplete s.die.die) s' else s'

/-- One clk of a re-partition of the die in focus (10 R239): a growing one visits the lines of the surrendered ways, the highest way first; it
writes back each dirty sector in 4 clk, and then drops the line. -/
def walkClk (s : State) : State :=
  match s.die.repart with
  | none => s
  | some r =>
    let keep := fun (r : Repart) (s : State) => modDie (fun d => { d with repart := some r }) s
    if 8192 * (r.new - r.old) ≤ r.walked then s
    else if 0 < r.busy then keep { r with busy := r.busy - 1 } s
    else match s.die.lines.find? fun x => x.way == 15 - r.old - r.walked / 8192 && x.line % 8192 == r.walked % 8192 with
    | none => walkedLine r s
    | some x => match s.die.dirty.find? fun c => c.1 / 4 == x.line with
      | some c =>
        let d := s.die.die
        mapCores (fun y => if y.die = d then perfAdd 24 0 1 y else y) (writeBack (fun e z => e == d && z == c.1) (keep { r with busy := 3 } s))
      | none => walkedLine r (modDie (fun d => { d with lines := d.lines.filter fun y => y.line != x.line }) s)

/-- Every die whose re-partition runs. -/
def runWalks (s : State) : State := ((allDies s).filter fun d => d.repart.isSome).foldl (fun s d => onDie d.die walkClk s) s

/-- A home appends a record that it owes, while its fault queue has room (16 R365). -/
def payOwed (h : Home) (s : State) : State :=
  match h.owed with
  | [] => s
  | f :: t => if fqFull s h.home then s
    else appendFault f ⟨0, 0, 0, 0⟩ 0 0 0 0 0 (modHome h.home (fun y => { y with owed := t }) s)

/-- A migrating home copies the next line of the frame to its spare, poison included, and says when the last is copied (16 R368). DESIGN
CHOICE (log 29): one line a clk, each between two clk, so that no store finds a line in flight. -/
def copyLine (home : Nat) (s : State) : State :=
  match (homeOf home s).mig with
  | none => s
  | some g =>
    if 512 ≤ g.lines then s
    else
      let src := home * Config.stackBytes + g.old * 65536 + 128 * g.lines
      let dst := home * Config.stackBytes + g.spare * 65536 + 128 * g.lines
      let bad := ((List.range 4).filter fun i => s.poison.contains (src / 32 + i)).map (dst / 32 + ·)
      let s := { s with
        mem := putAll s.mem (cellsAt dst (readBytes s.mem src 128))
        poison := (s.poison.filter fun x => decide (32 * x < dst) || decide (dst + 128 ≤ 32 * x)) ++ bad }
      let s := modHome home (fun h => { h with mig := some { g with lines := g.lines + 1 } }) s
      if g.lines = 511 then later 0 .none (.frmigCopyDone home) s else s

/-- The response of a tagged request has returned: the core in focus writes its record and moves HEAD on (17 R387). -/
def writeSample (x : Sample) (s : State) : State :=
  let head := s.core.smplring.toNat % 4096
  let base := s.core.smplring.toNat / 4096 * 4096
  let s' := match xlate s 0 0 (BitVec.ofNat 64 (base + 64 * head)) .store with
    | .ok h k => dieStore (128 + h) (cellsAt k (x.bytes s.clk)) s
    | _ => s
  modCore (fun c => { c with smplring := BitVec.ofNat 64 (base + (head + 1) % 4096) }) s'

/-- The core in focus writes the samples that are due; those whose request was discarded with its held entries are gone (18 R400). -/
def writeSamples (s : State) : State :=
  let due := fun (x : Sample) => x.due.any fun t => decide (t ≤ s.clk)
  let there := fun (x : Sample) => x.due.isSome || !x.tags.isEmpty || s.core.muck.any fun e => e.gang == x.gang && !e.ts && x.held == some (e.ord, e.sector / 4)
  (s.core.samples.filter due).foldl (fun s x => writeSample x s)
    (modCore (fun c => { c with samples := c.samples.filter fun x => !due x && there x }) s)

/-- Every core that has samples under way. -/
def runSamples (s : State) : State :=
  ((allCores s).filter fun c => !c.samples.isEmpty).foldl (fun s c => onDie c.die (onCore c.die c.core writeSamples) s) s

/-- Responses to requests of a die's earlier incarnation come, and are dropped and counted (18 R403, 17 R385). -/
def dropStale (d : Die) (s : State) : State :=
  if d.stale.isEmpty then s
  else staleRsp d.die (d.stale.filter (· ≤ s.clk)).length (onDie d.die (modDie fun x => { x with stale := x.stale.filter (s.clk < ·) }) s)

/-- A LAUNCH variant awaits no longer the flushes that have drained (18 R401). -/
def awaitDrains (s : State) : State :=
  mapGangs (fun g => if g.pend.any fun p => p.cls == .none && !p.flush.isEmpty then
    { g with pend := g.pend.map fun p => if p.cls = .none then { p with flush := p.flush.filter fun x => !awaitedGone s x } else p } else g) s

/-- The primary of the block of a held entry still holds its counterpart (19 R416). -/
def primaryHolds (s : State) (e : Held) : Bool :=
  (primaryOf s e.blk.name e.blk.idx).any fun p => (allCores s).any fun c => c.muck.any fun f => f.blk == p.key && sameHeld e f

/-- Matched entries of backups whose primary counterparts are gone leave, unwritten (19 R416). -/
def dropOrphans (s : State) : State :=
  let stray := fun (e : Held) => !e.writes && e.matched && !primaryHolds s e
  ((allCores s).filter fun c => c.muck.any stray).foldl (fun t c => onDie c.die (onCore c.die c.core fun t =>
    (t.core.muck.filter stray).foldl (fun t e => releaseHeld e (modCore (fun c => { c with muck := c.muck.erase e }) t)) t) t) s

/-- The link control of the clk has left the ports (20 R429). -/
def sendControl (s : State) : State :=
  if s.links.all fun l => l.control.isEmpty then s else { s with links := s.links.map fun l => { l with control := [] } }

/-- THE NEXT CLK with what it does in the units that work on their own. -/
def nextClk (s : State) : State :=
  let s := runWalks (runEngines (tick (readImages (dropOrphans (awaitDrains (sendControl (writeLog s)))))))
  let s := s.homes.foldl (fun s h => copyLine h.home (payOwed h s)) s
  (allDies s).foldl (fun s d => dropStale d s) (runSamples s)

end Sys2Proof.Machine
end

