-- ==== Sys2Proof/Machine/Offer.lean ====
section
/-! DEFINITION. Running what stands where a fragment stands (04 R85, R94), and the special-function unit's rotation among the partitions of a
core (07 R184): which of them offers it an instruction in a clk is found by letting their fragments go in their order, without keeping
what they do. -/

namespace Sys2Proof.Machine

/-- Run what stands at the position of the issuing fragment: a clause header, or an instruction (04 R85, R94). -/
def runHere (s : State) : Host.Outcome State Fault Refusal :=
  match fetched s with
  | .header h => exec (.clauseHeader h) s
  | .past p => .next (takeTrapAt 0x01 0 0 p s)
  | .barred c => .next (takeTrap 0x05 (BitVec.ofNat 32 c) 0 s)
  | .illegal => .next (takeTrap 0x03 0 0 s)
  | .instr i => exec i s

/-- The fragment of a gang stands at an instruction of the special-function unit. -/
def atSfu (s : State) (k : GangKey) (j : Nat) : Bool :=
  (allGangs s).any fun g => g.key == k && decide (0 < sfuTimes ((nextMaj s g j).getD 0))

/-- Partition `p` of a core offers its special-function unit an instruction in this clk (07 R184): its fragments go in their order until one
is offered to the scoreboard (13 R306), and that one stands at such an instruction. One that stalls or begins its clause is none; behind
another instruction that the scoreboard refuses comes the next fragment (08 R209). -/
def sfuOffered (d c p : Nat) : Nat → State → Bool
  | 0, _ => false
  | n + 1, s =>
    match firstOf ((candidates s).filter fun x => x.1.die == d && x.1.core == c && x.1.part == p) with
    | none => false
    | some x =>
      match runHere (ready x.1 x.2.2.1 s) with
      | .next u =>
        if u.spent.contains (d, c, p) then atSfu s x.1 x.2.1 && (coreOf d c u).sfuAt == s.clk
        else if u.refused.contains (x.1, x.2.1) && atSfu s x.1 x.2.1 then true
        else sfuOffered d c p n u
      | _ => false

/-- The fragment in focus, at an instruction of the special-function unit, leaves the unit to a partition that comes before its own in the
unit's rotation and offers it one in this clk, though its turn at the scoreboard comes behind (07 R184, 08 R209, log 4). -/
def sfuDefers (s : State) : Bool :=
  let k := s.gang.key
  atSfu s k (lowSlice s.frag) && !s.core.sfuAsk.contains (k, lowSlice s.frag) && (List.range 4).any fun p =>
    decide (sfuTurn s.core p < sfuTurn s.core k.part) && sfuOffered k.die k.core p 128 s

/-- The fragment in focus goes: it leaves the special-function unit to another partition, or what stands at its position runs. -/
def issueNow (s : State) : Host.Outcome State Fault Refusal := if sfuDefers s then .next (sfuWait s) else runHere s

end Sys2Proof.Machine
end

