-- ==== Sys2Proof/Machine/Step.lean ====
section
/-! DEFINITION. One step of the module: an external event, else an error found or a CSR write that is due, else an internal event that is due,
else the issue of the fragment that ranks first, else the next clk. -/

namespace Sys2Proof.Machine

/-- A next state with its memory in canonical form; the other outcomes as they are. -/
def settleMem : Host.Outcome State Fault Refusal → Host.Outcome State Fault Refusal
  | .next s => .next { s with mem := normal s.mem }
  | .fault f => .fault f
  | .refused r => .refused r

/-- The issue of the fragment that ranks first, or the next clk. -/
def issueOrTick (s : State) : Host.Outcome State Fault Refusal :=
  match pick s with
  | some (k, fr) => issueNow (ready k fr s)
  | none => .next (nextClk s)

/-- What follows when no external event is to be taken. -/
def inner (s : State) : Host.Outcome State Fault Refusal :=
  match duty s with
  | some (some i, s') => exec i s'
  | some (none, s') => .next s'
  | none =>
    match s.agenda with
    | d :: t => if d.clk ≤ s.clk then exec d.ev (focusOn d.subj { s with agenda := t }) else issueOrTick s
    | [] => issueOrTick s

/-- One step. -/
def step (s : State) : Host.Outcome State Fault Refusal :=
  settleMem <|
    match s.inbox with
    | e :: t => exec e { s with inbox := t }
    | [] => inner s

/-- The state whose very next step runs one instruction, given by its words (log 9). -/
def State.withFetchWord (s : State) (nbits w : Nat) : State := placeWord s nbits w

end Sys2Proof.Machine
end

