-- ==== Sys2Proof/Safety.lean ====
section
/-! DEFINITION. What counts as a safe run, and the words in which statements speak of an instruction: when it may issue,
what it writes among the registers of its gang, and all that it leaves as it was. -/

namespace Sys2Proof.Machine

/-- A state is safe when its memory is in canonical form. -/
def Safe (s : State) : Prop := Memory.wf s.mem = true

/-- A state is reached from another by steps. -/
inductive Reaches : State → State → Prop where
  | refl (s : State) : Reaches s s
  | step {s t u : State} : Reaches s t → step t = .next u → Reaches s u

/-- Nothing that 04 R95, 05 R120, 05 R121, 02 R48, 08 R208 and 13 R306 put before an instruction's own meaning keeps an instruction
with these needs from issuing in a state: none of the checks fails, no pending tag or kitty bit makes it wait, its engine is free, the
scoreboard admits its crossings, it consumes no uncorrectable element, and no parked load stands to issue again in its place (12 R266). -/
def mayIssue (q : Req) (s : State) : Bool :=
  let q' := { q with pr := guardPred s q.x :: q.pr }
  let m := execMask s q.x
  (preCheck q s).isNone && !tagged q' s && !kittyHolds q' m s &&
  engineFree q' s && (planOf (useOf q' s) s).isSome && !controlErr q' s && (deadlyLanes q' m s == 0) && s.gang.redo.isNone && s.gang.live

/-- What an instruction writes among the registers of its gang; `none` for a place that it leaves. -/
structure Writes where
  /-- Lane register and lane. -/
  v : Nat → Nat → Option Word := fun _ _ => none
  s : Nat → Option Word := fun _ => none
  /-- Predicate and lane. -/
  p : Nat → Nat → Option Bool := fun _ _ => none
  /-- Bits ORed into MODE. -/
  mode : DWord := 0

/-- One lane register, in the lanes of a mask (02 R39). -/
def laneW (d : Nat) (m : Word) (f : Nat → Word) : Nat → Nat → Option Word := fun r l => if r = d ∧ lane m l = true then some (f l) else none

/-- A pair of lane registers, in the lanes of a mask (00 R3). -/
def pairW (d : Nat) (m : Word) (f : Nat → DWord) : Nat → Nat → Option Word := fun r l =>
  if r = d + 1 ∧ lane m l = true then some ((f l).extractLsb' 32 32)
  else if r = d ∧ lane m l = true then some ((f l).extractLsb' 0 32) else none

/-- One scalar register, when the execution mask holds a lane (05 R119). -/
def scalW (d : Nat) (m : Word) (v : Word) : Nat → Option Word := fun r => if r = d ∧ m ≠ 0 then some v else none

/-- A scalar pair, when the execution mask holds a lane (05 R119). -/
def scalPairW (d : Nat) (m : Word) (v : DWord) : Nat → Option Word := fun r =>
  if m = 0 then none else if r = d + 1 then some (v.extractLsb' 32 32) else if r = d then some (v.extractLsb' 0 32) else none

/-- One predicate, in the lanes of a mask; P0 ignores writes (02 R29). -/
def predW (d : Nat) (m : Word) (f : Nat → Bool) : Nat → Nat → Option Bool := fun p l =>
  if p = d ∧ d ≠ 0 ∧ lane m l = true then some (f l) else none

/-- What the issue of an instruction may change in its partition is put aside: which fragment issued last, a single step's end, and
until when the scalar divider is taken. -/
def Part.aside (p : Part) : Part := { p with last := none, yld := false, stepping := false, haltAt := 0, sdiv := 0 }

/-- An event that is no reconvergence release. -/
def notRecon (d : Due) : Bool := match d.ev with | .reconvergenceRelease .. => false | _ => true

/-- A state without the registers and MODE of the gang in focus with their pending tags and error marks, the places of its slices, the kitty of its
block, and what every issue changes: the partition's pick, the scoreboard and the engines of its core, the performance counters and the
reconvergence releases it asks for. Two states that
are equal in this agree in all else: every other gang, block, core, die and home, memory and scratch, and every special,
accumulator and exception register. -/
def outside (s : State) : State :=
  { s with
    gang := { s.gang with v := [], s := [], p := [], mode := 0, split := [], tags := [], errs := [] }
    block := { s.block with kv := [], kfull := [] }
    core := { s.core with parts := s.core.parts.map Part.aside, perf := [], up := [], down := [], div := 0, fp64 := 0, sfu := 0, sfuLast := 0, sfuAt := 0 }
    agenda := s.agenda.filter notRecon
    spent := []
    gaveUp := []
    went := [] }

/-- The entry of a slice of the issuing fragment behind its instruction of `n` words: its boost ends, and unless it has ended it stands at the next
instruction of its clause, or at the header that follows the clause's last, its slice instruction count risen by one (04 R88, 03 R75, 13 R306). -/
def passed (n clk : Nat) (e : SplitEntry) : SplitEntry :=
  let e := { e with elig := 0, boost := none }
  if e.st = .ended then e
  else if e.left ≤ 1 then { (e.goTo (posAdd e.pc (e.ix + n)) clk) with sic := e.sic + 1 }
  else { e with ix := e.ix + n, left := e.left - 1, sic := e.sic + 1, wait := .none }

/-- The slices of the issuing fragment have passed its instruction. -/
def Passes (q : Req) (s t : State) : Prop :=
  ∀ k, s.frag.getLsbD k = true → k < s.gang.split.length → entryOf t.gang k = passed q.words s.clk (entryOf s.gang k)

/-- `t` is what `s` becomes when an instruction with needs `q` has written `w`: the registers written hold their new
values and every other keeps its own; the kitty bits of the kitty registers written are full; slices of other fragments stand
where they stood; and all that `outside` keeps is as it was, every byte of memory among it. -/
structure RegisterEffect (q : Req) (w : Writes) (s t : State) : Prop where
  lanes : ∀ r l, l < 32 → rdV t r l = (w.v r l).getD (rdV s r l)
  scalars : ∀ r, rdS t r = (w.s r).getD (rdS s r)
  preds : ∀ p l, lane (rdP t p) l = (w.p p l).getD (lane (rdP s p) l)
  mode : t.gang.mode = s.gang.mode ||| w.mode
  kitty : ∀ i l, lane (look t.block.kfull i) l =
    (lane (look s.block.kfull i) l || (lane (execMask s q.x) l && q.vw.any fun r => kittyIx s.gang r == some i))
  others : ∀ k, s.frag.getLsbD k = false → entryOf t.gang k = entryOf s.gang k
  marks : ∀ e ∈ t.gang.errs, e ∈ s.gang.errs
  memory : ∀ k, look t.mem k = look s.mem k
  rest : outside t = outside s

/-- As `RegisterEffect`, and the fragment has passed the instruction. -/
structure RegisterStep (q : Req) (w : Writes) (s t : State) : Prop where
  effect : RegisterEffect q w s t
  passes : Passes q s t

/-- An instruction completes wherever it may issue, with these writes and no other effect. -/
def Completes (q : Req) (i : Instr) (w : Writes) (s : State) : Prop :=
  mayIssue q s = true → ∃ t, exec i s = .next t ∧ RegisterStep q w s t

/-- The bits of MODE that a list of flags sets (03 R78). -/
def flagBits (fs : List Fl) : DWord := (fs.foldl Fl.or Fl.nil).bits

/-- The writes of a floating-point instruction: each element of each lane of the mask gets its own result, and MODE the flags of
all of them (07 R160, 03 R78). -/
def floatW (ty : FTy) (d : Nat) (m : Word) (r : Nat → Nat → Nat × Fl) : Writes :=
  let els := fun l => (List.range (ftyCount ty)).map (r l)
  let val := fun l => joinElems (ftyFmt ty).width ((els l).map (·.1))
  let fl := flagBits ((lanesOf m).flatMap fun l => (els l).map (·.2))
  if ty = .f64 then { v := pairW d m (fun l => BitVec.ofNat 64 (val l)), mode := fl }
  else { v := laneW d m (fun l => BitVec.ofNat 32 (val l)), mode := fl }

/-- What a special function writes (07 R179): in each lane of the mask the function's result on its FP32 input, flushed as MODE.FTZI
says; it is given MODE.RM, MODE.FTZO and the input. -/
def specialW (s : State) (d a : Nat) (f : RM → Bool → Word → Val → Nat × Fl) : Writes :=
  floatW .f32 d (execMask s none) fun l _ =>
    let x : Word := BitVec.ofNat 32 (Fmt.fp32.flushed (modeFtzi s) (rdV s a l).toNat)
    f (modeRM s) (modeFtzo s) x (Fmt.fp32.unpack false x.toNat)

/-- An event that neither ends an access nor releases a reconvergence. -/
def notAccess (d : Due) : Bool := match d.ev with
  | .reconvergenceRelease .. => false
  | .loadComplete .. => false
  | .storeAccepted .. => false
  | .mstComplete .. => false
  | .resultWriteback .. => false
  | .waitvReloadTimeout => false
  | _ => true

/-- A byte of a home's dirty bitmap (16 R357), which the eviction of a line from a full cache may set. -/
def bitmapByte (k : Nat) : Bool :=
  decide (Config.reservedBase + 0x00100000 ≤ k % Config.stackBytes) && decide (k % Config.stackBytes < Config.reservedBase + 0x00300000)

/-- A home without what a read renews: the lines that its cache holds, those of them that are dirty, leases, and the order of its TLB
entries (10 R243, 11 R252, 16 R358). -/
def Home.aside (h : Home) : Home := { h with tlb := [], rl := [], lines := [], dirty := [], writers := [], owed := [] }

/-- `outside`, and also without what every memory access changes and no register or memory shows: the outstanding entries, with
the number of the next and the events that end them, the lines, leases and clocks of the caches (11 R252)
and of retention (10 R245), the numbering of held entries (19 R416), and what the sampling of requests keeps (17 R387). Statements about an access name the entries and events it makes. -/
def apart (s : State) : State :=
  let u := outside s
  { u with
    gang := { u.gang with pend := [], answers := [], holds := 0, tagged := [] }
    core := { u.core with l1 := [], lclk := 0, samples := [], scr := { u.core.scr with last := 0 }, accr := { u.core.accr with last := 0 } }
    die := { u.die with lines := [], dirty := [], tsr := [], predictor := [] }
    homes := []
    nextTag := 0
    agenda := s.agenda.filter notAccess }

/-- As `RegisterEffect`, for an instruction that accesses memory: all that `apart` keeps is as it was, every home but for its cache, and
every byte of memory but those by which a home notes the lines that its cache writes back. -/
structure AccessEffect (q : Req) (w : Writes) (s t : State) : Prop where
  lanes : ∀ r l, l < 32 → rdV t r l = (w.v r l).getD (rdV s r l)
  scalars : ∀ r, rdS t r = (w.s r).getD (rdS s r)
  preds : ∀ p l, lane (rdP t p) l = (w.p p l).getD (lane (rdP s p) l)
  mode : t.gang.mode = s.gang.mode ||| w.mode
  kitty : ∀ i l, lane (look t.block.kfull i) l =
    (lane (look s.block.kfull i) l || (lane (execMask s q.x) l && q.vw.any fun r => kittyIx s.gang r == some i))
  others : ∀ k, s.frag.getLsbD k = false → entryOf t.gang k = entryOf s.gang k
  marks : ∀ e ∈ t.gang.errs, e ∈ s.gang.errs
  memory : ∀ k, bitmapByte k = false → look t.mem k = look s.mem k
  homes : ∀ h, (homeOf h t).aside = (homeOf h s).aside
  rest : apart t = apart s

/-- As `AccessEffect`, and the fragment has passed the instruction. -/
structure AccessStep (q : Req) (w : Writes) (s t : State) : Prop where
  effect : AccessEffect q w s t
  passes : Passes q s t

/-- The words of an access to the private window above four bytes; its other accesses are of one piece (04 R112). -/
def wordPieces (e : Elem) : List Elem :=
  if e.size ≤ 4 then [e] else (List.range (e.size / 4)).map fun (i : Nat) =>
    { e with addr := e.addr + 4 * (i : Int), size := 4, bytes := (e.bytes.drop (4 * i)).take 4,
             dst := match e.dst with
               | .lane r l _ sg => .lane (r + i) l 4 sg
               | d => d }

/-- The pieces that an access asks of memory. -/
def pieces (t : Tgt) (es : List Elem) : List Elem := if t = .priv then es.flatMap wordPieces else es

/-- The elements of global memory that lie at their homes, with the keys of their bytes. -/
def nearOf (s : State) (t : Tgt) (a : Access) (es : List Elem) : List (Elem × List Nat) :=
  es.filterMap fun e => match e.find s t a with
    | .at' ks => some (e, ks)
    | _ => none

/-- The bytes that a load reads: of a scratch space as the gang's block sees it; of global memory in order, each element at the logical time
to which those before it have taken the core (11 R248, R251 to R253, 12 R272). -/
def loadedBytes (strm : Bool) (s : State) (t : Tgt) (es : List Elem) : List (Elem × List Byte) :=
  match t with
  | .core => es.map fun e => (e, readBytes s.block.scratch e.addr.toNat e.size)
  | .ts => es.map fun e => (e, viewBytes s true e.addr.toNat e.size)
  | .ws => es.map fun e => (e, readBytes s.die.ws e.addr.toNat e.size)
  | _ =>
    let near := nearOf s t .load (pieces t es)
    (readLines 0 0 strm t near (countLines 0 (near.map fun x => (x.1.place s t, x.2.headD 0)) s)).2.1

/-- No slice waits on a value of a scratch space (12 R282). -/
def noValueWaits (s : State) : Bool := (allGangs s).all fun g => g.split.all fun e => match e.wait with
  | .value .. => false
  | _ => true

/-- What counted accesses of a gang share: no check of 12 R265 fails, the class has room, no FENCE holds it, the launch is not
redundant and the core takes no samples. -/
def accessReady (s : State) (t : Tgt) (ld st : Bool) (c : Cls) (align : Nat) (es : List Elem) : Bool :=
  !es.isEmpty && s.gang.redo.isNone && decide (s.gang.rel = .none) && (accessTrap s t ld st align es).isNone && !full s c && !fenced s &&
  !folding s && !s.core.smplcfg.getLsbD 5

/-- No gang has an open transaction. -/
def noTxns (s : State) : Bool := (allGangs s).all fun g => g.txn.isNone

/-- Every element lies at its home; for one that is read no held entry of another party makes it wait (11 R253), and its sector is not
poisoned. -/
def allHere (s : State) (t : Tgt) (a : Access) (es : List Elem) : Bool :=
  (es.all fun e => match e.find s t a with
    | .at' ks => a == .store || !s.poison.contains (sectorOf (ks.headD 0))
    | _ => false) &&
  match a with
  | .atomic => (nearOf s t a es).all fun x => !heldElsewhere s false (x.2.headD 0) x.1.size none
  | .load => !loadWaits s false ((nearOf s t a es).map fun x => (x.2.headD 0, x.1.size))
  | _ => true

/-- No MST of the gang has still to write to the elements (08 R206); for team scratch, no held entry of another party makes them
wait and no word is poisoned; no slice waits on a value there when it is written. -/
def scratchReady (s : State) (t : Tgt) (load atomic : Bool) (es : List Elem) : Bool :=
  match t with
  | .core => (retainStep false s).isNone && (es.all fun e => !mstPending s .core e.addr.toNat e.size) && ((load && !atomic) || noValueWaits s)
  | .ts => (es.all fun e => !mstPending s .ts e.addr.toNat e.size &&
      (!load || !s.die.tsPoison.contains (e.addr.toNat / 32)) && (!atomic || !heldElsewhere s true e.addr.toNat e.size none)) &&
      (!load || atomic || !loadWaits s true (es.map fun e => (e.addr.toNat, e.size))) && ((load && !atomic) || noValueWaits s)
  | .ws => !wsStalls s (es.map fun e => e.addr.toNat) && es.all fun e => !s.die.wsBad.contains (e.addr.toNat / 8)
  | _ => true

/-- Nothing keeps a load of these elements from being performed; `tx` for an instruction that an open transaction takes part in
(12 R284). -/
def loadReady (tx : Bool) (s : State) (t : Tgt) (align : Nat) (es : List Elem) : Bool :=
  !(tx && t == .glob && inTxn s) && accessReady s t true false .ld align es && scratchReady s t true false es &&
  (!(t == .glob || t == .priv) || allHere s t .load (pieces t es))

/-- The gang's new outstanding entry (17 R375); its completion answers `reqs` requests to homes (18 R403). -/
def entered (s t : State) (c : Cls) (parts : Nat) (ws : List RegWrite) (md : Bool) (reqs : Nat := 1) : Prop :=
  t.gang.pend = s.gang.pend ++ [⟨s.nextTag, c, false, parts, ws, [], herePos s, md, [], reqs, false⟩]

/-- A load performs its elements: it reads them now, and enters one LD entry that writes its registers when it completes. With nothing in
its core's L1 it reads global memory as its block sees it. -/
def LoadCompletes (tx : Bool) (q : Req) (i : Instr) (t : Tgt) (strm : Bool) (align : Nat) (es : List Elem) (s : State) : Prop :=
  mayIssue q s = true → loadReady tx s t align es = true →
    (∃ u, exec i s = .next u ∧ AccessStep { q with vw := [] } {} s u ∧
      entered s u .ld 1 ((loadedBytes strm s t es).flatMap fun x => dstWrites s x.1.dst x.2) false
        (if t = .glob ∨ t = .priv then (uniq ((nearOf s t .load (pieces t es)).map fun x => (x.1.place s t).toNat / 128)).length else 1) ∧
      ∃ d ∈ u.agenda, d.ev = .loadComplete s.gang.key s.nextTag) ∧
    let near := nearOf s t .load (pieces t es)
    (t = .glob ∨ t = .priv → s.core.l1 = [] → (∀ x ∈ near, ∀ k ∈ x.2, bitmapByte k = false) →
      loadedBytes strm s t es = near.map fun x => (x.1, x.2.map (viewByte s false)))

/-- The bytes that a store writes: by physical key, or by offset of a scratch space. -/
def storeCells (s : State) (t : Tgt) (es : List Elem) : List (Nat × Byte) :=
  if t = .core ∨ t = .ts then es.flatMap fun e => cellsAt e.addr.toNat e.bytes
  else (pieces t es).flatMap fun e => match e.find s t .store with
    | .at' ks => ks.zip e.bytes
    | _ => []

/-- The byte that a list of writes, in order, leaves at a key: the last one's (11 R256). -/
def lastCell (l : List (Nat × Byte)) (k : Nat) : Option Byte := ((l.filter fun c => c.1 == k).getLast?).map (·.2)

/-- Nothing keeps a store of these elements from being performed. -/
def storeReady (s : State) (t : Tgt) (align : Nat) (es : List Elem) : Bool :=
  accessReady s t false true .st align es && scratchReady s t false false es && noTxns s &&
  (!(t == .glob || t == .priv) || allHere s t .store (pieces t es)) &&
  (t == .core || muckRoom s (sectorsOf (latest (storeCells s t es))).length)

/-- A state with another quarantine buffer in the core in focus. -/
def withMuck (l : List Held) (s : State) : State := modCore (fun c => { c with muck := l }) s

/-- A state with the core scratch that another has in the block in focus. -/
def withScratch (u s : State) : State := modBlock (fun b => { b with scratch := u.block.scratch, fresh := u.block.fresh }) s

/-- No logical time that stands in the state is near the end of its range. -/
def timesSmall (s : State) : Prop :=
  s.core.lclk.toNat < 2 ^ 63 ∧ (∀ l, (wtOf s l).toNat < 2 ^ 63 ∧ (rlOf s l).toNat < 2 ^ 63) ∧
  (∀ x, (look s.die.tsw x).toNat < 2 ^ 63 ∧ (look s.die.tsr x).toNat < 2 ^ 63) ∧ ∀ ts n, ∀ w ∈ heldTimes s ts n, w < 2 ^ 63

/-- New entries of the quarantine buffer: the gang's, for one space, with these bytes as its block sees them (11 R253, 12 R270). -/
structure Holds (s t : State) (ts : Bool) (id : Option Nat) (new : List Held) (cells : List (Nat × Byte)) : Prop where
  buffer : t.core.muck = s.core.muck ++ new
  owner : ∀ e ∈ new, e.gang = s.gang.key ∧ e.blk = s.gang.blk ∧ e.ts = ts ∧ e.id = id ∧ e.clk = s.clk ∧ e.matched = true ∧ e.writes = true ∧
    e.remote = none ∧ e.idem = none ∧ ∀ c ∈ e.bytes, sectorOf c.1 = e.sector
  after : timesSmall s → ∀ e ∈ new, s.core.lclk.toNat < e.wtime
  seen : ∀ k, viewByte t ts k = (lastCell cells k).getD (viewByte s ts k)
  other : ∀ k, viewByte t (!ts) k = viewByte s (!ts) k

/-- A store performs its elements: into core scratch at once with one ST entry, else into the quarantine buffer, one entry a sector, with
one ST entry of as many parts. -/
def StoreCompletes (q : Req) (i : Instr) (t : Tgt) (align : Nat) (es : List Elem) (s : State) : Prop :=
  mayIssue q s = true → storeReady s t align es = true →
    ∃ u, exec i s = .next u ∧
      if t = .core then AccessStep q {} (withScratch u s) u ∧ entered s u .st 1 [] false ∧
        (∃ d ∈ u.agenda, d.ev = .storeAccepted s.gang.key s.nextTag) ∧ ∀ k, look u.block.scratch k = (lastCell (storeCells s t es) k).getD (look s.block.scratch k)
      else AccessStep q {} (withMuck u.core.muck s) u ∧ ∃ new, new.length = (sectorsOf (latest (storeCells s t es))).length ∧
        entered s u .st new.length [] false ∧ Holds s u (t == .ts) (some s.nextTag) new (storeCells s t es)

/-- Nothing keeps atomics on these elements from being performed. -/
def atomReady (s : State) (t : Tgt) (c : Cls) (align : Nat) (es : List Elem) (cells : List (Nat × Byte)) : Bool :=
  accessReady s t true true c align es && scratchReady s t true true es && noTxns s &&
  (t != .glob || allHere s t .atomic es) && (t == .core || muckRoom s (sectorsOf cells).length)

/-- The keys of an atomic's bytes. -/
def atomKeys (s : State) (t : Tgt) (e : Elem) : List Nat :=
  if t = .glob then (match e.find s t .atomic with | .at' ks => ks | _ => []) else (List.range e.size).map (e.addr.toNat + ·)

/-- What the atomics of an instruction do, in the order of 11 R256: groups of one address by their lowest lanes, each in ascending
lane order. -/
def atomRun (s : State) (t : Tgt) (op : AtomOp) (rnd : Rnd) (c : Nat) (es : List Elem) : AtomRes :=
  performAtoms s (if t = .core then look s.block.scratch else viewByte s (t == .ts)) op rnd
    (fun l => (regs c (atomOperands op)).map fun r => rdV s r l) ((groupOrder es).map fun e => (e, atomKeys s t e))
/-- The state whose gang in focus has made once-performed effects and is pinned until its next IDEM (02 R57). -/
def pinnedToo (s : State) : State := modGang (fun g => { g with pinned := true }) s

/-- An instruction of atomics performs them: its returns, if it makes any, are written when its entry completes, and what it writes
is held behind a pin, or written to core scratch at once (12 R278, R280). -/
def AtomCompletes (q : Req) (i : Instr) (d : Option Nat) (t : Tgt) (op : AtomOp) (rnd : Rnd) (c : Nat) (es : List Elem) (s : State) : Prop :=
  let r := atomRun s t op rnd c es
  let ws := r.found.flatMap fun x => dstWrites s x.1.dst x.2
  let due := fun (u : State) => ∃ e ∈ u.agenda, e.ev = .loadComplete s.gang.key s.nextTag
  let step := AccessStep { q with vw := [] } { mode := flagBits r.fl }
  mayIssue q s = true → atomReady s t (if d.isSome then .ld else .st) (atomBytes op) es r.cells = true → inTxn s = false →
    ∃ u, exec i s = .next u ∧
      if t = .core then step (withScratch u s) u ∧
        (∀ k, look u.block.scratch k = (lastCell r.cells k).getD (look s.block.scratch k)) ∧
        if d.isSome then entered s u .ld 1 ws (decide (op = .fadd)) ∧ due u
        else entered s u .st 1 [] (decide (op = .fadd)) ∧ ∃ e ∈ u.agenda, e.ev = .storeAccepted s.gang.key s.nextTag
      else step (withMuck u.core.muck (pinnedToo s)) u ∧
        ∃ new, new.length = (sectorsOf r.cells).length ∧ Holds s u (t == .ts) (if d.isSome then none else some s.nextTag) new r.cells ∧
          if d.isSome then entered s u .ld 1 ws (decide (op = .fadd)) ∧ due u else entered s u .st new.length [] (decide (op = .fadd))

/-- Nothing keeps a commit from succeeding in every open lane (12 R286): the gang is one fragment, no lane loses to another, every byte still
has its place at a home, no line read has been written since, and no other gang has an open transaction. -/
def tendReady (t : Txn) (s : State) : Bool :=
  let ls := t.lanes.filter fun x => x.code.isNone
  oneFragment s && !full s .st && !fenced s && !folding s && decide (s.gang.rel = .none) && (txnLosers ls).isEmpty &&
  (ls.all fun x => ((txnPlaces s x).all fun p => match p.2.2 with
      | .at' ks => !heldElsewhere s false (ks.headD 0) 1 none
      | _ => false) && x.rd.all fun l => !heldElsewhere s false (128 * l) 128 none && decide ((wtOf s l).toNat ≤ x.start)) &&
  ((allGangs s).all fun g => g.key == s.gang.key || g.txn.isNone) && muckRoom s (sectorsOf (ls.flatMap fun x => txnCells (txnPlaces s x))).length

/-- The gang's fragment stands and waits: its slices keep their places and note what they wait for, and it gives up this clk. -/
def Waits (q : Req) (w : WaitOn) (s u : State) : Prop :=
  AccessEffect { q with vw := [] } {} (giveUp s) u ∧ ∀ k, s.frag.getLsbD k = true → k < s.gang.split.length →
    entryOf u.gang k = { entryOf s.gang k with wait := w }

/-- The gang's fragment has taken its issue and is then held until its wait ends by itself (17 R377, R380, 09 R219): its slices keep their places
and note what they wait for. -/
def IsHeld (q : Req) (w : WaitOn) (s u : State) : Prop :=
  RegisterEffect { q with vw := [] } {} s u ∧ ∀ k, s.frag.getLsbD k = true → k < s.gang.split.length →
    entryOf u.gang k = { entryOf s.gang k with wait := w, elig := 0, boost := none }

/-- An instruction over the tiles of its own core, or of its twin's, may use them: the array is held, the twin is there, and no
stream has still to write one of them (08 R188, R205, R211). -/
def tilesReady (s : State) (ts : List Nat) (fol : Bool) : Bool :=
  s.block.array && !twinAbsent s fol && (ts.all fun t => !tileBusy s t fol && !tileAwaits s t fol) && (arrayAsleep s (!fol) fol false).isNone

/-- A read of byte ranges of a space may be performed now (10 R240 to R242, 11 R253). -/
def spansReady (s : State) (sp : Nat) (spans : List (Nat × Nat)) : Bool :=
  (spanStop s sp spans).isNone && (sp != 0 || (retainStep false s).isNone)
/-- Nothing keeps a checked copy from entering its stream (14 R311, R314): its class has room, the stream holds fewer than 16
commands, no source sector is poisoned and the launch is not redundant. -/
def copyReady (s : State) (c : Cls) (n : Nat) (ms : List Move) (rows : Bool := false) : Bool :=
  !full s c && decide ((streamOf s.core n).length < 16) && decide (n < s.core.cmds.length) && (poisonTrap rows s ms).isNone && !folding s && decide (s.gang.rel = .none)

/-- A copy enters its stream, as the last of its commands, with one outstanding entry (14 R311). `w` is the state with what it changes
besides. -/
def Enqueues (q : Req) (c : Cls) (n : Nat) (ms : List Move) (ring : Option (Nat × Nat)) (ws : Bool) (w : State) (s u : State) : Prop :=
  ∃ op, let cmd := newCmd s.nextTag ms ring ws [] op s
    entered s u c 1 [] false ∧ AccessStep q {} (enqueue n cmd w) u ∧ streamOf u.core n = startCmds s.remotes s.clk (streamOf s.core n ++ [cmd])

/-- A ring instruction may use its ring (14 R310, R322, R329). -/
def ringReady (s : State) (m : Word) (r : Nat) : Bool :=
  m != 0 && !inTxn s && s.block.array && decide (r < ((ownLaunch s).map (·.info.rings)).getD 0)
/-- The place to which a slice of the issuing fragment moves: the header `next`, with FU and RPC as 15 R333 leaves them. -/
def movedEntry (s : State) (next : Nat → Word) (rpc : Option Word) (k : Nat) : SplitEntry :=
  let e := entryOf s.gang k
  let same := (fragSlices s).all fun j => next j == next ((fragSlices s).headD 0)
  let e' := if same then e else { e with fu := false, rpc := rpc.getD e.rpc }
  { e'.goTo (next k) (s.clk + Config.branchTime) with sic := e.sic + 1, elig := 0, boost := none }

/-- A control transfer: its slices move, its writes are made, and nothing else changes. -/
def Moved (q : Req) (w : Writes) (s u : State) (next : Nat → Word) (rpc : Option Word) : Prop :=
  RegisterEffect q w s u ∧ ∀ k ∈ fragSlices s, entryOf u.gang k = movedEntry s next rpc k

/-- The place at which a slice stands alone and fused after REGANG or IDEM. -/
def freshEntry (pc : Word) (clk sic : Nat) : SplitEntry := ⟨pc, noPos, true, .ready, 0, 0, 0, 0, sic, .none, clk, 0, none⟩

/-- A trap has been taken (09 R226): the frame and the trap registers are written, the fragment's slices stand, fused, at the
handler, and the others are blocked; every register and all of memory are as they were. -/
structure TrapTaken (code : Nat) (info : Word) (addr : DWord) (pc : Word) (s u : State) : Prop where
  cause : u.gang.trapcause = BitVec.ofNat 32 code
  place : u.gang.trappc = pc
  addr' : u.gang.trapaddr = addr
  info' : u.gang.trapinfo = info
  frame : u.gang.frame = some ⟨s.gang.split, s.frag, pc, code != 0x54, (cur s).ix == 0⟩
  mine : ∀ k, s.frag.getLsbD k = true → k < s.gang.split.length →
    let e := entryOf u.gang k
    e.pc = BitVec.ofNat 32 (boundVer s s.gang.blk.name * 2 ^ 20 + s.gang.trapvec.toNat % 2 ^ 20) ∧ e.rpc = noPos ∧ e.fu = true ∧
      e.st = .ready ∧ e.ix = 0 ∧ e.left = 0 ∧ e.wait = .none
  others : ∀ k, s.frag.getLsbD k = false →
    entryOf u.gang k = if (entryOf s.gang k).st = .ended then entryOf s.gang k else { entryOf s.gang k with st := .blocked, wait := .none }
  lanes : ∀ r l, rdV u r l = rdV s r l
  scalars : ∀ r, rdS u r = rdS s r
  preds : ∀ p, rdP u p = rdP s p
  mode : u.gang.mode = s.gang.mode
  kitty : u.block.kfull = s.block.kfull
  memory : ∀ k, look u.mem k = look s.mem k
  rest : outside u = outside (modGang (fun g => { g with
    frame := u.gang.frame, trapcause := u.gang.trapcause, trappc := pc, trapaddr := addr, trapinfo := info, timer := 0, rel := .none }) s)

/-- A trap may be taken: a handler is named, none runs, and no transaction is open. -/
def trapReady (s : State) : Bool := s.gang.frame.isNone && s.gang.trapvec != noPos && s.gang.txn.isNone

/-- A request to pre-empt the block of an index of a launch has been acted on (18 R401): a pinned block keeps its place and is asked to flush
when its pin ends; of any other every replica is flushed, and none of its gangs is left. -/
def Preempted (name idx : Nat) (s u : State) : Prop :=
  ∀ b ∈ replicasOf s name idx,
    if anyPinned s name idx then ∃ b' ∈ allBlocks u, b'.key = b.key ∧ b'.st = b.st ∧ b'.flushReq = true
    else (∀ b' ∈ allBlocks u, b'.key = b.key → b'.st = .flushed) ∧ ∀ g ∈ allGangs u, g.blk ≠ b.key

/-- An event whose subject is a gang acts on it in focus, and the gang that was in focus has it again. -/
def ActsOn (k : GangKey) (ev : Instr) (s : State) (P : State → State → Prop) : Prop :=
  ∃ u, exec ev s = .next (focusGang s.gang.key u) ∧ P (focusGang k s) u

/-- As `ActsOn`, of a core. -/
def ActsAt (d c : Nat) (ev : Instr) (s : State) (P : State → State → Prop) : Prop :=
  ∃ u, exec ev s = .next (focusCore s.core.die s.core.core u) ∧ P (focusCore d c s) u

/-- As `ActsOn`, of a die. -/
def ActsIn (d : Nat) (ev : Instr) (s : State) (P : State → State → Prop) : Prop :=
  ∃ u, exec ev s = .next (focusDie s.die.die u) ∧ P (focusDie d s) u

/-- As `ActsOn`, of a core with its die. -/
def ActsWithin (d c : Nat) (ev : Instr) (s : State) (P : State → State → Prop) : Prop :=
  ∃ u, exec ev s = .next (focusDie s.die.die (focusCore s.core.die s.core.core u)) ∧ P (focusCore d c (focusDie d s)) u

/-- The places of the slices change, to `f` of each, and nothing else does. -/
def SplitStep (f : Nat → SplitEntry) (s u : State) : Prop :=
  u = { s with gang := { s.gang with split := u.gang.split } } ∧ u.gang.split.length = s.gang.split.length ∧
  ∀ k, k < 8 → k < s.gang.split.length → entryOf u.gang k = f k

/-- The guard fields of an instruction's word 1; none in a form without them (04 R85, R89). -/
def ownGuard (i : Instr) : Option Guard :=
  match encode i with
  | [_, w1] => if formL i.major then none else some (Guard.ofWord w1)
  | _ => none

/-- The register writes of a pending result (05 R121): the last of each place, but in no dead lane (02 R39). -/
def written (ws : List RegWrite) (dead : Word) : Writes where
  v r l := if lane dead l then none else (ws.filterMap fun w => match w with
    | .lane r' l' x => if r' = r ∧ l' = l then some x else none
    | _ => none).getLast?
  s r := (ws.filterMap fun w => match w with
    | .scal r' x => if r' = r then some x else none
    | _ => none).getLast?
  p p l := if lane dead l then none else (ws.filterMap fun w => match w with
    | .pred p' m x => if p' = p ∧ p ≠ 0 ∧ lane m l then some (lane x l) else none
    | _ => none).getLast?

/-- A part of the outstanding entry `p` of the gang in focus is done (17 R375). With the last part its registers are written, kitty bits
filled, and it is complete; every complete entry leaves that has no older incomplete one of its class before it, and waits made in this clk count it still; and a gang that waits at a header
looks again in the next clk. Nothing else changes. -/
structure PartDone (p : Pend) (s u : State) : Prop where
  lanes : ∀ r l, l < 32 → rdV u r l = if p.parts ≤ 1 then ((written p.writes s.gang.dead).v r l).getD (rdV s r l) else rdV s r l
  scalars : ∀ r, rdS u r = if p.parts ≤ 1 then ((written p.writes s.gang.dead).s r).getD (rdS s r) else rdS s r
  preds : ∀ q l, lane (rdP u q) l = if p.parts ≤ 1 then ((written p.writes s.gang.dead).p q l).getD (lane (rdP s q) l) else lane (rdP s q) l
  mode : u.gang.mode = s.gang.mode
  split : u.gang.split = s.gang.split
  late : u.gang.late = s.gang.late ++ (s.gang.pend.filter fun q => q.cls != .none && !u.gang.pend.any fun r => r.id == q.id).map (·.cls)
  pend : u.gang.pend = retireDone (s.gang.pend.map fun q => if q.id = p.id then
    (if p.parts ≤ 1 then { q with parts := 0, fin := true, writes := [] } else { q with parts := q.parts - 1 }) else q) []
  looks : (∃ k, k < s.gang.slices ∧ (entryOf s.gang k).wait = .header) →
    ∃ e ∈ u.agenda, e.ev = .headerWaitMet ∧ e.subj = .gang s.gang.key ∧ e.clk = s.clk + 1
  kitty : ∀ i l, l < 32 → lane (look u.block.kfull i) l = (lane (look s.block.kfull i) l || (decide (p.parts ≤ 1) && p.writes.any fun w => match w with
    | .lane r k _ => k == l && kittyIx s.gang r == some i && !lane s.gang.dead l
    | _ => false))
  memory : u.mem = s.mem
  rest : outside { u with agenda := [] } = outside { modGang (fun g => { g with pend := u.gang.pend, late := u.gang.late }) s with agenda := [] }

/-- A home has recorded a fault at the TAIL of its queue (16 R365): the record's 64 bytes stand there, TAIL has risen by 1, and no
other byte of memory, gang, block or core has changed, but for the dirty bitmaps. -/
structure Recorded (f : HomeFault) (k : GangKey) (s u : State) : Prop where
  bytes : ∀ i, i < 64 → look u.mem (reservedAt f.home (64 * (fqTail s f.home % 4096)) + i) =
    nth 0 (faultRecord f (vdZero s k.die) k.core k.part k.slot) i
  tail : fqTail u f.home = (fqTail s f.home + 1) % 2 ^ 32
  memory : ∀ i, ¬(reservedAt f.home (64 * (fqTail s f.home % 4096)) ≤ i ∧ i < reservedAt f.home (64 * (fqTail s f.home % 4096)) + 64) →
    ¬(reservedAt f.home 0x40000 ≤ i ∧ i < reservedAt f.home 0x40000 + 8) → bitmapByte i = false → look u.mem i = look s.mem i
  live : f.kind ≤ 3 → (fqTail s f.home % 4096, f, k, (dieOf k.die s).incarn) ∈ (homeOf f.home u).live
  gang : u.gang = s.gang
  gangs : u.gangs = s.gangs
  block : u.block = s.block
  blocks : u.blocks = s.blocks
  core : u.core = s.core
  cores : u.cores = s.cores
  agenda : u.agenda = s.agenda

end Sys2Proof.Machine
end

