-- ==== Sys2Proof/Certificates/Slice0/Obligations.lean ====
section
/-! DEFINITION. The statements of this slice, from the numbered rules of the spec. -/

open Sys2Proof Sys2Proof.Machine

/-- 08 R207, R208, 06 R155, 05 R121: the scoreboard places each crossing of an instruction on a lane of its own, within 128 clk, and keeps
what it held; where it is empty, up to four up crossings and two down crossings give the latencies of 06 R155. An ADD that issues leaves
its lanes reserved and its destination tagged until its result is readable; one that names a tagged register, or that the scoreboard
refuses, gives up this clk.
The model's own choices in it: log 5. -/
def Obligations.ScoreboardAdmits : Prop :=
  (∀ u s p, planOf u s = some p →
    (∀ r ∈ s.core.up, r ∈ p.up) ∧ (∀ r ∈ s.core.down, r ∈ p.down) ∧
    (s.core.up.Nodup → p.up.Nodup) ∧ (s.core.down.Nodup → p.down.Nodup) ∧
    p.up.length = s.core.up.length + crossTime s * u.up.length ∧ p.down.length = s.core.down.length + crossTime s * u.down ∧
    (∀ r ∈ p.up, r ∈ s.core.up ∨ (r.1 < 4 ∧ s.clk ≤ r.2 ∧ r.2 < s.clk + 128)) ∧
    (∀ r ∈ p.down, r ∈ s.core.down ∨ (r.1 < 2 ∧ s.clk + u.exec < r.2 ∧ r.2 < s.clk + 128)) ∧
    p.starts.head? = u.up.head?.map (s.clk + ·)) ∧
  (∀ n k e s, 1 ≤ n → n ≤ 4 → 1 ≤ k → k ≤ 2 → e ≤ 100 → s.core.up = [] → s.core.down = [] →
    ∃ p, planOf ⟨List.replicate n 0, k, e⟩ s = some p ∧ p.ready = s.clk + e + 2 * crossTime s) ∧
  (∀ d a b s p, let q := { req1 0x06 with vr := [a.toNat, b.toNat], vw := [d.toNat] }
    mayIssue q s = true → s.gang.redo = none → planOf ⟨[0, 0], 1, 4⟩ s = some p →
    ∃ u, exec (.add d a b) s = .next u ∧ u.core.up = p.up ∧ u.core.down = p.down ∧
      u.gang.tags = s.gang.tags ++ [⟨.v d.toNat, herePos s, execMask s none, p.ready, false⟩]) ∧
  (∀ d a b s t, let q := { req1 0x06 with vr := [a.toNat, b.toNat], vw := [d.toNat] }
    preCheck q s = none → t ∈ s.gang.tags → s.clk < t.clk → (t.reg = .v a.toNat ∨ t.reg = .v b.toNat ∨ t.reg = .v d.toNat) →
    exec (.add d a b) s = .next (giveUp s)) ∧
  (∀ d a b s, let q := { req1 0x06 with vr := [a.toNat, b.toNat], vw := [d.toNat] }
    preCheck q s = none → tagged { q with pr := [guardPred s none] } s = false → kittyHolds q (execMask s none) s = false →
    planOf ⟨[0, 0], 1, 4⟩ s = none → exec (.add d a b) s = .next (giveUp (noteRefused s)))

/-- 06 R130, R131: NOP, the moves and LID. -/
def Obligations.MovesComplete : Prop :=
  (∀ s, Completes (req1 0x01) .nop {} s) ∧
  (∀ d a s, Completes { req1 0x02 with vr := [a.toNat], vw := [d.toNat] } (.mov d a)
    { v := laneW d.toNat (execMask s none) (rdV s a.toNat) } s) ∧
  (∀ d i s, Completes { req1 0x03 with vw := [d.toNat] } (.movi d i) { v := laneW d.toNat (execMask s none) fun _ => i.signExtend 32 } s) ∧
  (∀ d i s, Completes { req1 0x04 with vr := [d.toNat], vw := [d.toNat] } (.movh d i)
    { v := laneW d.toNat (execMask s none) fun l => i ++ (rdV s d.toNat l).extractLsb' 0 16 } s) ∧
  (∀ d i s, Completes { reqL 0x05 with vw := [d.toNat] } (.movl d i) { v := laneW d.toNat (execMask s none) fun _ => i } s) ∧
  (∀ d a s, Completes { req1 0x3B with sr := [a.toNat], vw := [d.toNat] } (.bcast d a)
    { v := laneW d.toNat (execMask s none) fun _ => rdS s a.toNat } s) ∧
  (∀ d a s, Completes { req1 0x37 with pr := [a.toNat], vw := [d.toNat] } (.vfromp d a)
    { v := laneW d.toNat (execMask s none) fun l => if lane (rdP s a.toNat) l then 0xFFFFFFFF else 0 } s) ∧
  (∀ d what s, Completes { req1 0x74 with vw := [d.toNat] } (.lid d what)
    { v := laneW d.toNat (execMask s none) fun l => match what with
        | .lane => BitVec.ofNat 32 l
        | .slice => BitVec.ofNat 32 (l / 4)
        | .gidlo => BitVec.ofNat 32 ((s.gang.blk.idx * 32 + s.gang.gno) * 32 + l)
        | .gidhi => BitVec.ofNat 32 (((s.gang.blk.idx * 32 + s.gang.gno) * 32 + l) / 2 ^ 32)
        | .active => s.gang.active
        | .dead => s.gang.dead } s) ∧
  (∀ w1, decode 0x01 w1 = .ok (.nop, 1)) ∧
  (∀ d a w1, decode (0x02 + d.toNat * 2 ^ 8 + a.toNat * 2 ^ 16) w1 = .ok (.mov d a, 1)) ∧
  (∀ d i w1, decode (0x03 + d.toNat * 2 ^ 8 + i.toNat * 2 ^ 16) w1 = .ok (.movi d i, 1)) ∧
  (∀ d i w1, decode (0x04 + d.toNat * 2 ^ 8 + i.toNat * 2 ^ 16) w1 = .ok (.movh d i, 1)) ∧
  (∀ d i, decode (0x05 + d.toNat * 2 ^ 8) i.toNat = .ok (.movl d i, 2)) ∧
  (∀ d a w1, decode (0x3B + d.toNat * 2 ^ 8 + a.toNat * 2 ^ 16) w1 = .ok (.bcast d a, 1)) ∧
  (∀ d a w1, decode (0x37 + d.toNat * 2 ^ 8 + a.toNat * 2 ^ 16) w1 = .ok (.vfromp d a, 1))

/-- 06 R133, R134: the lane operations that wrap modulo 2^32 and the bitwise operations. -/
def Obligations.LaneArithmeticCompletes : Prop :=
  (∀ d a b s, Completes { req1 0x06 with vr := [a.toNat, b.toNat], vw := [d.toNat] } (.add d a b)
    { v := laneW d.toNat (execMask s none) fun l => rdV s a.toNat l + rdV s b.toNat l } s) ∧
  (∀ d a i s, Completes { req1 0x07 with vr := [a.toNat], vw := [d.toNat] } (.addi d a i)
    { v := laneW d.toNat (execMask s none) fun l => rdV s a.toNat l + i.signExtend 32 } s) ∧
  (∀ d a b s, Completes { req1 0x08 with vr := [a.toNat, b.toNat], vw := [d.toNat] } (.sub d a b)
    { v := laneW d.toNat (execMask s none) fun l => rdV s a.toNat l - rdV s b.toNat l } s) ∧
  (∀ d a s, Completes { req1 0x09 with vr := [a.toNat], vw := [d.toNat] } (.neg d a)
    { v := laneW d.toNat (execMask s none) fun l => 0 - rdV s a.toNat l } s) ∧
  (∀ d a b s, Completes { req1 0x0C with vr := [a.toNat, b.toNat], vw := [d.toNat] } (.mullo d a b)
    { v := laneW d.toNat (execMask s none) fun l => rdV s a.toNat l * rdV s b.toNat l } s) ∧
  (∀ d a s, Completes { req1 0x10 with vr := [a.toNat], vw := [d.toNat] } (.abs d a)
    { v := laneW d.toNat (execMask s none) fun l => BitVec.ofNat 32 (rdV s a.toNat l).toInt.natAbs } s) ∧
  (∀ d a b s, Completes { req1 0x13 with vr := [a.toNat, b.toNat], vw := [d.toNat] } (.and d a b)
    { v := laneW d.toNat (execMask s none) fun l => rdV s a.toNat l &&& rdV s b.toNat l } s) ∧
  (∀ d a b s, Completes { req1 0x14 with vr := [a.toNat, b.toNat], vw := [d.toNat] } (.or d a b)
    { v := laneW d.toNat (execMask s none) fun l => rdV s a.toNat l ||| rdV s b.toNat l } s) ∧
  (∀ d a b s, Completes { req1 0x15 with vr := [a.toNat, b.toNat], vw := [d.toNat] } (.xor d a b)
    { v := laneW d.toNat (execMask s none) fun l => rdV s a.toNat l ^^^ rdV s b.toNat l } s) ∧
  (∀ d a b s, Completes { req1 0x16 with vr := [a.toNat, b.toNat], vw := [d.toNat] } (.andn d a b)
    { v := laneW d.toNat (execMask s none) fun l => rdV s a.toNat l &&& ~~~rdV s b.toNat l } s) ∧
  (∀ d a i s, Completes { req1 0x17 with vr := [a.toNat], vw := [d.toNat] } (.andi d a i)
    { v := laneW d.toNat (execMask s none) fun l => rdV s a.toNat l &&& i.zeroExtend 32 } s) ∧
  (∀ d a i s, Completes { req1 0x18 with vr := [a.toNat], vw := [d.toNat] } (.ori d a i)
    { v := laneW d.toNat (execMask s none) fun l => rdV s a.toNat l ||| i.zeroExtend 32 } s) ∧
  (∀ d a i s, Completes { req1 0x19 with vr := [a.toNat], vw := [d.toNat] } (.xori d a i)
    { v := laneW d.toNat (execMask s none) fun l => rdV s a.toNat l ^^^ i.zeroExtend 32 } s)

/-- 06 R133, R134: shifts, whose count of 32 or more gives 0 or the sign, and operations on bits. -/
def Obligations.ShiftsAndBitsComplete : Prop :=
  (∀ d a b s, Completes { req1 0x1A with vr := [a.toNat, b.toNat], vw := [d.toNat] } (.shl d a b)
    { v := laneW d.toNat (execMask s none) fun l =>
        if 32 ≤ (rdV s b.toNat l).toNat then 0 else rdV s a.toNat l <<< (rdV s b.toNat l).toNat } s) ∧
  (∀ d a b s, Completes { req1 0x1B with vr := [a.toNat, b.toNat], vw := [d.toNat] } (.shr d a b)
    { v := laneW d.toNat (execMask s none) fun l =>
        if 32 ≤ (rdV s b.toNat l).toNat then 0 else rdV s a.toNat l >>> (rdV s b.toNat l).toNat } s) ∧
  (∀ d a b s, Completes { req1 0x1C with vr := [a.toNat, b.toNat], vw := [d.toNat] } (.sar d a b)
    { v := laneW d.toNat (execMask s none) fun l =>
        if 32 ≤ (rdV s b.toNat l).toNat then (if (rdV s a.toNat l).getLsbD 31 then 0xFFFFFFFF else 0)
        else (rdV s a.toNat l).sshiftRight (rdV s b.toNat l).toNat } s) ∧
  (∀ d a i s, Completes { req1 0x1D with vr := [a.toNat], vw := [d.toNat] } (.shli d a i)
    { v := laneW d.toNat (execMask s none) fun l => rdV s a.toNat l <<< i.toNat } s) ∧
  (∀ d a i s, Completes { req1 0x1E with vr := [a.toNat], vw := [d.toNat] } (.shri d a i)
    { v := laneW d.toNat (execMask s none) fun l => rdV s a.toNat l >>> i.toNat } s) ∧
  (∀ d a i s, Completes { req1 0x1F with vr := [a.toNat], vw := [d.toNat] } (.sari d a i)
    { v := laneW d.toNat (execMask s none) fun l => (rdV s a.toNat l).sshiftRight i.toNat } s) ∧
  (∀ d a b s, Completes { req1 0x20 with vr := [a.toNat, b.toNat], vw := [d.toNat] } (.rotl d a b)
    { v := laneW d.toNat (execMask s none) fun l => (rdV s a.toNat l).rotateLeft (rdV s b.toNat l).toNat } s) ∧
  (∀ d a s, Completes { req1 0x21 with vr := [a.toNat], vw := [d.toNat] } (.popc d a)
    { v := laneW d.toNat (execMask s none) fun l => BitVec.ofNat 32 ((List.range 32).countP fun i => (rdV s a.toNat l).getLsbD i) } s) ∧
  (∀ d a s, Completes { req1 0x22 with vr := [a.toNat], vw := [d.toNat] } (.clz d a)
    { v := laneW d.toNat (execMask s none) fun l => BitVec.ofNat 32 ((List.range 32).countP fun i => rdV s a.toNat l >>> i == 0) } s) ∧
  (∀ d a s, Completes { req1 0x23 with vr := [a.toNat], vw := [d.toNat] } (.brev d a)
    { v := laneW d.toNat (execMask s none) fun l => (rdV s a.toNat l).reverse } s) ∧
  (∀ d a n s, 1 ≤ n.toNat → n.toNat ≤ 32 → Completes { req1 0x2C with vr := [a.toNat], vw := [d.toNat] } (.sxt d a n)
    { v := laneW d.toNat (execMask s none) fun l => ((rdV s a.toNat l).setWidth n.toNat).signExtend 32 } s) ∧
  (∀ d a n s, 1 ≤ n.toNat → n.toNat ≤ 32 → Completes { req1 0x2D with vr := [a.toNat], vw := [d.toNat] } (.zxt d a n)
    { v := laneW d.toNat (execMask s none) fun l => ((rdV s a.toNat l).setWidth n.toNat).setWidth 32 } s)

/-- 06 R135, R136: saturating and packed operations, and the multiplies. -/
def Obligations.PackedAndMultiplyComplete : Prop :=
  (∀ d a b ty x s, Completes { reqX 0x0A x with vr := [a.toNat, b.toNat], vw := [d.toNat] } (.addsat d a b ty x)
    { v := laneW d.toNat (execMask s (some x)) fun l => satMap ty (· + ·) (rdV s a.toNat l) (rdV s b.toNat l) } s) ∧
  (∀ d a b ty x s, Completes { reqX 0x0B x with vr := [a.toNat, b.toNat], vw := [d.toNat] } (.subsat d a b ty x)
    { v := laneW d.toNat (execMask s (some x)) fun l => satMap ty (· - ·) (rdV s a.toNat l) (rdV s b.toNat l) } s) ∧
  (∀ d a b ty x s, Completes { reqX 0x11 x with vr := [a.toNat, b.toNat], vw := [d.toNat] } (.min d a b ty x)
    { v := laneW d.toNat (execMask s (some x)) fun l => packedMap ty min (rdV s a.toNat l) (rdV s b.toNat l) } s) ∧
  (∀ d a b ty x s, Completes { reqX 0x12 x with vr := [a.toNat, b.toNat], vw := [d.toNat] } (.max d a b ty x)
    { v := laneW d.toNat (execMask s (some x)) fun l => packedMap ty max (rdV s a.toNat l) (rdV s b.toNat l) } s) ∧
  (∀ d a b ty x s, Completes { reqX 0x0D x with vr := [a.toNat, b.toNat], vw := [d.toNat] } (.mulhi d a b ty x)
    { v := laneW d.toNat (execMask s (some x)) fun l =>
        let va := rdV s a.toNat l
        let vb := rdV s b.toNat l
        let p : DWord := match ty with
          | .i32 => va.signExtend 64 * vb.signExtend 64
          | .ui32 => va.zeroExtend 64 * vb.zeroExtend 64
          | .mix32 => va.signExtend 64 * vb.zeroExtend 64
        p.extractLsb' 32 32 } s) ∧
  (∀ d a b c sat ty x s, Completes { reqX 0x0E x with vr := [a.toNat, b.toNat, c.toNat], vw := [d.toNat] } (.mad d a b c sat ty x)
    { v := laneW d.toNat (execMask s (some x)) fun l =>
        let p := valOf ty (rdV s a.toNat l) * valOf ty (rdV s b.toNat l) + valOf ty (rdV s c.toNat l)
        BitVec.ofInt 32 (if sat then clampTo 32 (ty == .i32) p else p) } s) ∧
  (∀ d a b c ty x s, Completes { reqX 0x0F x with vr := [a.toNat, b.toNat] ++ pair c.toNat, vw := pair d.toNat } (.madw d a b c ty x)
    { v := pairW d.toNat (execMask s (some x)) fun l =>
        BitVec.ofInt 64 (valOf ty (rdV s a.toNat l) * valOf ty (rdV s b.toNat l)) + rdVV s c.toNat l } s)

/-- 06 R137 to R140: division, bit fields, address, select and 64-bit operations. -/
def Obligations.DivisionAndFieldsComplete : Prop :=
  (∀ d a b ty x s, Completes { reqX 0x2A x with vr := [a.toNat, b.toNat], vw := [d.toNat] } (.idiv d a b ty x)
    { v := laneW d.toNat (execMask s (some x)) fun l =>
        if rdV s b.toNat l = 0 then 0xFFFFFFFF
        else BitVec.ofInt 32 ((valOf ty (rdV s a.toNat l)).tdiv (valOf ty (rdV s b.toNat l))) } s) ∧
  (∀ d a b ty x s, Completes { reqX 0x2B x with vr := [a.toNat, b.toNat], vw := [d.toNat] } (.irem d a b ty x)
    { v := laneW d.toNat (execMask s (some x)) fun l =>
        if rdV s b.toNat l = 0 then rdV s a.toNat l
        else BitVec.ofInt 32 ((valOf ty (rdV s a.toNat l)).tmod (valOf ty (rdV s b.toNat l))) } s) ∧
  (∀ (rem : Bool) d a b ty (x : Guard),
    decode ((if rem then 0x2B else 0x2A) + d.toNat * 2 ^ 8 + a.toNat * 2 ^ 16 + b.toNat * 2 ^ 24)
      ((if ty = .ui32 then 2 ^ 14 else 0) + x.grd.toNat * 2 ^ 19 + bnat x.gn * 2 ^ 22 + bnat x.go * 2 ^ 23) =
      .ok (if rem then .irem d a b ty x else .idiv d a b ty x, 2)) ∧
  (∀ d a sx pos len x s, 1 ≤ len.toNat → pos.toNat + len.toNat ≤ 32 →
    Completes { reqX 0x24 x with vr := [a.toNat], vw := [d.toNat] } (.bfe d a sx pos len x)
    { v := laneW d.toNat (execMask s (some x)) fun l =>
        let f := (rdV s a.toNat l).extractLsb' pos.toNat len.toNat
        if sx then f.signExtend 32 else f.zeroExtend 32 } s) ∧
  (∀ d a b pos len x s, 1 ≤ len.toNat → pos.toNat + len.toNat ≤ 32 →
    Completes { reqX 0x25 x with vr := [a.toNat, b.toNat], vw := [d.toNat] } (.bfi d a b pos len x)
    { v := laneW d.toNat (execMask s (some x)) fun l => maskOf fun i =>
        if pos.toNat ≤ i ∧ i < pos.toNat + len.toNat then (rdV s b.toNat l).getLsbD (i - pos.toNat) else (rdV s a.toNat l).getLsbD i } s) ∧
  (∀ d a b i sh x s, Completes { reqX 0x26 x with vr := [a.toNat, b.toNat], vw := [d.toNat] } (.lea d a b i sh x)
    { v := laneW d.toNat (execMask s (some x)) fun l => rdV s a.toNat l + (rdV s b.toNat l <<< sh.toNat) + i.signExtend 32 } s) ∧
  (∀ d a b c x s, Completes { reqX 0x27 x with pr := [c.toNat], vr := [a.toNat, b.toNat], vw := [d.toNat] } (.sel d a b c x)
    { v := laneW d.toNat (execMask s (some x)) fun l => if lane (rdP s c.toNat) l then rdV s a.toNat l else rdV s b.toNat l } s) ∧
  (∀ d a b c x s, Completes { reqX 0x2E x with vr := [a.toNat, b.toNat, c.toNat], vw := [d.toNat] } (.bperm d a b c x)
    { v := laneW d.toNat (execMask s (some x)) fun l => packElems 8 fun i =>
        let y := elemOf (rdV s c.toNat l) 8 i
        if 128 ≤ y then 0 else ((rdV s b.toNat l ++ rdV s a.toNat l : DWord).extractLsb' (8 * (y % 8)) 8).toNat } s) ∧
  (∀ d a b sub x s, Completes { reqX 0x2F x with vr := pair a.toNat ++ pair b.toNat, vw := pair d.toNat } (.add64 d a b sub x)
    { v := pairW d.toNat (execMask s (some x)) fun l =>
        if sub then rdVV s a.toNat l - rdVV s b.toNat l else rdVV s a.toNat l + rdVV s b.toNat l } s) ∧
  (∀ d a b c right x s, Completes { reqX 0x30 x with vr := [a.toNat, b.toNat, c.toNat], vw := [d.toNat] } (.shf d a b c right x)
    { v := laneW d.toNat (execMask s (some x)) fun l =>
        let v : DWord := rdV s b.toNat l ++ rdV s a.toNat l
        let n := (rdV s c.toNat l).toNat % 64
        if right then (v >>> n).extractLsb' 0 32 else (v <<< n).extractLsb' 32 32 } s)

/-- 06 R141, R142, R146, 07 R169, R170: comparisons and predicate logic; a Pd of P0 is legal and has no effect. -/
def Obligations.PredicatesComplete : Prop :=
  let join := fun (comb : Comb) (cond pc : Bool) => match comb with
    | .none => cond
    | .and => cond && pc
    | .or => cond || pc
  (∀ d a b c ty cond comb x s, Completes { reqX 0x28 x with vr := [a.toNat, b.toNat], pr := [c.toNat], pw := [d.toNat] } (.cmp d a b c ty cond comb x)
    { p := predW d.toNat (execMask s (some x)) fun l =>
        join comb (condHolds cond (valOf ty (rdV s a.toNat l)) (valOf ty (rdV s b.toNat l))) (lane (rdP s c.toNat) l) } s) ∧
  (∀ d a i c ty cond comb x s, Completes { reqX 0x29 x with vr := [a.toNat], pr := [c.toNat], pw := [d.toNat] } (.cmpi d a i c ty cond comb x)
    { p := predW d.toNat (execMask s (some x)) fun l =>
        join comb (condHolds cond (valOf ty (rdV s a.toNat l)) (if ty = .i32 then i.toInt else i.toNat)) (lane (rdP s c.toNat) l) } s) ∧
  (∀ d a b c ty cond comb x s, Completes { reqX 0x3F x with
      sr := if ty = .i64 ∨ ty = .ui64 then pair a.toNat ++ pair b.toNat else [a.toNat, b.toNat], pr := [c.toNat], pw := [d.toNat] }
    (.scmp d a b c ty cond comb x)
    { p := predW d.toNat (execMask s (some x)) fun l =>
        join comb (match ty with
          | .i32 => condHolds cond (rdS s a.toNat).toInt (rdS s b.toNat).toInt
          | .ui32 => condHolds cond (rdS s a.toNat).toNat (rdS s b.toNat).toNat
          | .i64 => condHolds cond (rdSS s a.toNat).toInt (rdSS s b.toNat).toInt
          | .ui64 => condHolds cond (rdSS s a.toNat).toNat (rdSS s b.toNat).toNat) (lane (rdP s c.toNat) l) } s) ∧
  (∀ d a b s, Completes { req1 0x32 with pr := [a.toNat, b.toNat], pw := [d.toNat] } (.pand d a b)
    { p := predW d.toNat (execMask s none) fun l => lane (rdP s a.toNat) l && lane (rdP s b.toNat) l } s) ∧
  (∀ d a b s, Completes { req1 0x33 with pr := [a.toNat, b.toNat], pw := [d.toNat] } (.por d a b)
    { p := predW d.toNat (execMask s none) fun l => lane (rdP s a.toNat) l || lane (rdP s b.toNat) l } s) ∧
  (∀ d a b s, Completes { req1 0x34 with pr := [a.toNat, b.toNat], pw := [d.toNat] } (.pxor d a b)
    { p := predW d.toNat (execMask s none) fun l => lane (rdP s a.toNat) l != lane (rdP s b.toNat) l } s) ∧
  (∀ d a s, Completes { req1 0x35 with pr := [a.toNat], pw := [d.toNat] } (.pnot d a)
    { p := predW d.toNat (execMask s none) fun l => !lane (rdP s a.toNat) l } s) ∧
  (∀ d a s, Completes { req1 0x36 with pr := [a.toNat], pw := [d.toNat] } (.pmov d a)
    { p := predW d.toNat (execMask s none) fun l => lane (rdP s a.toNat) l } s) ∧
  (∀ d a b c fi ty hi cond comb x s, Completes { fReq (reqX 0x49 x) ty [a.toNat, b.toNat] [] with pr := [c.toNat], pw := [d.toNat] }
    (.fcmp d a b c fi ty hi cond comb x)
    (let r := fun l => fcmpHolds cond ((ftyFmt ty).unpack fi (fElem s ty a.toNat l (bnat hi))) ((ftyFmt ty).unpack fi (fElem s ty b.toNat l (bnat hi)))
     { p := predW d.toNat (execMask s (some x)) fun l => join comb (r l).1 (lane (rdP s c.toNat) l)
       mode := flagBits ((lanesOf (execMask s (some x))).map fun l => { nv := (r l).2 }) }) s) ∧
  (∀ d a mlo mhi ty hi x s, Completes { fReq (reqX 0x4A x) ty [a.toNat] [] with pw := [d.toNat] } (.fclass d a mlo mhi ty hi x)
    { p := predW d.toNat (execMask s (some x)) fun l =>
        (mhi ++ mlo : BitVec 10).getLsbD ((ftyFmt ty).classBit (fElem s ty a.toNat l (bnat hi))) } s) ∧
  (∀ d a b w1, decode (0x32 + d.toNat * 2 ^ 8 + a.toNat * 2 ^ 16 + b.toNat * 2 ^ 24) w1 = .ok (.pand d a b, 1)) ∧
  (∀ d a b w1, decode (0x33 + d.toNat * 2 ^ 8 + a.toNat * 2 ^ 16 + b.toNat * 2 ^ 24) w1 = .ok (.por d a b, 1)) ∧
  (∀ d a b w1, decode (0x34 + d.toNat * 2 ^ 8 + a.toNat * 2 ^ 16 + b.toNat * 2 ^ 24) w1 = .ok (.pxor d a b, 1)) ∧
  (∀ d a w1, decode (0x35 + d.toNat * 2 ^ 8 + a.toNat * 2 ^ 16) w1 = .ok (.pnot d a, 1)) ∧
  (∀ d a w1, decode (0x36 + d.toNat * 2 ^ 8 + a.toNat * 2 ^ 16) w1 = .ok (.pmov d a, 1))

/-- 06 R132, R143 to R145: scalar instructions, which write once for the gang, and RDLANE, WRLANE and ELECT. -/
def Obligations.ScalarsComplete : Prop :=
  (∀ d a b op x s, op ≠ .add64 → op ≠ .sub64 → Completes { reqX 0x38 x with
      sr := if op = .mov ∨ op = .popc ∨ op = .clz then [a.toNat] else [a.toNat, b.toNat], sw := [d.toNat], lat := saluLat op } (.salu d a b op x)
    { s := scalW d.toNat (execMask s (some x)) (saluW op (rdS s a.toNat) (rdS s b.toNat)) } s) ∧
  (∀ d a b x s, Completes { reqX 0x38 x with sr := pair a.toNat ++ pair b.toNat, sw := pair d.toNat } (.salu d a b .add64 x)
    { s := scalPairW d.toNat (execMask s (some x)) (rdSS s a.toNat + rdSS s b.toNat) } s) ∧
  (∀ d a b x s, Completes { reqX 0x38 x with sr := pair a.toNat ++ pair b.toNat, sw := pair d.toNat } (.salu d a b .sub64 x)
    { s := scalPairW d.toNat (execMask s (some x)) (rdSS s a.toNat - rdSS s b.toNat) } s) ∧
  (∀ d a op i s, op ≠ .add64 → op ≠ .sub64 → op ≠ .mov → Completes { reqL 0x39 with sr := [a.toNat], sw := [d.toNat], lat := saluLat op } (.salui d a op i)
    { s := scalW d.toNat (execMask s none) (saluW op (rdS s a.toNat) i) } s) ∧
  (∀ d a i s, Completes { reqL 0x39 with sr := pair a.toNat, sw := pair d.toNat } (.salui d a .add64 i)
    { s := scalPairW d.toNat (execMask s none) (rdSS s a.toNat + i.signExtend 64) } s) ∧
  (∀ d a i s, Completes { reqL 0x39 with sr := pair a.toNat, sw := pair d.toNat } (.salui d a .sub64 i)
    { s := scalPairW d.toNat (execMask s none) (rdSS s a.toNat - i.signExtend 64) } s) ∧
  (∀ d a i s, Completes { reqL 0x39 with sw := [d.toNat] } (.salui d a .mov i) { s := scalW d.toNat (execMask s none) i } s) ∧
  (∀ d i s, Completes { req1 0x3A with sw := [d.toNat] } (.smovi d i) { s := scalW d.toNat (execMask s none) (i.signExtend 32) } s) ∧
  (∀ d a b n reg x s, Completes (rdlaneReq d a b n reg x) (.rdlane d a b n reg x)
    (let m := execMask s (some x)
     let l := if reg then (rdS s b.toNat).toNat % 32 else n.toNat
     let exists' := decide (l < 4 * s.gang.slices)
     { s := scalW d.toNat m (if exists' && !lane s.gang.dead l then rdV s a.toNat l else 0)
       mode := if m ≠ 0 ∧ exists' ∧ lane s.gang.dead l then xldead else 0 }) s) ∧
  (∀ d a b n reg x s, Completes { reqX 0x3D x with vw := [d.toNat], sr := a.toNat :: if reg then [b.toNat] else [] } (.wrlane d a b n reg x)
    (let l := if reg then (rdS s b.toNat).toNat % 32 else n.toNat
     { v := fun r k => if r = d.toNat ∧ k = l ∧ lane (execMask s (some x)) k = true then some (rdS s a.toNat) else none }) s) ∧
  (∀ d a ws s, Completes { req1 0x3E with pw := [d.toNat], sw := if ws then [a.toNat] else [] } (.elect d a ws)
    (let m := execMask s none
     let e := (lanesOf m).headD 0
     { p := predW d.toNat m fun l => l == e
       s := if ws then scalW a.toNat m (BitVec.ofNat 32 e) else fun _ => none }) s) ∧
  (∀ d i w1, decode (0x3A + d.toNat * 2 ^ 8 + i.toNat * 2 ^ 16) w1 = .ok (.smovi d i, 1))

/-- 06 R148 to R154: SHFL, VOTE, REDX, SCANX and MATCH. -/
def Obligations.CrossLaneCompletes : Prop :=
  (∀ d a b kind k reg w x s, Completes (shflReq d a b kind k reg w x) (.shfl d a b kind k reg w x)
    (let m := execMask s (some x)
     let n := fun l => if reg then (rdV s b.toNat l).toNat % 32 else k.toNat
     let wd := shflWidth w
     let j := fun l => match kind with
       | .idx => l - l % wd + n l % wd
       | .up => if l - l % wd + n l ≤ l then l - n l else l
       | .down => if l + n l < l - l % wd + wd then l + n l else l
       | .xor => l ^^^ (n l % wd)
     { v := laneW d.toNat m fun l => if 4 * s.gang.slices ≤ j l then 0 else if lane s.gang.dead (j l) then 0 else rdV s a.toNat (j l)
       mode := if (lanesOf m).any fun l => decide (j l < 4 * s.gang.slices) && lane s.gang.dead (j l) then xldead else 0 }) s) ∧
  (∀ d a op sc x s, op ≠ .ballot → Completes { reqX 0x71 x with pr := [a.toNat], sw := if sc then [d.toNat] else [], pw := if sc then [] else [d.toNat] }
    (.vote d a op sc x)
    (let m := execMask s (some x)
     let r : Bool := match op with
       | .any => (lanesOf m).any fun l => lane (rdP s a.toNat) l
       | .all => (lanesOf m).all fun l => lane (rdP s a.toNat) l
       | _ => ((lanesOf m).all fun l => lane (rdP s a.toNat) l) || (lanesOf m).all fun l => !lane (rdP s a.toNat) l
     if sc then { s := scalW d.toNat m (if r then 1 else 0) } else { p := predW d.toNat m fun _ => r }) s) ∧
  (∀ d a sc x s, Completes { reqX 0x71 x with pr := [a.toNat], sw := [d.toNat] } (.vote d a .ballot sc x)
    { s := scalW d.toNat (execMask s (some x)) (execMask s (some x) &&& rdP s a.toNat) } s) ∧
  (∀ d a rnd fi fo op o sc x s, redKind op = .int o →
    Completes { reqX 0x72 x with vr := [a.toNat], vw := if sc then [] else [d.toNat], sw := if sc then [d.toNat] else [] } (.redx d a rnd fi fo op sc x)
    (let m := execMask s (some x)
     let v := (lanesOf m).foldl (fun acc l => scanStep o acc (rdV s a.toNat l)) (scanIdentity o)
     if sc then { s := scalW d.toNat m v } else { v := laneW d.toNat m fun _ => v }) s) ∧
  (∀ d a rnd fi fo op before sc x s best, redKind op = .index before → lane (execMask s (some x)) best = true →
    (∀ l, lane (execMask s (some x)) l = true → before (rdV s a.toNat l) (rdV s a.toNat best) = false) →
    (∀ l, lane (execMask s (some x)) l = true → l < best → before (rdV s a.toNat best) (rdV s a.toNat l) = true) →
    Completes { reqX 0x72 x with vr := [a.toNat], vw := if sc then [] else pair d.toNat, sw := if sc then pair d.toNat else [] } (.redx d a rnd fi fo op sc x)
    (let m := execMask s (some x)
     let v : DWord := BitVec.ofNat 32 best ++ rdV s a.toNat best
     if sc then { s := scalPairW d.toNat m v } else { v := pairW d.toNat m fun _ => v }) s) ∧
  (∀ d a rnd fi fo op o sc x s, redKind op = .float o →
    Completes { reqX 0x72 x with vr := [a.toNat], vw := if sc then [] else [d.toNat], sw := if sc then [d.toNat] else [], flags := true } (.redx d a rnd fi fo op sc x)
    (let m := execMask s (some x)
     let r := redTree o (fpRound s rnd 0 0) fi fo fun l => if lane m l then some (rdV s a.toNat l) else none
     if sc then { s := scalW d.toNat m r.1, mode := if m = 0 then 0 else flagBits [r.2] }
     else { v := laneW d.toNat m fun _ => r.1, mode := if m = 0 then 0 else flagBits [r.2] }) s) ∧
  (∀ d a op ex x s, Completes { reqX 0x73 x with vr := [a.toNat], vw := [d.toNat] } (.scanx d a op ex x)
    { v := laneW d.toNat (execMask s (some x)) fun l =>
        ((lanesOf (execMask s (some x))).filter fun k => if ex then decide (k < l) else decide (k ≤ l)).foldl
          (fun acc k => scanStep op acc (rdV s a.toNat k)) (scanIdentity op) } s) ∧
  (∀ d a b64 x s, Completes { reqX 0x75 x with vr := if b64 then pair a.toNat else [a.toNat], vw := [d.toNat] } (.matchLanes d a b64 x)
    { v := laneW d.toNat (execMask s (some x)) fun l => maskOf fun k => lane (execMask s (some x)) k &&
        (if b64 then rdVV s a.toNat l == rdVV s a.toNat k else rdV s a.toNat l == rdV s a.toNat k) } s)

/-- 07 R163 to R168, R171: floating-point arithmetic, element by element, with the flags ORed into MODE; and 07 R179, R180: each of RCP,
RSQ, SQRT, EXP2, LOG2, SINPI, COSPI, TANH, SIGM and FDIV completes with a function of its input bits, MODE and its own fields: a given
input yields the same bits everywhere. 07 R165, 03 R76: the bits of a sum, a product and a fused multiply-add are those of the exact value, rounded once;
how values round, `SpecialFunctionsComplete` says.
The model's own choices in it: log 69. -/
def Obligations.FloatArithmeticCompletes : Prop :=
  let exact := fun (s : Bool) (m : Nat) (e : Int) (t : Bool) (n : Nat) (k : Int) =>
    let x : Int := ((m * 2 ^ (e - min e k).toNat : Nat) : Int)
    let y : Int := ((n * 2 ^ (k - min e k).toNat : Nat) : Int)
    (if s then -x else x) + (if t then -y else y)
  let total := fun (f : Fmt) (rm : RM) (fo s : Bool) (m : Nat) (e : Int) (t : Bool) (n : Nat) (k : Int) =>
    let z := exact s m e t n k
    if z = 0 then (f.sign (if m = 0 ∧ n = 0 ∧ s = t then s else decide (rm = .dn)), Fl.nil)
    else f.round rm false fo (.num (decide (z < 0)) z.natAbs (min e k))
  (∀ (f : Fmt) rm fi fo sub x y s m e t n k, f.unpack fi x = .num s m e → f.unpack fi y = .num t n k →
    f.addBits rm fi fo sub x y = total f rm fo s m e (t != sub) n k ∧ f.mulBits rm fi fo x y = f.round rm false fo (.num (s != t) (m * n) (e + k)) ∧
    ∀ z np nc u o j, f.unpack fi z = .num u o j → f.fmaBits rm fi fo np nc x y z = total f rm fo ((s != np) != t) (m * n) (e + k) (u != nc) o j) ∧
  (∀ (f : Fmt) rm fi fo sub x y, let a := f.unpack fi x
    let b := f.unpack fi y
    (a.isNan = true ∨ b.isNan = true → f.addBits rm fi fo sub x y = (f.nan, { nv := a.isSig || b.isSig }) ∧ f.mulBits rm fi fo x y = (f.nan, { nv := a.isSig || b.isSig })) ∧
    (∀ s t, a = .inf s → b = .inf t → s ≠ (t != sub) → f.addBits rm fi fo sub x y = (f.nan, { nv := true })) ∧
    ((a.isInf = true ∧ b.isZero = true) ∨ (a.isZero = true ∧ b.isInf = true) → f.mulBits rm fi fo x y = (f.nan, { nv := true }) ∧
      ∀ np nc z, f.fmaBits rm fi fo np nc x y z = (f.nan, { nv := true }))) ∧
  (∀ d a b s, Completes (fReq (req1 0x40) .f32 [a.toNat, b.toNat] [d.toNat]) (.fadd d a b)
    (floatW .f32 d.toNat (execMask s none) fun l i =>
      Fmt.fp32.addBits (modeRM s) (modeFtzi s) (modeFtzo s) false (fElem s .f32 a.toNat l i) (fElem s .f32 b.toNat l i)) s) ∧
  (∀ d a b s, Completes (fReq (req1 0x41) .f32 [a.toNat, b.toNat] [d.toNat]) (.fsub d a b)
    (floatW .f32 d.toNat (execMask s none) fun l i =>
      Fmt.fp32.addBits (modeRM s) (modeFtzi s) (modeFtzo s) true (fElem s .f32 a.toNat l i) (fElem s .f32 b.toNat l i)) s) ∧
  (∀ d a b s, Completes (fReq (req1 0x42) .f32 [a.toNat, b.toNat] [d.toNat]) (.fmul d a b)
    (floatW .f32 d.toNat (execMask s none) fun l i =>
      Fmt.fp32.mulBits (modeRM s) (modeFtzi s) (modeFtzo s) (fElem s .f32 a.toNat l i) (fElem s .f32 b.toNat l i)) s) ∧
  (∀ d a b c rnd fi fo ty np nc x s, Completes (fReq (reqX 0x43 x) ty [a.toNat, b.toNat, c.toNat] [d.toNat]) (.ffma d a b c rnd fi fo ty np nc x)
    (floatW ty d.toNat (execMask s (some x)) fun l i => (ftyFmt ty).fmaBits (fpRound s rnd l i) fi fo np nc
      (fElem s ty a.toNat l i) (fElem s ty b.toNat l i) (fElem s ty c.toNat l i)) s) ∧
  (∀ d a b rnd fi fo ty sub x s, Completes (fReq (reqX 0x44 x) ty [a.toNat, b.toNat] [d.toNat]) (.faddx d a b rnd fi fo ty sub x)
    (floatW ty d.toNat (execMask s (some x)) fun l i =>
      (ftyFmt ty).addBits (fpRound s rnd l i) fi fo sub (fElem s ty a.toNat l i) (fElem s ty b.toNat l i)) s) ∧
  (∀ d a b rnd fi fo ty x s, Completes (fReq (reqX 0x45 x) ty [a.toNat, b.toNat] [d.toNat]) (.fmulx d a b rnd fi fo ty x)
    (floatW ty d.toNat (execMask s (some x)) fun l i =>
      (ftyFmt ty).mulBits (fpRound s rnd l i) fi fo (fElem s ty a.toNat l i) (fElem s ty b.toNat l i)) s) ∧
  (∀ d a b fi ty x s, Completes (fReq (reqX 0x46 x) ty [a.toNat, b.toNat] [d.toNat]) (.fmin d a b fi ty x)
    (floatW ty d.toNat (execMask s (some x)) fun l i => (ftyFmt ty).pickNum fi false (fElem s ty a.toNat l i) (fElem s ty b.toNat l i)) s) ∧
  (∀ d a b fi ty x s, Completes (fReq (reqX 0x47 x) ty [a.toNat, b.toNat] [d.toNat]) (.fmax d a b fi ty x)
    (floatW ty d.toNat (execMask s (some x)) fun l i => (ftyFmt ty).pickNum fi true (fElem s ty a.toNat l i) (fElem s ty b.toNat l i)) s) ∧
  (∀ d a b ty op x s, Completes (fReq (reqX 0x48 x) ty (if op = .cpsgn then [a.toNat, b.toNat] else [a.toNat]) [d.toNat]) (.fmov d a b ty op x)
    (floatW ty d.toNat (execMask s (some x)) fun l i =>
      (fmovBits (ftyFmt ty).width op (fElem s ty a.toNat l i) (fElem s ty b.toNat l i), {})) s) ∧
  (∀ d a rnd fi ty nx x s, Completes (fReq (reqX 0x4B x) ty [a.toNat] [d.toNat]) (.frnd d a rnd fi ty nx x)
    (floatW ty d.toNat (execMask s (some x)) fun l i => (ftyFmt ty).integral (fpRound s rnd l i) fi nx (fElem s ty a.toNat l i)) s) ∧
  (∀ d a b c rnd fi fo op x s,
    Completes (fReq (reqX 0x4C x) .f64 (if op = .fma then [a.toNat, b.toNat, c.toNat] else [a.toNat, b.toNat]) [d.toNat]) (.dfma d a b c rnd fi fo op x)
    (floatW .f64 d.toNat (execMask s (some x)) fun l i =>
      dfmaBits op (fpRound s rnd l i) fi fo (fElem s .f64 a.toNat l i) (fElem s .f64 b.toNat l i) (fElem s .f64 c.toNat l i)) s) ∧
  (∃ f : Bool → Bool → RM → Nat → Nat × Fl, ∀ d a s, Completes (fReq (req1 0x58) .f32 [a.toNat] [d.toNat]) (.rcp d a)
    (floatW .f32 d.toNat (execMask s none) fun l i => f (modeFtzi s) (modeFtzo s) (modeRM s) (fElem s .f32 a.toNat l i)) s) ∧
  (∃ f : Bool → Bool → RM → Nat → Nat × Fl, ∀ d a s, Completes (fReq (req1 0x59) .f32 [a.toNat] [d.toNat]) (.rsq d a)
    (floatW .f32 d.toNat (execMask s none) fun l i => f (modeFtzi s) (modeFtzo s) (modeRM s) (fElem s .f32 a.toNat l i)) s) ∧
  (∃ f : Bool → Bool → RM → Nat → Nat × Fl, ∀ d a s, Completes (fReq (req1 0x5A) .f32 [a.toNat] [d.toNat]) (.sqrt d a)
    (floatW .f32 d.toNat (execMask s none) fun l i => f (modeFtzi s) (modeFtzo s) (modeRM s) (fElem s .f32 a.toNat l i)) s) ∧
  (∃ f : Bool → Bool → RM → Nat → Nat × Fl, ∀ d a s, Completes (fReq (req1 0x5B) .f32 [a.toNat] [d.toNat]) (.exp2 d a)
    (floatW .f32 d.toNat (execMask s none) fun l i => f (modeFtzi s) (modeFtzo s) (modeRM s) (fElem s .f32 a.toNat l i)) s) ∧
  (∃ f : Bool → Bool → RM → Nat → Nat × Fl, ∀ d a s, Completes (fReq (req1 0x5C) .f32 [a.toNat] [d.toNat]) (.log2 d a)
    (floatW .f32 d.toNat (execMask s none) fun l i => f (modeFtzi s) (modeFtzo s) (modeRM s) (fElem s .f32 a.toNat l i)) s) ∧
  (∃ f : Bool → Bool → RM → Nat → Nat × Fl, ∀ d a s, Completes (fReq (req1 0x5D) .f32 [a.toNat] [d.toNat]) (.sinpi d a)
    (floatW .f32 d.toNat (execMask s none) fun l i => f (modeFtzi s) (modeFtzo s) (modeRM s) (fElem s .f32 a.toNat l i)) s) ∧
  (∃ f : Bool → Bool → RM → Nat → Nat × Fl, ∀ d a s, Completes (fReq (req1 0x5E) .f32 [a.toNat] [d.toNat]) (.cospi d a)
    (floatW .f32 d.toNat (execMask s none) fun l i => f (modeFtzi s) (modeFtzo s) (modeRM s) (fElem s .f32 a.toNat l i)) s) ∧
  (∃ f : Bool → Bool → RM → Nat → Nat × Fl, ∀ d a s, Completes (fReq (req1 0x60) .f32 [a.toNat] [d.toNat]) (.tanh d a)
    (floatW .f32 d.toNat (execMask s none) fun l i => f (modeFtzi s) (modeFtzo s) (modeRM s) (fElem s .f32 a.toNat l i)) s) ∧
  (∃ f : Bool → Bool → RM → Nat → Nat × Fl, ∀ d a s, Completes (fReq (req1 0x61) .f32 [a.toNat] [d.toNat]) (.sigm d a)
    (floatW .f32 d.toNat (execMask s none) fun l i => f (modeFtzi s) (modeFtzo s) (modeRM s) (fElem s .f32 a.toNat l i)) s) ∧
  (∃ f : Bool → Bool → RM → Nat → Nat → Nat × Fl, ∀ d a b rnd fi fo x s, Completes (fReq (reqX 0x5F x) .f32 [a.toNat, b.toNat] [d.toNat]) (.fdiv d a b rnd fi fo x)
    (floatW .f32 d.toNat (execMask s (some x)) fun l i => f fi fo (fpRound s rnd l i) (fElem s .f32 a.toNat l i) (fElem s .f32 b.toNat l i)) s) ∧
  (∀ d a b w1, decode (0x40 + d.toNat * 2 ^ 8 + a.toNat * 2 ^ 16 + b.toNat * 2 ^ 24) w1 = .ok (.fadd d a b, 1)) ∧
  (∀ d a b w1, decode (0x41 + d.toNat * 2 ^ 8 + a.toNat * 2 ^ 16 + b.toNat * 2 ^ 24) w1 = .ok (.fsub d a b, 1)) ∧
  (∀ d a b w1, decode (0x42 + d.toNat * 2 ^ 8 + a.toNat * 2 ^ 16 + b.toNat * 2 ^ 24) w1 = .ok (.fmul d a b, 1))

/-- 07 R173 to R178, R174: conversions; CBENC and CBDEC where the block holds array state and the codebook is ready. A conversion rounds the exact value of its
source once, to its destination's format or to an integer, which is clamped.
The model's own choices in it: log 69. -/
def Obligations.ConversionsComplete : Prop :=
  (∀ sty dty rm fi fo sat x, sty.isFloat = true → let v := (cvtFmt sty).unpack fi x
    (dty.isFloat = true → (∀ s m e, v = .num s m e → cvtBits sty dty rm fi fo sat x = (cvtFmt dty).round rm sat fo v) ∧
      (∀ g, v = .nan g → cvtBits sty dty rm fi fo sat x = ((cvtFmt dty).nan, { nv := g })) ∧
      ∀ s, v = .inf s → cvtBits sty dty rm fi fo sat x = (if sat then (cvtFmt dty).sign s + (cvtFmt dty).maxBits
        else if dty = .e4m3 then 0x7F else (cvtFmt dty).sign s + (cvtFmt dty).emax * 2 ^ (cvtFmt dty).m, {})) ∧
    (dty.isFloat = false → let w := cvtWidth dty
      let lo : Int := if cvtSigned dty then -(2 ^ (w - 1) : Int) else 0
      let hi : Int := if cvtSigned dty then 2 ^ (w - 1) - 1 else 2 ^ w - 1
      let bits := fun (z : Int) => (z % 2 ^ w).toNat
      (∀ g, v = .nan g → cvtBits sty dty rm fi fo sat x = (0, { nv := true })) ∧
      (∀ s, v = .inf s → cvtBits sty dty rm fi fo sat x = (bits (if s then lo else hi), { nv := true })) ∧
      ∀ s m e, v = .num s m e → let r := roundAt rm s m e 0
        let z : Int := if s then -(r.1 : Int) else r.1
        cvtBits sty dty rm fi fo sat x = if z < lo then (bits lo, { nv := true }) else if hi < z then (bits hi, { nv := true }) else (bits z, { nx := r.2 }))) ∧
  (∀ sty dty rm fi fo sat x, sty.isFloat = false → dty.isFloat = true → let i := elemVal (cvtWidth sty) (cvtSigned sty) x
    cvtBits sty dty rm fi fo sat x = (cvtFmt dty).round rm sat fo (.num (decide (i < 0)) i.natAbs 0)) ∧
  (∀ d a rnd fi fo sat si di sty dty x s, Completes (cvtReq x sty dty a.toNat d.toNat) (.cvt d a rnd fi fo sat si di sty dty x)
    (let m := execMask s (some x)
     let src := fun l => if sty = .f64 then (rdVV s a.toNat l).toNat else elemOf (rdV s a.toNat l) (cvtWidth sty) si.toNat
     let r := fun l => cvtBits sty dty (fpRound s rnd l di.toNat) fi fo sat (src l)
     let fl := flagBits ((lanesOf m).map fun l => (r l).2)
     if dty = .f64 then { v := pairW d.toNat m fun l => BitVec.ofNat 64 (r l).1, mode := fl }
     else { v := laneW d.toNat m fun l => setElem (rdV s d.toNat l) (cvtWidth dty) di.toNat (r l).1, mode := fl }) s) ∧
  (∀ d a b c rnd fi fo sat h bs dty x s, Completes { reqX 0x51 x with
      vr := [a.toNat, b.toNat] ++ (if bs then [c.toNat] else []) ++ (if dty.elems = 4 then [d.toNat] else []), vw := [d.toNat] }
    (.cvtpk d a b c rnd fi fo sat h bs dty x)
    (let m := execMask s (some x)
     let i0 := if h then 2 else 0
     let sc := fun l => if bs then some ((rdV s c.toNat l).toNat % 256) else none
     let r0 := fun l => cvtpkBits dty (fpRound s rnd l i0) fi fo sat (sc l) (rdV s a.toNat l).toNat
     let r1 := fun l => cvtpkBits dty (fpRound s rnd l (i0 + 1)) fi fo sat (sc l) (rdV s b.toNat l).toNat
     { v := laneW d.toNat m fun l => setElem (setElem (rdV s d.toNat l) (cvtWidth dty) i0 (r0 l).1) (cvtWidth dty) (i0 + 1) (r1 l).1
       mode := flagBits ((lanesOf m).flatMap fun l => [(r0 l).2, (r1 l).2]) }) s) ∧
  (∀ d a c rnd fi fo sat h bs sty dty x s, Completes { reqX 0x52 x with vr := a.toNat :: (if bs then [c.toNat] else []), vw := pair d.toNat }
    (.cvtup d a c rnd fi fo sat h bs sty dty x)
    (let m := execMask s (some x)
     let i0 := if h then 2 else 0
     let sc := fun l => if bs then some ((rdV s c.toNat l).toNat % 256) else none
     let r := fun l i => cvtupBits sty dty (fpRound s rnd l i) fi fo sat (sc l) (elemOf (rdV s a.toNat l) (cvtWidth sty) (i0 + i))
     { v := pairW d.toNat m fun l => BitVec.ofNat 32 (r l 1).1 ++ BitVec.ofNat 32 (r l 0).1
       mode := flagBits ((lanesOf m).flatMap fun l => [(r l 0).2, (r l 1).2]) }) s) ∧
  (∀ d a c rnd fi j x s, s.block.array = true → bookLoading s c = false → ArrayMark.codebook c.toNat ∉ s.core.marks →
    Completes { reqX 0x53 x with vr := [a.toNat, d.toNat], vw := [d.toNat] } (.cbenc d a c rnd fi j x)
    (let m := execMask s (some x)
     let r := fun l => cbEncode (fpRound s rnd l j.toNat) (Fmt.fp32.unpack fi (rdV s a.toNat l).toNat) (cbValues s c.toNat)
     { v := laneW d.toNat m fun l => setElem (rdV s d.toNat l) 4 j.toNat (r l).1
       mode := flagBits ((lanesOf m).map fun l => (r l).2) }) s) ∧
  (∀ d a c j x s, s.block.array = true → bookLoading s c = false → ArrayMark.codebook c.toNat ∉ s.core.marks →
    Completes { reqX 0x54 x with vr := [a.toNat], vw := [d.toNat] } (.cbdec d a c j x)
    { v := laneW d.toNat (execMask s (some x)) fun l =>
        BitVec.ofNat 32 (Fmt.fp32.round .ne false false (Fmt.bf16.unpack false (cbEntry s c.toNat (elemOf (rdV s a.toNat l) 4 j.toNat)))).1 } s)

/-- 07 R179 to R182: RCP, RSQ, SQRT, EXP2, LOG2, SINPI, COSPI, TANH, SIGM and FDIV complete wherever they may issue, each lane of the
mask with its own result; inputs are flushed as MODE.FTZI says, and the results of NaNs, infinities and zeros are those of R181.
03 R71 to R74, R78: how an exact value rounds: to one of its two neighbours, by the mode, with the flags of an inexact, tiny or overflowing result. 03 R80: a result that
is not given exactly lies within its function's bound of the function's value, which the model takes in fixed point with 256 fraction bits; NX says that it is inexact.
The model's own choices in it: log 7, 69. -/
def Obligations.SpecialFunctionsComplete : Prop :=
  let lies := fun (r : Nat × Fl) (s : Bool) (m : Nat) (e : Int) (bound : Val) =>
    ((Fmt.fp32.unpack false r.1).dist (.num s m e)).cmp bound ≤ 0 ∧ r.2 = { nx := true, uf := decide (r.1 % 2 ^ 31 < 2 ^ 23) }
  let sound := fun (r : Nat × Fl) (s : Bool) (m : Nat) (e : Int) (ulps : Nat) =>
    0 < m → ilog m e < 127 → lies r s m e (.num false ulps ((if ilog m e < -126 then -126 else ilog m e) - 23))
  (∀ f ∈ [Fmt.fp64, .fp32, .fp16, .bf16, .f8e4, .f8e5], ∀ rm s m (e : Int), 0 < m →
    let least : Int := 1 - (f.bias : Int)
    let q := max least (ilog m e) - (f.m : Int)
    let d := 2 ^ (q - e).toNat
    let lo := m * 2 ^ (e - q).toNat / d
    let rem := m * 2 ^ (e - q).toNat % d
    let n := (roundAt rm s m e q).1
    let tiny := Val.cmp (.num false (roundAt rm s m e (ilog m e - f.m)).1 (ilog m e - f.m)) (.num false 1 least) < 0
    let r := f.round rm false false (.num s m e)
    (n = lo ∨ n = lo + 1) ∧ (rem = 0 → n = lo) ∧
    (rm = .ne → (2 * rem < d → n = lo) ∧ (d < 2 * rem → n = lo + 1) ∧ (2 * rem = d → n % 2 = 0)) ∧ (rm = .tz → n = lo) ∧
    (0 < rem → (rm = .up → n = if s then lo else lo + 1) ∧ (rm = .dn → n = if s then lo + 1 else lo) ∧
      ∀ b, rm = .sr b → (n = lo + 1 ↔ 2 ^ 24 ≤ rem * 2 ^ 24 / d + b)) ∧
    (rm = .na → (2 * rem < d → n = lo) ∧ (d ≤ 2 * rem → n = lo + 1)) ∧
    if 0 < Val.cmp (.num false n q) (.num false f.top.1 f.top.2) then
      r.2 = { of := true, nx := true } ∧ (f.round rm true false (.num s m e)).1 = f.sign s + f.maxBits ∧
      r.1 = if rm = .tz ∨ (rm = .up ∧ s = true) ∨ (rm = .dn ∧ s = false) then f.sign s + f.maxBits else if f.e4m3 then 0x7F else f.sign s + f.emax * 2 ^ f.m
    else Val.cmp (f.unpack false r.1) (.num s n q) = 0 ∧ (f.unpack false r.1).neg = s ∧ r.2 = { nx := decide (0 < rem), uf := decide (0 < rem ∧ tiny) } ∧
      f.round rm false true (.num s m e) = if f.width ≠ 8 ∧ 0 < n ∧ n < 2 ^ f.m then (f.sign s, { uf := true, nx := true }) else r) ∧
  (∀ x s m e, m ≠ 0 → pow2Of m e = none → sound (rcpBits false x (.num s m e)) s (2 ^ 200 / m) (-200 - e) 1) ∧
  (∀ x m e, m ≠ 0 → (∀ n, pow2Of m e = some n → n % 2 ≠ 0) →
    let a := if e % 2 = 0 then (m, e) else (2 * m, e - 1)
    ∃ r, r * r * a.1 ≤ 2 ^ 400 ∧ 2 ^ 400 < (r + 1) * (r + 1) * a.1 ∧ sound (rsqBits false x (.num false m e)) false r (-200 - a.2 / 2) 1) ∧
  (∀ x s m e, m ≠ 0 → let v := Val.num s m e
    let p := fxExp2 (if s then -(fxOf m e : Int) else fxOf m e)
    v.cmp (.num false 128 0) < 0 → 0 ≤ v.cmp (.num true 150 0) → (roundAt .tz false m e 0).2 = true → sound (exp2Bits false x v) false p.1 (p.2 - 256) 2) ∧
  (∀ x m e, m ≠ 0 → pow2Of m e = none → let v := Val.num false m e
    let y := fxLog2 m e
    if 0 ≤ v.cmp (.num false 3 (-2)) ∧ v.cmp (.num false 3 (-1)) ≤ 0 then
      0 < y.natAbs → ilog y.natAbs (-256) < 0 → lies (log2Bits false x v) (decide (y < 0)) y.natAbs (-256) (.num false 1 (-22))
    else sound (log2Bits false x v) (decide (y < 0)) y.natAbs (-256) 2) ∧
  (∀ x s m e, m ≠ 0 → let r := mod2 m e
    r % fxOne ≠ 0 → 2 * r % fxOne ≠ 0 →
      sound (sinpiBits false x (.num s m e)) (s != (fxSinTurn r).1) (fxSinTurn r).2 (-256) 2 ∧
      let t := fxSinTurn ((r + fxOne / 2) % (2 * fxOne))
      sound (cospiBits false x (.num s m e)) t.1 t.2 (-256) 2) ∧
  (∀ x s m e, m ≠ 0 → let v := Val.num s m e
    let t := fxExpNeg (2 * fxOf m e)
    let u := fxExpNeg (fxOf m e)
    (v.mag.cmp (.num false 9 0) < 0 → sound (tanhBits false x v) s ((fxOne - t) * fxOne / (fxOne + t)) (-256) 2) ∧
    (v.cmp (.num false 17 0) < 0 → 0 < v.cmp (.num true 104 0) → sound (sigmBits false x v) false ((if s then u else fxOne) * fxOne / (fxOne + u)) (-256) 2)) ∧
  (∀ d a s, Completes (fReq (req1 0x58) .f32 [a.toNat] [d.toNat]) (.rcp d a) (specialW s d.toNat a.toNat (fun _ => rcpBits)) s) ∧
  (∀ d a s, Completes (fReq (req1 0x59) .f32 [a.toNat] [d.toNat]) (.rsq d a) (specialW s d.toNat a.toNat (fun _ => rsqBits)) s) ∧
  (∀ d a s, Completes (fReq (req1 0x5A) .f32 [a.toNat] [d.toNat]) (.sqrt d a) (specialW s d.toNat a.toNat (fun rm fo _ v => Fmt.fp32.finish rm false fo v.sqrt)) s) ∧
  (∀ d a s, Completes (fReq (req1 0x5B) .f32 [a.toNat] [d.toNat]) (.exp2 d a) (specialW s d.toNat a.toNat (fun _ => exp2Bits)) s) ∧
  (∀ d a s, Completes (fReq (req1 0x5C) .f32 [a.toNat] [d.toNat]) (.log2 d a) (specialW s d.toNat a.toNat (fun _ => log2Bits)) s) ∧
  (∀ d a s, Completes (fReq (req1 0x5D) .f32 [a.toNat] [d.toNat]) (.sinpi d a) (specialW s d.toNat a.toNat (fun _ => sinpiBits)) s) ∧
  (∀ d a s, Completes (fReq (req1 0x5E) .f32 [a.toNat] [d.toNat]) (.cospi d a) (specialW s d.toNat a.toNat (fun _ => cospiBits)) s) ∧
  (∀ d a s, Completes (fReq (req1 0x60) .f32 [a.toNat] [d.toNat]) (.tanh d a) (specialW s d.toNat a.toNat (fun _ => tanhBits)) s) ∧
  (∀ d a s, Completes (fReq (req1 0x61) .f32 [a.toNat] [d.toNat]) (.sigm d a) (specialW s d.toNat a.toNat (fun _ => sigmBits)) s) ∧
  (∀ d a b rnd fi fo x s, Completes (fReq (reqX 0x5F x) .f32 [a.toNat, b.toNat] [d.toNat]) (.fdiv d a b rnd fi fo x)
    (floatW .f32 d.toNat (execMask s (some x)) fun l i =>
      let q := (Fmt.fp32.unpack fi (fElem s .f32 a.toNat l i)).div (Fmt.fp32.unpack fi (fElem s .f32 b.toNat l i))
      let r := Fmt.fp32.round (fpRound s rnd l i) false fo q.1
      (r.1, q.2.or r.2)) s) ∧
  (∀ fo w g, ∀ f ∈ [rcpBits, rsqBits, exp2Bits, log2Bits, sinpiBits, cospiBits, tanhBits, sigmBits], f fo w (.nan g) = (0x7FC00000, { nv := g })) ∧
  (∀ rm fo g, Fmt.fp32.finish rm false fo (Val.nan g).sqrt = (0x7FC00000, { nv := g })) ∧
  (∀ rm fo w (neg : Bool),
    let sg := if neg then 2 ^ 31 else 0
    let z := Fmt.fp32.unpack false sg
    let y := Fmt.fp32.unpack false (sg + 0x7F800000)
    rcpBits fo w y = (sg, {}) ∧ rcpBits fo w z = (sg + 0x7F800000, { dz := true }) ∧
    rsqBits fo w y = (if neg then (0x7FC00000, { nv := true }) else (0, {})) ∧
    rsqBits fo w z = (sg + 0x7F800000, { dz := true }) ∧
    exp2Bits fo w y = (if neg then 0 else 0x7F800000, {}) ∧ exp2Bits fo w z = (0x3F800000, {}) ∧
    log2Bits fo w y = (if neg then (0x7FC00000, { nv := true }) else (0x7F800000, {})) ∧
    log2Bits fo w z = (0xFF800000, { dz := true }) ∧
    sinpiBits fo w y = (0x7FC00000, { nv := true }) ∧ sinpiBits fo w z = (sg, {}) ∧
    cospiBits fo w y = (0x7FC00000, { nv := true }) ∧ cospiBits fo w z = (0x3F800000, {}) ∧
    tanhBits fo w y = (sg + 0x3F800000, {}) ∧ tanhBits fo w z = (sg, {}) ∧
    sigmBits fo w y = (if neg then 0 else 0x3F800000, {}) ∧ sigmBits fo w z = (0x3F000000, {}) ∧
    Fmt.fp32.finish rm false fo y.sqrt = (if neg then (0x7FC00000, { nv := true }) else (0x7F800000, {})) ∧
    Fmt.fp32.finish rm false fo z.sqrt = (sg, {})) ∧
  (∀ fo w m e, m ≠ 0 → rsqBits fo w (.num true m e) = (0x7FC00000, { nv := true }) ∧ log2Bits fo w (.num true m e) = (0x7FC00000, { nv := true }))

/-- 12 R272 to R276, 11 R253: a load reads its elements and enters one LD entry that writes them when it completes.
The model's own choices in it: log 5, 17. -/
def Obligations.LoadsComplete : Prop :=
  (∀ d a b off ty p strm k lo x s,
    let t : Tgt := if p then .priv else .glob
    LoadCompletes true (txnReq s (formReq { reqX 0x80 x with vw := bytesRegs d.toNat (ldSize ty) } t a.toNat b.toNat lo)) (.ld d a b off ty p strm k lo x)
      t strm (ldSize ty) ((lanesOf (execMask s (some x))).map fun l =>
        ⟨l, if p then laneOffset s b.toNat (off14 off) l else ((globalAddr s a.toNat b.toNat (off14 off) k.toNat lo l).toNat : Int),
          ldSize ty, .lane d.toNat l (ldSize ty) (ldSigned ty), []⟩) s) ∧
  (∀ d b off ty sp x s, LoadCompletes true { reqX 0x82 x with vr := [b.toNat], vw := bytesRegs d.toNat (ldSize ty) } (.lds d b off ty sp x)
      (ldsTgt sp) false (ldSize ty) ((lanesOf (execMask s (some x))).map fun l =>
        ⟨l, laneOffset s b.toNat (off14 off) l, ldSize ty, .lane d.toNat l (ldSize ty) (ldSigned ty), []⟩) s) ∧
  (∀ d a off n sp strm x s,
    let t := sp4Tgt sp
    let base := if t = .glob then ((uniGlobal s a.toNat (off14 off)).toNat : Int) else uniOffset s a.toNat (off14 off)
    base % 4 = 0 →
    LoadCompletes true (txnReq s { reqX 0x84 x with sr := uniRegs t a.toNat, vw := regs d.toNat (ldwCount n) }) (.ldw d a off n sp strm x)
      t strm 4 ((List.range (ldwCount n)).flatMap fun i => (lanesOf (execMask s (some x))).map fun l =>
        ⟨l, if t = .glob then (base + (128 * i + 4 * l : Nat)) % (2 ^ 64 : Nat) else base + (128 * i + 4 * l : Nat), 4,
          .lane (d.toNat + i) l 4 false, []⟩) s) ∧
  (∀ d a b off h j sp k lo x s,
    let t := pspTgt sp
    let n := if h then 2 else 1
    LoadCompletes true (txnReq s (formReq { reqX 0x85 x with vr := [d.toNat], vw := [d.toNat] } t a.toNat b.toNat lo)) (.ldp d a b off h j sp k lo x)
      t false n ((lanesOf (execMask s (some x))).map fun l =>
        ⟨l, if t = .glob then ((globalAddr s a.toNat b.toNat (off14 off) k.toNat lo l).toNat : Int) else laneOffset s b.toNat (off14 off) l,
          n, .elem d.toNat l h j.toNat, []⟩) s) ∧
  (∀ d a off w64 sp x s, execMask s (some x) ≠ 0 →
    let t := sp4Tgt sp
    let n := if w64 then 8 else 4
    LoadCompletes false { reqX 0x87 x with sr := uniRegs t a.toNat, sw := regs d.toNat (n / 4) } (.sld d a off w64 sp x)
      t false n [⟨0, if t = .glob then ((uniGlobal s a.toNat (off14 off)).toNat : Int) else uniOffset s a.toNat (off14 off),
        n, .scal d.toNat w64, []⟩] s)

/-- 12 R270, R272 to R276, 11 R253: a store writes core scratch at once; its other writes are held, one entry a sector, and its own
block sees them from then on.
The model's own choices in it: log 25. -/
def Obligations.StoresComplete : Prop :=
  (∀ d a b off ty p strm k lo x s,
    let t : Tgt := if p then .priv else .glob
    StoreCompletes (formReq { reqX 0x81 x with vr := bytesRegs d.toNat (stSize ty) } t a.toNat b.toNat lo) (.st d a b off ty p strm k lo x)
      t (stSize ty) ((lanesOf (execMask s (some x))).map fun l =>
        ⟨l, if p then laneOffset s b.toNat (off14 off) l else ((globalAddr s a.toNat b.toNat (off14 off) k.toNat lo l).toNat : Int),
          stSize ty, .none, laneBytes s d.toNat l (stSize ty)⟩) s) ∧
  (∀ d b off ty sp x s, StoreCompletes { reqX 0x83 x with vr := b.toNat :: bytesRegs d.toNat (stSize ty) } (.sts d b off ty sp x)
      (ldsTgt sp) (stSize ty) ((lanesOf (execMask s (some x))).map fun l =>
        ⟨l, laneOffset s b.toNat (off14 off) l, stSize ty, .none, laneBytes s d.toNat l (stSize ty)⟩) s) ∧
  (∀ d a b off h j sp k lo x s,
    let t := pspTgt sp
    let n := if h then 2 else 1
    StoreCompletes (formReq { reqX 0x86 x with vr := [d.toNat] } t a.toNat b.toNat lo) (.stp d a b off h j sp k lo x)
      t n ((lanesOf (execMask s (some x))).map fun l =>
        ⟨l, if t = .glob then ((globalAddr s a.toNat b.toNat (off14 off) k.toNat lo l).toNat : Int) else laneOffset s b.toNat (off14 off) l,
          n, .none, leBytes n (elemOf (rdV s d.toNat l) (8 * n) j.toNat)⟩) s) ∧
  (∀ d a off w64 sp x s, execMask s (some x) ≠ 0 →
    let t := sp4Tgt sp
    let n := if w64 then 8 else 4
    StoreCompletes { reqX 0x88 x with sr := uniRegs t a.toNat ++ regs d.toNat (n / 4) } (.sst d a off w64 sp x)
      t n [⟨0, if t = .glob then ((uniGlobal s a.toNat (off14 off)).toNat : Int) else uniOffset s a.toNat (off14 off),
        n, .none, (regs d.toNat (n / 4)).flatMap fun r => leBytes 4 (rdS s r).toNat⟩] s)

/-- 12 R278 to R280, 11 R256: ATOM, RED and ATOMS.
The model's own choices in it: log 5. -/
def Obligations.AtomicsComplete : Prop :=
  (∀ d a b c rnd op k lo x s,
    AtomCompletes { reqX 0x89 x with vr := (if lo then [b.toNat] else []) ++ regs c.toNat (atomOperands op), vw := bytesRegs d.toNat (atomBytes op), sr := pair a.toNat }
      (.atom d a b c rnd op k lo x) (some d.toNat) .glob op rnd c.toNat ((lanesOf (execMask s (some x))).map fun l =>
        ⟨l, ((globalAddr s a.toNat b.toNat 0 k.toNat lo l).toNat : Int), atomBytes op, .lane d.toNat l (atomBytes op) false, []⟩) s) ∧
  (∀ a b c rnd op k lo x s,
    AtomCompletes { reqX 0x8A x with vr := (if lo then [b.toNat] else []) ++ regs c.toNat (atomOperands op), sr := pair a.toNat }
      (.red a b c rnd op k lo x) none .glob op rnd c.toNat ((lanesOf (execMask s (some x))).map fun l =>
        ⟨l, ((globalAddr s a.toNat b.toNat 0 k.toNat lo l).toNat : Int), atomBytes op, .none, []⟩) s) ∧
  (∀ d b c rnd op ts nr x s,
    let dst := if nr then none else some d.toNat
    AtomCompletes { reqX 0x8B x with vr := b.toNat :: regs c.toNat (atomOperands op), vw := if nr then [] else bytesRegs d.toNat (atomBytes op) }
      (.atoms d b c rnd op ts nr x) dst (if ts then .ts else .core) op rnd c.toNat ((lanesOf (execMask s (some x))).map fun l =>
        ⟨l, laneOffset s b.toNat 0 l, atomBytes op, if nr then .none else .lane d.toNat l (atomBytes op) false, []⟩) s)

/-- 12 R281, R282: WAITV whose condition holds ends and writes the word it read; else its slices wait for a trigger.
The model's own choices in it: log 67. -/
def Obligations.WaitvCompletes : Prop := ∀ d a b c scope sp cond u nd x s,
  let t := sp3Tgt sp
  let q := { reqX 0x8C x with
    sr := uniRegs t a.toNat ++ [c.toNat] ++ (if scope = .ext then [b.toNat] else []), sw := if nd then [] else [d.toNat] }
  let e : Elem := ⟨0, if t = .glob then ((uniGlobal s a.toNat 0).toNat : Int) else uniOffset s a.toNat 0, 4, .none, []⟩
  let v := BitVec.ofNat 32 (leNat (((loadedBytes false s t [e]).flatMap (·.2)).take 4))
  let ends := if u then condHolds cond v.toNat (rdS s c.toNat).toNat else condHolds cond v.toInt (rdS s c.toNat).toInt
  mayIssue q s = true → execMask s (some x) ≠ 0 → inTxn s = false → (cur s).wait = .none →
  scopeLegal s scope (rdS s b.toNat).toNat = true → accessTrap s t true false 4 [e] = none → fenced s = false → folding s = false →
  s.gang.rel = .none → (t = .core → retainStep false s = none ∧ mstPending s .core e.addr.toNat 4 = false) →
  (t = .ts → mstPending s .ts e.addr.toNat 4 = false ∧ loadWaits s true [(e.addr.toNat, 4)] = false ∧ s.die.tsPoison.contains (e.addr.toNat / 32) = false) →
  (t = .glob → allHere s t .load [e] = true) →
  ∃ y, exec (.waitv d a b c scope sp cond u nd x) s = .next y ∧
    if ends then AccessStep { q with sw := [] } {} s y ∧
      if nd then y.gang.pend = s.gang.pend
      else entered s y .none 1 [.scal d.toNat v] false ∧ ∃ l ∈ y.agenda, l.ev = .resultWriteback s.gang.key s.nextTag
    else y.gang.pend = s.gang.pend ∧ ∃ on key due, Waits q (.value on key due (scope == .ext) false) s y ∧
      match t with
      | .core => on = .core ∧ key = e.addr.toNat / 4
      | .ts => on = .ts ∧ key = e.addr.toNat / 32 ∧ due = s.clk + 64
      | _ => on = .glob

/-- 12 R283, R285, R286, 11 R261: TBEGIN opens a transaction in its lanes, TABORT aborts lanes of the open one, and TEND, where
every open lane may commit, holds the writes of all of them at once and closes it.
The model's own choices in it: log 66. -/
def Obligations.TransactionsComplete : Prop :=
  (∀ d a s, let m := execMask s none
    let q := { req1 0x8D with vw := [d.toNat], pw := [a.toNat] }
    let txn : Txn := ⟨d.toNat, a.toNat, (lanesOf m).map fun l => ⟨l, s.core.lclk.toNat, [], [], [], [], none⟩⟩
    mayIssue q s = true → m ≠ 0 → inTxn s = false → oneFragment s = true → fenced s = false → folding s = false →
    ∃ u, exec (.tbegin d a) s = .next u ∧
      RegisterStep q { v := laneW d.toNat m fun _ => 0, p := predW a.toNat m fun _ => true }
        (modGang (fun g => { g with firstTx := u.gang.firstTx, txn := some txn }) s) u ∧
      ∀ l, l < 32 → look u.gang.firstTx l = if lane m l = true ∧ look s.gang.aborts l = 0 then s.core.lclk else look s.gang.firstTx l) ∧
  (∀ i s t, let m := execMask s none &&& txnLive s
    let n := fun l => (look s.gang.aborts l).toNat
    let code := fun l => abortCode 8 i.toNat (min (n l + 1) 255) (decide (8 ≤ n l))
    let aborted := fun (x : TxnLane) => if lane m x.lane then { x with code := some (code x.lane), buf := [] } else x
    mayIssue (txnReq s (req1 0x8F)) s = true → execMask s none ≠ 0 → s.gang.txn = some t → folding s = false →
    ∃ u, exec (.tabort i) s = .next u ∧
      RegisterStep (req1 0x8F) { v := laneW t.vd m code, p := predW t.pd m fun _ => false }
        (modGang (fun g => { g with aborts := u.gang.aborts, txn := some { t with lanes := t.lanes.map aborted } }) s) u ∧
      ∀ l, look u.gang.aborts l = if lane m l then BitVec.ofNat 8 (min (n l + 1) 255) else look s.gang.aborts l) ∧
  (∀ s t, let ls := t.lanes.filter fun x => x.code.isNone
    let o := maskOf fun l => ls.any fun x => x.lane == l
    let m := o &&& ~~~s.gang.dead
    let cells : List (Nat × Byte) := ls.flatMap fun x => (txnCells (txnPlaces s x)).reverse
    let q := { req1 0x8E with vw := [t.vd], pw := [t.pd] }
    mayIssue q s = true → execMask s none ≠ 0 → s.gang.txn = some t → tendReady t s = true →
    ∃ u, exec .tend s = .next u ∧
      AccessStep q { v := laneW t.vd m fun _ => 0, p := predW t.pd m fun _ => true }
        (withMuck u.core.muck (modGang (fun g => { g with txn := none, pinned := true, aborts := u.gang.aborts }) s)) u ∧
      (∀ l, look u.gang.aborts l = if lane o l then 0 else look s.gang.aborts l) ∧
      if cells.isEmpty then u.core.muck = s.core.muck ∧ u.gang.pend = s.gang.pend
      else ∃ new, entered s u .st new.length [] false ∧ Holds s u false (some s.nextTag) new cells)

/-- 12 R287 to R290: PREF changes no value; CFLUSH enters an ST entry for its lines; REL waits until the gang holds no entry; FENCE
makes later accesses wait for the remote ones under way.
The model's own choices in it: log 12, 49. -/
def Obligations.CacheInstructionsComplete : Prop :=
  (∀ a b off lvl k lo x s, let q := { reqX 0x90 x with vr := if lo then [b.toNat] else [], sr := pair a.toNat }
    mayIssue q s = true → fenced s = false → s.core.smplcfg.getLsbD 5 = false →
    ∃ u, exec (.pref a b off lvl k lo x) s = .next u ∧
      if (lanesOf (execMask s (some x))).any fun l => unitWaits s s.gang.ctx.toNat (globalAddr s a.toNat b.toNat (off14 off) k.toNat lo l)
      then u = giveUp s else AccessStep q {} s u ∧ u.gang.pend = s.gang.pend ∧ u.core.lclk = s.core.lclk) ∧
  (∀ a b off act k lo x s, let q := { reqX 0x91 x with vr := if lo then [b.toNat] else [], sr := pair a.toNat }
    let es : List Elem := (lanesOf (execMask s (some x))).map fun l => ⟨l, ((globalAddr s a.toNat b.toNat (off14 off) k.toNat lo l).toNat : Int), 1, .none, []⟩
    let keys := es.flatMap fun e => match e.seek s .glob .store with
      | .at' ks => ks
      | _ => []
    mayIssue q s = true → es ≠ [] → inTxn s = false → accessTrap s .glob false false 1 es = none → full s .st = false → fenced s = false →
    keys.length = es.length → isPrimary s = true →
    ∃ u, exec (.cflush a b off act k lo x) s = .next u ∧ AccessStep q {} s u ∧
      u.gang.pend = s.gang.pend ++ [⟨s.nextTag, .st, false, 2, [], [], herePos s, false, (uniq (keys.map lineOf)).map fun l => (l, act.code), 1, false⟩] ∧
      ∃ d ∈ u.agenda, d.ev = .storeAccepted s.gang.key s.nextTag) ∧
  (∀ s, mayIssue (req1 0x92) s = true → execMask s none ≠ 0 → inTxn s = false → fenced s = false → folding s = false → s.gang.rel = .none →
    ∃ u, exec .rel s = .next u ∧
      if s.core.muck.any fun e => e.gang == s.gang.key && e.blk == s.gang.blk then u = giveUp s else RegisterStep (req1 0x92) {} s u) ∧
  (∀ fl fs s, mayIssue (req1 0x93) s = true → execMask s none ≠ 0 → inTxn s = false → fenced s = false →
    let far := fun (w : Bool) => s.remotes.any fun r => r.gang == s.gang.key && r.engine.isNone && r.write == w
    ∃ u, exec (.fence fl fs) s = .next u ∧
      RegisterStep (req1 0x93) {} (modGang (fun g => { g with fenceLd := g.fenceLd || (fl && far false), fenceSt := g.fenceSt || (fs && far true) }) s) u)

/-- 08 R192 to R195, R210: OMSET; MLDW fills the shadow plane, of both cores under a twin mode; MSWAP exchanges the planes; MCBL
loads a codebook, of both cores of a twin block; MNANR reads NANCNT and clears it.
The model's own choices in it: log 4. -/
def Obligations.MatrixStateCompletes : Prop :=
  (∀ d a x s, let q := { reqX 0xA9 x with sr := regs a.toNat 4 }
    let v : BitVec 128 := rdSS s (a.toNat + 2) ++ rdSS s a.toNat
    mayIssue q s = true → execMask s (some x) ≠ 0 → s.block.array = true →
    v.extractLsb' 59 5 = 0 → v.extractLsb' 82 14 = 0 → (v.extractLsb' 74 5).toNat ≤ 10 → (v.extractLsb' 79 2).toNat ≠ 3 →
    (v.extractLsb' 52 7).toNat ≤ 64 → (v.extractLsb' 64 10).toNat ≤ 512 →
    ∃ u, exec (.omset d a x) s = .next u ∧ RegisterStep q {} (modCore (fun c => { c.clean (· == .map d.toNat) with om := u.core.om }) s) u ∧
      ∀ n, look u.core.om n = if n = d.toNat then v else look s.core.om n) ∧
  (∀ cb a tw x s pl, let p := omOf s a
    let nz := modeNanz s
    let fol := if tw = .kj then some (loadPlane s p tw cb nz (p.rows / 2) 0 2) else if tw = .nj then some (loadPlane s p tw cb nz 0 16 0) else none
    let lead := loadPlane s p tw cb nz 0 0 0
    let own := modCore (fun c => { c.clean (· == .shadow) with shadow := lead.1, shadowReady := false }) s
    mayIssue (reqX 0xA0 x) s = true → (lanesOf (execMask s (some x))).length = 1 → s.block.array = true →
    twinAbsent s (tw != .single) = false → mapTrap s a.toNat (weightShape p tw && (p.fmt == 5 || cb == 0)) false p = none →
    s.core.shadowReady = true → spansReady s p.space p.spans = true → ArrayMark.map a.toNat ∉ s.core.marks →
    planOf ⟨List.replicate ((if p.fmt = 5 then 2 else if p.fmt = 8 then 8 else 4) * (if tw = .single then 1 else 2)) (spaceDelay p.space), 0, 0⟩ s = some pl →
    ∃ u, exec (.mldw cb a tw x) s = .next u ∧
      AccessStep (reqX 0xA0 x) {} (later (pl.uend + 16 - s.clk) .none (.shadowPlaneReady s.core.die s.core.core)
        (match fol with
          | some f => addNan (lead.2 + f.2) (onFollower (modCore fun c => { c.clean (· == .shadow) with shadow := f.1 }) own)
          | none => addNan lead.2 own)) u ∧
      ∀ k j, tw = .single → k < 16 → j < 16 → look u.core.shadow.cells (16 * k + j) =
        BitVec.ofNat 32 ((List.range (cellElems p.fmt)).map fun e => (nanzElem nz p.fmt
          (if p.fmt = 4 then (spaceByte s p.space (p.sbase + j * (p.rows / 16) + k / 8)).toNat else 0)
          (mapElem s p (k * cellElems p.fmt + e) j)).1 * 2 ^ (mapWidth p.fmt * e)).sum) ∧
  (∀ s, let turn := fun (x : ArrayMark) => if x = .live then .shadow else if x = .shadow then .live else x
    let swap := fun (c : Core) => { c with live := c.shadow, shadow := c.live, marks := c.marks.map turn }
    mayIssue (req1 0xA1) s = true → (lanesOf (execMask s none)).length = 1 → s.block.array = true → s.core.shadowReady = true →
    (∀ t ∈ s.core.streams, t.last + (if t.twin = 1 then 32 else 16) ≤ s.clk) →
    ∃ u, exec .mswap s = .next u ∧
      RegisterStep (req1 0xA1) {} (if s.block.twin then onFollower (modCore swap) (modCore swap s) else modCore swap s) u ∧
      (s.block.twin = false → u.core.live = s.core.shadow ∧ u.core.shadow = s.core.live)) ∧
  (∀ d a sp x s pl, let q := { reqX 0xA8 x with sr := [a.toNat] }
    let b := (rdS s a.toNat).toNat
    let n := mcblSpace sp
    let es := (List.range 16).map fun i => nanzElem (modeNanz s) 0 0 (leNat [spaceByte s n (b + 2 * i), spaceByte s n (b + 2 * i + 1)])
    let load := fun (c : Core) => { c.clean (· == .codebook d.toNat) with cb := putAll c.cb (((List.range 16).zip es).map fun e => (16 * d.toNat + e.1, BitVec.ofNat 16 e.2.1)) }
    let own := fun (t : Nat) => modCore (fun c => { load c with cbWait := c.cbWait ++ [(d, t)] }) s
    mayIssue q s = true → (lanesOf (execMask s (some x))).length = 1 → s.block.array = true → b % 32 = 0 → b + 32 ≤ (mapLimit s n).1 →
    (∀ t ∈ s.core.streams, t.pl.fmt = 5 → t.pl.sel = d → t.last + (if t.twin = 1 then 32 else 16) ≤ s.clk) →
    spansReady s n [(b, 32)] = true → planOf ⟨[spaceDelay n], 0, 0⟩ s = some pl →
    ∃ u, exec (.mcbl d a sp x) s = .next u ∧
      AccessStep q {} (later (pl.uend + 4 - s.clk) .none (.codebookReady s.core.die s.core.core) (addNan (es.map (·.2)).sum
        (if s.block.twin then onFollower (modCore load) (own (pl.uend + 4)) else own (pl.uend + 4)))) u ∧
      ∀ i, s.block.twin = false → i < 16 → look u.core.cb (16 * d.toNat + i) = BitVec.ofNat 16 (nth (0, 0) es i).1) ∧
  (∀ d s, let q := { req1 0xAA with sw := [d.toNat] }
    mayIssue q s = true → execMask s none ≠ 0 → s.core.shadowReady = true → (∀ x ∈ s.core.cbWait, x.2 ≤ s.clk) → (∀ t ∈ s.core.streams, t.last < s.clk) →
    ∃ u, exec (.mnanr d) s = .next u ∧
      RegisterStep q { s := scalW d.toNat (execMask s none) s.core.nancnt } (modCore (fun c => { c with nancnt := 0 }) s) u)

/-- 08 R196, R197, R205, R206, R210, 03 R84: MMA and MMAB start a stream that holds its rows, planes and codebooks as they are at its
issue; its rows enter the array behind their crossings and are written 32 clk later, or 40 in K-join.
The model's own choices in it: log 4. -/
def Obligations.StreamsStart : Prop := ∀ d a tw ow (op : Option Bool) x s pl,
  let i : Instr := match op with
    | none => .mma d a tw ow x
    | some b => .mmab d a tw ow b x
  let q := reqX (if op.isNone then 0xA2 else 0xA3) x
  let p := omOf s a
  let live := s.core.live
  let ok := actShape p tw && (if op.isSome then live.fmt == 8 && p.fmt == 8 else pairOk live.fmt.toNat p.fmt && live.fmt != 8) &&
    decide (d.toNat + (p.rows + 15) / 16 - 1 ≤ 63) && live.twin == BitVec.ofNat 2 tw.code
  let r := loadRows s p (op.isNone && modeNanz s)
  let rpc := rowsPerCrossing p.fmt tw
  let enter := enterTimes (crossTime s) rpc pl.starts p.rows
  let lat := if tw = .kj then 40 else 32
  let st : Stream := ⟨s.core.nextStream, d.toNat, BitVec.ofNat 2 tw.code, ow, op, BitVec.ofNat 5 p.fmt, live, (followerOf s).live,
    planeBook s.core live, planeBook (followerOf s) (followerOf s).live, modeNanz s, enter.getLast?.getD s.clk, 0, r.1, enter.map (· + lat), s.gang.key, herePos s⟩
  mayIssue q s = true → (lanesOf (execMask s (some x))).length = 1 → s.block.array = true → twinAbsent s (tw != .single) = false →
  mapTrap s a.toNat ok false p = none → (∀ t ∈ s.core.streams, t.last < s.clk) → (live.fmt = 5 → bookLoading s live.sel = false) →
  tileAwaits s d.toNat false = false → (tw = .nj → tileAwaits s d.toNat true = false) →
  arrayAsleep s true (tw == .nj) (p.space == 0) = none → streamMarked s a tw d.toNat p.rows ow = false → spansReady s p.space p.spans = true →
  planOf ⟨(List.range ((p.rows + rpc - 1) / rpc)).map (· * rpc), 0, 0⟩ s = some pl →
  ∃ u, exec i s = .next u ∧ AccessStep q {}
      { touchTiles true (tw == .nj) (addNan r.2 (modCore (fun c => { c with streams := c.streams ++ [st], nextStream := c.nextStream + 1, mmAt := s.clk }) s)) with agenda := u.agenda } u ∧
    (u.agenda.filter fun e => decide (e.ev = .streamRowWritten s.core.die s.core.core)).length =
      (s.agenda.filter fun e => decide (e.ev = .streamRowWritten s.core.die s.core.core)).length + p.rows ∧
    enter.length = p.rows ∧ ∀ e ∈ enter, s.clk < e ∧ (⟨e + lat, .none, .streamRowWritten s.core.die s.core.core⟩ : Due) ∈ u.agenda

/-- 08 R200 to R203, R205, R210: MZERO clears tiles, MRD reads a tile into eight registers and MWR writes one from eight, in the lanes of the
mask: register i, lane l stands at row 2 i + l / 16, column l mod 16. The tiles that MZERO and MWR name are tagged until these complete. -/
def Obligations.TilesComplete : Prop :=
  (∀ d n1 fol s, mayIssue (req1 0xA4) s = true → (lanesOf (execMask s none)).length = 1 → d.toNat + n1.toNat ≤ 63 →
    tilesReady s ((List.range (n1.toNat + 1)).map (d.toNat + ·)) fol = true →
    ∃ u, exec (.mzero d n1 fol) s = .next u ∧
      AccessStep (req1 0xA4) {} (touchTiles (!fol) fol <| onTiles fol (modCore fun c => { c.clean (ArrayMark.within (accKey d.toNat 0 0) (accKey (d.toNat + n1.toNat + 1) 0 0)) with
        acc := dropRange c.acc (accKey d.toNat 0 0) (accKey (d.toNat + n1.toNat + 1) 0 0)
        tiles := c.tiles ++ (List.range (n1.toNat + 1)).map fun i => ⟨d.toNat + i, herePos s, s.gang.key, s.clk + 1 + (n1.toNat + 4) / 4 + 1⟩ }) s) u ∧
      ∀ k, look (tileCore fol u).acc k =
        if 256 * d.toNat ≤ k ∧ k < 256 * (d.toNat + n1.toNat + 1) then 0 else look (tileCore fol s).acc k) ∧
  (∀ d a fol x s, let q := { reqX 0xA5 x with vw := regs d.toNat 8 }
    let tile := fun (r l : Nat) => if d.toNat ≤ r ∧ r < d.toNat + 8 ∧ lane (execMask s (some x)) l = true then
      some (look (tileCore fol s).acc (accKey a.toNat (2 * (r - d.toNat) + l / 16) (l % 16))) else none
    mayIssue q s = true → tilesReady s [a.toNat] fol = true → (∀ k, ArrayMark.tile k ∉ (tileCore fol s).marks) →
    ∃ u, exec (.mrd d a fol x) s = .next u ∧
      AccessStep q { v := tile } (touchTiles (!fol) fol s) u) ∧
  (∀ d a fol x s pl, let q := { reqX 0xA6 x with vr := regs a.toNat 8 }
    let m := execMask s (some x)
    let cells := (List.range 8).flatMap fun i => (lanesOf m).map fun l => (accKey d.toNat (2 * i + l / 16) (l % 16), rdV s (a.toNat + i) l)
    mayIssue q s = true → tilesReady s [d.toNat] fol = true → planOf ⟨List.replicate 8 0, 0, 0⟩ s = some pl →
    ∃ u, exec (.mwr d a fol x) s = .next u ∧
      AccessStep q {} (touchTiles (!fol) fol <| onTiles fol (modCore fun c => { c.clean (fun x => cells.any fun k => x == .tile k.1) with
        acc := putAll c.acc cells, tiles := c.tiles ++ [⟨d.toNat, herePos s, s.gang.key, pl.uend + 3⟩] }) s) u ∧
      (∀ i l, i < 8 → l < 32 → look (tileCore fol u).acc (accKey d.toNat (2 * i + l / 16) (l % 16)) =
        if lane m l = true then rdV s (a.toNat + i) l else look (tileCore fol s).acc (accKey d.toNat (2 * i + l / 16) (l % 16))) ∧
      ∀ k, k / 256 ≠ d.toNat → look (tileCore fol u).acc k = look (tileCore fol s).acc k)

/-- 08 R204, R206, R210: MST converts a tile at its issue and writes its bytes at its completion.
The model's own choices in it: log 25, 69. -/
def Obligations.MstCompletes : Prop := ∀ d a rnd fo sat fol s32 x s pl,
  let q := reqX 0xA7 x
  let p := omOf s d
  let ty := (mstType p.fmt).getD .f32
  let from' : CvtTy := if s32 then .s32 else .f32
  let acc := (tileCore fol s).acc
  let el := fun (r n : Nat) =>
    let v := (look acc (accKey a.toNat r n)).toNat
    if from' = ty then (v, ({} : Fl)) else cvtBits from' ty (fpRound s rnd 0 0) false fo sat v
  let sp : Space := if p.space = 1 then .ts else .core
  let bytes := (List.range 16).flatMap fun r =>
    (cellsAt (p.base + r * p.stride) ((List.range 16).flatMap fun n => leBytes (mapWidth p.fmt / 8) (el r n).1)).map fun c => (sp, c.1, c.2)
  mayIssue q s = true → (lanesOf (execMask s (some x))).length = 1 → tilesReady s [a.toNat] fol = true → s.gang.rel = .none →
  mapTrap s d.toNat (p.rows == 16 && p.cols == 16 && !p.twin && (mstType p.fmt).isSome) true p = none →
  full s .st = false → (sp = .core → retainStep false s = none) → ArrayMark.map d.toNat ∉ s.core.marks →
  (∀ k, ArrayMark.tile k ∉ (tileCore fol s).marks) → folding s = false → planOf ⟨[], 8, 2⟩ s = some pl →
  ∃ u, exec (.mst d a rnd fo sat fol s32 x) s = .next u ∧
    AccessStep q { mode := flagBits ((List.range 16).flatMap fun r => (List.range 16).map fun n => (el r n).2) } (touchTiles (!fol) fol s) u ∧
    u.gang.pend = (s.gang.pend.map fun e => if e.id = s.nextTag then { e with bytes := bytes } else e) ++
      [⟨s.nextTag, .st, false, 1, [], bytes, herePos s, true, [], 1, false⟩] ∧
    ∃ e ∈ u.agenda, e.ev = .mstComplete s.gang.key s.nextTag ∧ e.clk = s.clk + (pl.ready + 1 - s.clk)

/-- 14 R309 to R311, R314, R316 to R320: a copy that passes its checks enters its command stream with a counter entry; a copy to
global memory pins its gang, and a WSLD counts as running from its start.
The model's own choices in it: log 21. -/
def Obligations.CopiesEnter : Prop :=
  (∀ d a b dsp ssp cmd x s,
    let dst := sp4Space dsp
    let src := sp4Space ssp
    let q := { reqX 0xB0 x with sr := spaceRegs dst d.toNat ++ spaceRegs src a.toNat ++ [b.toNat] }
    let da := spaceAddr s dst d.toNat
    let sa := spaceAddr s src a.toNat
    let len := (rdS s b.toNat).toNat
    let ms : List Move := [⟨some ⟨src, sa⟩, [], ⟨dst, da⟩, len⟩]
    mayIssue q s = true → execMask s (some x) ≠ 0 → inTxn s = false →
    copyTrap s false 4 (len % 4 == 0) false [⟨dst, da, len, 0, true⟩, ⟨src, sa, len, 0, false⟩] = none →
    copyReady s .cp (streamFor s cmd.toNat) ms = true →
    ∃ u, exec (.cpy d a b dsp ssp cmd x) s = .next u ∧
      Enqueues q .cp (streamFor s cmd.toNat) ms none false (if dst = .glob then pinnedToo s else s) s u) ∧
  (∀ d a out ts rsc cmd x s bs s',
    let sp : Space := if ts then .ts else .core
    let rsp : Space := if rsc then .core else .glob
    let q := { reqX 0xB1 x with sr := spaceRegs rsp a.toNat ++ regs d.toNat 8 }
    let ra := spaceAddr s rsp a.toNat
    let t := tensorOf bs
    let ms := tensorMoves t out sp fun i => (rdS s (d.toNat + i)).toInt
    mayIssue q s = true → execMask s (some x) ≠ 0 → inTxn s = false → s.gang.redo = none → s.gang.got = [] →
    copyTrap s false 64 true true [⟨rsp, ra, 192, 0, false⟩] = none →
    (if rsc then retainStep false s = none ∧ bs = readBytes s.block.scratch ra 192 ∧ s' = s else wholeLoad (BitVec.ofNat 64 ra) 192 s = .bytes bs s') →
    tensorBad t = none → copyTrap s false 1 true true [⟨sp, t.sbase, 2 ^ t.esz * tensorCount t, 0, !out⟩] = none →
    copyReady s' .tl (streamFor s cmd.toNat) ms = true →
    ∃ u, exec (.tcpy d a out ts rsc cmd x) s = .next u ∧
      Enqueues q .tl (streamFor s cmd.toNat) ms none false (if out then pinnedToo s else s) s u) ∧
  (∀ scatter d a b r ts cmd k x s,
    let i : Instr := if scatter then .scatter d a b r ts cmd k x else .gather d a b r ts cmd k x
    let q := { reqX (if scatter then 0xB3 else 0xB2) x with vr := [b.toNat], sr := d.toNat :: pair a.toNat }
    let sp : Space := if ts then .ts else .core
    let len := 4 * (r.toNat + 1)
    let there := fun (l : Nat) => (rdSS s a.toNat + BitVec.ofNat 64 ((rdV s b.toNat l).toNat * 2 ^ k.toNat)).toNat
    let here := fun (l : Nat) => (rdS s d.toNat).toNat + len * l
    let rs := (lanesOf (execMask s (some x))).flatMap fun l => [(⟨.glob, there l, len, l, scatter⟩ : CopyRange), ⟨sp, here l, len, l, !scatter⟩]
    let ms := (lanesOf (execMask s (some x))).map fun l =>
      if scatter then (⟨some ⟨sp, here l⟩, [], ⟨.glob, there l⟩, len⟩ : Move) else ⟨some ⟨.glob, there l⟩, [], ⟨sp, here l⟩, len⟩
    mayIssue q s = true → execMask s (some x) ≠ 0 → inTxn s = false → copyTrap s true 4 true false rs = none →
    copyReady s .cp (streamFor s cmd.toNat) ms true = true →
    ∃ u, exec i s = .next u ∧ Enqueues q .cp (streamFor s cmd.toNat) ms none false (if scatter then pinnedToo s else s) s u) ∧
  (∀ d a b x s,
    let q := { reqX 0xBC x with sr := d.toNat :: pair a.toNat ++ [b.toNat] }
    let da := (rdS s d.toNat).toNat
    let sa := (rdSS s a.toNat).toNat
    let len := (rdS s b.toNat).toNat
    let ms : List Move := [⟨some ⟨.glob, sa⟩, [], ⟨.ws, da⟩, len⟩]
    mayIssue q s = true → execMask s (some x) ≠ 0 → inTxn s = false → (isCrew s s.gang || isPrologue s) = true →
    da % 32 = 0 → len % 32 = 0 → copyTrap s false 1 true true [⟨.ws, da, len, 0, true⟩, ⟨.glob, sa, len, 0, false⟩] = none →
    wsLocked s s.die.die = false → copyReady s .cp 4 ms = true →
    ∃ u, exec (.wsld d a b x) s = .next u ∧ Enqueues q .cp 4 ms none true s s u ∧
      (streamOf s.core 4 = [] → u.die.wsld = s.die.wsld + 1))

/-- 14 R322 to R326, 17 R384: the stage-ring instructions. -/
def Obligations.RingsComplete : Prop :=
  (∀ d a n1 slotb ts x s, let q := { reqX 0xB4 x with sr := [a.toNat] }
    let base := (rdS s a.toNat).toNat
    let new : Ring := ⟨base, slotb.toNat, n1.toNat + 1, ts, true, 0, 0, n1.toNat + 1, 0, 0, 0, List.replicate 16 0⟩
    mayIssue q s = true → ringReady s (execMask s (some x)) d.toNat = true →
    ((ringOf s d.toNat).valid = true → (ringOf s d.toNat).free = (ringOf s d.toNat).n) →
    copyTrap s false 128 true true [⟨if ts then .ts else .core, base, (n1.toNat + 1) * ((slotb.toNat + 1) * 128), 0, true⟩] = none →
    ∃ u, exec (.rginit d a n1 slotb ts x) s = .next u ∧
      RegisterStep q {} (modBlock (fun b => { b with ringMem := put b.ringMem d.toNat (maskOf fun l => l == s.gang.gno) }) (modRing d.toNat (fun _ => new) s)) u) ∧
  (∀ d a b c ph x s, let q := { reqX 0xB5 x with sr := if ph then [] else [b.toNat], sw := pair d.toNat, pw := [c.toNat] }
    let g := ringOf s a.toNat
    let m := execMask s (some x)
    let token : BitVec 16 := if ph then g.ph else (rdS s b.toNat).truncate 16
    let ahead := (nth 0 g.phases g.ci - token).toNat
    let out := fun (addr : Word) => scalPairW d.toNat m (BitVec.ofNat 32 g.ci ++ addr : DWord)
    mayIssue q s = true → ringReady s m a.toNat = true → g.valid = true → (∀ r p, (cur s).wait ≠ .ring r (some p)) → ahead < 32768 →
    ∃ u, exec (.rgacqC d a b c ph x) s = .next u ∧
      if ahead = 0 then Waits q (.ring a.toNat (some (g.ci, token))) (joinRing a.toNat s) u
      else if ahead = 1 then RegisterStep q { s := out (BitVec.ofNat 32 (g.slotAt g.ci)), p := predW c.toNat m fun _ => true } (joinRing a.toNat s) u
      else RegisterStep q { s := out 0xFFFFFFFF, p := predW c.toNat m fun _ => false }
        (modCore (fun c => { c with stalecnt := if c.stalecnt = 0xFFFFFFFF then c.stalecnt else c.stalecnt + 1 }) (joinRing a.toNat s)) u) ∧
  (∀ d a c x s, let q := { reqX 0xB5 x with sw := pair d.toNat, pw := [c.toNat] }
    let g := ringOf s a.toNat
    let m := execMask s (some x)
    mayIssue q s = true → ringReady s m a.toNat = true → g.valid = true →
    ∃ u, exec (.rgacqP d a c x) s = .next u ∧
      if g.free = 0 then Waits q (.ring a.toNat none) (joinRing a.toNat s) u
      else RegisterStep q { s := scalPairW d.toNat m (BitVec.ofNat 32 g.pi ++ BitVec.ofNat 32 (g.slotAt g.pi) : DWord), p := predW c.toNat m fun _ => true }
        (modRing a.toNat (fun g => { g with pi := (g.pi + 1) % g.n, free := g.free - 1, pmask := g.pmask ||| (1 <<< g.pi) }) (joinRing a.toNat s)) u) ∧
  (∀ a x s, let g := ringOf s a.toNat
    mayIssue (reqX 0xB6 x) s = true → ringReady s (execMask s (some x)) a.toNat = true → g.valid = true → nth 0 g.phases g.ci = g.ph + 1 →
    folding s = false → s.gang.rel = .none →
    let next := fun (g : Ring) => { g with
      filled := g.filled - 1, free := g.free + 1, ci := (g.ci + 1) % g.n, ph := if (g.ci + 1) % g.n = 0 then g.ph + 1 else g.ph }
    ∃ u, exec (.rgrelC a x) s = .next u ∧ RegisterStep (reqX 0xB6 x) {} (pinnedToo (modRing a.toNat next (joinRing a.toNat s))) u) ∧
  (∀ a x s i, let g := ringOf s a.toNat
    mayIssue (reqX 0xB6 x) s = true → ringReady s (execMask s (some x)) a.toNat = true → g.valid = true →
    (((List.range 16).map fun i => (g.ci + i) % g.n).find? fun i => g.pmask.getLsbD i) = some i → folding s = false → s.gang.rel = .none →
    let next := fun (g : Ring) => { g with
      pmask := g.pmask &&& ~~~((1 : BitVec 16) <<< i), phases := modNth g.phases i (· + 1), filled := g.filled + 1 }
    ∃ u, exec (.rgrelP a x) s = .next u ∧
      if ownStoresOpen s then u = giveUp (joinRing a.toNat s)
      else RegisterStep (reqX 0xB6 x) {} (pinnedToo (modRing a.toNat next (joinRing a.toNat s))) u) ∧
  (∀ d a b ssp cmd x s,
    let src := sp4Space ssp
    let q := { reqX 0xB7 x with sr := spaceRegs src a.toNat ++ [b.toNat] }
    let g := ringOf s d.toNat
    let sa := spaceAddr s src a.toNat
    let len := (rdS s b.toNat).toNat
    let n := streamFor s cmd.toNat
    let ms : List Move := [⟨some ⟨src, sa⟩, [], ⟨if g.ts then .ts else .core, g.slotAt g.pi⟩, len⟩]
    let took := modRing d.toNat (fun g => { g with pi := (g.pi + 1) % g.n, free := g.free - 1 }) (joinRing d.toNat s)
    mayIssue q s = true → ringReady s (execMask s (some x)) d.toNat = true → g.valid = true → len ≤ g.slotBytes →
    copyTrap s false 1 (len % 4 == 0) false [⟨src, sa, len, 0, false⟩, ⟨if g.ts then .ts else .core, g.slotAt g.pi, len, 0, true⟩] = none → copyReady s .cp n ms = true →
    poisonTrap false s [⟨some ⟨src, sa⟩, [], ⟨.core, 0⟩, len⟩] = none →
    ∃ u, exec (.rgput d a b ssp cmd x) s = .next u ∧
      if g.free = 0 then Waits q (.ring d.toNat none) (joinRing d.toNat s) u
      else Enqueues q .cp n ms (some (d.toNat, g.pi)) false (pinnedToo took) s u)

/-- 13 R303, R304: QPUSH appends a task or says that the queue is full; QPOP takes its launch's first free task provisionally, or says
that there is none, or waits. -/
def Obligations.TasksComplete : Prop :=
  (∀ d a b x s, let q := { reqX 0xB9 x with sr := a.toNat :: pair b.toNat, sw := [d.toNat] }
    let m := execMask s (some x)
    let t : Task := ⟨rdS s a.toNat, rdSS s b.toNat, ownLref s, none⟩
    mayIssue q s = true → m ≠ 0 → inTxn s = false → folding s = false → s.gang.rel = .none →
    ∃ u, exec (.qpush d a b x) s = .next u ∧
      if 64 ≤ s.core.taskq.length then RegisterStep q { s := scalW d.toNat m 1 } (pinnedToo s) u
      else RegisterStep q { s := scalW d.toNat m 0 } (pinnedToo (modCore (fun c => { c with taskq := c.taskq ++ [t] }) s)) u) ∧
  (∀ d c w scope x s, let q := { reqX 0xBA x with sr := if w && scope == .ext then [c.toNat] else [], sw := regs d.toNat 4 }
    let mine := fun (t : Task) => t.prov.isNone && t.lref == ownLref s
    let out := fun (vs : List Word) => ({ s := fun r => if d.toNat ≤ r ∧ r < d.toNat + 4 then some (nth 0 vs (r - d.toNat)) else none } : Writes)
    mayIssue q s = true → execMask s (some x) ≠ 0 → folding s = false →
    (w = true → (cur s).wait = .none → scopeLegal s scope (rdS s c.toNat).toNat = true) →
    ∃ u, exec (.qpop d c w scope x) s = .next u ∧
      match s.core.taskq.find? mine with
      | some t => RegisterStep q (out [t.toff, t.targ.extractLsb' 0 32, t.targ.extractLsb' 32 32, 0])
          { modCore (fun c => { c with taskq := markTask mine (s.gang.key, s.nextTag) c.taskq }) s with nextTag := s.nextTag + 1 } u
      | none => if w then Waits q (.task (scope == .ext) true) s u else RegisterStep q (out [0, 0, 0, 1]) s u)

/-- 13 R296, R297: LAUNCH reads its record, names the launch and sends a copy to the queue of every target die, or answers the
status that turns it away; its handle is written once it is readable.
The model's own choices in it: log 33, 34. -/
def Obligations.LaunchCompletes : Prop := ∀ d a b c q cx x s bs s',
  let req := { reqX 0xBB x with
    level := if cx || !mayLaunch s then .supervisor else .kernel
    sr := pair a.toNat ++ pair b.toNat ++ (if cx then [c.toNat] else []), sw := pair d.toNat }
  let va := rdSS s a.toNat
  let ctx := if cx then (rdS s c.toNat).toNat % 65536 else s.gang.ctx.toNat
  let mask := rdSS s b.toNat
  let st := launchStatus s bs ctx mask q.toNat
  let r := launchRecOf bs
  let serial := (ctxOf ctx s).serial
  let dies := ((List.range 64).filter fun v => mask.getLsbD v).map fun v => nth 0 (vdsOf s ctx) v
  let name := ctx * 2 ^ 48 + serial
  let l : Launch := ⟨name, BitVec.ofNat 16 ctx, mask, r, va, .queued, dies, [], [], List.replicate (dies.length / max r.nrep 1) 0, 0, false, [], false, 0, none, (0, 0), [], 0⟩
  let handle : DWord := BitVec.ofNat 64 (if st = 0 then serial else st * 2 ^ 48)
  mayIssue req s = true → execMask s (some x) ≠ 0 → inTxn s = false → va.toNat % 32 = 0 → wholeLoad va 288 s = .bytes bs s' →
  folding s = false → s.gang.rel = .none → s.gang.redo = none → s.gang.got = [] →
  ∃ u, exec (.launch d a b c q cx x) s = .next u ∧
    entered s u .none 1 [.scal d.toNat (handle.extractLsb' 0 32), .scal (d.toNat + 1) (handle.extractLsb' 32 32)] false ∧
    (∃ e ∈ u.agenda, e.ev = .resultWriteback s.gang.key s.nextTag) ∧
    if st ≠ 0 then AccessStep req {} (pinnedToo s) u
    else AccessStep req {} { modCtx ctx (fun y => { y with serial := serial + 1 }) { pinnedToo s with launches := s.launches ++ [l] } with agenda := u.agenda } u ∧
      ∀ die ∈ dies, ∃ e ∈ u.agenda, e.ev = .launchAppend die name (4 * r.prio + q.toNat)

/-- 18 R401, R402: LAUNCH .pre, .kill, .ctx and .res each complete: they do what is said below to the launch they name, pin their gang, and write
their status and count once what they began has drained; a launch that is unknown or complete is status 1, a selector beyond it status 2, a
context in the state asked for status 3, and a code that is none status 4, and these change nothing. On a live launch, .pre pre-empts each selected block; .kill
stops every selected block that has not ended, and those not begun never start, and with class C or no block begun its queued copies leave their queues;
.ctx suspends the context and pre-empts its launches' blocks; .res ends the suspension, and the dies try their queues again. Those that pre-empt count the blocks that stay until their
pin ends; .kill counts the blocks killed.
The model's own choices in it: log 36. -/
def Obligations.LaunchVariantsComplete : Prop :=
  let ends := fun (i : Instr) (q : Req) (d : Nat) (x : Guard) (r : VarRes) (s : State) =>
    let t := r.state
    let awaited := r.waits.map fun k => (k.name, k.rep * 2 ^ 32 + k.idx)
    mayIssue q s = true → execMask s (some x) ≠ 0 → inTxn s = false → folding s = false → s.gang.rel = .none →
    ∃ u, exec i s = .next u ∧ AccessStep q {} (pinnedToo t) u ∧
      u.gang.pend = (t.gang.pend.map fun p => if p.id = t.nextTag then { p with flush := awaited, tells := true } else p) ++
        [⟨t.nextTag, .none, false, 1, [.scal d (BitVec.ofNat 32 r.status), .scal (d + 1) (BitVec.ofNat 32 r.n)], [], herePos t, false, awaited, 1, true⟩] ∧
      ∃ e ∈ u.agenda, e.ev = .resultWriteback t.gang.key t.nextTag ∧ e.clk = t.clk + 8
  (∀ d a b x s,
    let q := { reqX 0xBB x with level := .supervisor, sr := pair a.toNat ++ pair b.toNat, sw := pair d.toNat }
    ends (.launchPre d a b x) q d.toNat x (variantPre (rdSS s a.toNat).toNat (rdS s b.toNat).toNat (rdS s (b.toNat + 1)).toNat s) s) ∧
  (∀ d a b c x s,
    let q := { reqX 0xBB x with level := .supervisor, sr := pair a.toNat ++ pair b.toNat ++ [c.toNat], sw := pair d.toNat }
    ends (.launchKill d a b c x) q d.toNat x
      (variantKill (rdSS s a.toNat).toNat (rdS s b.toNat).toNat (rdS s (b.toNat + 1)).toNat ((rdS s c.toNat).toNat % 256) s) s) ∧
  (∀ d a x s, let q := { reqX 0xBB x with level := .supervisor, sr := pair a.toNat, sw := pair d.toNat }
    ends (.launchCtx d a x) q d.toNat x (variantCtx (rdSS s a.toNat).toNat s) s) ∧
  (∀ d a x s, let q := { reqX 0xBB x with level := .supervisor, sr := pair a.toNat, sw := pair d.toNat }
    ends (.launchRes d a x) q d.toNat x (variantRes (rdSS s a.toNat).toNat s) s) ∧
  (∀ s name first count code, (∀ l, launchOf name s = some l → l.st = .complete) →
    variantPre name first count s = ⟨1, 0, [], s⟩ ∧ variantKill name first count code s = ⟨1, 0, [], s⟩) ∧
  (∀ s name first count code l, namedLaunch s name = some l → selected l first count = none →
    variantPre name first count s = ⟨2, 0, [], s⟩ ∧ variantKill name first count code s = ⟨2, 0, [], s⟩) ∧
  (∀ s name, (ctxOf (name / 2 ^ 48) s).suspended = true → variantCtx name s = ⟨3, 0, [], s⟩) ∧
  (∀ s name, (ctxOf (name / 2 ^ 48) s).suspended = false → variantRes name s = ⟨3, 0, [], s⟩) ∧
  (∀ s name first count code l ixs, namedLaunch s name = some l → selected l first count = some ixs → code ∉ faultCodes →
    variantKill name first count code s = ⟨4, 0, [], s⟩) ∧
  (∀ s name first count l ixs, namedLaunch s name = some l → selected l first count = some ixs →
    let r := variantPre name first count s
    r.status = 0 ∧ r.n = (ixs.filter (anyPinned s name)).length ∧ (∀ i ∈ ixs, Preempted name i s r.state) ∧
    r.waits = (ixs.filter fun i => !anyPinned s name i).flatMap fun i => (replicasOf s name i).map (·.key)) ∧
  (∀ s name first count code l ixs, namedLaunch s name = some l → selected l first count = some ixs → code ∈ faultCodes →
    ((allBlocks s).map (·.key)).Nodup →
    let r := variantKill name first count code s
    let hit := fun (i : Nat) (b : Block) => b.key.name == name && b.key.idx == i && b.st != .ended
    r.status = 0 ∧ r.n = (ixs.filter fun i => (allBlocks s).any (hit i)).length ∧
    (∀ i ∈ ixs, ∀ b ∈ allBlocks s, hit i b = true → (∀ g ∈ allGangs r.state, g.blk ≠ b.key) ∧
      ∀ b' ∈ allBlocks r.state, b'.key = b.key → b'.st = .ended) ∧
    (∃ l', launchOf name r.state = some l' ∧ ∀ i ∈ ixs, l.begun i = true ∨ i ∈ l'.barred) ∧
    (l.info.cls = .c ∨ (ixs.length = l.blocks ∧ ∀ i ∈ ixs, l.begun i = false) → ∀ d ∈ allDies r.state, ∀ q ∈ d.queues, name ∉ q)) ∧
  (∀ s name, let c := name / 2 ^ 48
    let r := variantCtx name s
    let ls := s.launches.filter fun l => l.ctx.toNat == c && l.crewOf.isNone && decide (l.st ≠ .complete)
    (ctxOf c s).suspended = false →
    r.status = 0 ∧ (ctxOf c r.state).suspended = true ∧ (∀ l ∈ ls, ∀ i, Preempted l.name i s r.state) ∧
    r.n = (ls.map fun l => ((placedIndices s l.name).filter (anyPinned s l.name)).length).sum) ∧
  (∀ s name, let c := name / 2 ^ 48
    let r := variantRes name s
    (ctxOf c s).suspended = true → r.status = 0 ∧ r.n = 0 ∧ r.waits = [] ∧ (ctxOf c r.state).suspended = false ∧ allGangs r.state = allGangs s ∧
    ∀ d ∈ allDies s, (∃ q ∈ d.queues, q ≠ []) → (⟨s.clk + 1, .none, .admission d.die⟩ : Due) ∈ r.state.agenda)

/-- 15 R333 to R340, 02 R32: the control transfers. A slice with a lane in the execution mask takes a jump or a call, BRC takes it
where its mode says so, and the other slices of the fragment fall through to the next clause.
The model's own choices in it: log 37. -/
def Obligations.TransfersComplete : Prop :=
  (∀ i s, let m := execMask s none
    let t := relTarget (cur s).pc i.toInt
    mayIssue (req1 0xC0) s = true → allEnded s.gang = false → ((∃ k ∈ fragSlices s, hasLanes m k = true) → badTarget s t = none) →
    ∃ u, exec (.br i) s = .next u ∧ Moved (req1 0xC0) {} s u (fun k => if hasLanes m k then t.pos else nextHeader s 1) none) ∧
  (∀ c n mode rv rcv tgt s, let m := execMask s none
    let q := { reqL 0xC1 with pr := [c.toNat] }
    let t := relTarget (cur s).pc tgt.toInt
    let recon := relTarget (cur s).pc rcv.toInt
    let on := fun l => lane (rdP s c.toNat) l != n
    let any := fun k => (lanesOf (laneSet m k)).any on
    let all := fun k => (lanesOf (laneSet m k)).all on
    let takes := fun k => hasLanes m k && (if mode = .any then any k else all k)
    mayIssue q s = true → allEnded s.gang = false → ((∃ k ∈ fragSlices s, takes k = true) → badTarget s t = none) →
    (rv = true → badTarget s recon = none) → (mode = .uni → ∀ k, s.frag.getLsbD k = true → any k = true → all k = true) →
    ∃ u, exec (.brc c n mode rv rcv tgt) s = .next u ∧
      Moved q {} s u (fun k => if takes k then t.pos else nextHeader s 2) (some (if rv then recon.pos else noPos))) ∧
  (∀ i s, let m := execMask s none
    let q := { req1 0xC2 with vw := [0] }
    let t := relTarget (cur s).pc i.toInt
    let ret := nextHeader s 1
    mayIssue q s = true → allEnded s.gang = false → ((∃ k ∈ fragSlices s, hasLanes m k = true) → badTarget s t = none) →
    ∃ u, exec (.call i) s = .next u ∧
      Moved q { v := laneW 0 m fun _ => ret } s u (fun k => if hasLanes m k then t.pos else ret) (some ret)) ∧
  (∀ a xv (link : Bool) s (tv : Nat → Word), let m := execMask s none
    let i : Instr := if link then .calli a xv else .jmpi a xv
    let q := { req1 (if link then 0xC4 else 0xC6) with vr := [a.toNat], vw := if link then [0] else [] }
    let t := fun k => indirectPlace s xv (tv k)
    let ret := nextHeader s 1
    mayIssue q s = true → allEnded s.gang = false → (∀ k ∈ fragSlices s, hasLanes m k = true → badTarget s (t k) = none) →
    (∀ k l, lane (laneSet m k) l = true → rdV s a.toNat l = tv k) →
    ∃ u, exec i s = .next u ∧
      Moved q (if link then { v := laneW 0 m fun _ => ret } else {}) s u (fun k => if hasLanes m k then (t k).pos else ret)
        (if link then some ret else none)) ∧
  (∀ a s (tv : Nat → Word), let m := execMask s none
    let q := { req1 0xC5 with vr := [a.toNat] }
    mayIssue q s = true → allEnded s.gang = false → (∀ k ∈ fragSlices s, hasLanes m k = true → badTarget s ⟨tv k, true⟩ = none) →
    (∀ k l, lane (laneSet m k) l = true → rdV s a.toNat l = tv k) →
    ∃ u, exec (.ret a) s = .next u ∧ Moved q {} s u (fun k => if hasLanes m k then tv k else nextHeader s 1) none) ∧
  (∀ i s bs s' e, let m := execMask s none
    let q := { req1 0xC3 with vw := [0] }
    let w := leNat bs
    let v := fld w 32 12
    let t : Target := ⟨BitVec.ofNat 32 (v * 2 ^ 20 + fld w 0 32 % 2 ^ 20), decide (fld w 0 32 < 2 ^ 20)⟩
    let held := ((ownLaunch s).map (·.vers)).getD []
    let join := fun (s : State) => if held.contains v then s else modLaunch s.gang.blk.name (fun l => { l with vers := l.vers ++ [v] }) s
    mayIssue q s = true → allEnded s.gang = false → m ≠ 0 → s.gang.got = [] → folding s = false →
    verOf s s.gang.ctx.toNat ((cur s).pc.toNat / 2 ^ 20) = some e → i.toNat < e.ltn →
    wholeLoad (e.ltab + BitVec.ofNat 64 (16 * i.toNat)) 8 s = .bytes bs s' →
    w.testBit 63 = true → (if fld w 44 4 = 0 then 16 else fld w 44 4) ≤ s.gang.regs →
    (held.contains v = false → held.length < 16 ∧ ((verOf s s.gang.ctx.toNat v).any fun y => y.state == 2) = true) → badTarget (join s') t = none →
    ∃ u, exec (.callt i) s = .next u ∧ AccessEffect q { v := laneW 0 m fun _ => nextHeader s 1 } (join s) u ∧
      ∀ k ∈ fragSlices s, entryOf u.gang k = { movedEntry s (fun k => if hasLanes m k then t.pos else nextHeader s 1) (some (nextHeader s 1)) k with
        since := s.clk + (spanLatency s (e.ltab + BitVec.ofNat 64 (16 * i.toNat)) 8 + Config.branchTime) })

/-- 02 R36, 15 R341, R344, R345, 02 R55, R56, 13 R304: REGANG brings its slices together, fused, at the next clause, or waits for
them. IDEM, once every slice has come to it, makes its resume point: its resume entry is held, the tasks it popped are its own for
good, its pin ends, and its slices go on fused with a slice instruction count of zero. -/
def Obligations.GatheringCompletes : Prop :=
  (∀ m x s,
    let rgm := m ||| s.frag
    let fr := sliceSet fun k => (rgm.getLsbD k || s.frag.getLsbD k) && decide ((entryOf s.gang k).st ≠ .ended)
    mayIssue (reqX 0xC7 x) s = true → allEnded s.gang = false → fragSlices s ≠ [] →
    ∃ u, exec (.regang m x) s = .next u ∧
      if gathered s rgm then RegisterEffect (reqX 0xC7 x) {} { s with frag := fr } u ∧
        ∀ k, fr.getLsbD k = true → k < s.gang.split.length → entryOf u.gang k = freshEntry (nextHeader s 2) (s.clk + Config.branchTime) ((entryOf s.gang k).sic + 1)
      else Waits (reqX 0xC7 x) .regang (modSplit s.frag (fun e => { e with st := .regang, rgm := rgm }) s) u) ∧
  (∀ a s,
    let q := { req1 0xCB with sr := [a.toNat] }
    let rgm := sliceSet fun k => decide (k < s.gang.slices)
    let fr := sliceSet fun k => (rgm.getLsbD k || s.frag.getLsbD k) && decide ((entryOf s.gang k).st ≠ .ended)
    let pc := nextHeader s 1
    let arg := rdS s a.toNat
    let bytes := leBytes 4 pc.toNat ++ leBytes 4 arg.toNat ++ leBytes 4 s.gang.active.toNat ++ leBytes 4 s.gang.dead.toNat
    mayIssue q s = true → allEnded s.gang = false → fragSlices s ≠ [] → inTxn s = false → gathered s rgm = true → muckRoom s 1 = true →
    ∃ u, exec (.idem a) s = .next u ∧
      AccessEffect q {} { withMuck u.core.muck (modGang (fun g => { g with resumePc := pc, resumeArg := arg, pinned := false })
        (modBlock (fun b => { b with rolled := b.rolled &&& ~~~(maskOf fun l => l == s.gang.gno) })
          (modCore (fun c => { c with taskq := c.taskq.filter fun t => t.prov.map (·.1) != some s.gang.key }) s))) with frag := fr, agenda := u.agenda } u ∧
      u.gang.pend = s.gang.pend ∧
      (∀ k, fr.getLsbD k = true → k < s.gang.split.length → entryOf u.gang k = freshEntry pc (s.clk + Config.branchTime) 0) ∧
      (s.block.flushReq = false → u.agenda.filter notAccess = s.agenda.filter notAccess) ∧
      ∀ l h k, launchOf s.gang.blk.name s = some l → xlateUnit s l.ctx.toNat (resumeAddr l s.gang.blk s.gang.gno) .store = .ok h k →
        (∃ new, u.core.muck = s.core.muck ++ new ∧ ∀ e ∈ new, e.idem = some s.gang.pinned ∧ e.blk = s.gang.blk ∧ e.matched = true ∧ e.id = none) ∧
        ∀ i, viewByte u false i = if k ≤ i ∧ i < k + 16 then nth 0 bytes (i - k) else viewByte s false i)

/-- 09 R225 to R227: TRAP enters the handler with the position behind it; TRET gives the slices of the frame back their places, at
TRAPPC where the handler has changed it, by a CSRW just before too.
The model's own choices in it: log 84. -/
def Obligations.TrapAndTretComplete : Prop :=
  (∀ i s, let m := execMask s none
    mayIssue (req1 0xCC) s = true → allEnded s.gang = false → trapReady s = true →
    ∃ u, exec (.trap i) s = .next u ∧
      if m = 0 then RegisterStep (req1 0xCC) {} s u
      else TrapTaken 0x54 (i.zeroExtend 32) 0 (nextHeader s 1) s u) ∧
  (∀ s f, let pc : Word := (csrSeen s 0x082).truncate 32
    mayIssue (req1 0xCD) s = true → s.gang.frame = some f →
    (pc ≠ f.trappc → badTarget s ⟨pc, true⟩ = none) →
    (∃ k, k < s.gang.slices ∧ k < s.gang.split.length ∧ (nth SplitEntry.over f.entries k).st ≠ .ended) →
    let came := fun (k : Nat) =>
      let e := nth SplitEntry.over f.entries k
      let sic := (entryOf s.gang k).sic
      if f.slices.getLsbD k = false then e
      else if pc ≠ f.trappc then { e with pc := pc, rpc := noPos, fu := true, st := .ready, rgm := 0, ix := 0, left := 0, hdr := 0, sic := sic, wait := .none, since := s.clk }
      else if f.reexec then { e with sic := sic, wait := .none, ix := if f.atHeader then 0 else e.ix }
      else { (e.goTo pc s.clk) with sic := sic }
    ∃ u, exec .tret s = .next u ∧ (∀ r l, l < 32 → rdV u r l = rdV s r l) ∧ (∀ r, rdS u r = rdS s r) ∧ (∀ p, rdP u p = rdP s p) ∧
      u.gang.mode = s.gang.mode ∧ u.block.kfull = s.block.kfull ∧ (∀ k, look u.mem k = look s.mem k) ∧
      outside u = outside (modGang (fun g => { g with frame := none, trappc := pc }) s) ∧
      ∀ k, k < s.gang.split.length → { entryOf u.gang k with elig := 0, boost := none } =
        { came k with elig := 0, boost := none, sic := (came k).sic + if s.frag.getLsbD k then 1 else 0 })

/-- 17 R376 to R380: WAIT and BAR complete: WAIT goes on where its condition holds, the entries that retire in its clk counted, and BAR .arrive goes on at
once; else they have taken their issue and hold their fragment, which takes no other, until the condition holds or the barrier's phase has ended; then it
passes by itself, so that its next instruction may issue in the clk after.
The model's own choices in it: log 83. -/
def Obligations.WaitAndBarComplete : Prop :=
  (∀ tLd tSt tCp tTl s, mayIssue (reqL 0xCE) s = true → execMask s none ≠ 0 → folding s = false → (cur s).stands = false →
    let seen := fun (c : Cls) => counter s.gang c + (s.gang.late.filter (· == c)).length
    ∃ u, exec (.wait tLd tSt tCp tTl) s = .next u ∧
      if seen .ld ≤ tLd.toNat ∧ seen .st ≤ tSt.toNat ∧ seen .cp ≤ tCp.toNat ∧ seen .tl ≤ tTl.toNat
      then RegisterStep (reqL 0xCE) {} s u else IsHeld (reqL 0xCE) (.counters tLd.toNat tSt.toNat tCp.toNat tTl.toNat) s u) ∧
  (∀ d a n op sreg x s, let q := { reqX 0xCF x with sr := if sreg then [a.toNat] else [] }
    let cnt := if sreg then (rdS s a.toNat).toNat % 64 else n.toNat
    let b := nth Barrier.reset s.block.bars d.toNat
    let came := b.arrive s.gang.gno cnt (op != .wait) s.clk
    let after := modBlock (fun y => { y with bars := modNth y.bars d.toNat fun _ => came }) s
    mayIssue q s = true → execMask s (some x) ≠ 0 → inTxn s = false → folding s = false → s.gang.rel = .none → d.toNat < s.block.bars.length →
    (cur s).stands = false → 0 < cnt → cnt ≤ ((ownLaunch s).map fun l => (blockGangs l).length).getD 1 → (b.cnt = 0 ∨ b.cnt = cnt) →
    ∃ u, exec (.bar d a n op sreg x) s = .next u ∧
      if op = .arrive then RegisterStep q {} after u
      else IsHeld q (.bar d.toNat b.ph (if op = .wait then .none else if lane b.curm s.gang.gno then .again else .counted)) after u) ∧
  (∀ s k, let e := entryOf s.gang k
    let ended := match e.wait with
      | .counters ld st cp tl => counter s.gang .ld ≤ ld ∧ counter s.gang .st ≤ st ∧ counter s.gang .cp ≤ cp ∧ counter s.gang .tl ≤ tl
      | .bar n ph _ => ∃ b, blockOf s.gang.blk s = some b ∧
          let y := nth Barrier.reset b.bars n
          y.ph ≠ ph ∧ (y.ph = ph + 1 → y.fin < s.clk)
      | _ => False
    e.stands = true → gangAble s s.gang = true → k < s.gang.split.length → e.st = .ready → (∀ j b l, e.wait ≠ .grow j b l) →
    (ended → entryOf (tick s).gang k = { e.behind 2 s.clk with elig := 0 }) ∧ (¬ended → entryOf (tick s).gang k = { e with elig := 0 }))

/-- 15 R342, R343, 02 R36, 09 R227: EXIT ends the slices that have a lane in its execution mask, and in a trap handler the whole gang; LEXIT takes its lanes out of ACTIVE and ends
slices left without one, and a gang whose last slice ends begins to leave; YIELD has its partition pass over the fragment once. -/
def Obligations.ExitsComplete : Prop :=
  (∀ s, let m := execMask s none
    let mine := fun k => s.frag.getLsbD k && hasLanes m k
    let ends := fun k => if s.gang.frame.isSome && (List.range 8).any mine then decide (k < s.gang.slices) else mine k
    let all := (List.range s.gang.slices).all fun k => decide ((entryOf s.gang k).st = .ended) || ends k
    mayIssue (req1 0xC8) s = true → s.gang.rel = .none → s.gang.slices ≤ s.gang.split.length → s.gang.slices ≤ 8 → s.gang.leaving = false → folding s = false →
    ∃ u, exec .exit s = .next u ∧
      (∀ r l, l < 32 → rdV u r l = rdV s r l) ∧ (∀ r, rdS u r = rdS s r) ∧ (∀ p, rdP u p = rdP s p) ∧ u.gang.mode = s.gang.mode ∧
      (∀ k, look u.mem k = look s.mem k) ∧
      (∀ k, k < s.gang.slices → ends k = true → (entryOf u.gang k).st = .ended) ∧
      (∀ k ∈ fragSlices s, ends k = false → (entryOf u.gang k).pc = nextHeader s 1) ∧
      (∀ k, s.frag.getLsbD k = false → ends k = false → (entryOf s.gang k).st ≠ .regang → entryOf u.gang k = entryOf s.gang k) ∧
      (all = true → ∃ e ∈ u.agenda, e.ev = .gangExit ∧ e.subj = .gang s.gang.key) ∧
      outside { u with agenda := [] } = outside { modGang (fun g => { g with leaving := all }) s with agenda := [] }) ∧
  (∀ s, let left := s.gang.active &&& ~~~execMask s none
    let gone := fun k => decide ((entryOf s.gang k).st ≠ .ended) && hasLanes (left &&& ~~~s.gang.dead) k == false
    let all := (List.range s.gang.slices).all fun k => decide ((entryOf s.gang k).st = .ended) || gone k
    mayIssue (req1 0xC9) s = true → s.gang.rel = .none → s.gang.slices ≤ s.gang.split.length → s.gang.slices ≤ 8 → s.gang.leaving = false → folding s = false →
    ∃ u, exec .lexit s = .next u ∧
      (∀ r l, l < 32 → rdV u r l = rdV s r l) ∧ (∀ r, rdS u r = rdS s r) ∧ (∀ p, rdP u p = rdP s p) ∧ u.gang.mode = s.gang.mode ∧
      (∀ k, look u.mem k = look s.mem k) ∧
      (∀ k, k < s.gang.slices → gone k = true → (entryOf u.gang k).st = .ended) ∧
      (∀ k, s.frag.getLsbD k = false → k < s.gang.slices → gone k = false → (entryOf s.gang k).st ≠ .regang → entryOf u.gang k = entryOf s.gang k) ∧
      (all = true → ∃ e ∈ u.agenda, e.ev = .gangExit ∧ e.subj = .gang s.gang.key) ∧
      outside { u with agenda := [] } = outside { modGang (fun g => { g with leaving := all, active := left }) s with agenda := [] }) ∧
  (∀ s, mayIssue (req1 0xCA) s = true → ∃ u, exec .yield s = .next u ∧
    RegisterStep (req1 0xCA) {} (modCore (fun c => { c with parts := modNth c.parts s.gang.key.part fun p =>
      { p with skip := some (s.gang.key.slot, lowSlice s.frag, s.clk + 1) } }) s) u)

/-- 05 R123, 09 R214, R215: CSRR reads a CSR that the gang's level may read, with every CSRW that the gang issued before it; CSRW asks for a
write that takes effect after the latency of its scope, reading, modifying and writing in one step, and ignores a value that a field
does not allow.
The model's own choices in it: log 39. -/
def Obligations.CsrInstructionsComplete : Prop :=
  (∀ d nlo nhi x s, let n := csrNum nlo nhi
    let wide := (csrWide n).getD false
    let q := { reqX 0xD0 x with sw := if wide then pair d.toNat else [d.toNat], lat := csrLat n }
    let m := execMask s (some x)
    mayIssue q s = true → (csrLevels n).1.rank ≤ s.gang.level.rank → folding s = false →
    ∃ u, exec (.csrr d nlo nhi x) s = .next u ∧
      RegisterStep q { s := if wide then scalPairW d.toNat m (csrSeen s n) else scalW d.toNat m ((csrSeen s n).extractLsb' 0 32) } s u) ∧
  (∀ a nlo op nhi x s l, let n := csrNum nlo nhi
    let wide := (csrWide n).getD false
    let q := { reqX 0xD1 x with sr := if wide then pair a.toNat else [a.toNat] }
    let src : DWord := if wide then rdSS s a.toNat else (rdS s a.toNat).zeroExtend 64
    mayIssue q s = true → execMask s (some x) ≠ 0 → (csrLevels n).2 = some l → l.rank ≤ s.gang.level.rank → (n = 0x90 → debugOpen s = true) →
    ∃ u, exec (.csrw a nlo op nhi x) s = .next u ∧
      RegisterStep q {} { s with csrq := s.csrq ++ [⟨s.clk + csrLat n, s.gang.key, s.gang.blk, n, op, src⟩] } u) ∧
  (∀ s n, (∀ w ∈ s.csrq, w.gang = s.gang.key → w.num ≠ n) → csrSeen s n = csrValue s n) ∧
  (∀ s (w : CsrWrite), w.ofGang = false → w.num ≠ 0x20 → w.num ≠ 0x24 → w.num ≠ 0x70 → w.num ≠ 0x92 →
    csrWritten w s = match csrAllowed w.num (match w.op with
      | .write => w.src
      | .set => csrValue s w.num ||| w.src
      | .clr => csrValue s w.num &&& ~~~w.src) with
      | none => s
      | some v => csrSet w.num v s) ∧
  (∀ (s : State) c (v : DWord), csrSeen { s with csrq := [⟨c, s.gang.key, s.gang.blk, 0x061, .write, v⟩] } 0x061 = (v.truncate 32 : Word).zeroExtend 64)

/-- 01 R20, 05 R123, 17 R385: what CSRs hold: constants of the profile, registers of the die, the core and the gang.
The model's own choices in it: log 95. -/
def Obligations.CsrValues : Prop := ∀ s,
  csrValue s 0x000 = BitVec.ofNat 64 (0x7C1 + if s.profD then 0x30 else 0) ∧
  csrValue s 0x030 = s.core.lclk ∧ csrValue s 0x040 = s.die.strvt.zeroExtend 64 ∧ csrValue s 0x041 = s.die.pinmax.zeroExtend 64 ∧
  csrValue s 0x051 = s.gang.sigs ∧ csrValue s 0x060 = s.core.nancnt.zeroExtend 64 ∧ csrValue s 0x061 = s.core.stalecnt.zeroExtend 64 ∧
  csrValue s 0x071 = s.gang.ctx.zeroExtend 64 ∧ csrValue s 0x080 = s.gang.trapvec.zeroExtend 64 ∧
  csrValue s 0x081 = s.gang.trapcause.zeroExtend 64 ∧ csrValue s 0x082 = s.gang.trappc.zeroExtend 64 ∧ csrValue s 0x083 = s.gang.trapaddr ∧
  csrValue s 0x084 = s.gang.trapinfo.zeroExtend 64 ∧ csrValue s 0x0B0 = BitVec.ofNat 64 (s.clk - s.timeBase) ∧
  csrValue s 0x0B1 = s.die.incarn.zeroExtend 64 ∧ (∀ i, i < 8 → csrValue s (0x0A0 + i) = nth 0 s.core.perf i) ∧
  ((csrValue s 0x004).extractLsb' 0 2 = s.core.ports) ∧ ((csrValue s 0x004).getLsbD 2 = s.core.insvc)

/-- 05 R117, R122, 09 R216 to R224: GETM and SETM; GROW and SHRINK, whose new registers hold zero; QUERY, HOPS, NDSRC and SIGRD.
The model's own choices in it: log 6, 38. -/
def Obligations.ModeAndSystemComplete : Prop :=
  (∀ d x s, let q := { reqX 0xDA x with sw := pair d.toNat }
    mayIssue q s = true → modePending s = false →
    ∃ u, exec (.getm d x) s = .next u ∧ RegisterStep q { s := scalPairW d.toNat (execMask s (some x)) s.gang.mode } s u) ∧
  (∀ a mk x s, let q := { reqX 0xDA x with sr := pair a.toNat }
    let v := rdSS s a.toNat
    let bits := setmBits mk
    let legal := v.extractLsb' 12 20 = 0 ∧ (mk.getLsbD 0 = true → 1 ≤ (v.extractLsb' 0 3).toNat ∧ (v.extractLsb' 0 3).toNat ≤ 5)
    mayIssue q s = true → modePending s = false → execMask s (some x) ≠ 0 →
    ∃ u, exec (.setm a mk x) s = .next u ∧
      (legal → RegisterStep q {} (modGang (fun g => { g with mode := (g.mode &&& ~~~bits) ||| (v &&& bits) }) s) u) ∧
      (¬legal → RegisterStep q {} s u)) ∧
  (∀ d k s, let q := { req1 0xD2 with sw := if d = 0 then [] else [d.toNat] }
    let n := s.gang.regs + k.toNat
    mayIssue q s = true → execMask s none ≠ 0 → (cur s).stands = false → s.gang.kit = 0 → n ≤ 16 →
    ∃ u, exec (.grow d k) s = .next u ∧
      if (ownPart s).growq = [] ∧ k.toNat ≤ freeBlocks s s.gang.key.die s.gang.key.core s.gang.key.part then
        RegisterStep q { s := if d = 0 then fun _ => none else scalW d.toNat (execMask s none) (BitVec.ofNat 32 n) }
            (modGang (fun g => { g with regs := n, v := u.gang.v }) s) u ∧
          ∀ r l, l < 32 → r < 16 * n → look u.gang.v (32 * r + l) = if r < 16 * s.gang.regs then look s.gang.v (32 * r + l) else 0
      else IsHeld q (.grow k.toNat false (lowSlice s.frag)) (modCore (fun c => { c with parts := modNth c.parts s.gang.key.part fun p =>
        { p with growq := p.growq ++ [(s.gang.key.slot, lowSlice s.frag, k.toNat, d.toNat)] } }) s) u) ∧
  (∀ d k s, let q := { req1 0xD3 with sw := if d = 0 then [] else [d.toNat] }
    let n := s.gang.regs - k.toNat
    mayIssue q s = true → execMask s none ≠ 0 → s.gang.kit = 0 → k.toNat < s.gang.regs →
    (∀ p ∈ s.gang.pend, ∀ r l v, .lane r l v ∈ p.writes → r < 16 * n) → (∀ t ∈ s.gang.tags, s.clk < t.clk → ∀ r, t.reg = .v r → r < 16 * n) →
    ∃ u, exec (.shrink d k) s = .next u ∧
      RegisterStep q { s := if d = 0 then fun _ => none else scalW d.toNat (execMask s none) (BitVec.ofNat 32 n) }
        (later 0 .none (.admission s.gang.key.die) (later 0 .none (.growGrant s.gang.key.die s.gang.key.core s.gang.key.part)
          (modGang (fun g => { g with regs := n, v := u.gang.v }) s))) u ∧
      ∀ r l, l < 32 → r < 16 * n → look u.gang.v (32 * r + l) = look s.gang.v (32 * r + l)) ∧
  (∀ d a item x s, let n := item.toNat
    let q := { reqX 0xD4 x with sr := if n = 3 ∨ n = 4 then [a.toNat] else [], sw := [d.toNat], lat := if 5 ≤ n ∧ n ≤ 7 then 2 else 8 }
    mayIssue q s = true → folding s = false → ∃ u, exec (.query d a item x) s = .next u ∧
      RegisterStep q { s := scalW d.toNat (execMask s (some x)) (queryValue s n (rdS s a.toNat)) } s u) ∧
  (∀ d a b x s, Completes { reqX 0xD5 x with sr := [a.toNat, b.toNat], sw := [d.toNat] } (.hops d a b x)
    { s := scalW d.toNat (execMask s (some x))
        (match siteOf s s.gang.ctx.toNat (rdS s a.toNat).toNat, siteOf s s.gang.ctx.toNat (rdS s b.toNat).toNat with
        | some p, some q => BitVec.ofNat 32 ((p.1 - q.1) + (q.1 - p.1) + ((p.2 - q.2) + (q.2 - p.2)))
        | _, _ => 0xFFFFFFFF) } s) ∧
  (∀ d x s, let q := { reqX 0xD8 x with sw := pair d.toNat }
    mayIssue q s = true → folding s = false → let time := if s.replay then timeOf s - s.replayMark + s.logMark else timeOf s
    ∃ u, exec (.ndsrcTime d x) s = .next u ∧
      RegisterStep q { s := scalPairW d.toNat (execMask s (some x)) (BitVec.ofNat 64 time) } s u) ∧
  (∀ d x s, let q := { reqX 0xD8 x with sw := pair d.toNat }
    mayIssue q s = true → execMask s (some x) ≠ 0 → folding s = false → ∃ u, exec (.ndsrcRand d x) s = .next u ∧
      RegisterStep q { s := scalPairW d.toNat (execMask s (some x)) (if s.replay then Config.replayDraw s.seed s.draws else Config.entropy s.draws) }
        { s with draws := s.draws + 1 } u) ∧
  (∀ d what s, Completes { req1 0xD9 with sw := pair d.toNat } (.sigrd d what)
    { s := scalPairW d.toNat (execMask s none) (match what with
        | .sigs => s.gang.sigs
        | .sigl => s.gang.sigl
        | .sigk => s.gang.sigk.zeroExtend 64) } s)

/-- 09 R228, 20 R436, R437: DBG .halt, .run, .step, .bp, .wp and .dump each complete: they act on the partition that they name and write a
status: 0 done, 1 not halted, 2 unbound, 3 the issuing partition.
The model's own choices in it: log 6, 40, 41, 72, 78, 88. -/
def Obligations.DebugCompletes : Prop :=
  let answers := fun (q : Req) (d : SReg) (x : Guard) (s : State) (n : Word) (t u : State) =>
    RegisterStep q { s := scalW d.toNat (execMask s (some x)) n } t u ∧
    ∀ p, p ≠ s.gang.key.part → nth Part.reset u.core.parts p = nth Part.reset t.core.parts p
  (∀ d b x s, let q := dbgReq x d b []
    let f := fun (t : Nat × Nat × Nat) => modPart t.1 t.2.1 t.2.2 fun p =>
      if p.halted && !p.stepping then p else { p with halted := true, stepping := false, haltAt := timeOf s }
    mayIssue q s = true → debugOpen s = true → execMask s (some x) ≠ 0 → 
    ∃ u, exec (.dbgHalt d b x) s = .next u ∧ match dbgTarget s (rdS s b.toNat) with
      | none => answers q d x s 2 s u
      | some t =>
        if t = (s.gang.key.die, s.gang.key.core, s.gang.key.part) then answers q d x s 3 s u else
        answers q d x s 0 (f t s) u) ∧
  (∀ d b x s, let q := dbgReq x d b []
    let f := fun (t : Nat × Nat × Nat) => modPart t.1 t.2.1 t.2.2 fun p => { p with halted := false, stepping := false }
    mayIssue q s = true → debugOpen s = true → execMask s (some x) ≠ 0 → 
    ∃ u, exec (.dbgRun d b x) s = .next u ∧ match dbgTarget s (rdS s b.toNat) with
      | none => answers q d x s 2 s u
      | some t =>
        answers q d x s 0 (f t s) u) ∧
  (∀ d b x s, let q := dbgReq x d b []
    let f := fun (t : Nat × Nat × Nat) => modPart t.1 t.2.1 t.2.2 fun p => { p with stepping := true }
    mayIssue q s = true → debugOpen s = true → execMask s (some x) ≠ 0 → 
    ∃ u, exec (.dbgStep d b x) s = .next u ∧ match dbgTarget s (rdS s b.toNat) with
      | none => answers q d x s 2 s u
      | some t =>
        if t = (s.gang.key.die, s.gang.key.core, s.gang.key.part) then answers q d x s 3 s u else
        if (partOf s t).halted = false ∨ (partOf s t).stepping = true then answers q d x s 1 s u else
        answers q d x s 0 (f t s) u) ∧
  (∀ d a b slot x s, let q := dbgReq x d b (pair a.toNat)
    let bp := (rdS s a.toNat, (rdS s (a.toNat + 1)).toNat % 4096, (rdS s (a.toNat + 1)).getLsbD 31)
    let f := fun (t : Nat × Nat × Nat) => modPart t.1 t.2.1 t.2.2 fun p => { p with bps := modNth p.bps slot.toNat fun _ => bp }
    mayIssue q s = true → debugOpen s = true → execMask s (some x) ≠ 0 → 
    ∃ u, exec (.dbgBp d a b slot x) s = .next u ∧ match dbgTarget s (rdS s b.toNat) with
      | none => answers q d x s 2 s u
      | some t =>
        answers q d x s 0 (f t s) u) ∧
  (∀ d a b slot kind len x s, let q := dbgReq x d b (pair a.toNat)
    let wp := (rdSS s a.toNat, kind.toNat, len.toNat)
    let f := fun (t : Nat × Nat × Nat) => onCore t.1 t.2.1 (modCore fun c => { c with wps := modNth c.wps slot.toNat fun _ => wp })
    mayIssue q s = true → debugOpen s = true → execMask s (some x) ≠ 0 → (rdSS s a.toNat).toNat % 2 ^ len.toNat = 0 →
    ∃ u, exec (.dbgWp d a b slot kind len x) s = .next u ∧ match dbgTarget s (rdS s b.toNat) with
      | none => answers q d x s 2 s u
      | some t =>
        answers q d x s 0 (f t s) u) ∧
  (∀ d a b x s, let q := dbgReq x d b (pair a.toNat)
    mayIssue q s = true → debugOpen s = true → execMask s (some x) ≠ 0 →
    (∀ t, dbgTarget s (rdS s b.toNat) = some t → (partOf s t).halted = false ∨ (partOf s t).stepping = true) →
    ∃ u, exec (.dbgDump d a b x) s = .next u ∧ answers q d x s (if (dbgTarget s (rdS s b.toNat)).isNone then 2 else 1) s u) ∧
  (∀ d a b x s (key : Nat → Nat) t, let q := dbgReq x d b (pair a.toNat)
    let va := rdSS s a.toNat
    let bytes := dumpBytes s t
    let stored := (List.range 12).foldl (fun s i => engineStore (key i) ((bytes.drop (4096 * i)).take 4096) s) { s with free := s.free + s.nextTag }
    mayIssue q s = true → debugOpen s = true → execMask s (some x) ≠ 0 → va.toNat % 4096 = 0 → full s .st = false →
    (∀ i, i < 12 → ∃ h, xlateUnit s s.gang.ctx.toNat (va + BitVec.ofNat 64 (4096 * i)) .store = .ok h (key i)) →
    (∀ i, i < 12 → boundFrame s (key i) = false) →
    dbgTarget s (rdS s b.toNat) = some t → (partOf s t).halted = true → (partOf s t).stepping = false → noTxns s = true →
    ∃ u, exec (.dbgDump d a b x) s = .next u ∧ AccessStep q {} stored u ∧
      u.gang.pend = s.gang.pend ++ [⟨s.nextTag, .st, false, 1, [], [], herePos s, false, [], 1, false⟩,
        ⟨s.nextTag + 1, .none, false, 1, [.scal d.toNat 0], [], herePos s, false, [], 1, false⟩] ∧
      ∃ e ∈ u.agenda, ∃ e' ∈ u.agenda, e.ev = .storeAccepted s.gang.key s.nextTag ∧ e'.ev = .resultWriteback s.gang.key (s.nextTag + 1) ∧ e'.clk = e.clk) ∧
  (∀ s t, (dumpBytes s t).length = 49152 ∧ (dumpBytes s t).take 4 = [0x44, 0x55, 0x4D, 0x50])

/-- 15 R346 to R349: CODEPUB allocates the lowest free version for a descriptor, publishes an unpublished version whose image may be
fetched and begins with a header, and retires a published one that no handle names.
The model's own choices in it: log 42, 92. -/
def Obligations.CodepubCompletes : Prop :=
  (∀ d a x s bs s' n, let q := { reqX 0xDC x with level := .supervisor, sr := pair a.toNat, sw := pair d.toNat }
    let c := s.gang.ctx.toNat
    let v := verOfDesc bs
    mayIssue q s = true → execMask s (some x) ≠ 0 → s.gang.redo = none → s.gang.got = [] → wholeLoad (rdSS s a.toNat) 32 s = .bytes bs s' →
    descBad v = false → n < 4096 → verIn s c n = none → (∀ j, j < n → verIn s c j ≠ none) →
    ∃ u, exec (.codepubNew d a x) s = .next u ∧
      AccessStep q { s := scalPairW d.toNat (execMask s (some x)) (BitVec.ofNat 32 n ++ (0 : Word) : DWord) }
        (modCtx c (fun y => { y with vers := y.vers ++ [{ v with num := n }] }) s) u) ∧
  (∀ d a b x s e fs, let q := { reqX 0xDC x with level := .supervisor, sr := [a.toNat, b.toNat], sw := pair d.toNat }
    let c := s.gang.ctx.toNat
    let v := (rdS s a.toNat).toNat
    let h := (rdS s b.toNat).toNat
    let published := modVer c v (fun e => { e with state := 2, frames := fs, hdl := e.hdl || h == v }) (bindFrames c v fs s)
    mayIssue q s = true → execMask s (some x) ≠ 0 → verIn s c v = some e → e.state = 1 → (h = v ∨ ((verIn s c h).any (·.hdl)) = true) →
    framesOf s c e = some fs → headerLaid (firstWord s fs) = true → s.fuse.toNat ≤ e.secv.toNat → holdsStores s = false → imageWaits s c e = false →
    (∀ f ∈ fs, heldAny s (65536 * f) 65536 = false) →
    ∃ u, exec (.codepubPub d a b x) s = .next u ∧
      RegisterStep q { s := scalPairW d.toNat (execMask s (some x)) (BitVec.ofNat 32 v ++ (0 : Word) : DWord) }
        (modVer c h (fun e => { e with cur := v }) published) u) ∧
  (∀ d a x s e, let q := { reqX 0xDC x with level := .supervisor, sr := [a.toNat], sw := pair d.toNat }
    let c := s.gang.ctx.toNat
    let v := (rdS s a.toNat).toNat
    let named := (ctxOf c s).vers.any fun e => e.hdl && e.cur == v
    mayIssue q s = true → execMask s (some x) ≠ 0 → verIn s c v = some e →
    ∃ u, exec (.codepubRet d a x) s = .next u ∧
      if named = true ∨ e.state ≠ 2 then RegisterStep q { s := scalPairW d.toNat (execMask s (some x)) 5 } s u
      else RegisterStep q { s := scalPairW d.toNat (execMask s (some x)) (BitVec.ofNat 32 v ++ (0 : Word) : DWord) }
        (later 1 .none (.versionFree c v) (modVer c v (fun e => { e with state := 3 }) s)) u)

/-- 16 R358, R360, R361: TLBW installs a leaf for the record that walks in its slot, and TLBW .fault answers its waiters with a code;
a stale record walks again.
The model's own choices in it: log 32. -/
def Obligations.TlbwCompletes : Prop :=
  (∀ d a b sz x s home r, let q := { reqX 0xD6 x with level := .firmware, sr := a.toNat :: pair b.toNat, sw := [d.toNat] }
    let num := (rdS s a.toNat).toNat
    let e := rdSS s b.toNat
    let bits := leafBits sz
    let leaf : TlbEntry := ⟨r.ctx, r.striped, r.gran * 65536 / 2 ^ bits * 2 ^ bits, bits, (e.extractLsb' 16 20).toNat * 65536,
      e.getLsbD 2, e.getLsbD 3, e.getLsbD 4, none, []⟩
    mayIssue q s = true → execMask s (some x) ≠ 0 → walkingHere s num = some (home, r) → r.stale = false → leafBad s home bits r.striped e.toNat = false →
    ∃ u, exec (.tlbw d a b sz x) s = .next u ∧
      RegisterStep q { s := scalW d.toNat (execMask s (some x)) 0 } (freeRec home num (wakeWaiters r.waiters (installLeaf home bits r e.toNat s))) u ∧
      (homeOf home u).tlb = (leaf :: (homeOf home s).tlb).take 16384 ∧ ∀ y ∈ (homeOf home u).recs, y.num ≠ num) ∧
  (∀ d a b x s home r, let q := { reqX 0xD6 x with level := .firmware, sr := [a.toNat, b.toNat], sw := [d.toNat] }
    let num := (rdS s a.toNat).toNat
    let code := (rdS s b.toNat).toNat % 256
    mayIssue q s = true → execMask s (some x) ≠ 0 → walkingHere s num = some (home, r) → r.stale = false → (code = 0x10 ∨ code = 0x11) →
    ∃ u, exec (.tlbwFault d a b x) s = .next u ∧
      RegisterStep q { s := scalW d.toNat (execMask s (some x)) 0 } (freeRec home num (failWaiters home code r s)) u) ∧
  (∀ d a b sz (fault : Bool) x s home r, let i : Instr := if fault then .tlbwFault d a b x else .tlbw d a b sz x
    let q := { reqX 0xD6 x with level := .firmware, sr := if fault then [a.toNat, b.toNat] else a.toNat :: pair b.toNat, sw := [d.toNat] }
    let num := (rdS s a.toNat).toNat
    mayIssue q s = true → execMask s (some x) ≠ 0 → walkingHere s num = some (home, r) → r.stale = true →
    ∃ u, exec i s = .next u ∧ RegisterStep q { s := scalW d.toNat (execMask s (some x)) 4 } (requeue home num s) u)

/-- 16 R362 to R364: TLBI .page, .ctx and .all each complete: they remove the translations that they name, mark walks of them stale, and
write status 0 once all that they removed is settled, standing until then, with what another's removal of these has left unsettled (that one waits for it too); where nothing of the kind
is there, they complete at once; names of nothing are status 1.
The model's own choices in it: log 31. -/
def Obligations.TlbiCompletes : Prop :=
  let done := fun (t : State) => { t with homes := t.homes.map fun h => { h with settling := h.settling.filter fun y => y.who != issuerTag t } }
  (∀ d a c x s home striped, let q := { reqX 0xD7 x with level := .supervisor, sr := pair a.toNat ++ [c.toNat], sw := [d.toNat] }
    let ctx := (rdS s c.toNat).toNat
    let gran := offOf (rdSS s a.toNat) / 65536
    let t := markStale home (fun r => r.ctx == ctx && r.striped == striped && r.gran == gran)
      (removeEntries home (fun e => e.ctx == ctx && e.striped == striped && decide (e.off < (gran + 1) * 65536) && decide (gran * 65536 < e.off + 2 ^ e.sz)) s)
    mayIssue q s = true → execMask s (some x) ≠ 0 → ownSettles s = [] → namesCtx s ctx = true → namedWindow s ctx (rdSS s a.toNat) = some (home, striped) →
    ∃ u, exec (.tlbiPage d a c x) s = .next u ∧
      if (ownSettles t).all (settled t) = true then
        RegisterStep q { s := scalW d.toNat (execMask s (some x)) 0 } (done t) u
      else u = giveUp t) ∧
  (∀ d a c x s home striped, let q := { reqX 0xD7 x with level := .supervisor, sr := pair a.toNat ++ [c.toNat], sw := [d.toNat] }
    let ctx := (rdS s c.toNat).toNat
    let t := markStale home (fun r => r.ctx == ctx && r.striped == striped) (removeEntries home (fun e => e.ctx == ctx && e.striped == striped) s)
    mayIssue q s = true → execMask s (some x) ≠ 0 → ownSettles s = [] → namesCtx s ctx = true → namedWindow s ctx (rdSS s a.toNat) = some (home, striped) →
    ∃ u, exec (.tlbiCtx d a c x) s = .next u ∧
      if (ownSettles t).all (settled t) = true then
        RegisterStep q { s := scalW d.toNat (execMask s (some x)) 0 } (done t) u
      else u = giveUp t) ∧
  (∀ d c x s, let q := { reqX 0xD7 x with level := .supervisor, sr := [c.toNat], sw := [d.toNat] }
    let ctx := (rdS s c.toNat).toNat
    let t := (s.homes.map (·.home)).foldl (fun s h => markStale h (fun r => r.ctx == ctx) (removeEntries h (fun e => e.ctx == ctx) s)) s
    mayIssue q s = true → execMask s (some x) ≠ 0 → ownSettles s = [] → namesCtx s ctx = true →
    ∃ u, exec (.tlbiAll d c x) s = .next u ∧
      if (ownSettles t).all (settled t) = true then
        RegisterStep q { s := scalW d.toNat (execMask s (some x)) 0 } (done t) u
      else u = giveUp t) ∧
  (∀ d a c x s home striped, let q := { reqX 0xD7 x with level := .supervisor, sr := pair a.toNat ++ [c.toNat], sw := [d.toNat] }
    let ctx := (rdS s c.toNat).toNat
    let gran := offOf (rdSS s a.toNat) / 65536
    let hits := fun (e : TlbEntry) => e.ctx == ctx && e.striped == striped && decide (e.off < (gran + 1) * 65536) && decide (gran * 65536 < e.off + 2 ^ e.sz)
    let t := markStale home (fun r => r.ctx == ctx && r.striped == striped && r.gran == gran) (removeEntries home hits s)
    mayIssue q s = true → execMask s (some x) ≠ 0 → ownSettles s = [] → namesCtx s ctx = true → namedWindow s ctx (rdSS s a.toNat) = some (home, striped) →
    (∀ e ∈ (homeOf home s).tlb, hits e = false) → (∀ y ∈ (homeOf home s).settling, hits y.ent = false) →
    ∃ u, exec (.tlbiPage d a c x) s = .next u ∧ RegisterStep q { s := scalW d.toNat (execMask s (some x)) 0 } (done t) u) ∧
  (∀ d a c x s home striped, let q := { reqX 0xD7 x with level := .supervisor, sr := pair a.toNat ++ [c.toNat], sw := [d.toNat] }
    let ctx := (rdS s c.toNat).toNat
    let hits := fun (e : TlbEntry) => e.ctx == ctx && e.striped == striped
    let t := markStale home (fun r => r.ctx == ctx && r.striped == striped) (removeEntries home hits s)
    mayIssue q s = true → execMask s (some x) ≠ 0 → ownSettles s = [] → namesCtx s ctx = true → namedWindow s ctx (rdSS s a.toNat) = some (home, striped) →
    (∀ e ∈ (homeOf home s).tlb, hits e = false) → (∀ y ∈ (homeOf home s).settling, hits y.ent = false) →
    ∃ u, exec (.tlbiCtx d a c x) s = .next u ∧ RegisterStep q { s := scalW d.toNat (execMask s (some x)) 0 } (done t) u) ∧
  (∀ d c x s, let q := { reqX 0xD7 x with level := .supervisor, sr := [c.toNat], sw := [d.toNat] }
    let ctx := (rdS s c.toNat).toNat
    let t := (s.homes.map (·.home)).foldl (fun s h => markStale h (fun r => r.ctx == ctx) (removeEntries h (fun e => e.ctx == ctx) s)) s
    mayIssue q s = true → execMask s (some x) ≠ 0 → ownSettles s = [] → namesCtx s ctx = true → (∀ h ∈ s.homes, ∀ e ∈ h.tlb, e.ctx ≠ ctx) →
    (∀ h ∈ s.homes, ∀ y ∈ h.settling, y.ent.ctx ≠ ctx) →
    ∃ u, exec (.tlbiAll d c x) s = .next u ∧ RegisterStep q { s := scalW d.toNat (execMask s (some x)) 0 } (done t) u) ∧
  (∀ d a c x s, let q := { reqX 0xD7 x with level := .supervisor, sr := pair a.toNat ++ [c.toNat], sw := [d.toNat] }
    mayIssue q s = true → execMask s (some x) ≠ 0 → ownSettles s ≠ [] →
    ∃ u, exec (.tlbiPage d a c x) s = .next u ∧
      if (ownSettles s).all (settled s) = true then
        RegisterStep q { s := scalW d.toNat (execMask s (some x)) 0 } (done s) u
      else u = giveUp s) ∧
  (∀ d a c x s, let q := { reqX 0xD7 x with level := .supervisor, sr := pair a.toNat ++ [c.toNat], sw := [d.toNat] }
    mayIssue q s = true → execMask s (some x) ≠ 0 → ownSettles s ≠ [] →
    ∃ u, exec (.tlbiCtx d a c x) s = .next u ∧
      if (ownSettles s).all (settled s) = true then
        RegisterStep q { s := scalW d.toNat (execMask s (some x)) 0 } (done s) u
      else u = giveUp s) ∧
  (∀ d c x s, let q := { reqX 0xD7 x with level := .supervisor, sr := [c.toNat], sw := [d.toNat] }
    mayIssue q s = true → execMask s (some x) ≠ 0 → ownSettles s ≠ [] →
    ∃ u, exec (.tlbiAll d c x) s = .next u ∧
      if (ownSettles s).all (settled s) = true then
        RegisterStep q { s := scalW d.toNat (execMask s (some x)) 0 } (done s) u
      else u = giveUp s) ∧
  (∀ d a c x s, let q := { reqX 0xD7 x with level := .supervisor, sr := pair a.toNat ++ [c.toNat], sw := [d.toNat] }
    let ctx := (rdS s c.toNat).toNat
    mayIssue q s = true → execMask s (some x) ≠ 0 → ownSettles s = [] → (namesCtx s ctx = false ∨ namedWindow s ctx (rdSS s a.toNat) = none) →
    ∃ u, exec (.tlbiPage d a c x) s = .next u ∧ RegisterStep q { s := scalW d.toNat (execMask s (some x)) 1 } s u) ∧
  (∀ d a c x s, let q := { reqX 0xD7 x with level := .supervisor, sr := pair a.toNat ++ [c.toNat], sw := [d.toNat] }
    let ctx := (rdS s c.toNat).toNat
    mayIssue q s = true → execMask s (some x) ≠ 0 → ownSettles s = [] → (namesCtx s ctx = false ∨ namedWindow s ctx (rdSS s a.toNat) = none) →
    ∃ u, exec (.tlbiCtx d a c x) s = .next u ∧ RegisterStep q { s := scalW d.toNat (execMask s (some x)) 1 } s u) ∧
  (∀ d c x s, let q := { reqX 0xD7 x with level := .supervisor, sr := [c.toNat], sw := [d.toNat] }
    let ctx := (rdS s c.toNat).toNat
    mayIssue q s = true → execMask s (some x) ≠ 0 → ownSettles s = [] → namesCtx s ctx = false →
    ∃ u, exec (.tlbiAll d c x) s = .next u ∧ RegisterStep q { s := scalW d.toNat (execMask s (some x)) 1 } s u)

/-- 16 R366, 12 R266, R267, 14 R313: TLBI .fq writes status 1 for an index that names no record, 2 for information alone and for a disposition that the
record's KIND does not take, and 0 where it resolves the live record, which is live no longer and marked so. A record whose gang's die was reset is
closed alone. A parked load's gang issues it again (.resume) or takes its code as a trap (.deliver); a deferred store's gang counts one record
less, and with the last goes on or takes at its next header the code that .deliver marks; a stopped command goes on or is abandoned; .replay writes a deferred
sector where a fresh translation puts it, at a time that its gang's later clauses come after, or asks a peer to, or records the fresh fault, and it stalls while the record finds no
room or a held store keeps its walk.
The model's own choices in it: log 27. -/
def Obligations.TlbiFqCompletes : Prop :=
  let resolved := fun (code : Option Nat) (k : GangKey) (f : HomeFault) (s : State) => mapGangs (fun g => if g.live ∧ g.key = k then
    let ds := g.defer.map fun x => if x.id = f.id then { x with left := x.left - 1, code := x.code.or code } else x
    { g with
      defer := ds.filter fun x => decide (x.left ≠ 0)
      deliver := g.deliver ++ (ds.filter fun x => decide (x.left = 0)).filterMap fun x => x.code.map fun c => ⟨c, x.addr, x.pos⟩ } else g) s
  let goesOn := fun (k : GangKey) (f : HomeFault) (w : State) =>
    onCore k.die k.core (modCore fun c => { c with lclk := max64 c.lclk w.core.lclk }) (resolved none k f w)
  (∀ d a b x s,
    let q := { reqX 0xD7 x with level := .supervisor, sr := [a.toNat, b.toNat], sw := [d.toNat] }
    let n := (rdS s a.toNat).toNat
    let home := fld n 16 6
    let ix := n % 4096
    let disp := (rdS s b.toNat).toNat
    let answers := fun (st : Word) (t : State) => ∃ u, exec (.tlbiFq d a b x) s = .next u ∧
      RegisterStep q { s := scalW d.toNat (execMask s (some x)) st } t u
    let closes := fun (P : State → Prop) => ∃ t, P t ∧ answers 0 (closeRecord home ix t)
    let stands := exec (.tlbiFq d a b x) s = .next (giveUp s)
    let kind := (look s.mem (reservedAt home (64 * ix))).toNat
    let informs := (ix + 4096 - fqHead s home % 4096) % 4096 < (fqTail s home + 2 ^ 32 - fqHead s home) % 2 ^ 32 ∧ 4 ≤ kind ∧ kind ≤ 6
    mayIssue q s = true → execMask s (some x) ≠ 0 →
    (40 ≤ home → answers 1 s) ∧
    (home < 40 → (∀ y ∈ (homeOf home s).live, y.1 ≠ ix) → if informs then answers 2 s else answers 1 s) ∧
    ∀ f k inc, home < 40 → ((homeOf home s).live.find? fun y => y.1 == ix) = some (ix, f, k, inc) →
      let fresh := inc = (dieOf k.die s).incarn
      let again := fun (h c : Nat) => if fqFull s h then stands else
        closes fun t => fresh → (homeOf h s).mig = none → Recorded { f with home := h, code := c, flags := f.flags % 8 } k s t
      (2 < disp ∨ (disp = 2 ∧ (f.kind ≠ 2 ∨ f.code = 0x19)) → answers 2 s) ∧
      (disp < 2 → ¬fresh ∨ (f.kind = 1 ∧ parkedBy s k f = none) ∨ (f.kind ≠ 1 ∧ f.kind ≠ 2 ∧ stoppedStream s k f = none) → closes (· = s)) ∧
      (∀ p, disp < 2 → fresh → f.kind = 1 → parkedBy s k f = some p →
        let v := modGang (fun g => { g with park := none }) { focusGang k s with frag := p.slices }
        let v' := match p.id with
          | some id => retireGang (completePart id 1 v)
          | none => v
        if disp = 0 then closes (· = onGang k (modGang fun g => { g with park := none, redo := if p.id.isSome then some p else none }) s)
        else trapReady v' = true → closes fun t => ∃ z, t = { focusGang s.gang.key z with frag := s.frag } ∧ TrapTaken p.code p.mask p.addr (herePos v') v' z) ∧
      (disp < 2 → fresh → f.kind = 2 →
        closes (· = resolved (if disp = 1 then some (if f.code = 0x19 then 0x19 else 0x18) else none) k f s)) ∧
      (∀ m va, disp < 2 → fresh → f.kind ≠ 1 → f.kind ≠ 2 → stoppedStream s k f = some (m, va) →
        closes (· = onDie k.die (onCore k.die k.core (if disp = 1 then abandonCmd m f.id f.code va else modCmd m f.id fun c => { c with stopped := none })) s)) ∧
      (disp = 2 → f.kind = 2 → f.code ≠ 0x19 →
        if unitWaits s f.ctx.toNat f.addr then stands else match xlateUnit s f.ctx.toNat f.addr .store with
        | .ok h key =>
          let w := coreOrdered (sectorCells f key) (useEntry true f.ctx.toNat f.addr s)
          if boundFrame s key then again h 0x19 else closes fun t => (fresh → t = goesOn k f w) ∧ (¬fresh → t = w)
        | .remote _ link pctx pva =>
          let w := replayRemote k f link pctx pva s
          closes fun t => (fresh → t = goesOn k f w) ∧ (¬fresh → t = w)
        | .fault h c => again h c
        | _ => again f.home 0x10)) ∧
  (∀ s home ix, let u := closeRecord home ix s
    (∀ y, y ∈ (homeOf home u).live ↔ y ∈ (homeOf home s).live ∧ y.1 ≠ ix) ∧ (look u.mem (reservedAt home (64 * ix + 2))).getLsbD 3 = true ∧
    u.gang = s.gang ∧ u.gangs = s.gangs ∧ u.block = s.block ∧ u.blocks = s.blocks) ∧
  (∀ s n id code va c, ((streamOf s.core n).find? fun y => y.id == id) = some c → (issuerOf s c).isSome = true → c.gang = s.gang.key →
    (⟨code, va, c.pos⟩ : Delivery) ∈ (abandonCmd n id code va s).gang.deliver) ∧
  (∀ s cells, (cells.map (·.1)).Nodup → (∀ h, (homeOf h s).mig = none) →
    (∀ c ∈ cells, look (coreOrdered cells s).mem c.1 = c.2) ∧ s.core.lclk.toNat ≤ (coreOrdered cells s).core.lclk.toNat) ∧
  (∀ k f link pctx pva s, ∃ new, (replayRemote k f link pctx pva s).remotes = s.remotes ++ new ∧
    new.map (fun r => (r.link, r.gang, r.id, r.write, r.addr, r.bytes)) = (sectorRuns f).map fun x =>
      (link, k, f.id, true, f.addr + BitVec.ofNat 64 x.1, (List.range x.2).map fun i => f.data.getD (x.1 + i) 0))

/-- 16 R368, R369: FRMIG has its home copy a frame to a spare, in ascending lines, rewrites its leaf, ends the migration and lists bad frames.
The model's own choices in it: log 28, 29, 30. -/
def Obligations.FrmigCompletes : Prop :=
  (∀ d a x s home pa i, let q := frmigReq x d a []
    let h := homeOf home s
    let sp := spareFrame i
    let marks := (List.range 16).map fun j => dirtyBit (home * Config.stackBytes + sp * 65536 + 4096 * j)
    let t := modHome home (fun h => { h with mig := some ⟨pa / 65536, sp, 0, false, false⟩, spares := sp :: h.spares }) s
    mayIssue q s = true → execMask s (some x) ≠ 0 → frameNamed s (rdSS s a.toNat) 65536 = .ok (home, pa) → h.mig = none →
    ((List.range 256).find? fun i => !h.spares.contains (spareFrame i) && !h.bad.any fun b => b.1 == spareFrame i) = some i →
    ∃ u, exec (.frmigCopy d a x) s = .next u ∧
      RegisterStep q { s := scalPairW d.toNat (execMask s (some x)) (BitVec.ofNat 32 sp ++ (0 : Word) : DWord) }
        (marks.foldl (fun s x => orByte x.1 (1 <<< x.2) s) t) u ∧ ∀ x ∈ marks, (look u.mem x.1).getLsbD x.2 = true) ∧
  (∀ s home g, (homeOf home s).mig = some g → g.lines < 512 → g.old ≠ g.spare → g.old < 2 ^ 20 → g.spare < 2 ^ 20 →
    let u := copyLine home s
    let src := home * Config.stackBytes + g.old * 65536 + 128 * g.lines
    let dst := home * Config.stackBytes + g.spare * 65536 + 128 * g.lines
    (homeOf home u).mig = some { g with lines := g.lines + 1 } ∧
    (∀ k, look u.mem k = if dst ≤ k ∧ k < dst + 128 then look s.mem (src + (k - dst)) else look s.mem k) ∧
    (∀ i, i < 4 → (dst / 32 + i ∈ u.poison ↔ src / 32 + i ∈ s.poison)) ∧
    (g.lines = 511 → (⟨s.clk, .none, .frmigCopyDone home⟩ : Due) ∈ u.agenda)) ∧
  (∀ d a b x s home pa lpa g, let q := frmigReq x d a (pair b.toNat)
    let key := home * Config.stackBytes + lpa
    let e := leNat (readBytes s.mem key 8)
    let covers := fun (t : TlbEntry) => t.remote.isNone && decide (t.pa ≤ pa) && decide (pa < t.pa + 2 ^ t.sz)
    let leaf := coreOrdered (cellsAt key (leBytes 8 (e - g.old * 65536 + g.spare * 65536))) s
    let t := removeEntries home covers (markStale home (fun _ => true) (modHome home (fun h => { h with mig := some { g with committed := true } }) leaf))
    mayIssue q s = true → execMask s (some x) ≠ 0 → ownSettles s = [] → frameNamed s (rdSS s a.toNat) 65536 = .ok (home, pa) →
    frameNamed s (rdSS s b.toNat) 8 = .ok (home, lpa) → (homeOf home s).mig = some g → g.old = pa / 65536 → g.copied = true →
    e.testBit 0 = true → e.testBit 1 = false → fld e 16 20 = g.old → largeLeaf s home lpa = false →
    ∃ u, exec (.frmigCommit d a b x) s = .next u ∧
      if (ownSettles t).all (settled t) = true then
        RegisterStep q { s := scalPairW d.toNat (execMask s (some x)) 0 }
          { t with homes := t.homes.map fun h => { h with settling := h.settling.filter fun y => y.who != issuerTag t } } u
      else u = giveUp t) ∧
  (∀ d a x s home pa g, let q := frmigReq x d a []
    mayIssue q s = true → execMask s (some x) ≠ 0 → frameNamed s (rdSS s a.toNat) 65536 = .ok (home, pa) →
    (homeOf home s).mig = some g → g.old = pa / 65536 →
    ∃ u cause, exec (.frmigEnd d a x) s = .next u ∧ (cause = 1 ∨ cause = 2) ∧ (pa / 65536 ∈ (homeOf home s).lost → cause = 2) ∧
      (pa / 65536 ∉ (homeOf home s).lost → (∃ y ∈ (homeOf home s).corr, y.1 = pa / 65536 ∧ 16 ≤ y.2) → cause = 1) ∧
      let r := listBad home (pa / 65536) cause (modHome home (fun h => { h with mig := none }) { s with free := s.free + 1 })
      RegisterStep q { s := scalPairW d.toNat (execMask s (some x)) (BitVec.ofNat 64 r.1) } r.2 u) ∧
  (∀ d a x s home pa, let q := frmigReq x d a []
    let r := listBad home (pa / 65536) 3 s
    mayIssue q s = true → execMask s (some x) ≠ 0 → frameNamed s (rdSS s a.toNat) 65536 = .ok (home, pa) →
    ∃ u, exec (.frmigBad d a x) s = .next u ∧ RegisterStep q { s := scalPairW d.toNat (execMask s (some x)) (BitVec.ofNat 64 r.1) } r.2 u)

/-- 04 R85 to R87, 05 R120, 18 R393, 12 R267, 19 R413: a clause header. An uncorrectable error in an entry of its slices kills the block. Unresolved deferred stores hold it, then come a delivery, a
breakpoint and its own checks; a gang of a redundant launch sends its record; then it waits for its counters or begins the clause.
The model's own choices in it: log 27. -/
def Obligations.ClauseHeadersComplete : Prop := ∀ h s, s.gang.live = true →
  ((∃ k, ErrMark.split k ∈ s.gang.errs ∧ s.frag.getLsbD k = true) → (∃ b, blockOf s.gang.blk s = some b ∧ b.st ≠ .ended) → ∃ u, exec (.clauseHeader h) s = .next u ∧ ∀ g ∈ allGangs u, g.blk ≠ s.gang.blk) ∧
  ((∀ k, ErrMark.split k ∈ s.gang.errs → s.frag.getLsbD k = false) →
  (s.gang.defer ≠ [] → exec (.clauseHeader h) s = .next (giveUp s)) ∧
  (∀ d ds, s.gang.defer = [] → s.gang.deliver = d :: ds → trapReady s = true →
    ∃ u, exec (.clauseHeader h) s = .next u ∧ TrapTaken d.code d.info d.addr (herePos s) (modGang (fun g => { g with deliver := ds }) s) u) ∧
  (s.gang.defer = [] → (s.gang.frame = none → s.gang.deliver = []) →
    (∀ n, breakpointAt s (herePos s) = some n → trapReady s = true →
      ∃ u, exec (.clauseHeader h) s = .next u ∧ TrapTaken 0x52 (BitVec.ofNat 32 n) 0 (herePos s) s u) ∧
    (∀ e, breakpointAt s (herePos s) = none → headerBad h = some e → trapReady s = true →
      ∃ u, exec (.clauseHeader h) s = .next u ∧ TrapTaken e.1 e.2 0 (herePos s) s u) ∧
    (breakpointAt s (herePos s) = none → headerBad h = none → folding s = true → fld h.toNat 17 2 ≠ 3 → (cur s).wait ≠ .header → s.gang.rel = .none →
      exec (.clauseHeader h) s = .next (giveUp (sendRecord 8 s))) ∧
    (breakpointAt s (herePos s) = none → headerBad h = none → (folding s = false ∨ fld h.toNat 17 2 = 3 ∨ (cur s).wait = .header) →
      ∃ u, exec (.clauseHeader h) s = .next u ∧
        if headerMet s.gang h = false then Waits (req1 0xF1) .header (relDone s) u
        else RegisterEffect (req1 0xF1) {} (relDone s) u ∧
          ∀ k, s.frag.getLsbD k = true → k < s.gang.split.length →
            entryOf u.gang k = { entryOf s.gang k with ix := 1, left := hdrLen h, hdr := h, wait := .none })))

/-- 02 R35, R54, 04 R87, R94, 12 R282, 13 R306, 17 R383: what befalls slices between issues: a header wait is met, slices that wait
at reconvergence are released, a WAITV loads again, a fragment is boosted, a starvation timer expires (an abandoned BAR withdraws its arrival), and a reserved opcode traps.
The model's own choices in it: log 4, 67, 85. -/
def Obligations.SliceEventsComplete : Prop :=
  (∀ s, exec .headerWaitMet s = .next { s with gaveUp := s.gaveUp.filter fun x => decide (x.1 ≠ s.gang.key) }) ∧
  (∀ k rpc s, slotThere k = true → ActsOn k (.reconvergenceRelease k rpc) s fun t u =>
    if t.gang.live = true ∧ reconReady t.gang rpc = true then
      SplitStep (fun j => if (entryOf t.gang j).st = .recon ∧ (entryOf t.gang j).rpc = rpc
        then { entryOf t.gang j with fu := true, rpc := noPos, st := .ready, wait := .none, since := t.clk } else entryOf t.gang j) t u
    else u = t) ∧
  (∀ s, ∃ u, exec .waitvReloadTimeout s = .next u ∧
    SplitStep (fun k => match (entryOf s.gang k).wait with
      | .value .ts key t ext held => if k < s.gang.slices ∧ t ≤ s.clk then { entryOf s.gang k with wait := .value .ts key 0 ext held } else entryOf s.gang k
      | _ => entryOf s.gang k) s u) ∧
  (∀ k n s, slotThere k = true → ActsOn k (.boost k n) s fun t u =>
    if t.gang.live = true ∧ 64 ≤ (entryOf t.gang n).elig ∧ (entryOf t.gang n).boost = none then
      SplitStep (fun j => if j = n then { entryOf t.gang j with boost := some t.clk } else entryOf t.gang j)
        (modCore (perfAdd 6 (gangFilter t t.gang) 1) t) u
    else u = t) ∧
  (∀ s, let fr := waitingFrag s
    let given := modSplit fr SplitEntry.giveWait (leaveBar fr (modGang (fun g => { g with timer := 0 }) s))
    let k := s.gang.key
    let freed := later 0 .none (.growGrant k.die k.core k.part) (modCore (fun c => { c with parts := modNth c.parts k.part fun p =>
      { p with growq := p.growq.filter fun q => !(q.1 == k.slot && fr.getLsbD q.2.1) } }) given)
    s.gang.live = true → fr ≠ 0 → (dieOf s.gang.key.die s).strvt.toNat ≤ s.gang.timer →
    ∃ u, exec .starvationTimerExpiry s = .next u ∧
      if classOfLaunch s = .w then
        u = modCore (perfAdd 10 (gangFilter s s.gang) 1) (modGang (fun g => { g with timer := 0, starve := min (g.starve + 1) 0xFFFF }) s)
      else trapReady s = true →
        TrapTaken 0x21 (BitVec.ofNat 32 (waitMajor s (entryOf s.gang (lowSlice fr)))) 0 (herePos { freed with frag := fr }) { freed with frag := fr } u) ∧
  (∀ s fr n ph, (entryOf s.gang (lowSlice fr)).wait = .bar n ph .counted → n < s.block.bars.length →
    (∀ k, fr.getLsbD k = false → (entryOf s.gang k).wait ≠ .bar n ph .again) →
    let b := nth Barrier.reset s.block.bars n
    let b' := nth Barrier.reset (leaveBar fr s).block.bars n
    b.ph = ph → b'.ph = ph ∧ b'.arr = b.arr - 1 ∧ ∀ g, g < 32 → lane b'.curm g = (lane b.curm g && g != s.gang.gno)) ∧
  (∀ w s, s.gang.live = true → trapReady s = true →
    ∃ u, exec (.reservedOpcodeIssue w) s = .next u ∧ TrapTaken 0x02 (BitVec.ofNat 32 (w.toNat % 256)) 0 (herePos s) s u)

/-- 11 R251, 10 R239, R241, R245, 16 R355, 17 R387: what takes effect at a time of its own: a tick of a logical clock, a refresh window,
a re-partition, retention, SMPLCFG and VDTB.
The model's own choices in it: log 4, 12. -/
def Obligations.TimedChangesComplete : Prop :=
  (∀ s, exec .lclkTick s = .next { s with core := { s.core with lclk := s.core.lclk + 1 } }) ∧
  (∀ s, exec .wsRefreshWindow s = .next { s with gaveUp := s.gaveUp.filter fun x => decide (x.1.die ≠ s.die.die) }) ∧
  (∀ d v s, dieThere d = true → ActsIn d (.waypWrite d v) s fun t u =>
    let w := v.toNat % 16
    if 12 < w ∨ t.die.repart.isSome ∨ w = t.die.wayp then u = t
    else u.die.wayp = w ∧ u.die.repart = some ⟨t.die.wayp, w, 0, 0⟩ ∧ u.die.lines = t.die.lines ∧ u.die.dirty = t.die.dirty ∧
      u.die.ts = t.die.ts ∧ if t.die.wayp < w then u.die.tsize = t.die.tsize ∧ u.agenda = t.agenda
      else u.die.tsize = w * 2 ^ 20 ∧ ∃ e ∈ u.agenda, e.ev = .repartitionComplete d ∧ e.clk = s.clk + 64) ∧
  (∀ d s, dieThere d = true → ActsIn d (.repartitionComplete d) s fun t u =>
    match t.die.repart with
    | none => u = t
    | some r => u.die.repart = none ∧ u.die.tsize = r.new * 2 ^ 20 ∧ u.die.wayp = t.die.wayp ∧
      ∀ k, k < 2 ^ 24 → look u.die.ts k = if k < min r.old r.new * 2 ^ 20 then look t.die.ts k else 0) ∧
  (∀ d v s, dieThere d = true → ∃ u, exec (.retnWrite d v) s = .next u ∧
    (dieOf d u).retnScr = v.getLsbD 0 ∧ (dieOf d u).retnAccs = v.getLsbD 1 ∧
    ∀ c ∈ allCores (focusDie d s), c.die = d →
      (v.getLsbD 0 = false → c.scr.retained = true → c.scr.busy = none → ∃ e ∈ u.agenda, e.ev = .retentionExit d c.core false ∧ e.clk = s.clk + 1536) ∧
      (v.getLsbD 1 = false → c.accr.retained = true → c.accr.busy = none → ∃ e ∈ u.agenda, e.ev = .retentionExit d c.core true ∧ e.clk = s.clk + 1536)) ∧
  (∀ d c acc s, coreThere d c = true → ActsAt d c (.retentionEntry d c acc) s fun t u =>
    let r := if acc then t.core.accr else t.core.scr
    let n := if acc then 1366 else 2048
    let on := if acc then (dieOf d t).retnAccs else (dieOf d t).retnScr
    let changed := fun (r : Retain) => modCore (fun c => if acc then { c with accr := r } else { c with scr := r }) t
    if r.retained = true then u = t
    else match r.busy with
    | none => if on = true ∧ r.last + 65536 ≤ t.clk
        then u = later n .none (.retentionEntry d c acc) (changed { r with busy := some (t.clk + n) }) else u = t
    | some e => if e ≤ t.clk then u = changed { r with retained := true, busy := none } else u = t) ∧
  (∀ d c acc s, coreThere d c = true → ActsAt d c (.retentionExit d c acc) s fun t u =>
    let r := if acc then t.core.accr else t.core.scr
    if r.retained = true ∧ (r.busy.any fun e => decide (e ≤ t.clk)) = true
    then u = modCore (fun c => if acc then { c with accr := ⟨t.clk, false, none⟩ } else { c with scr := ⟨t.clk, false, none⟩ }) t else u = t) ∧
  (∀ d c v s, coreThere d c = true → ActsAt d c (.smplcfgWrite d c v) s fun t u =>
    u = modCore (fun c => { c with smplcfg := v &&& 0x3F, smpln := if v.getLsbD 5 && !c.smplcfg.getLsbD 5 then 0 else c.smpln }) t) ∧
  (∀ a s, match readVdt s a with
    | none => exec (.vdtbWrite a) s = .next s
    | some (c, t) =>
      if c = 0 ∨ (s.launches.any fun l => l.ctx.toNat == c && decide (l.st ≠ .complete)) = true then exec (.vdtbWrite a) s = .next s
      else ∃ u, exec (.vdtbWrite a) s = .next u ∧ (ctxOf c u).vdt = some t ∧ (ctxOf c u).vers = (ctxOf c s).vers ∧
        (∀ e, e ≠ c → ctxOf e u = ctxOf e s) ∧ { u with contexts := [] } = { s with contexts := [] })

/-- 17 R375, 12 R269, R270, R288, 08 R204, R206, 18 R398: accesses and results complete in their entries, and held stores are released.
The model's own choices in it: log 5, 26, 90. -/
def Obligations.AccessesFinish : Prop :=
  let entry := fun (t : State) (id : Nat) => t.gang.pend.find? fun p => p.id == id
  (∀ k id p s, slotThere k = true → let t := focusGang k s
    t.gang.live = true → entry t id = some p →
    if p.cls = .none ∧ p.flush ≠ [] then ActsOn k (.resultWriteback k id) s fun t u => u = later 1 (.gang k) (.resultWriteback k id) t
    else p.tells = false ∨ folding t = false → ActsOn k (.resultWriteback k id) s (PartDone p)) ∧
  (∀ k id p s, slotThere k = true → let t := focusGang k s
    t.gang.live = true → entry t id = some p → ActsOn k (.loadComplete k id) s (PartDone p)) ∧
  (∀ d s, dieThere d = true → let x := dieOf d s
    let u := dropStale x s
    (dieOf d u).stalersp = BitVec.ofNat 32 (min (x.stalersp.toNat + (x.stale.filter (· ≤ s.clk)).length) (2 ^ 32 - 1)) ∧
      (dieOf d u).stale = x.stale.filter (s.clk < ·) ∧ (∀ e, e ≠ d → dieOf e u = dieOf e s) ∧ u.mem = s.mem ∧ u.gang = s.gang ∧ u.core = s.core) ∧
  (∀ k id p s, slotThere k = true → let t := focusGang k s
    t.gang.live = true → entry t id = some p → (p.cls ≠ .st ∨ p.flush = [] ∨ p.bytes ≠ []) →
    ActsOn k (.storeAccepted k id) s (PartDone p)) ∧
  (∀ k id p s, slotThere k = true → let t := focusGang k s
    t.gang.live = true → entry t id = some p → p.cls = .st → p.flush ≠ [] → p.bytes = [] →
    ActsOn k (.storeAccepted k id) s fun t u =>
      if flushWaits t id = true then u = later 1 (.gang k) (.storeAccepted k id) t
      else u = later (((p.flush.map fun x => homeTrip k.die (homeOfKey (128 * x.1)) + (if x.2 = 2 then 150 else 0)).max?).getD 1) .none (.storeAccepted k id)
        (modGang (fun g => { g with pend := g.pend.map fun q => if q.id = id then { q with parts := q.parts - 1, flush := [], reqs := p.flush.length } else q })
          (p.flush.foldl (fun s x => pushLine x.1 x.2 s) t))) ∧
  (∀ k id p s, slotThere k = true → let t := focusGang k s
    (t.gang.pend.find? fun p => p.id == id && !p.bytes.isEmpty) = some p → (∀ b ∈ p.bytes, b.1 = .core) → noValueWaits t = true → (folding t = true → muckRoom t 0 = true) →
    let core := p.bytes.map fun b => (b.2.1, b.2.2)
    let done := modGang (fun g => { g with pend := g.pend.map fun q => if q.id = id then { q with bytes := [], flush := [] } else q })
    (t.gang.pend.find? fun p => p.id == id) = some p →
    ActsOn k (.mstComplete k id) s fun t u => PartDone { p with bytes := [], flush := [] } (withScratch u (done t)) u ∧
      (∀ i, look u.block.scratch i = (lastCell core i).getD (look t.block.scratch i)) ∧
      u.block.fresh = t.block.fresh.map fun x => (x.1, x.2.1, x.2.2.filter fun c => !core.any fun d => d.1 == c.1)) ∧
  (∀ k id p s, slotThere k = true → let t := focusGang k s
    (t.gang.pend.find? fun p => p.id == id && !p.bytes.isEmpty) = some p → (∀ b ∈ p.bytes, b.1 = .ts) → folding t = false →
    let ts := p.bytes.map fun b => (b.2.1, b.2.2)
    (t.gang.pend.find? fun p => p.id == id) = some p →
    ActsOn k (.mstComplete k id) s fun t u => u.mem = t.mem ∧ u.block.scratch = t.block.scratch ∧
      (∀ i, i < t.die.tsize → look u.die.ts i = (lastCell ts i).getD (look t.die.ts i)) ∧
      u.gang.pend = retireDone (t.gang.pend.map fun q => if q.id = id then
        (if p.parts ≤ 1 then { q with bytes := [], flush := [], parts := 0, fin := true, writes := [] }
         else { q with bytes := [], flush := [], parts := q.parts - 1 }) else q) []) ∧
  (∀ d c s, coreThere d c = true → let t := focusCore d c (focusDie d s)
    let due := fun (e : Held) => e.matched && decide (e.clk + Config.sw ≤ t.clk)
    let out := t.core.muck.takeWhile due
    let cells := fun (b : Bool) => (out.filter fun e => e.writes && (e.ts == b)).flatMap (·.bytes)
    (∀ e ∈ out, e.remote = none) → (∀ x ∈ allCores t, ∀ e ∈ x.muck, e.writes = true) → (∀ h ∈ t.homes, h.mig = none) → t.core.muck.Pairwise (fun a b => a.wtime ≤ b.wtime) →
    ActsWithin d c (.quarantineRelease d c) s fun t u =>
      u.core.muck = t.core.muck.dropWhile due ∧
      (∀ k, bitmapByte k = false → look u.mem k = (lastCell (cells false) k).getD (look t.mem k)) ∧
      (t.die.die = d → ∀ k, k < t.die.tsize → look u.die.ts k = (lastCell (cells true) k).getD (look t.die.ts k)) ∧
      ∀ e ∈ out, ∀ id, e.id = some id → ∃ x ∈ u.agenda, x.ev = .storeAccepted e.gang id)

/-- 14 R311 to R313, R326, 08 R196, R198, R210, 03 R82, R83: what engines complete. A command of a copy engine goes on with its granules;
once the last has landed its slot is published, its issuer's entry completes and the next command starts. A shadow plane or a codebook becomes ready; a stream row writes its sixteen
elements, each summed from zero or from what its accumulator held, and no other element.
The model's own choices in it: log 4. -/
def Obligations.EngineResultsComplete : Prop :=
  (∀ d c n s cmd, coreThere d c = true → n < 5 → let t := focusCore d c (focusDie d s)
    dueCmd t n = none → activeCmd (streamOf t.core n) = some cmd → cmd.stopped = none →
    ActsWithin d c (.copyComplete d c n) s fun t u => u = runMoves n cmd.id ((cmd.moves.map (·.len)).sum + 1) t) ∧
  (∀ d c n s cmd rest, coreThere d c = true → n < 5 → let t := focusCore d c (focusDie d s)
    streamOf t.core n = cmd :: rest → n < t.core.cmds.length → cmd.moves = [] → cmd.far = [] → cmd.start.isSome = true → cmd.till ≤ t.clk →
    cmd.ws = false → cmd.peers = [] → cmd.racy = [] → (∀ x ∈ rest, x.id ≠ cmd.id) → (∀ b, blockOf cmd.blk t = some b → b.replay = false) →
    let fill := fun (c : Core) => match cmd.ring with
      | none => c
      | some (r, slot) =>
        let put := fun (d : Ring) => { d with phases := modNth d.phases slot (· + 1), filled := d.filled + 1 }
        { c with rings := modNth c.rings r put }
    ActsWithin d c (.copyComplete d c n) s fun t u =>
      u = startStream n (reapBlock cmd.blk (onGang cmd.gang (fun s => retireGang (completePart cmd.id 1 s))
        (modCore (fun c => let c := fill { c with cmds := modNth c.cmds n fun _ => rest }
          { c with lclk := max64 c.lclk cmd.wt }) (noteTime cmd.blk.name cmd.wt t))))) ∧
  (∀ rs clk c q, startCmds rs clk [] = [] ∧ startCmds rs clk (c :: q) = { c with start := c.start.or (some clk) } ::
    if c.moves = [] ∧ (∀ r ∈ rs, r.write = false → r.tag ∉ c.far) then startCmds rs clk q else q) ∧
  (∀ d c s, coreThere d c = true → ActsAt d c (.shadowPlaneReady d c) s fun t u => u = modCore (fun c => { c with shadowReady := true }) t) ∧
  (∀ d c s, coreThere d c = true → ActsAt d c (.codebookReady d c) s fun t u => u = modCore (fun c => { c with cbWait := c.cbWait.filter fun x => decide (t.clk < x.2) }) t) ∧
  (∀ d c s st row more, coreThere d c = true → let t := focusCore d c (focusDie d s)
    (t.core.streams.find? fun x => !x.rows.isEmpty) = some st → st.rows = row :: more → st.twin ≠ 2 →
    let tile := st.tile + st.next / 16
    let r := st.next % 16
    let start := fun n => if st.ow then 0 else (look t.core.acc (accKey tile r n)).toNat
    let own := fun n => planeSum st st.pl st.cbl row 0 n (start n)
    let sum := fun n => if st.twin = 1 then planeSum st st.pf st.cbf row (row.1.length / 2) n (own n) else own n
    ActsWithin d c (.streamRowWritten d c) s fun t u =>
      (∀ k, look u.core.acc k = if accKey tile r 0 ≤ k ∧ k < accKey tile r 16 then BitVec.ofNat 32 (sum (k - accKey tile r 0)) else look t.core.acc k) ∧
      u = modCore (fun c => { c with
        acc := u.core.acc
        marks := c.marks.filter fun e => !ArrayMark.within (accKey tile r 0) (accKey tile r 16) e
        streams := c.streams.map fun x => if x.id = st.id then { st with next := st.next + 1, rows := more, times := st.times.drop 1 } else x }) t) ∧
  (∀ d c s st row more, coreThere d c = true → let t := focusCore d c (focusDie d s)
    (t.core.streams.find? fun x => !x.rows.isEmpty) = some st → st.rows = row :: more → st.twin = 2 →
    ActsWithin d c (.streamRowWritten d c) s fun t u =>
      u = modCore (fun c => { c with streams := c.streams.map fun x =>
        if x.id = st.id then { st with next := st.next + 1, rows := more, times := st.times.drop 1 } else x }) (writeRow st row t)) ∧
  (∀ d c s, coreThere d c = true → ((focusCore d c (focusDie d s)).core.streams.all fun x => x.rows.isEmpty) = true →
    ActsWithin d c (.streamRowWritten d c) s fun t u => u = t)

/-- 12 R266 to R268, 14 R313, 16 R365, R359, 11 R258, 18 R404: faults that homes record, remote accesses that time out, and those of peers.
A full queue refuses a record: its request is made again after 256 clk, and after twice as many each time up to 4,096, each retry counted; it is then
translated afresh, and goes on where it faults no longer.
The model's own choices in it: log 23, 28. -/
def Obligations.HomeFaultsComplete : Prop :=
  let still := fun (s : State) (h : Nat) => (homeOf h s).mig = none ∧ Memory.wf s.mem = true
  let tries := fun (f : HomeFault) (w : Waiter) (s : State) => triesOf (homeOf f.home s) f.ctx.toNat false f.addr.toNat w
  let setTo := fun (f : HomeFault) (w : Waiter) (n : Nat) (s : State) => modHome f.home (setTries f.ctx.toNat false f.addr.toNat w n) s
  let refused := fun (f : HomeFault) (w : Waiter) (ev : Instr) (s : State) =>
    later (min 4096 (256 * 2 ^ tries f w s)) .none ev (setTo f w (tries f w s + 1) s)
  (∀ h c st g w n, triesOf (setTries c st g w n h) c st g w = n ∧ ∀ c' st' g' w', ¬(c' = c ∧ st' = st ∧ g' = g ∧ w' = w) →
    triesOf (setTries c st g w n h) c' st' g' w' = triesOf h c' st' g' w') ∧
  (∀ k f s, slotThere k = true → f.home < 40 → still s f.home → let w : Waiter := ⟨k, none⟩
    let ev := Instr.homeLoadFault k
    (tries f w s = 0 → if fqFull s f.home = true then exec (ev f) s = .next (refused f w (ev f) s) else ∃ u, exec (ev f) s = .next u ∧ Recorded f k s u) ∧
    (0 < tries f w s → let t := countRetry w s
      (∀ h p, xlateUnit t f.ctx.toNat f.addr .load = .ok h p → exec (ev f) s = .next (resolveLoad false k f (setTo f w 0 t))) ∧
      ∀ h x, xlateUnit t f.ctx.toNat f.addr .load = .fault h x → let f' := { f with code := x }
        if fqFull t f.home = true then exec (ev f) s = .next (refused f' w (ev f') t) else ∃ u, exec (ev f) s = .next u ∧ Recorded f' k t u)) ∧
  (∀ k f s, slotThere k = true → f.home < 40 → still s f.home → let w : Waiter := ⟨k, none⟩
    let ev := Instr.deferredStoreFault k
    let gone := !((allGangs s).any fun g => g.key == k && ((g.pend.any fun p => p.id == f.id) || g.defer.any fun x => x.id == f.id))
    (tries f w s = 0 → if fqFull s f.home = true then exec (ev f) s = .next (refused f w (ev f) s)
      else ∃ v, Recorded { f with flags := f.flags + 4 * bnat gone } k s v ∧
        (gone = true → (focusGang k v).gang.live = false → exec (ev f) s = .next (focusGang s.gang.key (focusGang k v))) ∧
        ∀ p, (focusGang k v).gang.live = true → ((focusGang k v).gang.pend.find? fun p => p.id == f.id) = some p →
          ∃ u, exec (ev f) s = .next (focusGang s.gang.key u) ∧ PartDone p (focusGang k v) u) ∧
    (0 < tries f w s → let t := countRetry w s
      (∀ h p, xlateUnit t f.ctx.toNat f.addr .store = .ok h p → boundFrame t p = false →
        exec (ev f) s = .next (finishOf k f.id 1 (resolveStore none k f (onDie k.die (onCore k.die k.core (coreOrdered (sectorCells f p))) (setTo f w 0 t))))) ∧
      ∀ h x, xlateUnit t f.ctx.toNat f.addr .store = .fault h x → fqFull t f.home = true → let f' := { f with code := x }
        exec (ev f) s = .next (refused f' w (ev f') t))) ∧
  (∀ d c n f s, coreThere d c = true → n < 5 → f.home < 40 → still s f.home →
    let k := (((streamOf (coreOf d c s) n).find? fun x => x.id == f.id).map (·.gang)).getD ⟨d, c, 0, 0⟩
    let w : Waiter := ⟨k, some n⟩
    let ev := Instr.engineAccessFault d c n
    tries f w s = 0 → if fqFull s f.home = true then exec (ev f) s = .next (refused f w (ev f) s) else ∃ u, exec (ev f) s = .next u ∧ Recorded f k s u) ∧
  (∀ (tag : Nat) (s : State), match s.remotes.find? fun r => r.tag == tag with
    | none => exec (.remoteTimeout tag) s = .next s
    | some r => let fewer : State := { s with remotes := s.remotes.filter fun x => x.tag != tag }
      let unsent := (linkOf r.link s).queued.any fun x => match x.2 with | .req q => q.tag == tag | _ => false
      if unsent = true then exec (.remoteTimeout tag) s = .next (later Config.remoteTimer .none (.remoteTimeout tag) s)
      else if s.clk < r.sent + Config.remoteTimer then exec (.remoteTimeout tag) s = .next (later (r.sent + Config.remoteTimer - s.clk) .none (.remoteTimeout tag) s)
      else if r.old = true then exec (.remoteTimeout tag) s = .next fewer
      else match r.dst, r.engine with
      | .after name i, some (d, _, _) => exec (.remoteTimeout tag) s = .next (answerSample tag none (answerAfter r d name i none 0x16 s))
      | _, some (d, c, n) => exec (.remoteTimeout tag) s = .next (answerSample tag none (failEngine r d c n 0x16 s))
      | _, none => if r.write = false then exec (.remoteTimeout tag) s = .next (answerSample tag none (failAsked r 0x16 s))
        else let t := focusGang r.gang (endFence r.gang fewer)
          ∀ p, t.gang.live = true → (t.gang.pend.find? fun p => p.id == r.id) = some p →
          ∃ u, exec (.remoteTimeout tag) s = .next (answerSample tag none (focusGang s.gang.key u)) ∧
            PartDone p (modGang (fun g => { g with deliver := g.deliver ++ [⟨0x16, r.addr, r.pos⟩] }) t) u) ∧
  (∀ k s, let open' := fun (w : Bool) => ∃ r ∈ s.remotes, r.gang = k ∧ r.engine = none ∧ r.write = w
    ∀ g ∈ allGangs s, g.key = k → ∃ g' ∈ allGangs (endFence k s), g'.key = k ∧
      (g'.fenceLd = true ↔ g.fenceLd = true ∧ open' false) ∧ (g'.fenceSt = true ↔ g.fenceSt = true ∧ open' true)) ∧
  (∀ (link : Nat) (q : RemoteReq) (s : State), link < 16 →
    let ev := Instr.inboundRemoteAccess link q
    let c := q.ctx.toNat
    let w : Waiter := ⟨⟨192 + link, 0, 0, 0⟩, none⟩
    let t := useEntry true c q.addr s
    if unitWaits s c q.addr = true then exec ev s = .next (later 1 .none ev s)
    else
    let refused := fun (h code : Nat) =>
      let n := triesOf (homeOf h t) c false q.tag w
      if fqFull t h = true then exec ev s = .next (later (min 4096 (256 * 2 ^ n)) .none ev (modHome h (setTries c false q.tag w (n + 1)) t))
      else ∃ v, exec ev s = .next (sendLink link (.nack q.tag code) v) ∧ (still t h → h < 40 → fqTail v h = (fqTail t h + 1) % 2 ^ 32)
    match xlateUnit t c q.addr (if q.write then .store else .load) with
    | .ok h k =>
      (q.write = false → ((List.range q.size).any fun i => t.poison.contains (sectorOf (k + i))) = false →
        let at' := max64 (linkOf link t).lclk (wtOf t (lineOf k))
        if heldBefore t k q.size at' = true then exec ev s = .next (later 1 .none ev t)
        else ∃ u, exec ev s = .next (sendLink link (.answer q.tag (readBytes t.mem k q.size)) u q.copy) ∧ u.mem = t.mem ∧ (linkOf link u).lclk = at') ∧
      (q.write = false → ((List.range q.size).any fun i => t.poison.contains (sectorOf (k + i))) = true → refused h 0x32) ∧
      (q.write = true → boundFrame t k = false → let r := homeOrdered (linkOf link t).lclk (cellsAt k q.data) t
        exec ev s = .next (sendLink link (.answer q.tag []) (modLink link (fun l => { l with lclk := r.1 }) r.2) q.copy)) ∧
      (q.write = true → boundFrame t k = true → refused h 0x19)
    | .fault h code => refused h code
    | .remote h .. => refused h 0x11
    | _ => exec ev s = .next (sendLink link (.nack q.tag 0x10) t))

/-- 16 R357 to R360, R364, R368, 15 R348: misses of a home's TLB, walks, recalls, a migrating frame's copy, a retired version and a
home cache's write-back.
The model's own choices in it: log 12, 19, 32. -/
def Obligations.TranslationsComplete : Prop :=
  (∀ h c st g w s, missThere h c w = true → (tlbFind (homeOf h s) c st (g * 65536)).isSome = false →
    (((allGangs s).any fun x => x.key == w.gang) = true ∨ w.engine.isSome = true) →
    ∃ u, exec (.tlbMiss h c st g w) s = .next u ∧
      let retry := min 4096 (256 * 2 ^ triesOf (homeOf h s) c st g w)
      let again := ∃ e ∈ u.agenda, e.ev = .translationRetry h c st g w ∧ e.clk = s.clk + retry
      match (homeOf h s).recs.find? fun r => r.ctx == c && r.striped == st && r.gran == g with
      | some r =>
        if r.waiters.contains w = true then u = s
        else if 64 ≤ r.waiters.length then again ∧ (homeOf h u).recs = (homeOf h s).recs
        else (homeOf h u).recs = (homeOf h s).recs.map fun x => if x.num = r.num then { x with waiters := x.waiters ++ [w] } else x
      | none => match freeRecord (homeOf h s) with
        | none => again ∧ (homeOf h u).recs = (homeOf h s).recs
        | some n => (homeOf h u).recs = (homeOf h s).recs ++ [⟨n, c, st, g, [w], none, false⟩] ∧ (homeOf h u).walkq = (homeOf h s).walkq ++ [n] ∧
          ∃ e ∈ u.agenda, e.ev = .walkerStart h) ∧
  (∀ h c st g w s, missThere h c w = true → (tlbFind (homeOf h s) c st (g * 65536)).isSome = true →
    ∃ u, exec (.tlbMiss h c st g w) s = .next u ∧ (homeOf h u).recs = (homeOf h s).recs ∧
      ∀ n, w.engine = some n → ∀ c ∈ streamOf (coreOf w.gang.die w.gang.core u) n, c.asked = false) ∧
  (∀ h c st g w s, missThere h c w = true →
    let f := ((allGangs s).find? fun g => g.key == w.gang).elim 0 (gangFilter s)
    ∃ u, exec (.translationRetry h c st g w) s = .next u ∧ exec (.tlbMiss h c st g w) (onCore w.gang.die w.gang.core (modCore (perfAdd 17 f 1)) s) = .next u) ∧
  (∀ h n r s, h < 40 → (homeOf h s).walkq = [r.num] → ((homeOf h s).recs.find? fun x => x.num == r.num) = some r →
    (tlbFind (homeOf h s) r.ctx r.striped (r.gran * 65536)).isSome = false →
    ((List.range 8).find? fun n => !((homeOf h s).recs.any fun r => r.slot == some n) && !(allGangs s).any fun g => g.key == ⟨128 + h, n / 2, 0, n % 2⟩) = some n →
    ∃ u g, exec (.walkerStart h) s = .next u ∧ g ∈ allGangs u ∧ g.key = ⟨128 + h, n / 2, 0, n % 2⟩ ∧ g.level = .firmware ∧
      look g.s 16 = BitVec.ofNat 32 r.num ∧ look g.s 17 = BitVec.ofNat 32 r.ctx ∧ look g.s 20 = BitVec.ofNat 32 (bnat r.striped) ∧
      (∀ k, k < 8 → (entryOf g k).pc = s.walker) ∧ (homeOf h u).walkq = [] ∧
      (homeOf h u).recs = (homeOf h s).recs.map fun x => if x.num = r.num then { x with slot := some n } else x) ∧
  (∀ h s, h < 40 → (homeOf h s).walkq = [] → exec (.walkerStart h) s = .next s) ∧
  (∀ h d c lo len s, h < 40 → d < 40 → c < 65536 →
    let within := fun (k : Nat) => decide (lo ≤ k) && decide (k < lo + len)
    let back := s.clk + Config.hop * meshDist (dieSite d) (homeSite h)
    ∃ u, exec (.recallArrival h d c lo len) s = .next u ∧ (∀ k, bitmapByte k = false → look u.mem k = look s.mem k) ∧
      (∀ x ∈ allDies u, x.die = d → (∀ e ∈ x.dirty, within (32 * e.1) = false) ∧ ∀ l ∈ x.lines, within (128 * l.line) = false) ∧
      (∀ x ∈ allCores u, x.die = d → ∀ e ∈ x.l1, within (128 * e.line) = false) ∧
      (homeOf h u).settling = (homeOf h s).settling.map fun x =>
        if x.lo = lo ∧ x.len = len ∧ x.acks.contains d = true then { x with acks := x.acks.erase d, till := (d, back) :: x.till } else x) ∧
  (∀ h s, h < 40 → ∃ u, exec (.frmigCopyDone h) s = .next u ∧ u.mem = s.mem ∧ (∀ k, k ≠ h → homeOf k u = homeOf k s) ∧
    homeOf h u = { homeOf h s with mig := (homeOf h s).mig.map fun g => { g with copied := g.copied || decide (512 ≤ g.lines) } }) ∧
  (∀ c v s, c < 65536 → ∃ u, exec (.versionFree c v) s = .next u ∧
    if ((verIn s c v).any fun e => e.state == 3) = true ∧ holdOf s c v = 0 then
      (ctxOf c u).vers = ((ctxOf c s).vers.filter fun e => e.num != v) ∧ ∀ h ∈ u.homes, ∀ b ∈ h.bound, ¬(b.2.1 = c ∧ b.2.2 = v)
    else u = s) ∧
  (∀ h line s, h < 40 → homeOfKey (128 * line) = h →
    let d := (homeOf h s).dirty.any fun c => c.1 / 4 == line
    let bit := dirtyBit (128 * line)
    ∃ u, exec (.homeCacheWriteback h line) s = .next u ∧
      (homeOf h u).dirty = ((homeOf h s).dirty.filter fun c => c.1 / 4 != line) ∧ (homeOf h u).lines = ((homeOf h s).lines.filter fun x => x.line != line) ∧
      (∀ k, look u.mem k = if d = true ∧ k = bit.1 then look s.mem k ||| (1 <<< bit.2) else look s.mem k) ∧
      (d = true → ∀ c ∈ allCores u, ∀ e ∈ c.muck, e.ts = false → e.remote = none → ∀ b ∈ e.bytes, b.1 = bit.1 → b.2.getLsbD bit.2 = true))

/-- 13 R297 to R301, R303, R305, 02 R49, R55, R57, R58, 09 R219, 15 R342: the die scheduler and the life of launches and blocks.
The model's own choices in it: log 28, 44, 45, 46. -/
def Obligations.SchedulerComplete : Prop :=
  (∀ d n q l s, dieThere d = true → q < 16 → q < (dieOf d s).queues.length → launchOf n s = some l →
    l.st ≠ .complete → l.reserved = false → (l.lrefs.any fun x => x.1 == d) = false →
    let i := freshLref d s
    ∃ u, exec (.launchAppend d n q) s = .next u ∧ launchOf n u = some { l with lrefs := l.lrefs ++ [(d, i)] } ∧
      (dieOf d u).nextLref = (i + 1) % 4096 ∧ nth [] (dieOf d u).queues q = nth [] (dieOf d s).queues q ++ [n] ∧
      (∀ j, j ≠ q → nth [] (dieOf d u).queues j = nth [] (dieOf d s).queues j) ∧ ∃ e ∈ u.agenda, e.ev = .admission d ∧ e.clk = s.clk + 1) ∧
  (∀ d s, dieThere d = true → exec (.dependencePoll d) s =
    .next (later 0 .none (.admission d) (onDie d (modDie fun x => { x with afters := x.afters.filter fun y => y.2.2.isNone }) s))) ∧
  (∀ (d : Nat) (s : State), dieThere d = true →
    let heads := (dieOf d s).queues.filterMap fun q => q.head?.bind fun n => launchOf n s
    let t := heads.foldl (fun s l => readAfters d l s) s
    ∃ u, exec (.admission d) s = .next u ∧ match popOne d t with
      | some v => u = later 0 .none (.admission d) v
      | none => if nextDeal t d = [] then u = t
        else (∃ e ∈ u.agenda, e.ev = .admission d ∧ e.clk = s.clk) ∧ ∀ k ∈ nextDeal t d, ∃ e ∈ u.agenda, e.ev = .blockDeal k ∧ e.clk = s.clk) ∧
  (∀ d n q l v s, launchOf n s = some l → (headsOf s (dieOf d s)).head? = some (q, n) → l.st = .queued → 1 ≤ l.info.mode.toNat % 8 → l.info.mode.toNat % 8 ≤ 5 →
    namedVersion s l = some v → s.fuse.toNat ≤ v.secv.toNat → l.info.cls ≠ .c → (l.dies.any fun e => prologueBars s l e) = false →
    ∃ u, popOne d s = some u ∧ ((launchOf n u).any fun x => decide (x.st = .admitted) && decide (x.vers = [v.num])) = true ∧
      ∀ x ∈ allDies u, x.die = d → ∀ q ∈ x.queues, n ∉ q) ∧
  (∀ b l c s, launchOf b.name s = some l → dealtWith s b = [b] → copiesPending s b = false →
    ((blockOf b s).any fun x => placed x || x.st == .ended) = false → bestCore s l (l.dieFor b.rep b.idx) = some c →
    let scr := (coreOf (l.dieFor b.rep b.idx) c s).scr
    let wake := if l.info.scratch = 0 then 0 else match scr.retained, scr.busy with
      | false, none => 0
      | true, none => 1536
      | true, some t => t - s.clk
      | false, some t => t - s.clk + 1536
    ∃ u x, exec (.blockDeal b) s = .next u ∧ blockOf b u = some x ∧ x.st = .starting ∧ x.die = l.dieFor b.rep b.idx ∧ x.core = c ∧ x.size = l.info.scratch ∧
      ((launchOf b.name u).any fun y => y.begun b.idx || decide (y.started.length ≤ b.idx / max l.info.team 1)) = true ∧
      ∃ e ∈ u.agenda, e.subj = .block b ∧ e.clk = s.clk + (wake + l.info.scratch / 256) ∧
        e.ev = if ((blockOf b s).any fun x => x.recorded) = true then .blockRestart else .blockStart b) ∧
  (∀ b s, exec (.blockDeal b) s = .next (match placeAll (dealtWith s b) s with
    | none => s
    | some t => modLaunch b.name (fun l => let n := max l.info.team 1
        { l with started := modNth l.started (b.idx / n) fun m => max m (b.idx % n + 1) }) t)) ∧
  (∀ k ks s, placeAll [] s = some s ∧ placeAll (k :: ks) s = (placeBlock k s).bind (placeAll ks)) ∧
  (∀ b x l s, blockOf b s = some x → launchOf b.name s = some l → x.st = .starting →
    let write := fun (s : State) (g : Nat) => (unitWrite l.ctx.toNat (resumeAddr l b g) (firstEntry l g).bytes s).getD s
    exec (.blockStart b) s = .next (beginBlock x l (firstEntry l) (mapBlocks (fun y => if y.key = b then { y with recorded := true } else y)
      ((List.range 32).foldl write s)))) ∧
  (∀ l s, let b := s.block
    let read := fun (g : Nat) => unitRead s l.ctx.toNat (resumeAddr l b.key g) 16
    let word := fun (g i : Nat) => BitVec.ofNat 32 (recField ((read g).getD []) (4 * i) 4)
    b.st = .starting → launchOf b.key.name s = some l →
    ∃ u, exec .blockRestart s = .next u ∧
      if drained s b.key = false then u = later 1 (.block b.key) .blockRestart s
      else if (∀ g ∈ blockGangs l, (read g).isSome = true) then
        u = beginBlock b l (fun g => ⟨word g 0, word g 1, word g 2, word g 3⟩) (modCoreAt b.die b.core (perfAdd 26 0 1) s)
      else u = later 4096 (.block b.key) .blockRestart s) ∧
  (∀ (l : Launch) (n : DWord) (c : Nat) (e : Resume) (g : Gang), let y := startedGang l n c e g
    look y.s 0 = e.arg ∧ look y.s 1 = BitVec.ofNat 32 g.blk.idx ∧ look y.s 2 = BitVec.ofNat 32 g.gno ∧
      look y.s 3 = BitVec.ofNat 32 (g.blk.idx / max l.info.team 1) ∧ look y.s 5 ++ look y.s 4 = l.recAddr ∧
      look y.s 7 ++ look y.s 6 = windowOf l g.blk.idx g.gno ∧ (∀ i, i < 8 → look y.s (8 + i) = nth 0 l.info.uarg i) ∧
      (∀ i, i < 32 → look y.v (32 + i) = if i < 4 * g.slices then BitVec.ofNat 32 l.info.priv else 0) ∧ y.p = [] ∧
      y.active = e.act ∧ y.dead = e.dead ∧ y.trapvec = l.info.trapv ∧ y.regs = l.info.regs ∧ y.mode = l.info.mode &&& 0xFFFFFFFF0000003F ∧
      ∀ k, k < g.slices → entryOf y k = startEntry e c k) ∧
  (∀ s, let b := s.block
    ∃ u, exec .pinEndFlush s = .next u ∧
      u = if placed b && b.flushReq && !anyPinned s b.key.name b.key.idx then flushBlock b.key.name b.key.idx false s else s) ∧
  (∀ n l h k s, launchOf n s = some l → l.st = .admitted → blocksEnded s l = true → l.crewOf = none → (∀ m ∈ s.homes, m.mig = none) →
    (dropTasks l s).1 = 0 → (∀ a, xlateUnit s l.ctx.toNat l.info.done a = .ok h k) → boundFrame s k = false → (∀ i, i < 8 → bitmapByte (k + i) = false) →
    ∃ u, exec (.launchCompletion n) s = .next u ∧
      if launchDrained s n = true ∧ doneWaits s l = false then ((launchOf n u).any fun x => decide (x.st = .complete)) = true ∧
        leNat (readBytes u.mem k 8) = (leNat (readBytes s.mem k 8) + 1) % 2 ^ 64 ∧ (∀ b ∈ u.blocks, b.key.name ≠ n) ∧
        (timesSmall s → l.time.toNat < 2 ^ 63 → l.time.toNat < (wtOf u (lineOf k)).toNat) ∧
        ∀ v ∈ l.vers, ∃ e ∈ u.agenda, e.ev = .versionFree l.ctx.toNat v
      else u = later 1 .none (.launchCompletion n) s) ∧
  (∀ (d : Nat) (s : State), d < 40 → (∀ c, c < 480 → taskDepth (coreOf d c s) ≤ fld (dieOf d s).balcfg.toNat 16 8) → exec (.balanceTick d) s = .next s) ∧
  (∀ (d : Nat) (s : State), dieThere d = true →
    let thr := fld (dieOf d s).balcfg.toNat 16 8
    let on := fun (c : Nat) => decide ((coreOf d c s).ports ≠ 3)
    let depth := fun (c : Nat) => ((coreOf d c s).taskq.filter fun t => t.prov.isNone).length
    ∃ near : Nat → List (Nat × Nat),
      (∀ c, (near c).Perm (((meshNear c).filter on).map fun n => (depth n, n)) ∧ (near c).Pairwise fun x y => x.1 < y.1 ∨ (x.1 = y.1 ∧ x.2 < y.2)) ∧
      exec (.balanceTick d) s = .next (if 128 ≤ d then s else ((List.range 480).filter fun c => on c && decide (0 < depth c)).foldl
        (fun t c => ((near c).foldl (balanceOne d c thr) (depth c, t)).2) s)) ∧
  (∀ c n, c < 480 → (n ∈ meshNear c ↔ n < 480 ∧ ((n / 30 = c / 30 ∧ (n + 1 = c ∨ c + 1 = n)) ∨ n + 30 = c ∨ c + 30 = n))) ∧
  (∀ d c thr own depth n s, own ≤ depth + thr → balanceOne d c thr (own, s) (depth, n) = (own, s)) ∧
  (∀ d c thr own depth n s,
    let r := takeYoungest (taskMoves s d n) ((own - depth) / 2) (coreOf d c s).taskq
    let gives := modCore fun c => perfAdd 28 0 r.1.length { c with taskq := r.2 }
    let takes := modCore fun c => { c with coming := c.coming ++ r.1.map fun t => (s.clk + 64, t) }
    depth + thr < own → r.1 ≠ [] → balanceOne d c thr (own, s) (depth, n) =
      (own - r.1.length, later 64 .none (.balanceArrival d n) (onCore d n takes (onCore d c gives s)))) ∧
  (∀ d c s, coreThere d c = true → ActsAt d c (.balanceArrival d c) s fun t u =>
    let new := (t.core.coming.filter fun x => decide (x.1 ≤ t.clk)).map (·.2)
    u.core.taskq = t.core.taskq ++ new ∧ u.core.coming = t.core.coming.filter fun x => decide (t.clk < x.1)) ∧
  (∀ d c p s, coreThere d c = true → p < 4 → ∃ u, exec (.growGrant d c p) s = .next u ∧
    match (nth Part.reset (coreOf d c s).parts p).growq with
    | [] => u = s
    | (slot, k, n, dst) :: rest =>
      let popped := onCore d c (modCore fun c => { c with parts := modNth c.parts p fun p => { p with growq := rest } }) s
      if freeBlocks s d c p < n then u = s
      else
        u = grantGrows d c p 63 (onGang ⟨d, c, p, slot⟩ (grantGrow k n dst) popped)) ∧
  (∀ k n d s, s.gang.frame = none → d ≠ 0 → let u := grantGrow k n d s
    u.gang.regs = s.gang.regs + n ∧ rdS u d = BitVec.ofNat 32 (s.gang.regs + n) ∧ (∃ t ∈ u.gang.tags, t.reg = .s d ∧ t.clk = s.clk + 2) ∧
    (∀ j, j < s.gang.split.length → entryOf u.gang j = if (entryOf s.gang j).wait = .grow n false k
      then { entryOf s.gang j with wait := .grow n true k } else entryOf s.gang j)) ∧
  (∀ s, s.gang.live = true → s.gang.leaving = true → ∃ u, exec .gangExit s = .next u ∧
    if ((s.gang.pend.any fun p => p.cls == .ld && !p.fin) || !muckRoom s (1 + if folding s then (s.gang.pend.map mstSectors).sum else 0)) = true
      then u = later 1 (.gang s.gang.key) .gangExit s
    else u.gang = Gang.vacant s.gang.key ∧
      (∃ y ∈ u.exited, y.key = s.gang.key ∧ y.v = s.gang.v ∧ y.s = s.gang.s ∧ y.p = s.gang.p ∧ y.mode = s.gang.mode ∧ y.active = s.gang.active ∧ y.dead = s.gang.dead) ∧
      ((∃ l ∈ s.launches, l.st = .admitted ∧ s.gang.key.die ∈ l.dies) → ∃ e ∈ u.agenda, e.ev = .admission s.gang.key.die) ∧
      ∃ e ∈ u.agenda, e.ev = .growGrant s.gang.key.die s.gang.key.core s.gang.key.part)

/-- 19 R414, R415, R417 to R422: votes, verdicts, lost replicas, resynchronisation and forwarded values.
The model's own choices in it: log 59, 60, 61. -/
def Obligations.ReplicasComplete : Prop :=
  let openAt := fun (n b g : Nat) (s : State) => s.votes.find? fun v => v.name == n && v.blk == b && v.gno == g && v.verdict.isEmpty
  let awaited := fun (k : GangKey) (vals : List Word) (s : State) => ((allGangs s).find? fun g => g.live && g.key == k).bind fun g => copyAwaited s g vals
  (∀ k vals s, slotThere k = true → awaited k vals s = none → exec (.forwardArrival k vals) s =
    .next (mapGangs (fun g => if g.live = true ∧ g.key = k then { g with fwd := g.fwd ++ [vals] } else g) s)) ∧
  (∀ k vals s id p, slotThere k = true → awaited k vals s = some id → let t := focusGang k s
    t.gang.live = true → (t.gang.pend.find? fun p => p.id == id) = some p → ActsOn k (.forwardArrival k vals) s (PartDone p)) ∧
  (∀ n b g s v (r0 : VoteRec) first, openAt n b g s = some v →
    let bs := voters s n b
    2 ≤ bs.length → lowest bs = some first →
    (∀ x ∈ bs, ∃ r, (v.recs.find? fun r => r.rep == x.key.rep) = some r ∧ r.sigs = r0.sigs ∧ r.sigk = r0.sigk ∧ r.kind = r0.kind ∧ r.pos = r0.pos ∧
      r.arrives + 4 ≤ s.clk) →
    ∃ u, exec (.replicaVote n b g) s = .next u ∧ ∃ x ∈ u.votes, x.name = n ∧ x.blk = b ∧ x.gno = g ∧
      x.verdict = bs.map fun y => (y.key.rep, if y.key = first.key then 0 else 1)) ∧
  (∀ n b g s v x y r q, openAt n b g s = some v → voters s n b = [x, y] → x.key.rep ≠ y.key.rep →
    (v.recs.find? fun r => r.rep == x.key.rep) = some r → (v.recs.find? fun r => r.rep == y.key.rep) = some q →
    r.arrives + 4 ≤ s.clk → q.arrives + 4 ≤ s.clk → ¬(r.sigs = q.sigs ∧ r.sigk = q.sigk ∧ r.kind = q.kind ∧ r.pos = q.pos) →
    let mine := fun (k : BlockKey) => k.name == n && k.idx == b
    let pinned := (allGangs s).any fun z => mine z.blk && z.gno == g && z.pinned
    let again := (allBlocks s).any fun z => mine z.key && z.st != .ended && z.rolled != 0
    ∃ u, exec (.replicaVote n b g) s = .next u ∧
      if pinned || again then u = killReplicas n b s else ∃ fwd, u = rollBack n b fwd s) ∧
  (∀ n b g s, (∀ v, openAt n b g s = some v → ((voters s n b).all fun x => v.recs.any fun r => r.rep == x.key.rep && decide (r.arrives + 4 ≤ s.clk)) = false) →
    exec (.replicaVote n b g) s = .next s) ∧
  (∀ n b g s v, openAt n b g s = some v → ∃ u, exec (.replicaRecordTimeout n b g) s = .next u ∧
    u = if voteLate s v then
        ((voters s n b).filter fun x => !v.recs.any fun r => r.rep == x.key.rep && decide (r.arrives ≤ s.clk)).foldl (fun s x => loseReplica x.key s) s
      else s) ∧
  (∀ s v kind slice o, s.gang.live = true → s.gang.rel = .sent kind slice →
    (s.votes.find? fun v => v.name == s.gang.blk.name && v.blk == s.gang.blk.idx && v.gno == s.gang.gno && v.verdict.any fun x => x.1 == s.gang.blk.rep) = some v →
    (v.verdict.find? fun x => x.1 == s.gang.blk.rep) = some (s.gang.blk.rep, o) → o ≠ 2 →
    ∃ u, exec .verdictArrival s = .next u ∧ u.gang.rel = .matched (o == 0) slice ∧ u.gang.sigs = 0 ∧ u.gang.sigl = 0 ∧ u.gang.sigk = 0 ∧
      u.gang.lclkV = s.core.lclk ∧ u.gang.pinned = (s.gang.pinned || decide (kind ∈ [1, 2, 3, 5, 6, 7, 11, 12, 45])) ∧ (∀ e ∈ u.core.muck, e.gang = s.gang.key → e.blk = s.gang.blk → e.matched = true) ∧
      u.mem = s.mem ∧ u.core.muck.length = s.core.muck.length) ∧
  (∀ s r x y, s.resyncs = [r] → r.image = none → blockOf r.dst s = some x → blockOf r.src s = some y →
    readImages s = if x.st ≠ .flushed ∧ y.st = .resident ∧ atRest s y = true then readImage r y s else s) ∧
  (∀ b s r x l, (s.resyncs.find? fun r => r.dst == b) = some r → blockOf b s = some x → x.st = .flushed → launchOf b.name s = some l →
    exec (.resyncImageArrival b) s = .next (later 1 .none (.resyncImageArrival b) (match bestCore s l x.die with
      | none => s
      | some c => mapBlocks (fun y => if y.key = b then { y with struck := false } else y) (placeOn l b x.die c 0 .kernel s)))) ∧
  (∀ b s r x, (s.resyncs.find? fun r => r.dst == b) = some r → blockOf b s = some x → x.st ≠ .flushed →
    exec (.resyncImageArrival b) s = .next (match r.image with
      | none => s
      | some im => if im.resume ≤ s.clk then takeImage r im x s else s)) ∧
  (∀ b s, (s.resyncs.find? fun r => r.dst == b) = none → exec (.resyncImageArrival b) s = .next s)

/-- 01 R19, 10 R246, 17 R389, R390, 18 R399, R400, R403: ports that fail, strikes, resets of dies and homes, and the lifetime record.
The model's own choices in it: log 28, 53, 54, 55, 57, 100, 101. -/
def Obligations.FailuresComplete : Prop :=
  (∀ d c hb s, d < 40 → coreThere d c = true → ∃ u, exec (.marginMonitorReport d c hb) s = .next u ∧
    let mine := if hb then 2 else 1
    if portsNow s d c = 3 ∨ portsNow s d c = mine then u = s
    else if portsNow s d c = 0 then
      (coreOf d c u).pause = s.clk + 256 ∧ lifePorts u d c = mine ∧ ∃ e ∈ u.agenda, e.ev = .halfWidthSwitch d c ∧ e.clk = s.clk + 256
    else blocksOn s d c = [] → lifePorts u d c = 3 ∧ (coreOf d c u).ports = 3 ∧ (coreOf d c u).insvc = true) ∧
  (∀ d c s, d < 40 → coreThere d c = true → ∃ u, exec (.halfWidthSwitch d c) s = .next u ∧
    (coreOf d c u).ports = (if (coreOf d c s).ports = 3 then 3 else BitVec.ofNat 2 (lifePorts s d c)) ∧
    ((coreOf d c s).ports ≠ 3 → (coreOf d c u).pause = 0)) ∧
  (∀ d c hb s, d < 40 → coreThere d c = true →
    let counted := tally (0x019000 + 256 * d + 4 * coreRegion d c) 1 s
    ∃ u, exec (.crossingCheckError d c hb) s = .next u ∧ exec (.marginMonitorReport d c hb) (strike d [c] (BitVec.ofNat 32 (coreRegion d c)) counted) = .next u) ∧
  (∀ d l r s, d < 40 → r < 64 →
    let hit := (List.range 480).filter (covers r d)
    ∃ u, exec (.strikeReport d l r) s = .next u ∧
      u = strike d hit (BitVec.ofNat 32 (256 * bnat l + r)) (tally (0x019000 + 256 * (d + 40 * bnat l) + 4 * r) 1 s) ∧
      ((∀ b ∈ allBlocks s, placed b = false) → u.mem = s.mem ∧
        ∀ x ∈ allCores u, ∀ e ∈ x.muck, ¬(e.gang.die = d ∧ e.gang.core ∈ hit ∧ (coreOf d e.gang.core s).ports ≠ 3))) ∧
  (∀ d s, d < 40 → onDieNow s d = [] → ∃ u, exec (.dieReset d) s = .next u ∧
    (dieOf d u).incarn = (dieOf d s).incarn + 1 ∧ (dieOf d u).wayp = 0 ∧ (dieOf d u).ts = [] ∧ (dieOf d u).queues = List.replicate 16 [] ∧
    (∀ g ∈ allGangs u, g.key.die ≠ d) ∧
    (∀ c ∈ allCores u, c.die = d → c.muck = [] ∧ c.taskq = [] ∧ c.acc = [] ∧ c.streams = [] ∧ c.cmds = List.replicate 5 []) ∧
    (∀ h ∈ u.homes, ∀ x ∈ h.rl, x.1 % 256 ≠ d) ∧ (∀ w ∈ u.csrq, w.gang.die ≠ d) ∧ ∀ r ∈ u.remotes, r.gang.die = d → r.old = true) ∧
  (∀ h s, h < 40 → (homeOf h s).writers = [] → homeless h s = [] → ∃ u, exec (.homeReset h) s = .next u ∧ (homeOf h u).dirty = [] ∧ (homeOf h u).lines = [] ∧
    let lost := (homeOf h s).dirty.filter fun c => !(allDies s).any fun d => d.dirty.any fun x => x.1 == c.1
    ∀ k, look u.mem k = (lastCell (lost.flatMap fun c => cellsAt (32 * c.1) c.2) k).getD (look s.mem k)) ∧
  (∀ s, ∃ u, exec .lifetimeFold s = .next u ∧ exec .orderlyShutdown s = .next u ∧ u.counts = [] ∧
    (∀ l ∈ u.links, l.fixed = 0 ∧ l.failed = 0 ∧ l.repeated = 0 ∧ l.retrained = 0) ∧
    ∀ off n, s.counts = [(off, n)] → n ≠ 0 → s.links = [] → (off < 0x019000 ∨ 0x021000 ≤ off) → (s.clk - s.foldAt) / Config.second = 0 →
      leNat (readBytes u.life off 8) = min (leNat (readBytes s.life off 8) + n.toNat) (2 ^ 64 - 1)) ∧
  (∀ s n, n = (s.clk - s.foldAt) / Config.second → n ≠ 0 → let u := foldSeconds s
    u.foldAt = s.foldAt + n * Config.second ∧ leNat (readBytes u.life 0x000010 8) = min (leNat (readBytes s.life 0x000010 8) + n) (2 ^ 64 - 1))

/-- 17 R390, 20 R427, R428, R432, R434, R435: power, bring-up, the management ports, the life cycle and the module reset.
The model's own choices in it: log 8, 14, 50, 51, 52. -/
def Obligations.ModuleComplete : Prop :=
  (∀ s, ∃ u, exec .powerLoss s = .next u ∧ u.stage = 0 ∧ u.mem = [] ∧ u.gang.live = false ∧ u.gangs = [] ∧ u.counts = [] ∧ u.life = s.life ∧
    u.fuse = s.fuse ∧ u.lcs = s.lcs ∧ u.lcsNext = s.lcsNext ∧ u.xcache = []) ∧
  (∀ s, ∃ u, exec .powerUp s = .next u ∧ u.stage = 1 ∧ u.bootErr = 0 ∧ u.mem = [] ∧ u.life = s.life ∧ u.fuse = s.fuse ∧ u.lcs = s.lcsNext ∧
    u.idErased = (s.idErased || s.lcsNext == 3) ∧ u.tokDebug = false ∧ u.tokReplay = false) ∧
  (∀ s, ∃ u, exec .moduleReset s = .next u ∧ timeOf u = 0 ∧ u = { s with timeBase := s.clk, tokDebug := false, tokReplay := false }) ∧
  (∀ s, s.stage ≠ 0 → exec .mgmtStatus s = .next { s with
    answer := leBytes 4 (s.stage.toNat + s.bootErr.toNat * 2 ^ 4 + bnat s.replay * 2 ^ 8 + s.fuse.toNat * 2 ^ 16) }) ∧
  (∀ p o n s, p < 2 → exec (.mgmtLife p o n) s = .next (if s.stage.toNat < 4 then s
    else { s with answer := readBytes s.life o (min (min n 1024) (0x400000 - o)) })) ∧
  (∀ p tok s, p < 2 → let f := leNat ((tok.drop 6).take 2)
    let t := { s with tokDebug := s.tokDebug || f.testBit 0, tokReplay := s.tokReplay || f.testBit 1 }
    ∃ u, exec (.mgmtToken p tok) s = .next u ∧
      if ¬(4 ≤ s.stage.toNat ∧ tokenGood s tok = true) then u = s
      else match s.image with
      | none => u = t
      | some img => if s.stage = 4 ∧ t.tokReplay = true then u.stage = 8 ∧ u.replay = true ∧ u.walker = img.walker else u = t) ∧
  (∀ sg dest s, exec (.lifecycleAdvance sg dest) s = .next (if sg = true ∧ s.lcsNext.toNat < dest.toNat then { s with lcsNext := dest } else s)) ∧
  (∀ s, exec .logFreeze s = .next { writeLog s with logFrozen := true }) ∧
  (∀ p img s, p < 2 → s.stage = 1 → ∃ u, exec (.mgmtLoad p img) s = .next u ∧
    let failed := fun (st e : BitVec 4) => u.stage = st ∧ u.bootErr = e ∧ u.gang = s.gang ∧ u.mem = s.mem
    if imageSigned s img = false then u = { s with stage := 2, bootErr := 1 }
    else if img.secv.toNat < s.fuse.toNat then u = { s with stage := 2, bootErr := 2 }
    else u.fuse = img.secv ∧
      if img.trains = false then failed 3 3 else if img.memOk = false then failed 3 4
      else if img.replay = true ∧ s.logFrozen = true ∧ s.tokReplay = false then u.stage = 4 ∧ u.image = some img ∧ u.replay = false
      else u.stage = 8 ∧ u.walker = img.walker ∧ u.replay = (img.replay && s.logFrozen))

/-- 20 R429 to R433, 11 R247, 04 R109, R110, 16 R370, R371: pod links, replay, application cores and the Abail translator.
The model's own choices in it: log 15, 16, 62, 63. -/
def Obligations.LinksComplete : Prop :=
  (∀ l f s, l < 16 → (linkOf l s).trained = false → exec (.flitArrival l f) s = .next s) ∧
  (∀ l f s, l < 16 → (linkOf l s).trained = true → f.good = true →
    let old := linkOf l s
    let counted : Link := { old with fixed := old.fixed + f.fixed, repeats := old.repeats.filter fun r => !(r.1 == f.unordered && r.2.1 == f.seq), slots := old.slots + f.slots.toNat }
    let logged := fun (u : State) => u.logWait = s.logWait ++ [(l, logRecord (timeOf s) l (bnat f.unordered) f.seq.toNat f.slots.toNat f.bytes)]
    let told := fun (u : Bool) (n : BitVec 16) (x : Link) => { x with control := x.control ++ [.ack u n] }
    (f.unordered = true → f.seq ∈ old.taken → ∃ u, exec (.flitArrival l f) s = .next u ∧ linkOf l u = told true f.seq counted ∧
      u.logWait = s.logWait ∧ u.remotes = s.remotes ∧ u.agenda = s.agenda) ∧
    (f.unordered = true → f.seq ∉ old.taken → ∃ t, exec (.flitArrival l f) s = .next (takeMsg l true f.msg t) ∧ logged t ∧ t.remotes = s.remotes ∧ t.mem = s.mem ∧
      (linkOf l t).control = old.control ++ [.ack true f.seq] ∧ (linkOf l t).taken.head? = some f.seq ∧ (linkOf l t).rxSeq = old.rxSeq ∧ (linkOf l t).slots = counted.slots) ∧
    (f.unordered = false → f.seq = old.rxSeq → old.waiting = [] → ∃ t, let u := takeMsg l false f.msg t
      exec (.flitArrival l f) s = .next (modLink l (told false ((linkOf l u).rxSeq - 1)) u) ∧ logged t ∧ t.remotes = s.remotes ∧ t.mem = s.mem ∧
      linkOf l t = { counted with rxSeq := old.rxSeq + 1 }) ∧
    (f.unordered = false → f.seq ≠ old.rxSeq → (f.seq - old.rxSeq).toNat < 2 ^ 15 → old.waiting = [] → ∃ u, exec (.flitArrival l f) s = .next u ∧ logged u ∧
      linkOf l u = told false (old.rxSeq - 1) { counted with waiting := [f] } ∧ u.remotes = s.remotes ∧ u.agenda = s.agenda)) ∧
  (∀ l f s, l < 16 → (linkOf l s).trained = true → f.good = false →
    let same := fun (r : Bool × BitVec 16 × Nat) => r.1 == f.unordered && r.2.1 == f.seq
    let n := (((linkOf l s).repeats.find? same).map (·.2.2)).getD 0
    ∃ u, exec (.flitArrival l f) s = .next u ∧ (linkOf l u).failed = (linkOf l s).failed + 1 ∧ (linkOf l u).control = (linkOf l s).control ++ [.again f.unordered f.seq] ∧
      (linkOf l u).repeats.find? same = some (f.unordered, f.seq, n + 1) ∧ (8 ≤ n → ∃ e ∈ u.agenda, e.ev = .linkRetrain l)) ∧
  (∀ l m s un, let old := linkOf l s
    linkOf l (sendLink l m s un) = if old.queued = [] ∧ old.unacked.length < 4096 then
        { old with
          unacked := if s.replay then old.unacked else old.unacked ++ [(un, if un then old.txSeqU else old.txSeq, m)]
          txSeqU := if un then old.txSeqU + 1 else old.txSeqU
          txSeq := if un then old.txSeq else old.txSeq + 1 }
      else { old with queued := old.queued ++ [(un, m)] }) ∧
  (∀ l c u seq s, let old := linkOf l s
    let t := takeMsg l c (.ack u seq) s
    (∀ x, acks u seq x = true ↔ x.1 = u ∧ if u = true then x.2.1 = seq else (seq - x.2.1).toNat < 2 ^ 15) ∧
    (old.queued = [] → linkOf l t = { old with unacked := old.unacked.filter fun x => !acks u seq x }) ∧
    (linkOf l (takeMsg l c (.again u seq) s)).repeated = old.repeated + if ∃ x ∈ old.unacked, x.1 = u ∧ x.2.1 = seq then 1 else 0) ∧
  (∀ s a b x y, a < b → b < 16 → s.logWait = [(b, y), (a, x)] → writeLog s = logFlit y (logFlit x { s with logWait := [] })) ∧
  (∀ (bs : List Byte) s, s.logFrozen = false → Memory.wf s.mem = true → let u := logFlit bs s
    u.logNext = (s.logNext + 1) % 18641320 ∧ ∀ k, look u.mem k = if logAt s.logNext ≤ k ∧ k < logAt s.logNext + bs.length then nth 0 bs (k - logAt s.logNext) else look s.mem k) ∧
  (∀ l s, l < 16 → ∃ u, exec (.linkRetrain l) s = .next u ∧ (linkOf l u).repeats = [] ∧ (linkOf l u).retrained = (linkOf l s).retrained + 1 ∧
    (linkOf l u).unacked = (linkOf l s).unacked ∧ (linkOf l u).txSeq = (linkOf l s).txSeq ∧ u.remotes = s.remotes ∧ u.mem = s.mem) ∧
  (∀ n s, s.replay = false → exec (.replayInject n) s = .next s) ∧
  (∀ n s, s.replay = true →
    let field := fun (pos len : Nat) => leNat (readBytes s.mem (logAt n + pos) len)
    let due := s.replayMark + (field 0 8 - s.logMark)
    ∃ u, exec (.replayInject n) s = .next u ∧
      if logSize ≤ n ∨ field 0 8 < s.logMark ∨ 16 ≤ field 8 1 then u = { s with bootErr := 5 }
      else if timeOf s < due then u = later (due - timeOf s) .none (.replayInject n) s
      else ∃ e ∈ u.agenda, e.ev = .replayInject (n + 1) ∧ e.clk = s.clk) ∧
  (∀ q s, q.home < 40 → s.stage = 8 →
    let n := match q.store with
      | some bs => bs.length
      | none => q.size
    let k := q.home * Config.stackBytes + q.off
    q.off + n ≤ Config.stackBytes → ∃ u, exec (.applicationCoreAccess q) s = .next u ∧
      if heldAny s k n = true then u = later 1 .none (.applicationCoreAccess q) s
      else match q.store with
      | some bs => if boundFrame s k = true then u = s else (homeOf q.home s).mig = none → ∀ i, bitmapByte i = false → look u.mem i = if k ≤ i ∧ i < k + n then nth 0 bs (i - k) else look s.mem i
      | none => u = { s with answer := readBytes s.mem k n }) ∧
  (∀ m s, let dig := Config.sha384 (abailBytes m)
    let mine := fun (e : XCache) => e.digest == dig && e.gen == m.gen
    let rest := s.xcache.filter fun e => !mine e
    (∀ e, s.xcache.find? mine = some e → entryGood s e = false) → ∃ u, exec (.abailTranslation m) s = .next u ∧ match translate s.profD m with
      | .error i => u = { s with xcache := rest, answer := leBytes 4 i }
      | .ok (image, map) => if m.secv.toNat < s.fuse.toNat then u = revoke image { s with xcache := rest }
        else u.answer = entriesOf m map ∧ u.xcache.head?.map (fun e => (e.digest, e.gen, e.image, e.map, e.secv)) = some (dig, m.gen, image, map, m.secv)) ∧
  (∀ m s e, (s.xcache.find? fun e => e.digest == Config.sha384 (abailBytes m) && e.gen == m.gen) = some e →
    ∃ u, exec (.abailTranslation m) s = .next u ∧ (entryGood s e = true → let rest := s.xcache.filter fun x => !(x.digest == e.digest && x.gen == e.gen)
      u = if e.secv.toNat < s.fuse.toNat then revoke e.image { s with xcache := rest } else { s with xcache := e :: rest, answer := entriesOf m e.map })) ∧
  (∀ image s l, s.launches = [l] → revoke image s = if l.st = .queued ∧ ((namedVersion s l).any fun v => holdsImage s l.ctx.toNat v image) = true
    then refuse l 0x50 0 { s with answer := [0x50] } else { s with answer := [0x50] })

/-- 04 R85, R89, R90, R93, 00 R3: decoding an encoded well-formed instruction gives it back, whatever bytes follow it, and every word
sequence that decodes is the encoding of the well-formed instruction it decodes to.
The model's own choices in it: log 11. -/
def Obligations.EncodingsDecode : Prop :=
  (∀ i rest, i.wf = true → encode i ≠ [] → decodeBytes (encodeBytes i ++ rest) = .ok (i, rest)) ∧
  (∀ w0 w1 i n, w0 < 2 ^ 32 → w1 < 2 ^ 32 → decode w0 w1 = .ok (i, n) → i.wf = true ∧ encode i = if n = 2 then [w0, w1] else [w0]) ∧
  (∀ i w, i.wf = true → w ∈ encode i → w < 2 ^ 32) ∧
  ∀ i, i.wf = true → encode i ≠ [] → decodeTableWord (32 * (encode i).length) (leNat (encodeBytes i)) = some i

/-- Every step leaves memory in its canonical form, whatever state it starts from, and loses no byte by it: the canonical form of a
store reads as the store does, and two canonical stores that read alike are equal.
The model's own choices in it: log 2. -/
def Obligations.StepsKeepMemoryCanonical : Prop :=
  (∀ s t, step s = .next t → Safe t) ∧
  (∀ (m : SMap 8) k, look (normal m) k = look m k) ∧
  (∀ (m n : SMap 8), Memory.wf m = true → Memory.wf n = true → (∀ k, look m k = look n k) → m = n) ∧
  ∀ (m : SMap 8) k v, Memory.wf m = true → Memory.wf (put m k v) = true ∧ ∀ j, look (put m k v) j = if j = k then v else look m j

/-- 05 R123, 20 R428, 02 R29: what reset leaves: boot stage 1, no error, TIME 0, no gang, launch, context or table entry, memory with
nothing listed, and every CSR of die and core scope at the reset value of R123's map.
The model's own choices in it: log 2, 13. -/
def Obligations.ResetLeaves : Prop :=
  let s := State.reset
  Safe s ∧ s.stage = 1 ∧ s.bootErr = 0 ∧ timeOf s = 0 ∧ s.lcs = 0 ∧ s.mem = [] ∧ s.launches = [] ∧ s.contexts = [] ∧ s.remotes = [] ∧
  s.votes = [] ∧ s.agenda = [] ∧ s.inbox = [] ∧ s.upsets = [] ∧ s.csrq = [] ∧ (∀ g ∈ allGangs s, g.live = false) ∧ pick s = none ∧
  (∀ h, (homeOf h s).tlb = [] ∧ (homeOf h s).recs = [] ∧ (homeOf h s).mig = none) ∧
  ∀ d c, d < 40 → c < 480 → let r := focusDie d (focusCore d c s)
    csrValue r 0x001 = 0x06601008 ∧ csrValue r 0x020 = 0 ∧ csrValue r 0x021 = 0 ∧ csrValue r 0x023 = 0 ∧ csrValue r 0x024 = 0 ∧
    csrValue r 0x030 = 0 ∧ csrValue r 0x031 = 8 ∧ csrValue r 0x040 = 0x01000000 ∧ csrValue r 0x041 = 0x00400000 ∧
    csrValue r 0x042 = 0x00081000 ∧ csrValue r 0x060 = 0 ∧ csrValue r 0x061 = 0 ∧ csrValue r 0x062 = 0 ∧ csrValue r 0x070 = 0 ∧
    csrValue r 0x081 = 0 ∧ csrValue r 0x082 = 0 ∧ csrValue r 0x083 = 0 ∧ csrValue r 0x084 = 0 ∧ csrValue r 0x090 = 0 ∧
    csrValue r 0x092 = 0 ∧ csrValue r 0x093 = 0 ∧ csrValue r 0x0A8 = 0 ∧ csrValue r 0x0B0 = 0 ∧
    (∀ i, i < 8 → csrValue r (0x0A0 + i) = 0) ∧ r.die.tsize = 0 ∧ r.die.queues.flatten = [] ∧ r.core.taskq = [] ∧ r.core.muck = [] ∧
    (∀ k, look r.core.acc k = 0) ∧ (∀ g ∈ r.core.rings, g.valid = false)

/-- 04 R85, R88, R94, 13 R306: with no event to take, a step runs what stands where the fragment that ranks first stands: a header, the
instruction that the bytes there decode to, or, where there is none or the gang's role bars its clause (02 R45), the trap that says so; an
event from outside is taken first, then an error found, a CSR write that is due (09 R215), and the agenda's first event once it is due; and where no fragment may issue the clk goes on.
The model's own choices in it: log 3, 4, 17, 70. -/
def Obligations.StepRunsTheInstruction : Prop :=
  let idle := fun (s : State) => s.inbox = [] ∧ duty s = none ∧ ∀ d ∈ s.agenda.head?, s.clk < d.clk
  (∀ s e t, s.inbox = e :: t → step s = settleMem (exec e { s with inbox := t })) ∧
  (∀ s i u, s.inbox = [] → duty s = some (some i, u) → step s = settleMem (exec i u)) ∧
  (∀ s u, s.inbox = [] → duty s = some (none, u) → step s = settleMem (.next u)) ∧
  (∀ s u t, s.upsets = u :: t → duty s = some (none, upset u { s with upsets := t })) ∧
  (∀ s, s.upsets = [] → (∀ w ∈ s.csrq, s.clk < w.clk) → duty s = none) ∧
  (∀ s w t, s.upsets = [] → s.csrq = w :: t → w.clk ≤ s.clk → let r := { s with csrq := t }
    duty s = match csrEvent w (focusGang w.gang r) with
      | some i => some (some i, r)
      | none => some (none, onGang w.gang (csrWritten w) r)) ∧
  (∀ s d t, s.inbox = [] → duty s = none → s.agenda = d :: t → d.clk ≤ s.clk → step s = settleMem (exec d.ev (focusOn d.subj { s with agenda := t }))) ∧
  (∀ s k fr, idle s → pick s = some (k, fr) → let r := ready k fr s
    let c := r.gang.ctx.toNat
    if sfuDefers r = true then step s = settleMem (.next (sfuWait r))
    else if (cur r).ix = 0 then step s = settleMem (exec (.clauseHeader (BitVec.ofNat 32 ((fetchWord r c (cur r).pc).getD 0))) r)
    else
      (fetchWord r c (herePos r) = none → step s = settleMem (.next (takeTrapAt 0x01 0 0 (herePos r) r))) ∧
      (∀ w0, fetchWord r c (herePos r) = some w0 → roleMay r.gang.role (hdrCls (cur r).hdr) = false →
        step s = settleMem (.next (takeTrap 0x05 (BitVec.ofNat 32 (hdrCls (cur r).hdr)) 0 r))) ∧
      ∀ w0, fetchWord r c (herePos r) = some w0 → roleMay r.gang.role (hdrCls (cur r).hdr) = true →
        let next := posAdd (herePos r) 1
        let bytes := leBytes 4 w0 ++ leBytes 4 ((fetchWord r c next).getD 0)
        if wordsOf (w0 % 256) = some 2 ∧ fetchWord r c next = none then step s = settleMem (.next (takeTrapAt 0x01 0 0 next r))
        else (∀ i rest, decodeBytes bytes = .ok (i, rest) → step s = settleMem (exec i r)) ∧
          ∀ e, decodeBytes bytes = .error e → step s = settleMem (.next (takeTrap 0x03 0 0 r))) ∧
  (∀ s, idle s → pick s = none → step s = settleMem (.next (nextClk s))) ∧
  (∀ s, (tick s).clk = s.clk + 1 ∧
    let t := runWalks (runEngines (tick (readImages (dropOrphans (awaitDrains (sendControl (writeLog s)))))))
    let u := t.homes.foldl (fun s h => copyLine h.home (payOwed h s)) t
    nextClk s = (allDies u).foldl (fun s d => dropStale d s) (runSamples u)) ∧
  (∀ s c pos v k, verOf s c (pos.toNat / 2 ^ 20) = some v → pos.toNat % 2 ^ 20 < v.words → codeByte s c v (pos.toNat % 2 ^ 20) = some k →
    fetchWord s c pos = some (leNat (readBytes s.mem k 4))) ∧
  (∀ s t, settleMem (.next s) = .next t → t = { s with mem := t.mem } ∧ ∀ k, look t.mem k = look s.mem k)

/-- 04 R89, R90, R93, R94: words of every family, written out from the encodings that the rules of their instructions give, decode to the instructions they stand for, and
words with an undefined field, a set must-be-zero bit or a register outside its namespace do not decode (04 R94). -/
def Obligations.WordsDecode : Prop :=
  let x : Guard := ⟨0, false, false⟩
  decode 0x00000001 0 = .ok (.nop, 1) ∧
  decode 0x06050406 0 = .ok (.add 4 5 6, 1) ∧
  decode 0xFFFB0403 0 = .ok (.movi 4 0xFFFB, 1) ∧
  decode 0x00000405 0x12345678 = .ok (.movl 4 0x12345678, 2) ∧
  decode 0x0605040A 0x00008000 = .ok (.addsat 4 5 6 .i16x2 x, 2) ∧
  decode 0x05040128 0x02000000 = .ok (.cmp 1 4 5 0 .i32 .lt .none x, 2) ∧
  decode 0x00050474 0 = .ok (.lid 4 .dead, 1) ∧
  decode 0x06050440 0 = .ok (.fadd 4 5 6, 1) ∧
  decode 0x000304A4 0 = .ok (.mzero 4 3 false, 1) ∧
  decode 0x002005A6 0 = .ok (.mwr 5 32 false x, 2) ∧
  decode 0x000100C0 0 = .ok (.br 1, 1) ∧
  decode 0x000000C8 0 = .ok (.exit, 1) ∧
  decode 0x000700CC 0 = .ok (.trap 7, 1) ∧
  decode 0x000000CD 0 = .ok (.tret, 1) ∧
  decode 0x00000000 0 = .ok (.reservedOpcodeIssue 0, 1) ∧
  decode 0xE1234567 0 = .ok (.reservedOpcodeIssue 0xE1234567, 1) ∧
  decode 0x01000001 0 = .error .illegalEncoding ∧
  decode 0x00060474 0 = .error .illegalEncoding ∧
  decode 0x21050C1D 0 = .error .illegalEncoding ∧
  decode 0x00000032 0 = .ok (.pand 0 0 0, 1) ∧
  decode 0x00000832 0 = .error .illegalEncoding

/-- 04 R91, R92, R94, R95, 05 R124, 07 R162, 18 R392: what is checked before an instruction's own meaning, in this order: a clause-ending instruction that is
not last, the engine class, FP64 on a module without it, the level, and the allocation of the lane registers. The first that fails is the trap taken. -/
def Obligations.ChecksInOrder : Prop :=
  let cls := fun (m : Nat) =>
    if m = 0xA9 ∨ (0xB4 ≤ m ∧ m ≤ 0xB6) then EngClass.gen
    else if 0x80 ≤ m ∧ m ≤ 0x93 then .mem
    else if 0xA0 ≤ m ∧ m ≤ 0xAA then .mtx
    else if (0xB0 ≤ m ∧ m ≤ 0xB3) ∨ m = 0xB7 then .cpy
    else if (0xB9 ≤ m ∧ m ≤ 0xBC) ∨ (0xD0 ≤ m ∧ m ≤ 0xDD) then .sys
    else .gen
  let ender := fun (m : Nat) => decide (m ∈ [0xC0, 0xC1, 0xC2, 0xC3, 0xC4, 0xC5, 0xC6, 0xC7, 0xC8, 0xCB, 0xCC, 0xCD])
  let lastOk := fun (i : Instr) (s : State) => ender i.major = true → (cur s).left ≤ 1
  let clsOk := fun (i : Instr) (s : State) => cls i.major = .gen ∨ (cls i.major).code = hdrCls (cur s).hdr
  let traps := fun (i : Instr) (s : State) (code : Nat) (info : Word) => trapReady s = true → ∃ u, exec i s = .next u ∧ TrapTaken code info 0 (herePos s) s u
  (∀ i s, encode i ≠ [] → (∀ w, i ≠ .reservedOpcodeIssue w) → ender i.major = true → 1 < (cur s).left → traps i s 0x03 0) ∧
  (∀ i s, encode i ≠ [] → (∀ w, i ≠ .reservedOpcodeIssue w) → lastOk i s → ¬clsOk i s → traps i s 0x04 (BitVec.ofNat 32 i.major)) ∧
  (∀ d a b c rnd fi fo np nc x s, s.profD = false → traps (.ffma d a b c rnd fi fo .f64 np nc x) s 0x09 0) ∧
  (∀ d a b rnd fi fo sub x s, s.profD = false → traps (.faddx d a b rnd fi fo .f64 sub x) s 0x09 0) ∧
  (∀ d a b rnd fi fo x s, s.profD = false → traps (.fmulx d a b rnd fi fo .f64 x) s 0x09 0) ∧
  (∀ d a b c rnd fi fo op x s, s.profD = false → traps (.dfma d a b c rnd fi fo op x) s 0x09 0) ∧
  (∀ d a rnd fi fo sat si di sty dty x s, sty = .f64 ∨ dty = .f64 → s.profD = false → traps (.cvt d a rnd fi fo sat si di sty dty x) s 0x09 0) ∧
  (∀ d a b c rnd fi fo op x s, s.profD = true → d.toNat % 2 = 1 → traps (.dfma d a b c rnd fi fo op x) s 0x03 0) ∧
  (∀ i s, clsOk i s → s.gang.level = .kernel →
    ((∃ d a b x, i = .launchPre d a b x) ∨ (∃ d a b c x, i = .launchKill d a b c x) ∨ (∃ d a x, i = .launchCtx d a x) ∨ (∃ d a x, i = .launchRes d a x) ∨
     (∃ d a b c q x, i = .launch d a b c q true x) ∨ (∃ d a x, i = .codepubNew d a x) ∨ (∃ d a b x, i = .codepubPub d a b x) ∨ (∃ d a x, i = .codepubRet d a x) ∨
     (∃ d a c x, i = .tlbiPage d a c x) ∨ (∃ d a c x, i = .tlbiCtx d a c x) ∨ (∃ d c x, i = .tlbiAll d c x) ∨ (∃ d a b x, i = .tlbiFq d a b x) ∨
     (∃ d a x, i = .frmigCopy d a x) ∨ (∃ d a b x, i = .frmigCommit d a b x) ∨ (∃ d a x, i = .frmigEnd d a x) ∨ (∃ d a x, i = .frmigBad d a x) ∨
     (∃ d b x, i = .dbgHalt d b x) ∨ (∃ d b x, i = .dbgRun d b x) ∨ (∃ d b x, i = .dbgStep d b x) ∨ (∃ d a b sl x, i = .dbgBp d a b sl x) ∨
     (∃ d a b sl k l x, i = .dbgWp d a b sl k l x) ∨ (∃ d a b x, i = .dbgDump d a b x)) → traps i s 0x0B (BitVec.ofNat 32 i.major)) ∧
  (∀ i s, clsOk i s → s.gang.level ≠ .firmware → ((∃ d a b sz x, i = .tlbw d a b sz x) ∨ ∃ d a b x, i = .tlbwFault d a b x) → traps i s 0x0B 0xD6) ∧
  (∀ d a b s (r : Nat), (r = d.toNat ∨ r = a.toNat ∨ r = b.toNat) → 16 * s.gang.regs ≤ r → (∀ q, (q = d.toNat ∨ q = a.toNat ∨ q = b.toNat) → q < r → q < 16 * s.gang.regs) →
    ∀ i ∈ [Instr.add d a b, .sub d a b, .mullo d a b, .and d a b, .or d a b, .xor d a b, .andn d a b, .shl d a b, .shr d a b, .sar d a b, .rotl d a b,
      .fadd d a b, .fsub d a b, .fmul d a b], traps i s 0x0A (BitVec.ofNat 32 r))

/-- 05 R119, 12 R265: an instruction whose execution mask is empty writes nothing, accesses nothing and raises none of its own faults; the checks of 04 R95
up to REG_UNALLOCATED still apply. It holds of all but the floating-point, matrix and control-transfer majors, whose rules are their own.
The model's own choices in it: log 86, 91. -/
def Obligations.EmptyMasksDoNothing : Prop :=
  let covered := fun (m : Nat) => (0x01 ≤ m ∧ m ≤ 0x3F) ∨ (0x70 ≤ m ∧ m ≤ 0x75) ∨ (0x80 ≤ m ∧ m ≤ 0x93) ∨ m = 0xAA ∨ (0xB0 ≤ m ∧ m ≤ 0xB7) ∨
    (0xB9 ≤ m ∧ m ≤ 0xBC) ∨ m = 0xCE ∨ m = 0xCF ∨ (0xD0 ≤ m ∧ m ≤ 0xDD)
  ∀ i s, let q : Req := { maj := i.major, words := (encode i).length, x := ownGuard i }
    i.wf = true → covered i.major → execMask s (ownGuard i) = 0 →
    s.gang.live = true → (cur s).stands = false → s.gang.pend = [] → s.gang.errs = [] → s.gang.txn = none → s.gang.redo = none → s.gang.rel = .none → fenced s = false →
    s.gang.tags = [] → s.core.up = [] → s.core.down = [] → s.core.div ≤ s.clk → (nth Part.reset s.core.parts s.gang.key.part).sdiv ≤ s.clk →
    ∃ u, exec i s = .next u ∧
      (RegisterStep q {} s u ∨ ∃ code info, code ∈ [0x03, 0x04, 0x09, 0x0A, 0x0B] ∧ u = takeTrap code info 0 s) ∧
      (classOf i.major = .gen ∨ (classOf i.major).code = hdrCls (cur s).hdr → s.gang.level = .firmware → s.gang.regs = 16 → debugOpen s = true →
        i.major ≠ 0xD1 → i.major ≠ 0xD2 → i.major ≠ 0xD3 → RegisterStep q {} s u)
end

