-- ==== Sys2Proof/Laws/State.lean ====
section
/-! SUPPORT. The fields of a state after each elementary update: one lemma a field, each true by definition. -/

namespace Sys2Proof.Machine

/-! Changing the gang in focus. -/

@[simp] theorem modGang_gang (f : Gang → Gang) (s : State) : (modGang f s).gang = f s.gang := rfl
@[simp] theorem modGang_frag (f : Gang → Gang) (s : State) : (modGang f s).frag = s.frag := rfl
@[simp] theorem modGang_block (f : Gang → Gang) (s : State) : (modGang f s).block = s.block := rfl
@[simp] theorem modGang_core (f : Gang → Gang) (s : State) : (modGang f s).core = s.core := rfl
@[simp] theorem modGang_die (f : Gang → Gang) (s : State) : (modGang f s).die = s.die := rfl
@[simp] theorem modGang_gangs (f : Gang → Gang) (s : State) : (modGang f s).gangs = s.gangs := rfl
@[simp] theorem modGang_exited (f : Gang → Gang) (s : State) : (modGang f s).exited = s.exited := rfl
@[simp] theorem modGang_past (f : Gang → Gang) (s : State) : (modGang f s).past = s.past := rfl
@[simp] theorem modGang_blocks (f : Gang → Gang) (s : State) : (modGang f s).blocks = s.blocks := rfl
@[simp] theorem modGang_cores (f : Gang → Gang) (s : State) : (modGang f s).cores = s.cores := rfl
@[simp] theorem modGang_dies (f : Gang → Gang) (s : State) : (modGang f s).dies = s.dies := rfl
@[simp] theorem modGang_homes (f : Gang → Gang) (s : State) : (modGang f s).homes = s.homes := rfl
@[simp] theorem modGang_launches (f : Gang → Gang) (s : State) : (modGang f s).launches = s.launches := rfl
@[simp] theorem modGang_contexts (f : Gang → Gang) (s : State) : (modGang f s).contexts = s.contexts := rfl
@[simp] theorem modGang_mem (f : Gang → Gang) (s : State) : (modGang f s).mem = s.mem := rfl
@[simp] theorem modGang_poison (f : Gang → Gang) (s : State) : (modGang f s).poison = s.poison := rfl
@[simp] theorem modGang_clk (f : Gang → Gang) (s : State) : (modGang f s).clk = s.clk := rfl
@[simp] theorem modGang_timeBase (f : Gang → Gang) (s : State) : (modGang f s).timeBase = s.timeBase := rfl
@[simp] theorem modGang_profD (f : Gang → Gang) (s : State) : (modGang f s).profD = s.profD := rfl
@[simp] theorem modGang_disabled (f : Gang → Gang) (s : State) : (modGang f s).disabled = s.disabled := rfl
@[simp] theorem modGang_stage (f : Gang → Gang) (s : State) : (modGang f s).stage = s.stage := rfl
@[simp] theorem modGang_bootErr (f : Gang → Gang) (s : State) : (modGang f s).bootErr = s.bootErr := rfl
@[simp] theorem modGang_replay (f : Gang → Gang) (s : State) : (modGang f s).replay = s.replay := rfl
@[simp] theorem modGang_fuse (f : Gang → Gang) (s : State) : (modGang f s).fuse = s.fuse := rfl
@[simp] theorem modGang_lcs (f : Gang → Gang) (s : State) : (modGang f s).lcs = s.lcs := rfl
@[simp] theorem modGang_lcsNext (f : Gang → Gang) (s : State) : (modGang f s).lcsNext = s.lcsNext := rfl
@[simp] theorem modGang_tokDebug (f : Gang → Gang) (s : State) : (modGang f s).tokDebug = s.tokDebug := rfl
@[simp] theorem modGang_tokReplay (f : Gang → Gang) (s : State) : (modGang f s).tokReplay = s.tokReplay := rfl
@[simp] theorem modGang_idErased (f : Gang → Gang) (s : State) : (modGang f s).idErased = s.idErased := rfl
@[simp] theorem modGang_life (f : Gang → Gang) (s : State) : (modGang f s).life = s.life := rfl
@[simp] theorem modGang_counts (f : Gang → Gang) (s : State) : (modGang f s).counts = s.counts := rfl
@[simp] theorem modGang_links (f : Gang → Gang) (s : State) : (modGang f s).links = s.links := rfl
@[simp] theorem modGang_remotes (f : Gang → Gang) (s : State) : (modGang f s).remotes = s.remotes := rfl
@[simp] theorem modGang_nextTag (f : Gang → Gang) (s : State) : (modGang f s).nextTag = s.nextTag := rfl
@[simp] theorem modGang_votes (f : Gang → Gang) (s : State) : (modGang f s).votes = s.votes := rfl
@[simp] theorem modGang_resyncs (f : Gang → Gang) (s : State) : (modGang f s).resyncs = s.resyncs := rfl
@[simp] theorem modGang_logNext (f : Gang → Gang) (s : State) : (modGang f s).logNext = s.logNext := rfl
@[simp] theorem modGang_logFrozen (f : Gang → Gang) (s : State) : (modGang f s).logFrozen = s.logFrozen := rfl
@[simp] theorem modGang_foldAt (f : Gang → Gang) (s : State) : (modGang f s).foldAt = s.foldAt := rfl
@[simp] theorem modGang_logWait (f : Gang → Gang) (s : State) : (modGang f s).logWait = s.logWait := rfl
@[simp] theorem modGang_logMark (f : Gang → Gang) (s : State) : (modGang f s).logMark = s.logMark := rfl
@[simp] theorem modGang_replayMark (f : Gang → Gang) (s : State) : (modGang f s).replayMark = s.replayMark := rfl
@[simp] theorem modGang_seed (f : Gang → Gang) (s : State) : (modGang f s).seed = s.seed := rfl
@[simp] theorem modGang_draws (f : Gang → Gang) (s : State) : (modGang f s).draws = s.draws := rfl
@[simp] theorem modGang_xcache (f : Gang → Gang) (s : State) : (modGang f s).xcache = s.xcache := rfl
@[simp] theorem modGang_walker (f : Gang → Gang) (s : State) : (modGang f s).walker = s.walker := rfl
@[simp] theorem modGang_image (f : Gang → Gang) (s : State) : (modGang f s).image = s.image := rfl
@[simp] theorem modGang_answer (f : Gang → Gang) (s : State) : (modGang f s).answer = s.answer := rfl
@[simp] theorem modGang_free (f : Gang → Gang) (s : State) : (modGang f s).free = s.free := rfl
@[simp] theorem modGang_agenda (f : Gang → Gang) (s : State) : (modGang f s).agenda = s.agenda := rfl
@[simp] theorem modGang_inbox (f : Gang → Gang) (s : State) : (modGang f s).inbox = s.inbox := rfl
@[simp] theorem modGang_upsets (f : Gang → Gang) (s : State) : (modGang f s).upsets = s.upsets := rfl
@[simp] theorem modGang_csrq (f : Gang → Gang) (s : State) : (modGang f s).csrq = s.csrq := rfl
@[simp] theorem modGang_spent (f : Gang → Gang) (s : State) : (modGang f s).spent = s.spent := rfl
@[simp] theorem modGang_gaveUp (f : Gang → Gang) (s : State) : (modGang f s).gaveUp = s.gaveUp := rfl
@[simp] theorem modGang_refused (f : Gang → Gang) (s : State) : (modGang f s).refused = s.refused := rfl
@[simp] theorem modGang_went (f : Gang → Gang) (s : State) : (modGang f s).went = s.went := rfl
@[simp] theorem modGang_stalled (f : Gang → Gang) (s : State) : (modGang f s).stalled = s.stalled := rfl

/-! Changing the block in focus. -/

@[simp] theorem modBlock_gang (f : Block → Block) (s : State) : (modBlock f s).gang = s.gang := rfl
@[simp] theorem modBlock_frag (f : Block → Block) (s : State) : (modBlock f s).frag = s.frag := rfl
@[simp] theorem modBlock_block (f : Block → Block) (s : State) : (modBlock f s).block = f s.block := rfl
@[simp] theorem modBlock_core (f : Block → Block) (s : State) : (modBlock f s).core = s.core := rfl
@[simp] theorem modBlock_die (f : Block → Block) (s : State) : (modBlock f s).die = s.die := rfl
@[simp] theorem modBlock_gangs (f : Block → Block) (s : State) : (modBlock f s).gangs = s.gangs := rfl
@[simp] theorem modBlock_exited (f : Block → Block) (s : State) : (modBlock f s).exited = s.exited := rfl
@[simp] theorem modBlock_past (f : Block → Block) (s : State) : (modBlock f s).past = s.past := rfl
@[simp] theorem modBlock_blocks (f : Block → Block) (s : State) : (modBlock f s).blocks = s.blocks := rfl
@[simp] theorem modBlock_cores (f : Block → Block) (s : State) : (modBlock f s).cores = s.cores := rfl
@[simp] theorem modBlock_dies (f : Block → Block) (s : State) : (modBlock f s).dies = s.dies := rfl
@[simp] theorem modBlock_homes (f : Block → Block) (s : State) : (modBlock f s).homes = s.homes := rfl
@[simp] theorem modBlock_launches (f : Block → Block) (s : State) : (modBlock f s).launches = s.launches := rfl
@[simp] theorem modBlock_contexts (f : Block → Block) (s : State) : (modBlock f s).contexts = s.contexts := rfl
@[simp] theorem modBlock_mem (f : Block → Block) (s : State) : (modBlock f s).mem = s.mem := rfl
@[simp] theorem modBlock_poison (f : Block → Block) (s : State) : (modBlock f s).poison = s.poison := rfl
@[simp] theorem modBlock_clk (f : Block → Block) (s : State) : (modBlock f s).clk = s.clk := rfl
@[simp] theorem modBlock_timeBase (f : Block → Block) (s : State) : (modBlock f s).timeBase = s.timeBase := rfl
@[simp] theorem modBlock_profD (f : Block → Block) (s : State) : (modBlock f s).profD = s.profD := rfl
@[simp] theorem modBlock_disabled (f : Block → Block) (s : State) : (modBlock f s).disabled = s.disabled := rfl
@[simp] theorem modBlock_stage (f : Block → Block) (s : State) : (modBlock f s).stage = s.stage := rfl
@[simp] theorem modBlock_bootErr (f : Block → Block) (s : State) : (modBlock f s).bootErr = s.bootErr := rfl
@[simp] theorem modBlock_replay (f : Block → Block) (s : State) : (modBlock f s).replay = s.replay := rfl
@[simp] theorem modBlock_fuse (f : Block → Block) (s : State) : (modBlock f s).fuse = s.fuse := rfl
@[simp] theorem modBlock_lcs (f : Block → Block) (s : State) : (modBlock f s).lcs = s.lcs := rfl
@[simp] theorem modBlock_lcsNext (f : Block → Block) (s : State) : (modBlock f s).lcsNext = s.lcsNext := rfl
@[simp] theorem modBlock_tokDebug (f : Block → Block) (s : State) : (modBlock f s).tokDebug = s.tokDebug := rfl
@[simp] theorem modBlock_tokReplay (f : Block → Block) (s : State) : (modBlock f s).tokReplay = s.tokReplay := rfl
@[simp] theorem modBlock_idErased (f : Block → Block) (s : State) : (modBlock f s).idErased = s.idErased := rfl
@[simp] theorem modBlock_life (f : Block → Block) (s : State) : (modBlock f s).life = s.life := rfl
@[simp] theorem modBlock_counts (f : Block → Block) (s : State) : (modBlock f s).counts = s.counts := rfl
@[simp] theorem modBlock_links (f : Block → Block) (s : State) : (modBlock f s).links = s.links := rfl
@[simp] theorem modBlock_remotes (f : Block → Block) (s : State) : (modBlock f s).remotes = s.remotes := rfl
@[simp] theorem modBlock_nextTag (f : Block → Block) (s : State) : (modBlock f s).nextTag = s.nextTag := rfl
@[simp] theorem modBlock_votes (f : Block → Block) (s : State) : (modBlock f s).votes = s.votes := rfl
@[simp] theorem modBlock_resyncs (f : Block → Block) (s : State) : (modBlock f s).resyncs = s.resyncs := rfl
@[simp] theorem modBlock_logNext (f : Block → Block) (s : State) : (modBlock f s).logNext = s.logNext := rfl
@[simp] theorem modBlock_logFrozen (f : Block → Block) (s : State) : (modBlock f s).logFrozen = s.logFrozen := rfl
@[simp] theorem modBlock_foldAt (f : Block → Block) (s : State) : (modBlock f s).foldAt = s.foldAt := rfl
@[simp] theorem modBlock_logWait (f : Block → Block) (s : State) : (modBlock f s).logWait = s.logWait := rfl
@[simp] theorem modBlock_logMark (f : Block → Block) (s : State) : (modBlock f s).logMark = s.logMark := rfl
@[simp] theorem modBlock_replayMark (f : Block → Block) (s : State) : (modBlock f s).replayMark = s.replayMark := rfl
@[simp] theorem modBlock_seed (f : Block → Block) (s : State) : (modBlock f s).seed = s.seed := rfl
@[simp] theorem modBlock_draws (f : Block → Block) (s : State) : (modBlock f s).draws = s.draws := rfl
@[simp] theorem modBlock_xcache (f : Block → Block) (s : State) : (modBlock f s).xcache = s.xcache := rfl
@[simp] theorem modBlock_walker (f : Block → Block) (s : State) : (modBlock f s).walker = s.walker := rfl
@[simp] theorem modBlock_image (f : Block → Block) (s : State) : (modBlock f s).image = s.image := rfl
@[simp] theorem modBlock_answer (f : Block → Block) (s : State) : (modBlock f s).answer = s.answer := rfl
@[simp] theorem modBlock_free (f : Block → Block) (s : State) : (modBlock f s).free = s.free := rfl
@[simp] theorem modBlock_agenda (f : Block → Block) (s : State) : (modBlock f s).agenda = s.agenda := rfl
@[simp] theorem modBlock_inbox (f : Block → Block) (s : State) : (modBlock f s).inbox = s.inbox := rfl
@[simp] theorem modBlock_upsets (f : Block → Block) (s : State) : (modBlock f s).upsets = s.upsets := rfl
@[simp] theorem modBlock_csrq (f : Block → Block) (s : State) : (modBlock f s).csrq = s.csrq := rfl
@[simp] theorem modBlock_spent (f : Block → Block) (s : State) : (modBlock f s).spent = s.spent := rfl
@[simp] theorem modBlock_gaveUp (f : Block → Block) (s : State) : (modBlock f s).gaveUp = s.gaveUp := rfl
@[simp] theorem modBlock_refused (f : Block → Block) (s : State) : (modBlock f s).refused = s.refused := rfl
@[simp] theorem modBlock_went (f : Block → Block) (s : State) : (modBlock f s).went = s.went := rfl
@[simp] theorem modBlock_stalled (f : Block → Block) (s : State) : (modBlock f s).stalled = s.stalled := rfl

/-! Changing the core in focus. -/

@[simp] theorem modCore_gang (f : Core → Core) (s : State) : (modCore f s).gang = s.gang := rfl
@[simp] theorem modCore_frag (f : Core → Core) (s : State) : (modCore f s).frag = s.frag := rfl
@[simp] theorem modCore_block (f : Core → Core) (s : State) : (modCore f s).block = s.block := rfl
@[simp] theorem modCore_core (f : Core → Core) (s : State) : (modCore f s).core = f s.core := rfl
@[simp] theorem modCore_die (f : Core → Core) (s : State) : (modCore f s).die = s.die := rfl
@[simp] theorem modCore_gangs (f : Core → Core) (s : State) : (modCore f s).gangs = s.gangs := rfl
@[simp] theorem modCore_exited (f : Core → Core) (s : State) : (modCore f s).exited = s.exited := rfl
@[simp] theorem modCore_past (f : Core → Core) (s : State) : (modCore f s).past = s.past := rfl
@[simp] theorem modCore_blocks (f : Core → Core) (s : State) : (modCore f s).blocks = s.blocks := rfl
@[simp] theorem modCore_cores (f : Core → Core) (s : State) : (modCore f s).cores = s.cores := rfl
@[simp] theorem modCore_dies (f : Core → Core) (s : State) : (modCore f s).dies = s.dies := rfl
@[simp] theorem modCore_homes (f : Core → Core) (s : State) : (modCore f s).homes = s.homes := rfl
@[simp] theorem modCore_launches (f : Core → Core) (s : State) : (modCore f s).launches = s.launches := rfl
@[simp] theorem modCore_contexts (f : Core → Core) (s : State) : (modCore f s).contexts = s.contexts := rfl
@[simp] theorem modCore_mem (f : Core → Core) (s : State) : (modCore f s).mem = s.mem := rfl
@[simp] theorem modCore_poison (f : Core → Core) (s : State) : (modCore f s).poison = s.poison := rfl
@[simp] theorem modCore_clk (f : Core → Core) (s : State) : (modCore f s).clk = s.clk := rfl
@[simp] theorem modCore_timeBase (f : Core → Core) (s : State) : (modCore f s).timeBase = s.timeBase := rfl
@[simp] theorem modCore_profD (f : Core → Core) (s : State) : (modCore f s).profD = s.profD := rfl
@[simp] theorem modCore_disabled (f : Core → Core) (s : State) : (modCore f s).disabled = s.disabled := rfl
@[simp] theorem modCore_stage (f : Core → Core) (s : State) : (modCore f s).stage = s.stage := rfl
@[simp] theorem modCore_bootErr (f : Core → Core) (s : State) : (modCore f s).bootErr = s.bootErr := rfl
@[simp] theorem modCore_replay (f : Core → Core) (s : State) : (modCore f s).replay = s.replay := rfl
@[simp] theorem modCore_fuse (f : Core → Core) (s : State) : (modCore f s).fuse = s.fuse := rfl
@[simp] theorem modCore_lcs (f : Core → Core) (s : State) : (modCore f s).lcs = s.lcs := rfl
@[simp] theorem modCore_lcsNext (f : Core → Core) (s : State) : (modCore f s).lcsNext = s.lcsNext := rfl
@[simp] theorem modCore_tokDebug (f : Core → Core) (s : State) : (modCore f s).tokDebug = s.tokDebug := rfl
@[simp] theorem modCore_tokReplay (f : Core → Core) (s : State) : (modCore f s).tokReplay = s.tokReplay := rfl
@[simp] theorem modCore_idErased (f : Core → Core) (s : State) : (modCore f s).idErased = s.idErased := rfl
@[simp] theorem modCore_life (f : Core → Core) (s : State) : (modCore f s).life = s.life := rfl
@[simp] theorem modCore_counts (f : Core → Core) (s : State) : (modCore f s).counts = s.counts := rfl
@[simp] theorem modCore_links (f : Core → Core) (s : State) : (modCore f s).links = s.links := rfl
@[simp] theorem modCore_remotes (f : Core → Core) (s : State) : (modCore f s).remotes = s.remotes := rfl
@[simp] theorem modCore_nextTag (f : Core → Core) (s : State) : (modCore f s).nextTag = s.nextTag := rfl
@[simp] theorem modCore_votes (f : Core → Core) (s : State) : (modCore f s).votes = s.votes := rfl
@[simp] theorem modCore_resyncs (f : Core → Core) (s : State) : (modCore f s).resyncs = s.resyncs := rfl
@[simp] theorem modCore_logNext (f : Core → Core) (s : State) : (modCore f s).logNext = s.logNext := rfl
@[simp] theorem modCore_logFrozen (f : Core → Core) (s : State) : (modCore f s).logFrozen = s.logFrozen := rfl
@[simp] theorem modCore_foldAt (f : Core → Core) (s : State) : (modCore f s).foldAt = s.foldAt := rfl
@[simp] theorem modCore_logWait (f : Core → Core) (s : State) : (modCore f s).logWait = s.logWait := rfl
@[simp] theorem modCore_logMark (f : Core → Core) (s : State) : (modCore f s).logMark = s.logMark := rfl
@[simp] theorem modCore_replayMark (f : Core → Core) (s : State) : (modCore f s).replayMark = s.replayMark := rfl
@[simp] theorem modCore_seed (f : Core → Core) (s : State) : (modCore f s).seed = s.seed := rfl
@[simp] theorem modCore_draws (f : Core → Core) (s : State) : (modCore f s).draws = s.draws := rfl
@[simp] theorem modCore_xcache (f : Core → Core) (s : State) : (modCore f s).xcache = s.xcache := rfl
@[simp] theorem modCore_walker (f : Core → Core) (s : State) : (modCore f s).walker = s.walker := rfl
@[simp] theorem modCore_image (f : Core → Core) (s : State) : (modCore f s).image = s.image := rfl
@[simp] theorem modCore_answer (f : Core → Core) (s : State) : (modCore f s).answer = s.answer := rfl
@[simp] theorem modCore_free (f : Core → Core) (s : State) : (modCore f s).free = s.free := rfl
@[simp] theorem modCore_agenda (f : Core → Core) (s : State) : (modCore f s).agenda = s.agenda := rfl
@[simp] theorem modCore_inbox (f : Core → Core) (s : State) : (modCore f s).inbox = s.inbox := rfl
@[simp] theorem modCore_upsets (f : Core → Core) (s : State) : (modCore f s).upsets = s.upsets := rfl
@[simp] theorem modCore_csrq (f : Core → Core) (s : State) : (modCore f s).csrq = s.csrq := rfl
@[simp] theorem modCore_spent (f : Core → Core) (s : State) : (modCore f s).spent = s.spent := rfl
@[simp] theorem modCore_gaveUp (f : Core → Core) (s : State) : (modCore f s).gaveUp = s.gaveUp := rfl
@[simp] theorem modCore_refused (f : Core → Core) (s : State) : (modCore f s).refused = s.refused := rfl
@[simp] theorem modCore_went (f : Core → Core) (s : State) : (modCore f s).went = s.went := rfl
@[simp] theorem modCore_stalled (f : Core → Core) (s : State) : (modCore f s).stalled = s.stalled := rfl

/-! Changing the die in focus. -/

@[simp] theorem modDie_gang (f : Die → Die) (s : State) : (modDie f s).gang = s.gang := rfl
@[simp] theorem modDie_frag (f : Die → Die) (s : State) : (modDie f s).frag = s.frag := rfl
@[simp] theorem modDie_block (f : Die → Die) (s : State) : (modDie f s).block = s.block := rfl
@[simp] theorem modDie_core (f : Die → Die) (s : State) : (modDie f s).core = s.core := rfl
@[simp] theorem modDie_die (f : Die → Die) (s : State) : (modDie f s).die = f s.die := rfl
@[simp] theorem modDie_gangs (f : Die → Die) (s : State) : (modDie f s).gangs = s.gangs := rfl
@[simp] theorem modDie_exited (f : Die → Die) (s : State) : (modDie f s).exited = s.exited := rfl
@[simp] theorem modDie_past (f : Die → Die) (s : State) : (modDie f s).past = s.past := rfl
@[simp] theorem modDie_blocks (f : Die → Die) (s : State) : (modDie f s).blocks = s.blocks := rfl
@[simp] theorem modDie_cores (f : Die → Die) (s : State) : (modDie f s).cores = s.cores := rfl
@[simp] theorem modDie_dies (f : Die → Die) (s : State) : (modDie f s).dies = s.dies := rfl
@[simp] theorem modDie_homes (f : Die → Die) (s : State) : (modDie f s).homes = s.homes := rfl
@[simp] theorem modDie_launches (f : Die → Die) (s : State) : (modDie f s).launches = s.launches := rfl
@[simp] theorem modDie_contexts (f : Die → Die) (s : State) : (modDie f s).contexts = s.contexts := rfl
@[simp] theorem modDie_mem (f : Die → Die) (s : State) : (modDie f s).mem = s.mem := rfl
@[simp] theorem modDie_poison (f : Die → Die) (s : State) : (modDie f s).poison = s.poison := rfl
@[simp] theorem modDie_clk (f : Die → Die) (s : State) : (modDie f s).clk = s.clk := rfl
@[simp] theorem modDie_timeBase (f : Die → Die) (s : State) : (modDie f s).timeBase = s.timeBase := rfl
@[simp] theorem modDie_profD (f : Die → Die) (s : State) : (modDie f s).profD = s.profD := rfl
@[simp] theorem modDie_disabled (f : Die → Die) (s : State) : (modDie f s).disabled = s.disabled := rfl
@[simp] theorem modDie_stage (f : Die → Die) (s : State) : (modDie f s).stage = s.stage := rfl
@[simp] theorem modDie_bootErr (f : Die → Die) (s : State) : (modDie f s).bootErr = s.bootErr := rfl
@[simp] theorem modDie_replay (f : Die → Die) (s : State) : (modDie f s).replay = s.replay := rfl
@[simp] theorem modDie_fuse (f : Die → Die) (s : State) : (modDie f s).fuse = s.fuse := rfl
@[simp] theorem modDie_lcs (f : Die → Die) (s : State) : (modDie f s).lcs = s.lcs := rfl
@[simp] theorem modDie_lcsNext (f : Die → Die) (s : State) : (modDie f s).lcsNext = s.lcsNext := rfl
@[simp] theorem modDie_tokDebug (f : Die → Die) (s : State) : (modDie f s).tokDebug = s.tokDebug := rfl
@[simp] theorem modDie_tokReplay (f : Die → Die) (s : State) : (modDie f s).tokReplay = s.tokReplay := rfl
@[simp] theorem modDie_idErased (f : Die → Die) (s : State) : (modDie f s).idErased = s.idErased := rfl
@[simp] theorem modDie_life (f : Die → Die) (s : State) : (modDie f s).life = s.life := rfl
@[simp] theorem modDie_counts (f : Die → Die) (s : State) : (modDie f s).counts = s.counts := rfl
@[simp] theorem modDie_links (f : Die → Die) (s : State) : (modDie f s).links = s.links := rfl
@[simp] theorem modDie_remotes (f : Die → Die) (s : State) : (modDie f s).remotes = s.remotes := rfl
@[simp] theorem modDie_nextTag (f : Die → Die) (s : State) : (modDie f s).nextTag = s.nextTag := rfl
@[simp] theorem modDie_votes (f : Die → Die) (s : State) : (modDie f s).votes = s.votes := rfl
@[simp] theorem modDie_resyncs (f : Die → Die) (s : State) : (modDie f s).resyncs = s.resyncs := rfl
@[simp] theorem modDie_logNext (f : Die → Die) (s : State) : (modDie f s).logNext = s.logNext := rfl
@[simp] theorem modDie_logFrozen (f : Die → Die) (s : State) : (modDie f s).logFrozen = s.logFrozen := rfl
@[simp] theorem modDie_foldAt (f : Die → Die) (s : State) : (modDie f s).foldAt = s.foldAt := rfl
@[simp] theorem modDie_logWait (f : Die → Die) (s : State) : (modDie f s).logWait = s.logWait := rfl
@[simp] theorem modDie_logMark (f : Die → Die) (s : State) : (modDie f s).logMark = s.logMark := rfl
@[simp] theorem modDie_replayMark (f : Die → Die) (s : State) : (modDie f s).replayMark = s.replayMark := rfl
@[simp] theorem modDie_seed (f : Die → Die) (s : State) : (modDie f s).seed = s.seed := rfl
@[simp] theorem modDie_draws (f : Die → Die) (s : State) : (modDie f s).draws = s.draws := rfl
@[simp] theorem modDie_xcache (f : Die → Die) (s : State) : (modDie f s).xcache = s.xcache := rfl
@[simp] theorem modDie_walker (f : Die → Die) (s : State) : (modDie f s).walker = s.walker := rfl
@[simp] theorem modDie_image (f : Die → Die) (s : State) : (modDie f s).image = s.image := rfl
@[simp] theorem modDie_answer (f : Die → Die) (s : State) : (modDie f s).answer = s.answer := rfl
@[simp] theorem modDie_free (f : Die → Die) (s : State) : (modDie f s).free = s.free := rfl
@[simp] theorem modDie_agenda (f : Die → Die) (s : State) : (modDie f s).agenda = s.agenda := rfl
@[simp] theorem modDie_inbox (f : Die → Die) (s : State) : (modDie f s).inbox = s.inbox := rfl
@[simp] theorem modDie_upsets (f : Die → Die) (s : State) : (modDie f s).upsets = s.upsets := rfl
@[simp] theorem modDie_csrq (f : Die → Die) (s : State) : (modDie f s).csrq = s.csrq := rfl
@[simp] theorem modDie_spent (f : Die → Die) (s : State) : (modDie f s).spent = s.spent := rfl
@[simp] theorem modDie_gaveUp (f : Die → Die) (s : State) : (modDie f s).gaveUp = s.gaveUp := rfl
@[simp] theorem modDie_refused (f : Die → Die) (s : State) : (modDie f s).refused = s.refused := rfl
@[simp] theorem modDie_went (f : Die → Die) (s : State) : (modDie f s).went = s.went := rfl
@[simp] theorem modDie_stalled (f : Die → Die) (s : State) : (modDie f s).stalled = s.stalled := rfl

/-! Putting an event on the agenda. -/

@[simp] theorem later_gang (n : Nat) (u : Subj) (e : Instr) (s : State) : (later n u e s).gang = s.gang := rfl
@[simp] theorem later_frag (n : Nat) (u : Subj) (e : Instr) (s : State) : (later n u e s).frag = s.frag := rfl
@[simp] theorem later_block (n : Nat) (u : Subj) (e : Instr) (s : State) : (later n u e s).block = s.block := rfl
@[simp] theorem later_core (n : Nat) (u : Subj) (e : Instr) (s : State) : (later n u e s).core = s.core := rfl
@[simp] theorem later_die (n : Nat) (u : Subj) (e : Instr) (s : State) : (later n u e s).die = s.die := rfl
@[simp] theorem later_gangs (n : Nat) (u : Subj) (e : Instr) (s : State) : (later n u e s).gangs = s.gangs := rfl
@[simp] theorem later_exited (n : Nat) (u : Subj) (e : Instr) (s : State) : (later n u e s).exited = s.exited := rfl
@[simp] theorem later_past (n : Nat) (u : Subj) (e : Instr) (s : State) : (later n u e s).past = s.past := rfl
@[simp] theorem later_blocks (n : Nat) (u : Subj) (e : Instr) (s : State) : (later n u e s).blocks = s.blocks := rfl
@[simp] theorem later_cores (n : Nat) (u : Subj) (e : Instr) (s : State) : (later n u e s).cores = s.cores := rfl
@[simp] theorem later_dies (n : Nat) (u : Subj) (e : Instr) (s : State) : (later n u e s).dies = s.dies := rfl
@[simp] theorem later_homes (n : Nat) (u : Subj) (e : Instr) (s : State) : (later n u e s).homes = s.homes := rfl
@[simp] theorem later_launches (n : Nat) (u : Subj) (e : Instr) (s : State) : (later n u e s).launches = s.launches := rfl
@[simp] theorem later_contexts (n : Nat) (u : Subj) (e : Instr) (s : State) : (later n u e s).contexts = s.contexts := rfl
@[simp] theorem later_mem (n : Nat) (u : Subj) (e : Instr) (s : State) : (later n u e s).mem = s.mem := rfl
@[simp] theorem later_poison (n : Nat) (u : Subj) (e : Instr) (s : State) : (later n u e s).poison = s.poison := rfl
@[simp] theorem later_clk (n : Nat) (u : Subj) (e : Instr) (s : State) : (later n u e s).clk = s.clk := rfl
@[simp] theorem later_timeBase (n : Nat) (u : Subj) (e : Instr) (s : State) : (later n u e s).timeBase = s.timeBase := rfl
@[simp] theorem later_profD (n : Nat) (u : Subj) (e : Instr) (s : State) : (later n u e s).profD = s.profD := rfl
@[simp] theorem later_disabled (n : Nat) (u : Subj) (e : Instr) (s : State) : (later n u e s).disabled = s.disabled := rfl
@[simp] theorem later_stage (n : Nat) (u : Subj) (e : Instr) (s : State) : (later n u e s).stage = s.stage := rfl
@[simp] theorem later_bootErr (n : Nat) (u : Subj) (e : Instr) (s : State) : (later n u e s).bootErr = s.bootErr := rfl
@[simp] theorem later_replay (n : Nat) (u : Subj) (e : Instr) (s : State) : (later n u e s).replay = s.replay := rfl
@[simp] theorem later_fuse (n : Nat) (u : Subj) (e : Instr) (s : State) : (later n u e s).fuse = s.fuse := rfl
@[simp] theorem later_lcs (n : Nat) (u : Subj) (e : Instr) (s : State) : (later n u e s).lcs = s.lcs := rfl
@[simp] theorem later_lcsNext (n : Nat) (u : Subj) (e : Instr) (s : State) : (later n u e s).lcsNext = s.lcsNext := rfl
@[simp] theorem later_tokDebug (n : Nat) (u : Subj) (e : Instr) (s : State) : (later n u e s).tokDebug = s.tokDebug := rfl
@[simp] theorem later_tokReplay (n : Nat) (u : Subj) (e : Instr) (s : State) : (later n u e s).tokReplay = s.tokReplay := rfl
@[simp] theorem later_idErased (n : Nat) (u : Subj) (e : Instr) (s : State) : (later n u e s).idErased = s.idErased := rfl
@[simp] theorem later_life (n : Nat) (u : Subj) (e : Instr) (s : State) : (later n u e s).life = s.life := rfl
@[simp] theorem later_counts (n : Nat) (u : Subj) (e : Instr) (s : State) : (later n u e s).counts = s.counts := rfl
@[simp] theorem later_links (n : Nat) (u : Subj) (e : Instr) (s : State) : (later n u e s).links = s.links := rfl
@[simp] theorem later_remotes (n : Nat) (u : Subj) (e : Instr) (s : State) : (later n u e s).remotes = s.remotes := rfl
@[simp] theorem later_nextTag (n : Nat) (u : Subj) (e : Instr) (s : State) : (later n u e s).nextTag = s.nextTag := rfl
@[simp] theorem later_votes (n : Nat) (u : Subj) (e : Instr) (s : State) : (later n u e s).votes = s.votes := rfl
@[simp] theorem later_resyncs (n : Nat) (u : Subj) (e : Instr) (s : State) : (later n u e s).resyncs = s.resyncs := rfl
@[simp] theorem later_logNext (n : Nat) (u : Subj) (e : Instr) (s : State) : (later n u e s).logNext = s.logNext := rfl
@[simp] theorem later_logFrozen (n : Nat) (u : Subj) (e : Instr) (s : State) : (later n u e s).logFrozen = s.logFrozen := rfl
@[simp] theorem later_foldAt (n : Nat) (u : Subj) (e : Instr) (s : State) : (later n u e s).foldAt = s.foldAt := rfl
@[simp] theorem later_logWait (n : Nat) (u : Subj) (e : Instr) (s : State) : (later n u e s).logWait = s.logWait := rfl
@[simp] theorem later_logMark (n : Nat) (u : Subj) (e : Instr) (s : State) : (later n u e s).logMark = s.logMark := rfl
@[simp] theorem later_replayMark (n : Nat) (u : Subj) (e : Instr) (s : State) : (later n u e s).replayMark = s.replayMark := rfl
@[simp] theorem later_seed (n : Nat) (u : Subj) (e : Instr) (s : State) : (later n u e s).seed = s.seed := rfl
@[simp] theorem later_draws (n : Nat) (u : Subj) (e : Instr) (s : State) : (later n u e s).draws = s.draws := rfl
@[simp] theorem later_xcache (n : Nat) (u : Subj) (e : Instr) (s : State) : (later n u e s).xcache = s.xcache := rfl
@[simp] theorem later_walker (n : Nat) (u : Subj) (e : Instr) (s : State) : (later n u e s).walker = s.walker := rfl
@[simp] theorem later_image (n : Nat) (u : Subj) (e : Instr) (s : State) : (later n u e s).image = s.image := rfl
@[simp] theorem later_answer (n : Nat) (u : Subj) (e : Instr) (s : State) : (later n u e s).answer = s.answer := rfl
@[simp] theorem later_free (n : Nat) (u : Subj) (e : Instr) (s : State) : (later n u e s).free = s.free := rfl
@[simp] theorem later_agenda (n : Nat) (u : Subj) (e : Instr) (s : State) : (later n u e s).agenda = insertDue ⟨s.clk + n, u, e⟩ s.agenda := rfl
@[simp] theorem later_inbox (n : Nat) (u : Subj) (e : Instr) (s : State) : (later n u e s).inbox = s.inbox := rfl
@[simp] theorem later_upsets (n : Nat) (u : Subj) (e : Instr) (s : State) : (later n u e s).upsets = s.upsets := rfl
@[simp] theorem later_csrq (n : Nat) (u : Subj) (e : Instr) (s : State) : (later n u e s).csrq = s.csrq := rfl
@[simp] theorem later_spent (n : Nat) (u : Subj) (e : Instr) (s : State) : (later n u e s).spent = s.spent := rfl
@[simp] theorem later_gaveUp (n : Nat) (u : Subj) (e : Instr) (s : State) : (later n u e s).gaveUp = s.gaveUp := rfl
@[simp] theorem later_refused (n : Nat) (u : Subj) (e : Instr) (s : State) : (later n u e s).refused = s.refused := rfl
@[simp] theorem later_went (n : Nat) (u : Subj) (e : Instr) (s : State) : (later n u e s).went = s.went := rfl
@[simp] theorem later_stalled (n : Nat) (u : Subj) (e : Instr) (s : State) : (later n u e s).stalled = s.stalled := rfl

/-! Giving up an issue. -/

@[simp] theorem giveUp_gang  (s : State) : (giveUp s).gang = s.gang := rfl
@[simp] theorem giveUp_frag  (s : State) : (giveUp s).frag = s.frag := rfl
@[simp] theorem giveUp_block  (s : State) : (giveUp s).block = s.block := rfl
@[simp] theorem giveUp_core  (s : State) : (giveUp s).core = s.core := rfl
@[simp] theorem giveUp_die  (s : State) : (giveUp s).die = s.die := rfl
@[simp] theorem giveUp_gangs  (s : State) : (giveUp s).gangs = s.gangs := rfl
@[simp] theorem giveUp_exited  (s : State) : (giveUp s).exited = s.exited := rfl
@[simp] theorem giveUp_past  (s : State) : (giveUp s).past = s.past := rfl
@[simp] theorem giveUp_blocks  (s : State) : (giveUp s).blocks = s.blocks := rfl
@[simp] theorem giveUp_cores  (s : State) : (giveUp s).cores = s.cores := rfl
@[simp] theorem giveUp_dies  (s : State) : (giveUp s).dies = s.dies := rfl
@[simp] theorem giveUp_homes  (s : State) : (giveUp s).homes = s.homes := rfl
@[simp] theorem giveUp_launches  (s : State) : (giveUp s).launches = s.launches := rfl
@[simp] theorem giveUp_contexts  (s : State) : (giveUp s).contexts = s.contexts := rfl
@[simp] theorem giveUp_mem  (s : State) : (giveUp s).mem = s.mem := rfl
@[simp] theorem giveUp_poison  (s : State) : (giveUp s).poison = s.poison := rfl
@[simp] theorem giveUp_clk  (s : State) : (giveUp s).clk = s.clk := rfl
@[simp] theorem giveUp_timeBase  (s : State) : (giveUp s).timeBase = s.timeBase := rfl
@[simp] theorem giveUp_profD  (s : State) : (giveUp s).profD = s.profD := rfl
@[simp] theorem giveUp_disabled  (s : State) : (giveUp s).disabled = s.disabled := rfl
@[simp] theorem giveUp_stage  (s : State) : (giveUp s).stage = s.stage := rfl
@[simp] theorem giveUp_bootErr  (s : State) : (giveUp s).bootErr = s.bootErr := rfl
@[simp] theorem giveUp_replay  (s : State) : (giveUp s).replay = s.replay := rfl
@[simp] theorem giveUp_fuse  (s : State) : (giveUp s).fuse = s.fuse := rfl
@[simp] theorem giveUp_lcs  (s : State) : (giveUp s).lcs = s.lcs := rfl
@[simp] theorem giveUp_lcsNext  (s : State) : (giveUp s).lcsNext = s.lcsNext := rfl
@[simp] theorem giveUp_tokDebug  (s : State) : (giveUp s).tokDebug = s.tokDebug := rfl
@[simp] theorem giveUp_tokReplay  (s : State) : (giveUp s).tokReplay = s.tokReplay := rfl
@[simp] theorem giveUp_idErased  (s : State) : (giveUp s).idErased = s.idErased := rfl
@[simp] theorem giveUp_life  (s : State) : (giveUp s).life = s.life := rfl
@[simp] theorem giveUp_counts  (s : State) : (giveUp s).counts = s.counts := rfl
@[simp] theorem giveUp_links  (s : State) : (giveUp s).links = s.links := rfl
@[simp] theorem giveUp_remotes  (s : State) : (giveUp s).remotes = s.remotes := rfl
@[simp] theorem giveUp_nextTag  (s : State) : (giveUp s).nextTag = s.nextTag := rfl
@[simp] theorem giveUp_votes  (s : State) : (giveUp s).votes = s.votes := rfl
@[simp] theorem giveUp_resyncs  (s : State) : (giveUp s).resyncs = s.resyncs := rfl
@[simp] theorem giveUp_logNext  (s : State) : (giveUp s).logNext = s.logNext := rfl
@[simp] theorem giveUp_logFrozen  (s : State) : (giveUp s).logFrozen = s.logFrozen := rfl
@[simp] theorem giveUp_foldAt  (s : State) : (giveUp s).foldAt = s.foldAt := rfl
@[simp] theorem giveUp_logWait  (s : State) : (giveUp s).logWait = s.logWait := rfl
@[simp] theorem giveUp_logMark  (s : State) : (giveUp s).logMark = s.logMark := rfl
@[simp] theorem giveUp_replayMark  (s : State) : (giveUp s).replayMark = s.replayMark := rfl
@[simp] theorem giveUp_seed  (s : State) : (giveUp s).seed = s.seed := rfl
@[simp] theorem giveUp_draws  (s : State) : (giveUp s).draws = s.draws := rfl
@[simp] theorem giveUp_xcache  (s : State) : (giveUp s).xcache = s.xcache := rfl
@[simp] theorem giveUp_walker  (s : State) : (giveUp s).walker = s.walker := rfl
@[simp] theorem giveUp_image  (s : State) : (giveUp s).image = s.image := rfl
@[simp] theorem giveUp_answer  (s : State) : (giveUp s).answer = s.answer := rfl
@[simp] theorem giveUp_free  (s : State) : (giveUp s).free = s.free := rfl
@[simp] theorem giveUp_agenda  (s : State) : (giveUp s).agenda = s.agenda := rfl
@[simp] theorem giveUp_inbox  (s : State) : (giveUp s).inbox = s.inbox := rfl
@[simp] theorem giveUp_upsets  (s : State) : (giveUp s).upsets = s.upsets := rfl
@[simp] theorem giveUp_csrq  (s : State) : (giveUp s).csrq = s.csrq := rfl
@[simp] theorem giveUp_spent  (s : State) : (giveUp s).spent = s.spent := rfl
@[simp] theorem giveUp_gaveUp  (s : State) : (giveUp s).gaveUp = (s.gang.key, lowSlice s.frag) :: s.gaveUp := rfl
@[simp] theorem giveUp_refused  (s : State) : (giveUp s).refused = s.refused := rfl
@[simp] theorem giveUp_went  (s : State) : (giveUp s).went = s.went := rfl
@[simp] theorem giveUp_stalled  (s : State) : (giveUp s).stalled = true := rfl

theorem modGang_modGang (f g : Gang → Gang) (s : State) : modGang f (modGang g s) = modGang (fun x => f (g x)) s := rfl
theorem modBlock_modGang (f : Block → Block) (g : Gang → Gang) (s : State) : modBlock f (modGang g s) = modGang g (modBlock f s) := rfl
theorem modCore_modGang (f : Core → Core) (g : Gang → Gang) (s : State) : modCore f (modGang g s) = modGang g (modCore f s) := rfl

end Sys2Proof.Machine
end

