-- ==== Sys2Proof/Laws/Store.lean ====
section
/-! SUPPORT. Laws of the sparse stores: reading after writing, and the canonical form. -/

namespace Sys2Proof.Machine

variable {w : Nat}

theorem look_filter_self (m : SMap w) (k : Nat) : look (m.filter fun c => c.1 != k) k = 0 := by
  induction m with
  | nil => rfl
  | cons c t ih =>
    obtain ⟨a, x⟩ := c
    by_cases h : a = k
    · simp [h, ih]
    · simp [h, look, ih]

theorem look_filter_of_ne (m : SMap w) {k j : Nat} (h : j ≠ k) : look (m.filter fun c => c.1 != k) j = look m j := by
  induction m with
  | nil => rfl
  | cons c t ih =>
    obtain ⟨a, x⟩ := c
    by_cases e : a = k
    · have : k ≠ j := fun g => h g.symm
      simp [e, look, ih, this]
    · have e' : (a != k) = true := by simpa using e
      simp only [List.filter, e', look, ih]

theorem look_insertCell_self (m : SMap w) (k : Nat) (v : BitVec w) : look (insertCell m k v) k = v := by
  induction m with
  | nil => simp [insertCell, look]
  | cons c t ih =>
    obtain ⟨a, x⟩ := c
    by_cases h : k < a
    · simp [insertCell, h, look]
    · by_cases e : k = a
      · simp [insertCell, e, look]
      · have : a ≠ k := fun h => e h.symm
        simp [insertCell, h, e, look, ih, this]

theorem look_insertCell_of_ne (m : SMap w) {k j : Nat} (v : BitVec w) (h : j ≠ k) : look (insertCell m k v) j = look m j := by
  have hk : k ≠ j := fun e => h e.symm
  induction m with
  | nil => simp [insertCell, look, hk]
  | cons c t ih =>
    obtain ⟨a, x⟩ := c
    by_cases e : k < a
    · simp [insertCell, e, look, hk]
    · by_cases f : k = a
      · subst f
        simp [insertCell, look, hk]
      · simp [insertCell, e, f, look, ih]

/-- A cell that has been set reads as it was set. -/
@[simp] theorem look_put_self (m : SMap w) (k : Nat) (v : BitVec w) : look (put m k v) k = v := by
  unfold put
  split
  · next h => rw [look_filter_self, h]
  · exact look_insertCell_self m k v

/-- Setting a cell leaves every other. -/
theorem look_put_of_ne (m : SMap w) {k j : Nat} (v : BitVec w) (h : j ≠ k) : look (put m k v) j = look m j := by
  unfold put
  split
  · exact look_filter_of_ne m h
  · exact look_insertCell_of_ne m v h

/-- What every cell reads after one has been set. -/
theorem look_put (m : SMap w) (k j : Nat) (v : BitVec w) : look (put m k v) j = if j = k then v else look m j := by
  split
  · next h => rw [h, look_put_self]
  · next h => exact look_put_of_ne m v h

theorem wfFrom_mono {lo hi : Nat} (h : lo ≤ hi) (m : SMap w) (hm : wfFrom hi m = true) : wfFrom lo m = true := by
  cases m with
  | nil => rfl
  | cons c t =>
    obtain ⟨a, x⟩ := c
    simp only [wfFrom, Bool.and_eq_true, decide_eq_true_eq] at hm ⊢
    exact ⟨⟨by omega, hm.1.2⟩, hm.2⟩

theorem wfFrom_filter (p : Nat × BitVec w → Bool) (lo : Nat) (m : SMap w) (h : wfFrom lo m = true) : wfFrom lo (m.filter p) = true := by
  induction m generalizing lo with
  | nil => rfl
  | cons c t ih =>
    obtain ⟨a, x⟩ := c
    simp only [wfFrom, Bool.and_eq_true, decide_eq_true_eq] at h
    by_cases e : p (a, x)
    · simp only [List.filter, e, wfFrom, Bool.and_eq_true, decide_eq_true_eq]
      exact ⟨h.1, ih _ h.2⟩
    · simp only [List.filter, e]
      exact wfFrom_mono (by omega) _ (ih _ h.2)

theorem wfFrom_insertCell (lo : Nat) (m : SMap w) (k : Nat) (v : BitVec w) (hv : v ≠ 0) (hk : lo ≤ k) (h : wfFrom lo m = true) :
    wfFrom lo (insertCell m k v) = true := by
  induction m generalizing lo with
  | nil => simpa [insertCell, wfFrom, hk] using hv
  | cons c t ih =>
    obtain ⟨a, x⟩ := c
    simp only [wfFrom, Bool.and_eq_true, decide_eq_true_eq, bne_iff_ne] at h
    by_cases e : k < a
    · simp only [insertCell, e, if_true, wfFrom, Bool.and_eq_true, decide_eq_true_eq, bne_iff_ne]
      exact ⟨⟨hk, hv⟩, ⟨by omega, h.1.2⟩, h.2⟩
    · by_cases f : k = a
      · subst f
        simp only [insertCell, e, if_true, if_false, wfFrom, Bool.and_eq_true, decide_eq_true_eq, bne_iff_ne]
        exact ⟨⟨hk, hv⟩, h.2⟩
      · simp only [insertCell, e, f, if_false, wfFrom, Bool.and_eq_true, decide_eq_true_eq, bne_iff_ne]
        exact ⟨h.1, ih (a + 1) (by omega) h.2⟩

/-- Setting a cell keeps the canonical form. -/
theorem wf_put (m : SMap w) (k : Nat) (v : BitVec w) (h : Memory.wf m = true) : Memory.wf (put m k v) = true := by
  unfold put
  split
  · exact wfFrom_filter _ 0 m h
  · next hv => exact wfFrom_insertCell 0 m k v hv (Nat.zero_le k) h

/-- Setting several cells keeps the canonical form. -/
theorem wf_putAll (m : SMap w) (l : List (Nat × BitVec w)) (h : Memory.wf m = true) : Memory.wf (putAll m l) = true := by
  unfold putAll
  induction l generalizing m with
  | nil => exact h
  | cons c t ih => exact ih (put m c.1 c.2) (wf_put m c.1 c.2 h)

/-- A list of cells put together as a store is canonical. -/
theorem wf_canon (l : List (Nat × BitVec w)) : Memory.wf (canon l) = true := wf_putAll [] l rfl

/-- Every store is canonical once normalised. -/
theorem wf_normal (m : SMap w) : Memory.wf (normal m) = true := by
  unfold normal
  split
  · assumption
  · exact wf_canon _

/-- A canonical store is left as it is. -/
theorem normal_of_wf (m : SMap w) (h : Memory.wf m = true) : normal m = m := by simp [normal, h]

/-- Writing bytes keeps the canonical form. -/
theorem wf_writeBytes (m : SMap 8) (k : Nat) (bs : List Byte) (h : Memory.wf m = true) : Memory.wf (writeBytes m k bs) = true :=
  wf_putAll m _ h

theorem look_putAll_cons (m : SMap w) (c : Nat × BitVec w) (t : List (Nat × BitVec w)) :
    putAll m (c :: t) = putAll (put m c.1 c.2) t := rfl

/-- A cell that no write of a list names keeps its value. -/
theorem look_putAll_of_not_mem (m : SMap w) (l : List (Nat × BitVec w)) (k : Nat) (h : ∀ c ∈ l, c.1 ≠ k) :
    look (putAll m l) k = look m k := by
  induction l generalizing m with
  | nil => rfl
  | cons c t ih =>
    rw [look_putAll_cons, ih _ fun d hd => h d (List.mem_cons_of_mem c hd)]
    exact look_put_of_ne m c.2 fun e => h c List.mem_cons_self e.symm

theorem look_normal (m : SMap w) (k : Nat) : look (normal m) k = look m k := by
  have key : ∀ (l : SMap w) (m : SMap w), look (putAll m l.reverse) k = if l.any (fun c => c.1 == k) then look l k else look m k := by
    intro l
    induction l with
    | nil => intro m; rfl
    | cons c t ih =>
      intro m
      obtain ⟨a, x⟩ := c
      have : putAll m ((a, x) :: t).reverse = put (putAll m t.reverse) a x := by simp [putAll, List.foldl_append]
      rw [this, look_put, ih]
      by_cases e : a = k
      · simp [e, look]
      · have e' : ¬k = a := fun h => e h.symm
        simp [e, e', look]
  unfold normal
  split
  · rfl
  · unfold canon
    rw [key]
    split
    · rfl
    · next h =>
      have : ∀ l : SMap w, (l.any fun c => c.1 == k) = false → look l k = 0 := by
        intro l
        induction l with
        | nil => intro _; rfl
        | cons c t ih =>
          obtain ⟨a, x⟩ := c
          intro h
          simp only [List.any_cons, Bool.or_eq_false_iff, beq_eq_false_iff_ne] at h
          simp [look, h.1, ih h.2]
      rw [this m (by revert h; cases m.any fun c => c.1 == k <;> simp)]
      rfl

end Sys2Proof.Machine
end

