-- ==== Sys2Proof/Laws/Regs.lean ====
section
/-! SUPPORT. Laws of the registers: what every register reads after one is written, and that a write changes nothing else. -/

namespace Sys2Proof.Machine

theorem lane_ge (m : Word) {l : Nat} (h : 32 ≤ l) : lane m l = false := BitVec.getLsbD_of_ge m l h

theorem lane_maskOf_aux (f : Nat → Bool) (n : Nat) : ∀ l, ((List.range n).foldl (fun n l => n + bnat (f l) * 2 ^ l) 0).testBit l = (decide (l < n) && f l) ∧
    (List.range n).foldl (fun n l => n + bnat (f l) * 2 ^ l) 0 < 2 ^ n := by
  induction n with
  | zero => intro l; simp
  | succ n ih =>
    intro l
    rw [List.range_succ, List.foldl_append]
    simp only [List.foldl_cons, List.foldl_nil]
    have hlt := (ih 0).2
    generalize hx : (List.range n).foldl (fun n l => n + bnat (f l) * 2 ^ l) 0 = x at *
    have hb : bnat (f n) * 2 ^ n + x < 2 ^ (n + 1) := by
      unfold bnat; rw [Nat.pow_succ]; split <;> omega
    refine ⟨?_, by omega⟩
    by_cases hf : f n = true
    · have e : x + bnat (f n) * 2 ^ n = 2 ^ n + x := by simp [bnat, hf]; omega
      rw [e]
      by_cases hl : l = n
      · subst hl
        rw [Nat.testBit_two_pow_add_eq]
        have h0 : x.testBit l = false := Nat.testBit_lt_two_pow hlt
        simp [h0, hf]
      · have hn : (2 ^ n + x).testBit l = x.testBit l := by
          by_cases hg : l < n
          · exact Nat.testBit_two_pow_add_gt hg x
          · have h1 : n + 1 ≤ l := by omega
            have hp : 2 ^ (n + 1) ≤ 2 ^ l := Nat.pow_le_pow_right (by omega) h1
            have hp2 : 2 ^ n ≤ 2 ^ (n + 1) := Nat.pow_le_pow_right (by omega) (by omega)
            have h2 : 2 ^ n + x < 2 ^ l := by
              have := Nat.pow_succ 2 n
              omega
            rw [Nat.testBit_lt_two_pow h2, Nat.testBit_lt_two_pow (by omega : x < 2 ^ l)]
        rw [hn, (ih l).1]
        have : (decide (l < n + 1)) = decide (l < n) := by simp; omega
        rw [this]
    · have hf : f n = false := by simpa using hf
      simp only [hf, bnat, Bool.false_eq_true, if_false, Nat.zero_mul, Nat.add_zero]
      rw [(ih l).1]
      by_cases hl : l = n
      · subst hl; simp [hf]
      · have : (decide (l < n + 1)) = decide (l < n) := by simp; omega
        rw [this]

/-- The lanes of the mask of a test. -/
@[simp] theorem lane_maskOf (f : Nat → Bool) (l : Nat) : lane (maskOf f) l = (decide (l < 32) && f l) := by
  unfold lane maskOf
  rw [BitVec.getLsbD_ofNat, (lane_maskOf_aux f 32 l).1]
  cases decide (l < 32) <;> rfl

@[simp] theorem lane_and (a b : Word) (l : Nat) : lane (a &&& b) l = (lane a l && lane b l) := BitVec.getLsbD_and
@[simp] theorem lane_or (a b : Word) (l : Nat) : lane (a ||| b) l = (lane a l || lane b l) := BitVec.getLsbD_or
@[simp] theorem lane_xor (a b : Word) (l : Nat) : lane (a ^^^ b) l = (lane a l ^^ lane b l) := BitVec.getLsbD_xor
theorem lane_not (a : Word) (l : Nat) : lane (~~~a) l = (decide (l < 32) && !lane a l) := BitVec.getLsbD_not
theorem lane_zero (l : Nat) : lane 0 l = false := BitVec.getLsbD_zero
@[simp] theorem lane_zero' (l : Nat) : lane 0#32 l = false := BitVec.getLsbD_zero

theorem mem_lanesOf (m : Word) (l : Nat) : l ∈ lanesOf m ↔ lane m l = true := by
  unfold lanesOf
  rw [List.mem_filter, List.mem_range]
  refine ⟨fun h => h.2, fun h => ⟨?_, h⟩⟩
  by_cases hl : l < 32
  · exact hl
  · rw [lane_ge m (by omega)] at h; cases h

theorem lanesOf_nodup (m : Word) : (lanesOf m).Nodup := List.nodup_range.sublist List.filter_sublist

theorem look_putAll_lanes {w : Nat} (base : Nat) (f : Nat → BitVec w) (ls : List Nat) (hl : ∀ l ∈ ls, l < 32) (hn : ls.Nodup) (m : SMap w) (r l : Nat) (h : l < 32) :
    look (putAll m (ls.map fun k => (32 * base + k, f k))) (32 * r + l) = if r = base ∧ l ∈ ls then f l else look m (32 * r + l) := by
  induction ls generalizing m with
  | nil => simp [putAll]
  | cons a t ih =>
    have ha : a < 32 := hl a List.mem_cons_self
    rw [List.map_cons, look_putAll_cons, ih (fun k hk => hl k (List.mem_cons_of_mem a hk)) (List.nodup_cons.mp hn).2, look_put]
    have hat := (List.nodup_cons.mp hn).1
    by_cases e : r = base ∧ l ∈ t
    · have : r = base ∧ l ∈ a :: t := ⟨e.1, List.mem_cons_of_mem a e.2⟩
      rw [if_pos e, if_pos this]
    · rw [if_neg e]
      by_cases g : 32 * r + l = 32 * base + a
      · have hr : r = base := by omega
        have hla : l = a := by omega
        rw [if_pos g, if_pos ⟨hr, by rw [hla]; exact List.mem_cons_self⟩, hla]
      · rw [if_neg g, if_neg]
        rintro ⟨hr, hm⟩
        rcases List.mem_cons.mp hm with h1 | h1
        · exact g (by rw [hr, h1])
        · exact e ⟨hr, h1⟩

theorem kittyIx_inj (g : Gang) {r d i : Nat} (h1 : kittyIx g r = some i) (h2 : kittyIx g d = some i) : r = d := by
  unfold kittyIx at h1 h2
  split at h1 <;> split at h2 <;> simp_all
  omega

@[simp] theorem kittyIx_v (g : Gang) (v : SMap 32) (r : Nat) : kittyIx { g with v := v } r = kittyIx g r := rfl

theorem gang_wrV_kittyIx (d : Nat) (m : Word) (f : Nat → Word) (s : State) (r : Nat) : kittyIx (wrV d m f s).gang r = kittyIx s.gang r := by
  unfold wrV
  split <;> rfl

/-- What every lane register reads after one has been written in the lanes of a mask. -/
theorem rdV_wrV (d : Nat) (m : Word) (f : Nat → Word) (s : State) (r l : Nat) (h : l < 32) :
    rdV (wrV d m f s) r l = (laneW d m f r l).getD (rdV s r l) := by
  have hls : ∀ k ∈ lanesOf m, k < 32 := by
    intro k hk
    exact List.mem_range.mp (List.mem_filter.mp hk).1
  unfold rdV laneW
  rw [gang_wrV_kittyIx]
  unfold wrV
  cases hd : kittyIx s.gang d with
  | none =>
    cases hr : kittyIx s.gang r with
    | none =>
      simp only [modGang_gang]
      rw [look_putAll_lanes d f _ hls (lanesOf_nodup m) _ r l h]
      simp only [mem_lanesOf]
      split <;> rfl
    | some j =>
      have : r ≠ d := fun e => by rw [e, hd] at hr; cases hr
      simp [this]
  | some i =>
    cases hr : kittyIx s.gang r with
    | none =>
      have : r ≠ d := fun e => by rw [e, hd] at hr; cases hr
      simp [this]
    | some j =>
      simp only [modGang_block, modBlock_block]
      rw [look_putAll_lanes i f _ hls (lanesOf_nodup m) _ j l h]
      simp only [mem_lanesOf]
      by_cases e : r = d
      · have : j = i := by rw [e, hd] at hr; exact (Option.some.inj hr).symm
        by_cases hm : lane m l = true <;> simp [e, this, hm]
      · have : ¬j = i := fun hj => e (kittyIx_inj s.gang hr (by rw [hd, hj]))
        simp [e, this]

theorem rdS_wrV (d : Nat) (m : Word) (f : Nat → Word) (s : State) (r : Nat) : rdS (wrV d m f s) r = rdS s r := by
  unfold wrV; split <;> rfl
theorem rdP_wrV (d : Nat) (m : Word) (f : Nat → Word) (s : State) (p : Nat) : rdP (wrV d m f s) p = rdP s p := by
  unfold wrV; split <;> rfl
theorem mode_wrV (d : Nat) (m : Word) (f : Nat → Word) (s : State) : (wrV d m f s).gang.mode = s.gang.mode := by
  unfold wrV; split <;> rfl
theorem outside_wrV (d : Nat) (m : Word) (f : Nat → Word) (s : State) : outside (wrV d m f s) = outside s := by
  unfold wrV; split <;> rfl
theorem kfull_wrV (d : Nat) (m : Word) (f : Nat → Word) (s : State) : (wrV d m f s).block.kfull = s.block.kfull := by
  unfold wrV; split <;> rfl
theorem split_wrV (d : Nat) (m : Word) (f : Nat → Word) (s : State) : (wrV d m f s).gang.split = s.gang.split := by
  unfold wrV; split <;> rfl
theorem spent_wrV (d : Nat) (m : Word) (f : Nat → Word) (s : State) : (wrV d m f s).spent = s.spent := by
  unfold wrV; split <;> rfl

/-- A write of registers takes marks away and puts none (05 R120). -/
theorem errs_wrV (d : Nat) (m : Word) (f : Nat → Word) (s : State) : ∀ e ∈ (wrV d m f s).gang.errs, e ∈ s.gang.errs := by
  intro e
  unfold wrV
  split <;> exact fun h => (List.mem_filter.mp h).1
theorem errs_wrS (d : Nat) (v : Word) (s : State) : ∀ e ∈ (wrS d v s).gang.errs, e ∈ s.gang.errs := fun _ h => (List.mem_filter.mp h).1
theorem errs_wrP (d : Nat) (m v : Word) (s : State) : ∀ e ∈ (wrP d m v s).gang.errs, e ∈ s.gang.errs := by
  intro e
  unfold wrP
  split
  · exact id
  · exact fun h => (List.mem_filter.mp h).1

/-- What every scalar reads after one has been written. -/
theorem rdS_wrS (d : Nat) (v : Word) (s : State) (r : Nat) : rdS (wrS d v s) r = if r = d then v else rdS s r := look_put ..
theorem rdV_wrS (d : Nat) (v : Word) (s : State) (r l : Nat) : rdV (wrS d v s) r l = rdV s r l := rfl
theorem rdP_wrS (d : Nat) (v : Word) (s : State) (p : Nat) : rdP (wrS d v s) p = rdP s p := rfl
theorem outside_wrS (d : Nat) (v : Word) (s : State) : outside (wrS d v s) = outside s := rfl

/-- What every predicate reads after one has been written in the lanes of a mask: P0 stays true. -/
theorem rdP_wrP (d : Nat) (m v : Word) (s : State) (p l : Nat) :
    lane (rdP (wrP d m v s) p) l = (predW d m (lane v) p l).getD (lane (rdP s p) l) := by
  unfold wrP predW rdP
  by_cases hd : d = 0
  · simp [hd]
  · by_cases hp : p = 0
    · have : ¬(0 = d) := fun e => hd e.symm
      simp [hd, hp, this]
    · by_cases e : p = d
      · subst e
        by_cases hm : lane m l = true
        · simp [hd, lane_not, hm]
        · simp only [Bool.not_eq_true] at hm
          simp [hd, lane_not, hm]
          intro h
          by_cases hl : l < 32
          · exact hl
          · rw [lane_ge _ (by omega)] at h; cases h
      · simp [hd, hp, look_put, e]

theorem rdV_wrP (d : Nat) (m v : Word) (s : State) (r l : Nat) : rdV (wrP d m v s) r l = rdV s r l := by
  unfold wrP; split <;> rfl
theorem rdS_wrP (d : Nat) (m v : Word) (s : State) (r : Nat) : rdS (wrP d m v s) r = rdS s r := by
  unfold wrP; split <;> rfl
theorem outside_wrP (d : Nat) (m v : Word) (s : State) : outside (wrP d m v s) = outside s := by
  unfold wrP; split <;> rfl
theorem mode_wrP (d : Nat) (m v : Word) (s : State) : (wrP d m v s).gang.mode = s.gang.mode := by
  unfold wrP; split <;> rfl
theorem kfull_wrP (d : Nat) (m v : Word) (s : State) : (wrP d m v s).block.kfull = s.block.kfull := by
  unfold wrP; split <;> rfl
theorem split_wrP (d : Nat) (m v : Word) (s : State) : (wrP d m v s).gang.split = s.gang.split := by
  unfold wrP; split <;> rfl

end Sys2Proof.Machine
end

