-- ==== Sys2Proof/Laws/Issue.lean ====
section
/-! SUPPORT. The issue of an instruction, said once: where it may issue it comes to its own meaning, and retiring it changes
nothing but the places of its slices and what `outside` puts aside. -/

namespace Sys2Proof.Machine

/-! Reconvergence requests touch the agenda alone. -/

theorem filter_insertDue (d : Due) (h : notRecon d = false) (l : List Due) : (insertDue d l).filter notRecon = l.filter notRecon := by
  induction l with
  | nil => simp [insertDue, h]
  | cons a t ih =>
    unfold insertDue
    split
    · simp [List.filter_cons, ih]
    · simp [List.filter_cons, h]

/-- A state of which only the agenda has changed. -/
theorem askRecon_eq (s : State) : ∃ a, askRecon s = { s with agenda := a } ∧ a.filter notRecon = s.agenda.filter notRecon := by
  unfold askRecon
  generalize reconDue s.gang = rs
  suffices h : ∀ u : State, (∃ a, u = { s with agenda := a } ∧ a.filter notRecon = s.agenda.filter notRecon) →
      ∃ a, rs.foldl (fun s r => later 0 (.gang s.gang.key) (.reconvergenceRelease s.gang.key (BitVec.ofNat 32 r)) s) u = { s with agenda := a } ∧
        a.filter notRecon = s.agenda.filter notRecon from h s ⟨s.agenda, rfl, rfl⟩
  induction rs with
  | nil => intro u hu; exact hu
  | cons r t ih =>
    intro u ⟨a, hu, ha⟩
    rw [List.foldl_cons]
    refine ih _ ⟨insertDue ⟨u.clk + 0, .gang u.gang.key, .reconvergenceRelease u.gang.key (BitVec.ofNat 32 r)⟩ u.agenda, ?_, ?_⟩
    · rw [hu]; rfl
    · rw [filter_insertDue _ rfl, hu]; exact ha

/-! Splitting the split table. -/

theorem nth_map_range {α : Type} (d : α) (f : Nat → α) (n k : Nat) : nth d ((List.range n).map f) k = if k < n then f k else d := by
  unfold nth
  simp only [List.getD_eq_getElem?_getD, List.getElem?_map]
  by_cases h : k < n
  · simp [h]
  · simp [h]

theorem entryOf_modSplit (fr : BitVec 8) (f : SplitEntry → SplitEntry) (s : State) (k : Nat) :
    entryOf (modSplit fr f s).gang k = if fr.getLsbD k = true ∧ k < s.gang.split.length then f (entryOf s.gang k) else entryOf s.gang k := by
  unfold modSplit entryOf
  simp only [modGang_gang]
  rw [nth_map_range]
  by_cases h : k < s.gang.split.length
  · simp [h]
  · simp only [h, if_false, and_false]
    simp [nth, List.getD_eq_getElem?_getD, List.getElem?_eq_none (Nat.le_of_not_lt h)]

theorem length_modSplit (fr : BitVec 8) (f : SplitEntry → SplitEntry) (s : State) :
    (modSplit fr f s).gang.split.length = s.gang.split.length := by simp [modSplit]

theorem parts_aside (l : List Part) (n : Nat) (f : Part → Part) (h : ∀ p, (f p).aside = p.aside) :
    (modNth l n f).map Part.aside = l.map Part.aside := by
  unfold modNth
  apply List.ext_getElem?
  intro i
  simp only [List.getElem?_map, List.getElem?_modify]
  cases l[i]? with
  | none => rfl
  | some p => by_cases e : n = i <;> simp [e, h]

/-- What is left of a state as an instruction of a fragment retires, and what of it the fragment's place does not touch. -/
structure Beside (s t : State) : Prop where
  cells : t.gang.v = s.gang.v
  scal : t.gang.s = s.gang.s
  preds : t.gang.p = s.gang.p
  mode : t.gang.mode = s.gang.mode
  kv : t.block.kv = s.block.kv
  kfull : t.block.kfull = s.block.kfull
  errs : t.gang.errs = s.gang.errs
  others : ∀ k, s.frag.getLsbD k = false → entryOf t.gang k = entryOf s.gang k
  rest : outside t = outside s

theorem Beside.refl (s : State) : Beside s s := ⟨rfl, rfl, rfl, rfl, rfl, rfl, rfl, fun _ _ => rfl, rfl⟩

theorem Beside.trans {s t u : State} (a : Beside s t) (b : Beside t u) : Beside s u :=
  ⟨b.cells.trans a.cells, b.scal.trans a.scal, b.preds.trans a.preds, b.mode.trans a.mode, b.kv.trans a.kv, b.kfull.trans a.kfull, b.errs.trans a.errs,
    fun k h => (b.others k (by rw [show t.frag = s.frag from congrArg (fun x => x.frag) a.rest]; exact h)).trans (a.others k h), b.rest.trans a.rest⟩

theorem beside_askRecon (s : State) : Beside s (askRecon s) := by
  obtain ⟨a, h, ha⟩ := askRecon_eq s
  rw [h]
  exact ⟨rfl, rfl, rfl, rfl, rfl, rfl, rfl, fun _ _ => rfl, by unfold outside; simp only [ha]⟩

theorem beside_modSplit (f : SplitEntry → SplitEntry) (s : State) : Beside s (modSplit s.frag f s) :=
  ⟨rfl, rfl, rfl, rfl, rfl, rfl, rfl, fun k h => by rw [entryOf_modSplit]; simp [h], rfl⟩

theorem beside_spend (a : List (Nat × Nat × Nat)) (b c : List (GangKey × Nat)) (s : State) : Beside s { s with spent := a, gaveUp := b, went := c } :=
  ⟨rfl, rfl, rfl, rfl, rfl, rfl, rfl, fun _ _ => rfl, rfl⟩

theorem beside_perf (e f n : Nat) (s : State) : Beside s (modCore (perfAdd e f n) s) :=
  ⟨rfl, rfl, rfl, rfl, rfl, rfl, rfl, fun _ _ => rfl, rfl⟩

theorem beside_part (n : Nat) (f : Part → Part) (h : ∀ p, (f p).aside = p.aside) (s : State) :
    Beside s (modCore (fun c => { c with parts := modNth c.parts n f }) s) :=
  ⟨rfl, rfl, rfl, rfl, rfl, rfl, rfl, fun _ _ => rfl, by unfold outside; simp only [modCore_core, modCore_gang, modCore_block, modCore_agenda, parts_aside _ _ _ h]; rfl⟩

/-- Noting an issue changes nothing but what `outside` puts aside. -/
theorem beside_noteIssue (n : Nat) (ends : Bool) (s : State) : Beside s (noteIssue n ends s) := by
  unfold noteIssue
  extract_lets k me mine y s1 s2
  have h1 : Beside s s1 := beside_part k.part (fun p => { p.stepped (timeOf s) with last := some me, yld := y p }) (fun _ => rfl) s
  have h2 : Beside s1 s2 := beside_spend ..
  have h3 := beside_modSplit (fun e => { e with elig := 0, boost := none }) s2
  exact h1.trans (h2.trans (h3.trans (beside_perf ..)))

theorem frag_noteIssue (n : Nat) (ends : Bool) (s : State) : (noteIssue n ends s).frag = s.frag := rfl

/-- Retiring an instruction changes nothing but the places of its slices and what `outside` puts aside. -/
theorem beside_retire (n : Nat) (s : State) : Beside s (retire n s) := by
  unfold retire
  refine Beside.trans (beside_noteIssue 1 (endYields s) s) (Beside.trans ?_ (beside_askRecon _))
  exact beside_modSplit (fun e => if e.st = .ended then e else e.behind n s.clk) (noteIssue 1 (endYields s) s)

theorem split_askRecon (s : State) : (askRecon s).gang.split = s.gang.split := by
  obtain ⟨a, h, _⟩ := askRecon_eq s
  rw [h]

theorem entryOf_noteIssue (n : Nat) (ends : Bool) (s : State) (k : Nat) :
    entryOf (noteIssue n ends s).gang k =
      if s.frag.getLsbD k = true ∧ k < s.gang.split.length then { entryOf s.gang k with elig := 0, boost := none } else entryOf s.gang k :=
  entryOf_modSplit s.frag (fun e => { e with elig := 0, boost := none }) s k

theorem length_noteIssue (n : Nat) (ends : Bool) (s : State) : (noteIssue n ends s).gang.split.length = s.gang.split.length :=
  length_modSplit s.frag (fun e => { e with elig := 0, boost := none }) s

/-- Where the slices of the issuing fragment stand once it has retired. -/
theorem passes_retire (n : Nat) (s : State) (k : Nat) (hk : s.frag.getLsbD k = true) (hl : k < s.gang.split.length) :
    entryOf (retire n s).gang k = passed n s.clk (entryOf s.gang k) := by
  have h : ∀ u : State, entryOf (askRecon u).gang k = entryOf u.gang k := fun u => by unfold entryOf; rw [split_askRecon]
  have hl' : s.frag.getLsbD k = true ∧ k < (noteIssue 1 (endYields s) s).gang.split.length := ⟨hk, by rw [length_noteIssue]; exact hl⟩
  have hn : entryOf (noteIssue 1 (endYields s) s).gang k = { entryOf s.gang k with elig := 0, boost := none } := by
    rw [entryOf_noteIssue]; exact if_pos ⟨hk, hl⟩
  unfold retire
  rw [h, entryOf_modSplit, if_pos hl', hn]
  rfl

/-! What the scoreboard books. -/

theorem beside_takeLanes (u : Use) (p : Plan) (f : Nat) (s : State) : Beside s (takeLanes u p f s) :=
  ⟨rfl, rfl, rfl, rfl, rfl, rfl, rfl, fun _ _ => rfl, rfl⟩

theorem beside_putTags (q : Req) (m : Word) (n : Nat) (s : State) : Beside s (putTags q m n s) := by
  unfold putTags
  split
  · exact Beside.refl s
  · exact ⟨rfl, rfl, rfl, rfl, rfl, rfl, rfl, fun _ _ => rfl, rfl⟩

theorem beside_takeEngine (q : Req) (s : State) : Beside s (takeEngine q s) := by
  unfold takeEngine
  split
  · exact ⟨rfl, rfl, rfl, rfl, rfl, rfl, rfl, fun _ _ => rfl, rfl⟩
  · split
    · exact ⟨rfl, rfl, rfl, rfl, rfl, rfl, rfl, fun _ _ => rfl, rfl⟩
    · split
      · exact ⟨rfl, rfl, rfl, rfl, rfl, rfl, rfl, fun _ _ => rfl, rfl⟩
      · split
        · exact beside_part s.gang.key.part (fun p => { p with sdiv := s.clk + 4 }) (fun _ => rfl) s
        · exact Beside.refl s

/-- Booking an instruction changes nothing but what `outside` puts aside. -/
theorem beside_book (q : Req) (m : Word) (s : State) : Beside s (book q m s) := by
  unfold book
  simp only
  split
  · exact Beside.refl s
  · exact (beside_takeLanes ..).trans ((beside_putTags ..).trans (beside_takeEngine ..))

theorem split_book (q : Req) (m : Word) (s : State) : (book q m s).gang.split = s.gang.split := by
  unfold book
  simp only
  split
  · rfl
  · unfold takeEngine putTags
    simp only [apply_ite (fun x : State => x.gang.split)]
    repeat' split
    all_goals rfl

/-- Placing crossings keeps every reservation that the scoreboard held. -/
theorem crossAll_keeps (lanes h lim : Nat) : ∀ (es : List Nat) (c : Nat) (b b' : List (Nat × Nat)) (cs : List Nat),
    crossAll lanes h lim es c b = some (b', cs) → ∀ r ∈ b, r ∈ b' := by
  intro es
  induction es with
  | nil => intro c b b' cs h r hr; simp only [crossAll, Option.some.injEq, Prod.mk.injEq] at h; rw [← h.1]; exact hr
  | cons e t ih =>
    intro c b b' cs hc r hr
    unfold crossAll at hc
    split at hc
    · cases hc
    · split at hc
      · cases hc
      · obtain ⟨x, hx, hxe⟩ := Option.map_eq_some_iff.mp hc
        cases hxe
        exact ih _ _ _ _ hx r (List.mem_append_right _ hr)

/-! The kitty bits. -/

theorem kittyFill_eq (q : Req) (m : Word) (s : State) : ∃ k, kittyFill q m s = modBlock (fun b => { b with kfull := k }) s ∧
    ∀ i l, lane (look k i) l = (lane (look s.block.kfull i) l ||
      (lane m l && (q.vw.filter fun r => !awaited s.gang (.v r)).any fun r => kittyIx s.gang r == some i)) := by
  unfold kittyFill
  generalize (q.vw.filter fun r => !awaited s.gang (.v r)) = rs
  suffices h : ∀ u : State, ∀ done : List Nat, (∃ k, u = modBlock (fun b => { b with kfull := k }) s ∧
      ∀ i l, lane (look k i) l = (lane (look s.block.kfull i) l || (lane m l && done.any fun r => kittyIx s.gang r == some i))) →
      ∃ k, rs.foldl (fun s r => match kittyIx s.gang r with
        | some i => modBlock (fun b => { b with kfull := put b.kfull i (look b.kfull i ||| m) }) s
        | none => s) u = modBlock (fun b => { b with kfull := k }) s ∧
        ∀ i l, lane (look k i) l = (lane (look s.block.kfull i) l || (lane m l && (done ++ rs).any fun r => kittyIx s.gang r == some i)) by
    exact h s [] ⟨s.block.kfull, rfl, by simp⟩
  induction rs with
  | nil => intro u done hu; simpa using hu
  | cons r t ih =>
    intro u done ⟨k, hu, hk⟩
    rw [List.foldl_cons]
    have hg : u.gang = s.gang := by rw [hu]; rfl
    have := ih (match kittyIx u.gang r with
        | some i => modBlock (fun b => { b with kfull := put b.kfull i (look b.kfull i ||| m) }) u
        | none => u) (done ++ [r]) ?_
    · simpa using this
    · rw [hg]
      cases hr : kittyIx s.gang r with
      | none => exact ⟨k, hu, fun i l => by simp [hk, hr]⟩
      | some j =>
        refine ⟨put k j (look k j ||| m), by rw [hu]; rfl, fun i l => ?_⟩
        rw [look_put]
        by_cases e : i = j
        · subst e
          simp only [if_true, lane_or, hk, List.any_append, List.any_cons, List.any_nil, hr, beq_self_eq_true, Bool.or_true, Bool.true_or, Bool.and_true]
          cases lane (look s.block.kfull i) l <;> cases lane m l <;> simp
        · have : (some j == some i) = false := by simpa using fun h => e h.symm
          simp [e, hk, hr, this]

theorem execMask_dead (s : State) (x : Option Guard) : execMask s x &&& ~~~s.gang.dead = execMask s x := by
  apply BitVec.eq_of_getLsbD_eq
  intro i hi
  unfold execMask
  simp only [BitVec.getLsbD_and, BitVec.getLsbD_not]
  cases s.gang.active.getLsbD i <;> cases s.gang.dead.getLsbD i <;> simp [hi]

/-- The issue of an instruction that may issue is its own meaning. -/
theorem issue_of_mayIssue (q : Req) (s : State) (k : Word → State → Eff) (h : mayIssue q s = true) :
    issue q s k = settle { q with pr := guardPred s q.x :: q.pr } (execMask s q.x) s (k (execMask s q.x) s) := by
  unfold mayIssue at h
  simp only [Bool.and_eq_true, Bool.not_eq_true', Option.isNone_iff_eq_none, beq_iff_eq] at h
  obtain ⟨⟨⟨⟨⟨⟨⟨⟨h1, h2⟩, h3⟩, h7⟩, h9⟩, h4⟩, h5⟩, _⟩, h6⟩ := h
  have h9' : (planOf (useOf { q with pr := guardPred s q.x :: q.pr } s) s).isNone = false := by rw [← Option.not_isSome, h9]; rfl
  have hd : laneDeaths { q with pr := guardPred s q.x :: q.pr } (execMask s q.x) s = s := by
    unfold laneDeaths
    simp only [h5, if_true]
  unfold issue
  simp only [h1, h2, h3, h4, h7, h9', hd, h6, execMask_dead, Bool.false_eq_true, if_false, Bool.not_true]

theorem kittyIx_congr {g g' : Gang} (h1 : g'.kit = g.kit) (h2 : g'.regs = g.regs) (r : Nat) : kittyIx g' r = kittyIx g r := by
  unfold kittyIx; rw [h1, h2]

/-- No outstanding entry of the gang writes a lane register of an instruction that may issue (05 R121). -/
theorem not_awaited_of_mayIssue (q : Req) (s : State) (h : mayIssue q s = true) (r : Nat) (hr : r ∈ q.vw) : awaited s.gang (.v r) = false := by
  unfold mayIssue at h
  simp only [Bool.and_eq_true, Bool.not_eq_true', Option.isNone_iff_eq_none] at h
  obtain ⟨⟨⟨⟨⟨⟨⟨⟨_, ht⟩, _⟩, _⟩, _⟩, _⟩, _⟩, hn⟩, _⟩ := h
  unfold tagged heldBy at ht
  simp only [Bool.or_eq_false_iff, hn, Option.bind_none] at ht
  have hp := ht.1.2
  unfold awaited
  rw [List.any_eq_false] at hp ⊢
  intro p hm
  have h2 := hp p hm
  simp only [bne, Bool.and_eq_true, not_and, Bool.not_eq_true'] at h2
  rw [Bool.not_eq_true, List.any_eq_false]
  intro w hw
  have h3 := h2 rfl
  rw [Bool.not_eq_true, List.any_eq_false] at h3
  have h4 := h3 w hw
  cases w with
  | lane n _ _ =>
    simp only [beq_iff_eq, RegName.v.injEq]
    intro e
    subst e
    exact h4 (by simp [Req.names, hr])
  | scal n _ => simp
  | pred n _ _ => simp

/-- What an instruction does among the registers before it retires. -/
structure Wrote (w : Writes) (s u : State) : Prop where
  lanes : ∀ r l, l < 32 → rdV u r l = (w.v r l).getD (rdV s r l)
  scal : ∀ r, rdS u r = (w.s r).getD (rdS s r)
  preds : ∀ p l, lane (rdP u p) l = (w.p p l).getD (lane (rdP s p) l)
  mode : u.gang.mode = s.gang.mode ||| w.mode
  kfull : u.block.kfull = s.block.kfull
  marks : ∀ e ∈ u.gang.errs, e ∈ s.gang.errs
  split : u.gang.split = s.gang.split
  rest : outside u = outside s

/-- What is booked besides leaves what has been written. -/
theorem Wrote.beside {w : Writes} {s u t : State} (h : Wrote w s u) (b : Beside u t) (hs : t.gang.split = u.gang.split) : Wrote w s t := by
  have kit : ∀ r, kittyIx t.gang r = kittyIx u.gang r :=
    kittyIx_congr (congrArg (fun x => x.gang.kit) b.rest) (congrArg (fun x => x.gang.regs) b.rest)
  refine ⟨fun r l hl => ?_, fun r => ?_, fun p l => ?_, b.mode.trans h.mode, b.kfull.trans h.kfull, by rw [b.errs]; exact h.marks, hs.trans h.split, b.rest.trans h.rest⟩
  · rw [← h.lanes r l hl]; unfold rdV; rw [kit, b.cells, b.kv]
  · rw [← h.scal r]; unfold rdS; rw [b.scal]
  · rw [← h.preds p l]; unfold rdP; rw [b.preds]

/-- An instruction that has written and retires makes a register step. -/
theorem registerStep_of_wrote (q : Req) (w : Writes) (s u : State) (q' : Req) (hq : q'.vw = q.vw)
    (ha : ∀ r ∈ q.vw, awaited s.gang (.v r) = false) (h : Wrote w s u) :
    RegisterStep q w s (retire q.words (kittyFill q' (execMask s q.x) (book q' (execMask s q.x) u))) := by
  have h : Wrote w s (book q' (execMask s q.x) u) := h.beside (beside_book ..) (split_book ..)
  generalize book q' (execMask s q.x) u = u at *
  obtain ⟨k, hk, hf⟩ := kittyFill_eq q' (execMask s q.x) u
  have b := beside_retire q.words (kittyFill q' (execMask s q.x) u)
  generalize hu : kittyFill q' (execMask s q.x) u = y at *
  have kit : ∀ r, kittyIx u.gang r = kittyIx s.gang r :=
    kittyIx_congr (congrArg (fun x => x.gang.kit) h.rest) (congrArg (fun x => x.gang.regs) h.rest)
  have kity : ∀ r, kittyIx (retire q.words y).gang r = kittyIx u.gang r := by
    intro r
    refine kittyIx_congr ?_ ?_ r
    · rw [show (retire q.words y).gang.kit = y.gang.kit from congrArg (fun x => x.gang.kit) b.rest, hk]; rfl
    · rw [show (retire q.words y).gang.regs = y.gang.regs from congrArg (fun x => x.gang.regs) b.rest, hk]; rfl
  have yv : y.gang.v = u.gang.v := by rw [hk]; rfl
  have ys : y.gang.s = u.gang.s := by rw [hk]; rfl
  have yp : y.gang.p = u.gang.p := by rw [hk]; rfl
  have ykv : y.block.kv = u.block.kv := by rw [hk]; rfl
  have yo : outside y = outside u := by rw [hk]; rfl
  have fr : y.frag = s.frag := (congrArg (fun x => x.frag) yo).trans (congrArg (fun x => x.frag) h.rest)
  have hp : u.gang.pend = s.gang.pend := congrArg (fun x => x.gang.pend) h.rest
  have hw : (q'.vw.filter fun r => !awaited u.gang (.v r)) = q.vw := by
    rw [hq, List.filter_eq_self]
    intro r hr
    unfold awaited
    rw [hp]
    exact Bool.not_eq_true' _ |>.mpr (ha r hr)
  refine ⟨⟨fun r l hl => ?_, fun r => ?_, fun p l => ?_, ?_, fun i l => ?_, fun j hj => ?_, ?_, fun j => ?_, ?_⟩, fun j hj hl => ?_⟩
  · rw [← h.lanes r l hl]
    unfold rdV
    rw [kity, b.cells, b.kv, yv, ykv]
  · rw [← h.scal r]
    unfold rdS
    rw [b.scal, ys]
  · rw [← h.preds p l]
    unfold rdP
    rw [b.preds, yp]
  · rw [b.mode, hk, modBlock_gang, h.mode]
  · rw [b.kfull, hk, modBlock_block, hf, h.kfull, hw]
    simp only [kit]
  · rw [b.others j (by rw [fr]; exact hj), hk]
    unfold entryOf
    rw [modBlock_gang, h.split]
  · rw [b.errs, hk, modBlock_gang]
    exact h.marks
  · rw [show (retire q.words y).mem = y.mem from congrArg (fun x => x.mem) b.rest, hk, modBlock_mem, show u.mem = s.mem from congrArg (fun x => x.mem) h.rest]
  · rw [b.rest, yo, h.rest]
  · have ysp : y.gang.split = s.gang.split := by rw [hk, modBlock_gang, h.split]
    have yclk : y.clk = s.clk := (congrArg (fun x => x.clk) yo).trans (congrArg (fun x => x.clk) h.rest)
    rw [passes_retire q.words y j (by rw [fr]; exact hj) (by rw [ysp]; exact hl), yclk]
    unfold entryOf
    rw [ysp]

/-- An instruction that comes to its writes completes with them. -/
theorem completes_of_wrote (q : Req) (i : Instr) (w : Writes) (s : State) (k : Word → State → Eff) (u : State)
    (hx : exec i s = .next (issue q s k)) (hk : k (execMask s q.x) s = .done u) (h : Wrote w s u) : Completes q i w s := by
  intro hm
  refine ⟨_, hx, ?_⟩
  rw [issue_of_mayIssue q s k hm, hk]
  exact registerStep_of_wrote q w s u _ rfl (not_awaited_of_mayIssue q s hm) h

theorem Wrote.nil (s : State) : Wrote {} s s := ⟨fun _ _ _ => rfl, fun _ => rfl, fun _ _ => rfl, by simp, rfl, fun _ h => h, rfl, rfl⟩

theorem wrote_wrV (d : Nat) (m : Word) (f : Nat → Word) (s : State) : Wrote { v := laneW d m f } s (wrV d m f s) :=
  ⟨fun r l hl => rdV_wrV d m f s r l hl, fun r => rdS_wrV d m f s r, fun p l => by rw [rdP_wrV]; rfl, by rw [mode_wrV]; simp,
    kfull_wrV .., errs_wrV _ _ _ _, split_wrV .., outside_wrV ..⟩

theorem wrote_wrVV (d : Nat) (m : Word) (f : Nat → DWord) (s : State) : Wrote { v := pairW d m f } s (wrVV d m f s) := by
  unfold wrVV
  refine ⟨fun r l hl => ?_, fun r => by rw [rdS_wrV, rdS_wrV]; rfl, fun p l => by rw [rdP_wrV, rdP_wrV]; rfl, by rw [mode_wrV, mode_wrV]; simp, ?_, ?_, ?_, ?_⟩
  · rw [rdV_wrV _ _ _ _ _ _ hl, rdV_wrV _ _ _ _ _ _ hl]
    unfold laneW pairW
    by_cases e : r = d + 1 ∧ lane m l = true
    · simp only [if_pos e]; rfl
    · simp only [if_neg e]; split <;> rfl
  · rw [kfull_wrV, kfull_wrV]
  · exact fun e h => errs_wrV _ _ _ _ e (errs_wrV _ _ _ _ e h)
  · rw [split_wrV, split_wrV]
  · rw [outside_wrV, outside_wrV]

theorem wrote_wrS (d : Nat) (m : Word) (v : Word) (s : State) : Wrote { s := scalW d m v } s (if m = 0 then s else wrS d v s) := by
  by_cases hm : m = 0
  · simp only [hm, if_true]
    refine ⟨fun _ _ _ => rfl, fun r => ?_, fun _ _ => rfl, by simp, rfl, fun _ h => h, rfl, rfl⟩
    simp [scalW]
  · simp only [hm, if_false]
    refine ⟨fun _ _ _ => rfl, fun r => ?_, fun _ _ => rfl, (BitVec.or_zero).symm, rfl, fun e h => errs_wrS _ _ _ e h, rfl, rfl⟩
    rw [rdS_wrS]
    simp only [scalW, hm, ne_eq, not_false_eq_true, and_true]
    split <;> rfl

theorem wrote_wrSS (d : Nat) (m : Word) (v : DWord) (s : State) : Wrote { s := scalPairW d m v } s (if m = 0 then s else wrSS d v s) := by
  by_cases hm : m = 0
  · simp only [hm, if_true]
    refine ⟨fun _ _ _ => rfl, fun r => ?_, fun _ _ => rfl, by simp, rfl, fun _ h => h, rfl, rfl⟩
    simp [scalPairW]
  · simp only [hm, if_false]
    refine ⟨fun _ _ _ => rfl, fun r => ?_, fun _ _ => rfl, (BitVec.or_zero).symm, rfl, fun e h => errs_wrS _ _ _ e (errs_wrS _ _ _ e h), rfl, rfl⟩
    unfold wrSS scalPairW
    rw [rdS_wrS, rdS_wrS]
    simp only [hm, if_false]
    by_cases e : r = d + 1
    · simp [e]
    · by_cases e' : r = d <;> simp [e, e']

theorem wrote_wrP (d : Nat) (m v : Word) (s : State) : Wrote { p := predW d m (lane v) } s (wrP d m v s) :=
  ⟨fun r l _ => rdV_wrP d m v s r l, fun r => rdS_wrP d m v s r, fun p l => rdP_wrP d m v s p l, by rw [mode_wrP]; simp,
    kfull_wrP .., errs_wrP _ _ _ _, split_wrP .., outside_wrP ..⟩

/-- Sticky bits on top of writes. -/
theorem Wrote.orMode {w : Writes} {s u : State} (h : Wrote w s u) (hw : w.mode = 0) (b : DWord) : Wrote { w with mode := b } s (orMode b u) := by
  refine ⟨h.lanes, h.scal, h.preds, ?_, h.kfull, h.marks, h.split, ?_⟩
  · show u.gang.mode ||| b = s.gang.mode ||| b
    rw [h.mode, hw]; simp
  · exact h.rest

/-- Writes that say the same. -/
theorem Wrote.congr {w w' : Writes} {s u : State} (h : Wrote w s u) (hv : ∀ r l, l < 32 → w.v r l = w'.v r l) (hs : ∀ r, w.s r = w'.s r)
    (hp : ∀ p l, w.p p l = w'.p p l) (hm : w.mode = w'.mode) : Wrote w' s u :=
  ⟨fun r l hl => by rw [← hv r l hl]; exact h.lanes r l hl, fun r => by rw [← hs]; exact h.scal r, fun p l => by rw [← hp]; exact h.preds p l,
    by rw [← hm]; exact h.mode, h.kfull, h.marks, h.split, h.rest⟩

/-- A lane operation completes with its results in the lanes of the execution mask. -/
theorem laneOp_completes (q : Req) (rs : List Nat) (d : Nat) (f : State → Nat → Word) (i : Instr) (s : State) (g : Nat → Word)
    (hx : exec i s = laneOp q rs d f s) (hg : ∀ l, l < 32 → lane (execMask s q.x) l = true → f s l = g l) :
    Completes { q with vr := rs, vw := [d] } i { v := laneW d (execMask s q.x) g } s := by
  refine completes_of_wrote _ i _ s (fun m s => .done (wrV d m (f s) s)) _ hx rfl ?_
  refine (wrote_wrV d (execMask s q.x) (f s) s).congr (fun r l hl => ?_) (fun _ => rfl) (fun _ _ => rfl) rfl
  show laneW d _ (f s) r l = laneW d _ g r l
  unfold laneW
  split
  · next h => rw [hg l hl h.2]
  · rfl

/-- As `laneOp_completes`, for a pair. -/
theorem lanePairOp_completes (q : Req) (rs : List Nat) (d : Nat) (f : State → Nat → DWord) (i : Instr) (s : State) (g : Nat → DWord)
    (hx : exec i s = lanePairOp q rs d f s) (hg : ∀ l, l < 32 → f s l = g l) :
    Completes { q with vr := rs, vw := pair d } i { v := pairW d (execMask s q.x) g } s := by
  refine completes_of_wrote _ i _ s (fun m s => .done (wrVV d m (f s) s)) _ hx rfl ?_
  refine (wrote_wrVV d (execMask s q.x) (f s) s).congr (fun r l hl => ?_) (fun _ => rfl) (fun _ _ => rfl) rfl
  show pairW d _ (f s) r l = pairW d _ g r l
  unfold pairW
  rw [hg l hl]

/-- A predicate operation completes with its results in the lanes of the execution mask. -/
theorem predOp_completes (q : Req) (rs ps : List Nat) (d : Nat) (f : State → Nat → Bool) (i : Instr) (s : State) (g : Nat → Bool)
    (hx : exec i s = predOp q rs ps d f s) (hg : ∀ l, l < 32 → f s l = g l) :
    Completes { q with vr := rs, pr := ps, pw := [d] } i { p := predW d (execMask s q.x) g } s := by
  refine completes_of_wrote _ i _ s (fun m s => .done (wrP d m (maskOf (f s)) s)) _ hx rfl ?_
  refine (wrote_wrP d (execMask s q.x) _ s).congr (fun _ _ _ => rfl) (fun _ => rfl) (fun p l => ?_) rfl
  simp only [predW, lane_maskOf]
  split
  · next h =>
    have hl : l < 32 := by
      by_cases hl : l < 32
      · exact hl
      · have := lane_ge (execMask s q.x) (Nat.le_of_not_lt hl); rw [this] at h; exact absurd h.2.2 (by decide)
    simp [hg l hl, hl]
  · rfl

/-- A scalar operation completes with its result, written once for the gang. -/
theorem scalOp_completes (q : Req) (d : Nat) (f : State → Word) (i : Instr) (s : State) (v : Word)
    (hx : exec i s = scalOp q d f s) (hv : f s = v) : Completes { q with sw := [d] } i { s := scalW d (execMask s q.x) v } s :=
  completes_of_wrote _ i _ s (fun m s => .done (if m = 0 then s else wrS d (f s) s)) _ hx rfl (by rw [hv]; exact wrote_wrS ..)

/-- As `scalOp_completes`, for a pair. -/
theorem scalPairOp_completes (q : Req) (d : Nat) (f : State → DWord) (i : Instr) (s : State) (v : DWord)
    (hx : exec i s = scalPairOp q d f s) (hv : f s = v) : Completes { q with sw := pair d } i { s := scalPairW d (execMask s q.x) v } s :=
  completes_of_wrote _ i _ s (fun m s => .done (if m = 0 then s else wrSS d (f s) s)) _ hx rfl (by rw [hv]; exact wrote_wrSS ..)

end Sys2Proof.Machine
end

