-- ==== Sys2Proof/Laws/PerInstr.lean ====
section
/-! SUPPORT. What holds of every instruction by its syntax: its words fit 32 bits, and their number is the one that its major has
(04 R89). -/

open Sys2Proof

/-- The words of an instruction fit 32 bits, and a word or two stand for it as its major says; a word of a reserved major is one, and
an event has none. -/
def Sys2Proof.Laws.Words.Statement (i : Instr) : Prop :=
  (∀ w ∈ encode i, w < 2 ^ 32) ∧ (encode i = [] ∨ (encode i).length = (wordsOf i.major).getD 1)

namespace Sys2Proof.Laws

theorem bnat_lt (b : Bool) : bnat b < 2 := by cases b <;> decide

theorem none_fits (i : Instr) (h : encode i = []) : Words.Statement i := ⟨by simp [h], .inl h⟩

theorem one_fits (i : Instr) (w : Nat) (h : encode i = [w]) (hn : (wordsOf i.major).getD 1 = 1) (hw : w < 2 ^ 32) : Words.Statement i :=
  ⟨by simpa [h] using hw, .inr (by simp [h, hn])⟩

theorem two_fit (i : Instr) (w0 w1 : Nat) (h : encode i = [w0, w1]) (hn : (wordsOf i.major).getD 1 = 2) (h0 : w0 < 2 ^ 32) (h1 : w1 < 2 ^ 32) :
    Words.Statement i := ⟨by simpa [h] using ⟨h0, h1⟩, .inr (by simp [h, hn])⟩

end Sys2Proof.Laws

theorem Sys2Proof.Guard.bits_le (x : Guard) : x.bits ≤ 31 * 2 ^ 19 := by
  have := Laws.bnat_lt x.gn; have := Laws.bnat_lt x.go; unfold Guard.bits; omega
theorem Sys2Proof.PackTy.code_lt (t : PackTy) : t.code < 32 := by cases t <;> decide
theorem Sys2Proof.MulTy.code_lt (t : MulTy) : t.code < 4 := by cases t <;> decide
theorem Sys2Proof.Sgn.code_lt (t : Sgn) : t.code < 2 := by cases t <;> decide
theorem Sys2Proof.CmpCond.code_lt (t : CmpCond) : t.code < 16 := by cases t <;> decide
theorem Sys2Proof.Comb.code_lt (t : Comb) : t.code < 4 := by cases t <;> decide
theorem Sys2Proof.SaluOp.code_lt (t : SaluOp) : t.code < 32 := by cases t <;> decide
theorem Sys2Proof.ScmpTy.code_lt (t : ScmpTy) : t.code < 32 := by cases t <;> decide
theorem Sys2Proof.Rnd.code_lt (t : Rnd) : t.code < 8 := by cases t <;> decide
theorem Sys2Proof.FTy.code_lt (t : FTy) : t.code < 4 := by cases t <;> decide
theorem Sys2Proof.FMovOp.code_lt (t : FMovOp) : t.code < 8 := by cases t <;> decide
theorem Sys2Proof.FCond.code_lt (t : FCond) : t.code < 16 := by cases t <;> decide
theorem Sys2Proof.DfmaOp.code_lt (t : DfmaOp) : t.code < 32 := by cases t <;> decide
theorem Sys2Proof.CvtTy.code_lt (t : CvtTy) : t.code < 16 := by cases t <;> decide
theorem Sys2Proof.ShflKind.code_lt (t : ShflKind) : t.code < 32 := by cases t <;> decide
theorem Sys2Proof.ShflW.code_lt (t : ShflW) : t.code < 8 := by cases t <;> decide
theorem Sys2Proof.VoteOp.code_lt (t : VoteOp) : t.code < 32 := by cases t <;> decide
theorem Sys2Proof.RedOp.code_lt (t : RedOp) : t.code < 32 := by cases t <;> decide
theorem Sys2Proof.ScanOp.code_lt (t : ScanOp) : t.code < 32 := by cases t <;> decide
theorem Sys2Proof.LidSel.code_lt (t : LidSel) : t.code < 256 := by cases t <;> decide
theorem Sys2Proof.LdTy.code_lt (t : LdTy) : t.code < 8 := by cases t <;> decide
theorem Sys2Proof.StTy.code_lt (t : StTy) : t.code < 8 := by cases t <;> decide
theorem Sys2Proof.LdsSp.code_lt (t : LdsSp) : t.code < 4 := by cases t <;> decide
theorem Sys2Proof.PSp.code_lt (t : PSp) : t.code < 4 := by cases t <;> decide
theorem Sys2Proof.Sp4.code_lt (t : Sp4) : t.code < 4 := by cases t <;> decide
theorem Sys2Proof.AtomOp.code_lt (t : AtomOp) : t.code < 32 := by cases t <;> decide
theorem Sys2Proof.Scope.code_lt (t : Scope) : t.code < 4 := by cases t <;> decide
theorem Sys2Proof.Sp3.code_lt (t : Sp3) : t.code < 8 := by cases t <;> decide
theorem Sys2Proof.PrefLvl.code_lt (t : PrefLvl) : t.code < 32 := by cases t <;> decide
theorem Sys2Proof.FlushAct.code_lt (t : FlushAct) : t.code < 32 := by cases t <;> decide
theorem Sys2Proof.Twin.code_lt (t : Twin) : t.code < 4 := by cases t <;> decide
theorem Sys2Proof.McblSp.code_lt (t : McblSp) : t.code < 32 := by cases t <;> decide
theorem Sys2Proof.BrMode.code_lt (t : BrMode) : t.code < 4 := by cases t <;> decide
theorem Sys2Proof.BarOp.code_lt (t : BarOp) : t.code < 32 := by cases t <;> decide
theorem Sys2Proof.CsrwOp.code_lt (t : CsrwOp) : t.code < 32 := by cases t <;> decide
theorem Sys2Proof.TlbSz.code_lt (t : TlbSz) : t.code < 4 := by cases t <;> decide
theorem Sys2Proof.SigSel.code_lt (t : SigSel) : t.code < 256 := by cases t <;> decide

open Sys2Proof.Laws

theorem Sys2Proof.Laws.Words.nop : Words.Statement .nop :=
  one_fits _ (wordR 1 0 0 0) rfl rfl (by unfold wordR; omega)
theorem Sys2Proof.Laws.Words.mov (d : VReg) (a : VReg) : Words.Statement (.mov d a) :=
  one_fits _ (wordR 2 d.toNat a.toNat 0) rfl rfl (by have := d.isLt; have := a.isLt; unfold wordR; omega)
theorem Sys2Proof.Laws.Words.movi (d : VReg) (i : BitVec 16) : Words.Statement (.movi d i) :=
  one_fits _ (wordJ 3 d.toNat i.toNat) rfl rfl (by have := d.isLt; have := i.isLt; unfold wordJ; omega)
theorem Sys2Proof.Laws.Words.movh (d : VReg) (i : BitVec 16) : Words.Statement (.movh d i) :=
  one_fits _ (wordJ 4 d.toNat i.toNat) rfl rfl (by have := d.isLt; have := i.isLt; unfold wordJ; omega)
theorem Sys2Proof.Laws.Words.movl (d : VReg) (i : BitVec 32) : Words.Statement (.movl d i) :=
  two_fit _ (wordR 5 d.toNat 0 0) i.toNat rfl rfl
    (by have := d.isLt; unfold wordR; omega)
    (i.isLt)
theorem Sys2Proof.Laws.Words.add (d : VReg) (a : VReg) (b : VReg) : Words.Statement (.add d a b) :=
  one_fits _ (wordR 6 d.toNat a.toNat b.toNat) rfl rfl (by have := d.isLt; have := a.isLt; have := b.isLt; unfold wordR; omega)
theorem Sys2Proof.Laws.Words.addi (d : VReg) (a : VReg) (i : BitVec 8) : Words.Statement (.addi d a i) :=
  one_fits _ (wordR 7 d.toNat a.toNat i.toNat) rfl rfl (by have := d.isLt; have := a.isLt; have := i.isLt; unfold wordR; omega)
theorem Sys2Proof.Laws.Words.sub (d : VReg) (a : VReg) (b : VReg) : Words.Statement (.sub d a b) :=
  one_fits _ (wordR 8 d.toNat a.toNat b.toNat) rfl rfl (by have := d.isLt; have := a.isLt; have := b.isLt; unfold wordR; omega)
theorem Sys2Proof.Laws.Words.neg (d : VReg) (a : VReg) : Words.Statement (.neg d a) :=
  one_fits _ (wordR 9 d.toNat a.toNat 0) rfl rfl (by have := d.isLt; have := a.isLt; unfold wordR; omega)
theorem Sys2Proof.Laws.Words.addsat (d : VReg) (a : VReg) (b : VReg) (ty : PackTy) (x : Guard) : Words.Statement (.addsat d a b ty x) :=
  two_fit _ (wordR 10 d.toNat a.toNat b.toNat) (wordX 0 0 ty.code 0 x) rfl rfl
    (by have := d.isLt; have := a.isLt; have := b.isLt; unfold wordR; omega)
    (by have := PackTy.code_lt ty; have := x.bits_le; unfold wordX; omega)
theorem Sys2Proof.Laws.Words.subsat (d : VReg) (a : VReg) (b : VReg) (ty : PackTy) (x : Guard) : Words.Statement (.subsat d a b ty x) :=
  two_fit _ (wordR 11 d.toNat a.toNat b.toNat) (wordX 0 0 ty.code 0 x) rfl rfl
    (by have := d.isLt; have := a.isLt; have := b.isLt; unfold wordR; omega)
    (by have := PackTy.code_lt ty; have := x.bits_le; unfold wordX; omega)
theorem Sys2Proof.Laws.Words.mullo (d : VReg) (a : VReg) (b : VReg) : Words.Statement (.mullo d a b) :=
  one_fits _ (wordR 12 d.toNat a.toNat b.toNat) rfl rfl (by have := d.isLt; have := a.isLt; have := b.isLt; unfold wordR; omega)
theorem Sys2Proof.Laws.Words.mulhi (d : VReg) (a : VReg) (b : VReg) (ty : MulTy) (x : Guard) : Words.Statement (.mulhi d a b ty x) :=
  two_fit _ (wordR 13 d.toNat a.toNat b.toNat) (wordX 0 0 ty.code 0 x) rfl rfl
    (by have := d.isLt; have := a.isLt; have := b.isLt; unfold wordR; omega)
    (by have := MulTy.code_lt ty; have := x.bits_le; unfold wordX; omega)
theorem Sys2Proof.Laws.Words.mad (d : VReg) (a : VReg) (b : VReg) (c : VReg) (sat : Bool) (ty : Sgn) (x : Guard) : Words.Statement (.mad d a b c sat ty x) :=
  two_fit _ (wordR 14 d.toNat a.toNat b.toNat) (wordX c.toNat (wordF 0 0 0 (bnat sat)) ty.code 0 x) rfl rfl
    (by have := d.isLt; have := a.isLt; have := b.isLt; unfold wordR; omega)
    (by have := c.isLt; have := bnat_lt sat; have := Sgn.code_lt ty; have := x.bits_le; unfold wordX wordF; omega)
theorem Sys2Proof.Laws.Words.madw (d : VReg) (a : VReg) (b : VReg) (c : VReg) (ty : Sgn) (x : Guard) : Words.Statement (.madw d a b c ty x) :=
  two_fit _ (wordR 15 d.toNat a.toNat b.toNat) (wordX c.toNat 0 ty.code 0 x) rfl rfl
    (by have := d.isLt; have := a.isLt; have := b.isLt; unfold wordR; omega)
    (by have := c.isLt; have := Sgn.code_lt ty; have := x.bits_le; unfold wordX; omega)
theorem Sys2Proof.Laws.Words.abs (d : VReg) (a : VReg) : Words.Statement (.abs d a) :=
  one_fits _ (wordR 16 d.toNat a.toNat 0) rfl rfl (by have := d.isLt; have := a.isLt; unfold wordR; omega)
theorem Sys2Proof.Laws.Words.min (d : VReg) (a : VReg) (b : VReg) (ty : PackTy) (x : Guard) : Words.Statement (.min d a b ty x) :=
  two_fit _ (wordR 17 d.toNat a.toNat b.toNat) (wordX 0 0 ty.code 0 x) rfl rfl
    (by have := d.isLt; have := a.isLt; have := b.isLt; unfold wordR; omega)
    (by have := PackTy.code_lt ty; have := x.bits_le; unfold wordX; omega)
theorem Sys2Proof.Laws.Words.max (d : VReg) (a : VReg) (b : VReg) (ty : PackTy) (x : Guard) : Words.Statement (.max d a b ty x) :=
  two_fit _ (wordR 18 d.toNat a.toNat b.toNat) (wordX 0 0 ty.code 0 x) rfl rfl
    (by have := d.isLt; have := a.isLt; have := b.isLt; unfold wordR; omega)
    (by have := PackTy.code_lt ty; have := x.bits_le; unfold wordX; omega)
theorem Sys2Proof.Laws.Words.and (d : VReg) (a : VReg) (b : VReg) : Words.Statement (.and d a b) :=
  one_fits _ (wordR 19 d.toNat a.toNat b.toNat) rfl rfl (by have := d.isLt; have := a.isLt; have := b.isLt; unfold wordR; omega)
theorem Sys2Proof.Laws.Words.or (d : VReg) (a : VReg) (b : VReg) : Words.Statement (.or d a b) :=
  one_fits _ (wordR 20 d.toNat a.toNat b.toNat) rfl rfl (by have := d.isLt; have := a.isLt; have := b.isLt; unfold wordR; omega)
theorem Sys2Proof.Laws.Words.xor (d : VReg) (a : VReg) (b : VReg) : Words.Statement (.xor d a b) :=
  one_fits _ (wordR 21 d.toNat a.toNat b.toNat) rfl rfl (by have := d.isLt; have := a.isLt; have := b.isLt; unfold wordR; omega)
theorem Sys2Proof.Laws.Words.andn (d : VReg) (a : VReg) (b : VReg) : Words.Statement (.andn d a b) :=
  one_fits _ (wordR 22 d.toNat a.toNat b.toNat) rfl rfl (by have := d.isLt; have := a.isLt; have := b.isLt; unfold wordR; omega)
theorem Sys2Proof.Laws.Words.andi (d : VReg) (a : VReg) (i : BitVec 8) : Words.Statement (.andi d a i) :=
  one_fits _ (wordR 23 d.toNat a.toNat i.toNat) rfl rfl (by have := d.isLt; have := a.isLt; have := i.isLt; unfold wordR; omega)
theorem Sys2Proof.Laws.Words.ori (d : VReg) (a : VReg) (i : BitVec 8) : Words.Statement (.ori d a i) :=
  one_fits _ (wordR 24 d.toNat a.toNat i.toNat) rfl rfl (by have := d.isLt; have := a.isLt; have := i.isLt; unfold wordR; omega)
theorem Sys2Proof.Laws.Words.xori (d : VReg) (a : VReg) (i : BitVec 8) : Words.Statement (.xori d a i) :=
  one_fits _ (wordR 25 d.toNat a.toNat i.toNat) rfl rfl (by have := d.isLt; have := a.isLt; have := i.isLt; unfold wordR; omega)
theorem Sys2Proof.Laws.Words.shl (d : VReg) (a : VReg) (b : VReg) : Words.Statement (.shl d a b) :=
  one_fits _ (wordR 26 d.toNat a.toNat b.toNat) rfl rfl (by have := d.isLt; have := a.isLt; have := b.isLt; unfold wordR; omega)
theorem Sys2Proof.Laws.Words.shr (d : VReg) (a : VReg) (b : VReg) : Words.Statement (.shr d a b) :=
  one_fits _ (wordR 27 d.toNat a.toNat b.toNat) rfl rfl (by have := d.isLt; have := a.isLt; have := b.isLt; unfold wordR; omega)
theorem Sys2Proof.Laws.Words.sar (d : VReg) (a : VReg) (b : VReg) : Words.Statement (.sar d a b) :=
  one_fits _ (wordR 28 d.toNat a.toNat b.toNat) rfl rfl (by have := d.isLt; have := a.isLt; have := b.isLt; unfold wordR; omega)
theorem Sys2Proof.Laws.Words.shli (d : VReg) (a : VReg) (i : BitVec 8) : Words.Statement (.shli d a i) :=
  one_fits _ (wordR 29 d.toNat a.toNat i.toNat) rfl rfl (by have := d.isLt; have := a.isLt; have := i.isLt; unfold wordR; omega)
theorem Sys2Proof.Laws.Words.shri (d : VReg) (a : VReg) (i : BitVec 8) : Words.Statement (.shri d a i) :=
  one_fits _ (wordR 30 d.toNat a.toNat i.toNat) rfl rfl (by have := d.isLt; have := a.isLt; have := i.isLt; unfold wordR; omega)
theorem Sys2Proof.Laws.Words.sari (d : VReg) (a : VReg) (i : BitVec 8) : Words.Statement (.sari d a i) :=
  one_fits _ (wordR 31 d.toNat a.toNat i.toNat) rfl rfl (by have := d.isLt; have := a.isLt; have := i.isLt; unfold wordR; omega)
theorem Sys2Proof.Laws.Words.rotl (d : VReg) (a : VReg) (b : VReg) : Words.Statement (.rotl d a b) :=
  one_fits _ (wordR 32 d.toNat a.toNat b.toNat) rfl rfl (by have := d.isLt; have := a.isLt; have := b.isLt; unfold wordR; omega)
theorem Sys2Proof.Laws.Words.popc (d : VReg) (a : VReg) : Words.Statement (.popc d a) :=
  one_fits _ (wordR 33 d.toNat a.toNat 0) rfl rfl (by have := d.isLt; have := a.isLt; unfold wordR; omega)
theorem Sys2Proof.Laws.Words.clz (d : VReg) (a : VReg) : Words.Statement (.clz d a) :=
  one_fits _ (wordR 34 d.toNat a.toNat 0) rfl rfl (by have := d.isLt; have := a.isLt; unfold wordR; omega)
theorem Sys2Proof.Laws.Words.brev (d : VReg) (a : VReg) : Words.Statement (.brev d a) :=
  one_fits _ (wordR 35 d.toNat a.toNat 0) rfl rfl (by have := d.isLt; have := a.isLt; unfold wordR; omega)
theorem Sys2Proof.Laws.Words.bfe (d : VReg) (a : VReg) (sx : Bool) (pos : BitVec 8) (len : BitVec 8) (x : Guard) : Words.Statement (.bfe d a sx pos len x) :=
  two_fit _ (wordR 36 d.toNat a.toNat 0) (wordX pos.toNat 0 (bnat sx) len.toNat x) rfl rfl
    (by have := d.isLt; have := a.isLt; unfold wordR; omega)
    (by have := bnat_lt sx; have := pos.isLt; have := len.isLt; have := x.bits_le; unfold wordX; omega)
theorem Sys2Proof.Laws.Words.bfi (d : VReg) (a : VReg) (b : VReg) (pos : BitVec 8) (len : BitVec 8) (x : Guard) : Words.Statement (.bfi d a b pos len x) :=
  two_fit _ (wordR 37 d.toNat a.toNat b.toNat) (wordX pos.toNat 0 0 len.toNat x) rfl rfl
    (by have := d.isLt; have := a.isLt; have := b.isLt; unfold wordR; omega)
    (by have := pos.isLt; have := len.isLt; have := x.bits_le; unfold wordX; omega)
theorem Sys2Proof.Laws.Words.lea (d : VReg) (a : VReg) (b : VReg) (i : BitVec 8) (sh : BitVec 2) (x : Guard) : Words.Statement (.lea d a b i sh x) :=
  two_fit _ (wordR 38 d.toNat a.toNat b.toNat) (wordX i.toNat 0 0 sh.toNat x) rfl rfl
    (by have := d.isLt; have := a.isLt; have := b.isLt; unfold wordR; omega)
    (by have := i.isLt; have := sh.isLt; have := x.bits_le; unfold wordX; omega)
theorem Sys2Proof.Laws.Words.sel (d : VReg) (a : VReg) (b : VReg) (c : PReg) (x : Guard) : Words.Statement (.sel d a b c x) :=
  two_fit _ (wordR 39 d.toNat a.toNat b.toNat) (wordX c.toNat 0 0 0 x) rfl rfl
    (by have := d.isLt; have := a.isLt; have := b.isLt; unfold wordR; omega)
    (by have := c.isLt; have := x.bits_le; unfold wordX; omega)
theorem Sys2Proof.Laws.Words.cmp (d : PReg) (a : VReg) (b : VReg) (c : PReg) (ty : Sgn) (cond : CmpCond) (comb : Comb) (x : Guard) : Words.Statement (.cmp d a b c ty cond comb x) :=
  two_fit _ (wordR 40 d.toNat a.toNat b.toNat) (wordX c.toNat 0 ty.code (cond.code + comb.code * 16) x) rfl rfl
    (by have := d.isLt; have := a.isLt; have := b.isLt; unfold wordR; omega)
    (by have := c.isLt; have := Sgn.code_lt ty; have := CmpCond.code_lt cond; have := Comb.code_lt comb; have := x.bits_le; unfold wordX; omega)
theorem Sys2Proof.Laws.Words.cmpi (d : PReg) (a : VReg) (i : BitVec 8) (c : PReg) (ty : Sgn) (cond : CmpCond) (comb : Comb) (x : Guard) : Words.Statement (.cmpi d a i c ty cond comb x) :=
  two_fit _ (wordR 41 d.toNat a.toNat i.toNat) (wordX c.toNat 0 ty.code (cond.code + comb.code * 16) x) rfl rfl
    (by have := d.isLt; have := a.isLt; have := i.isLt; unfold wordR; omega)
    (by have := c.isLt; have := Sgn.code_lt ty; have := CmpCond.code_lt cond; have := Comb.code_lt comb; have := x.bits_le; unfold wordX; omega)
theorem Sys2Proof.Laws.Words.idiv (d : VReg) (a : VReg) (b : VReg) (ty : Sgn) (x : Guard) : Words.Statement (.idiv d a b ty x) :=
  two_fit _ (wordR 42 d.toNat a.toNat b.toNat) (wordX 0 0 ty.code 0 x) rfl rfl
    (by have := d.isLt; have := a.isLt; have := b.isLt; unfold wordR; omega)
    (by have := Sgn.code_lt ty; have := x.bits_le; unfold wordX; omega)
theorem Sys2Proof.Laws.Words.irem (d : VReg) (a : VReg) (b : VReg) (ty : Sgn) (x : Guard) : Words.Statement (.irem d a b ty x) :=
  two_fit _ (wordR 43 d.toNat a.toNat b.toNat) (wordX 0 0 ty.code 0 x) rfl rfl
    (by have := d.isLt; have := a.isLt; have := b.isLt; unfold wordR; omega)
    (by have := Sgn.code_lt ty; have := x.bits_le; unfold wordX; omega)
theorem Sys2Proof.Laws.Words.sxt (d : VReg) (a : VReg) (n : BitVec 8) : Words.Statement (.sxt d a n) :=
  one_fits _ (wordR 44 d.toNat a.toNat n.toNat) rfl rfl (by have := d.isLt; have := a.isLt; have := n.isLt; unfold wordR; omega)
theorem Sys2Proof.Laws.Words.zxt (d : VReg) (a : VReg) (n : BitVec 8) : Words.Statement (.zxt d a n) :=
  one_fits _ (wordR 45 d.toNat a.toNat n.toNat) rfl rfl (by have := d.isLt; have := a.isLt; have := n.isLt; unfold wordR; omega)
theorem Sys2Proof.Laws.Words.bperm (d : VReg) (a : VReg) (b : VReg) (c : VReg) (x : Guard) : Words.Statement (.bperm d a b c x) :=
  two_fit _ (wordR 46 d.toNat a.toNat b.toNat) (wordX c.toNat 0 0 0 x) rfl rfl
    (by have := d.isLt; have := a.isLt; have := b.isLt; unfold wordR; omega)
    (by have := c.isLt; have := x.bits_le; unfold wordX; omega)
theorem Sys2Proof.Laws.Words.add64 (d : VReg) (a : VReg) (b : VReg) (sub : Bool) (x : Guard) : Words.Statement (.add64 d a b sub x) :=
  two_fit _ (wordR 47 d.toNat a.toNat b.toNat) (wordX 0 0 (bnat sub) 0 x) rfl rfl
    (by have := d.isLt; have := a.isLt; have := b.isLt; unfold wordR; omega)
    (by have := bnat_lt sub; have := x.bits_le; unfold wordX; omega)
theorem Sys2Proof.Laws.Words.shf (d : VReg) (a : VReg) (b : VReg) (c : VReg) (right : Bool) (x : Guard) : Words.Statement (.shf d a b c right x) :=
  two_fit _ (wordR 48 d.toNat a.toNat b.toNat) (wordX c.toNat 0 (bnat right) 0 x) rfl rfl
    (by have := d.isLt; have := a.isLt; have := b.isLt; unfold wordR; omega)
    (by have := c.isLt; have := bnat_lt right; have := x.bits_le; unfold wordX; omega)
theorem Sys2Proof.Laws.Words.pand (d : PReg) (a : PReg) (b : PReg) : Words.Statement (.pand d a b) :=
  one_fits _ (wordR 50 d.toNat a.toNat b.toNat) rfl rfl (by have := d.isLt; have := a.isLt; have := b.isLt; unfold wordR; omega)
theorem Sys2Proof.Laws.Words.por (d : PReg) (a : PReg) (b : PReg) : Words.Statement (.por d a b) :=
  one_fits _ (wordR 51 d.toNat a.toNat b.toNat) rfl rfl (by have := d.isLt; have := a.isLt; have := b.isLt; unfold wordR; omega)
theorem Sys2Proof.Laws.Words.pxor (d : PReg) (a : PReg) (b : PReg) : Words.Statement (.pxor d a b) :=
  one_fits _ (wordR 52 d.toNat a.toNat b.toNat) rfl rfl (by have := d.isLt; have := a.isLt; have := b.isLt; unfold wordR; omega)
theorem Sys2Proof.Laws.Words.pnot (d : PReg) (a : PReg) : Words.Statement (.pnot d a) :=
  one_fits _ (wordR 53 d.toNat a.toNat 0) rfl rfl (by have := d.isLt; have := a.isLt; unfold wordR; omega)
theorem Sys2Proof.Laws.Words.pmov (d : PReg) (a : PReg) : Words.Statement (.pmov d a) :=
  one_fits _ (wordR 54 d.toNat a.toNat 0) rfl rfl (by have := d.isLt; have := a.isLt; unfold wordR; omega)
theorem Sys2Proof.Laws.Words.vfromp (d : VReg) (a : PReg) : Words.Statement (.vfromp d a) :=
  one_fits _ (wordR 55 d.toNat a.toNat 0) rfl rfl (by have := d.isLt; have := a.isLt; unfold wordR; omega)
theorem Sys2Proof.Laws.Words.salu (d : SReg) (a : SReg) (b : SReg) (op : SaluOp) (x : Guard) : Words.Statement (.salu d a b op x) :=
  two_fit _ (wordR 56 d.toNat a.toNat b.toNat) (wordX 0 0 op.code 0 x) rfl rfl
    (by have := d.isLt; have := a.isLt; have := b.isLt; unfold wordR; omega)
    (by have := SaluOp.code_lt op; have := x.bits_le; unfold wordX; omega)
theorem Sys2Proof.Laws.Words.salui (d : SReg) (a : SReg) (op : SaluOp) (i : BitVec 32) : Words.Statement (.salui d a op i) :=
  two_fit _ (wordR 57 d.toNat a.toNat op.code) i.toNat rfl rfl
    (by have := d.isLt; have := a.isLt; have := SaluOp.code_lt op; unfold wordR; omega)
    (i.isLt)
theorem Sys2Proof.Laws.Words.smovi (d : SReg) (i : BitVec 16) : Words.Statement (.smovi d i) :=
  one_fits _ (wordJ 58 d.toNat i.toNat) rfl rfl (by have := d.isLt; have := i.isLt; unfold wordJ; omega)
theorem Sys2Proof.Laws.Words.bcast (d : VReg) (a : SReg) : Words.Statement (.bcast d a) :=
  one_fits _ (wordR 59 d.toNat a.toNat 0) rfl rfl (by have := d.isLt; have := a.isLt; unfold wordR; omega)
theorem Sys2Proof.Laws.Words.rdlane (d : SReg) (a : VReg) (b : SReg) (n : BitVec 8) (reg : Bool) (x : Guard) : Words.Statement (.rdlane d a b n reg x) :=
  two_fit _ (wordR 60 d.toNat a.toNat b.toNat) (wordX n.toNat 0 0 (bnat reg) x) rfl rfl
    (by have := d.isLt; have := a.isLt; have := b.isLt; unfold wordR; omega)
    (by have := n.isLt; have := bnat_lt reg; have := x.bits_le; unfold wordX; omega)
theorem Sys2Proof.Laws.Words.wrlane (d : VReg) (a : SReg) (b : SReg) (n : BitVec 8) (reg : Bool) (x : Guard) : Words.Statement (.wrlane d a b n reg x) :=
  two_fit _ (wordR 61 d.toNat a.toNat b.toNat) (wordX n.toNat 0 0 (bnat reg) x) rfl rfl
    (by have := d.isLt; have := a.isLt; have := b.isLt; unfold wordR; omega)
    (by have := n.isLt; have := bnat_lt reg; have := x.bits_le; unfold wordX; omega)
theorem Sys2Proof.Laws.Words.elect (d : PReg) (a : SReg) (ws : Bool) : Words.Statement (.elect d a ws) :=
  one_fits _ (wordR 62 d.toNat a.toNat (bnat ws)) rfl rfl (by have := d.isLt; have := a.isLt; have := bnat_lt ws; unfold wordR; omega)
theorem Sys2Proof.Laws.Words.scmp (d : PReg) (a : SReg) (b : SReg) (c : PReg) (ty : ScmpTy) (cond : CmpCond) (comb : Comb) (x : Guard) : Words.Statement (.scmp d a b c ty cond comb x) :=
  two_fit _ (wordR 63 d.toNat a.toNat b.toNat) (wordX c.toNat 0 ty.code (cond.code + comb.code * 16) x) rfl rfl
    (by have := d.isLt; have := a.isLt; have := b.isLt; unfold wordR; omega)
    (by have := c.isLt; have := ScmpTy.code_lt ty; have := CmpCond.code_lt cond; have := Comb.code_lt comb; have := x.bits_le; unfold wordX; omega)
theorem Sys2Proof.Laws.Words.fadd (d : VReg) (a : VReg) (b : VReg) : Words.Statement (.fadd d a b) :=
  one_fits _ (wordR 64 d.toNat a.toNat b.toNat) rfl rfl (by have := d.isLt; have := a.isLt; have := b.isLt; unfold wordR; omega)
theorem Sys2Proof.Laws.Words.fsub (d : VReg) (a : VReg) (b : VReg) : Words.Statement (.fsub d a b) :=
  one_fits _ (wordR 65 d.toNat a.toNat b.toNat) rfl rfl (by have := d.isLt; have := a.isLt; have := b.isLt; unfold wordR; omega)
theorem Sys2Proof.Laws.Words.fmul (d : VReg) (a : VReg) (b : VReg) : Words.Statement (.fmul d a b) :=
  one_fits _ (wordR 66 d.toNat a.toNat b.toNat) rfl rfl (by have := d.isLt; have := a.isLt; have := b.isLt; unfold wordR; omega)
theorem Sys2Proof.Laws.Words.ffma (d : VReg) (a : VReg) (b : VReg) (c : VReg) (rnd : Rnd) (fi : Bool) (fo : Bool) (ty : FTy) (np : Bool) (nc : Bool) (x : Guard) : Words.Statement (.ffma d a b c rnd fi fo ty np nc x) :=
  two_fit _ (wordR 67 d.toNat a.toNat b.toNat) (wordX c.toNat (wordF rnd.code (bnat fi) (bnat fo) 0) (ty.code + bnat np * 4 + bnat nc * 8) 0 x) rfl rfl
    (by have := d.isLt; have := a.isLt; have := b.isLt; unfold wordR; omega)
    (by have := c.isLt; have := Rnd.code_lt rnd; have := bnat_lt fi; have := bnat_lt fo; have := FTy.code_lt ty; have := bnat_lt np; have := bnat_lt nc; have := x.bits_le; unfold wordX wordF; omega)
theorem Sys2Proof.Laws.Words.faddx (d : VReg) (a : VReg) (b : VReg) (rnd : Rnd) (fi : Bool) (fo : Bool) (ty : FTy) (sub : Bool) (x : Guard) : Words.Statement (.faddx d a b rnd fi fo ty sub x) :=
  two_fit _ (wordR 68 d.toNat a.toNat b.toNat) (wordX 0 (wordF rnd.code (bnat fi) (bnat fo) 0) (ty.code + bnat sub * 4) 0 x) rfl rfl
    (by have := d.isLt; have := a.isLt; have := b.isLt; unfold wordR; omega)
    (by have := Rnd.code_lt rnd; have := bnat_lt fi; have := bnat_lt fo; have := FTy.code_lt ty; have := bnat_lt sub; have := x.bits_le; unfold wordX wordF; omega)
theorem Sys2Proof.Laws.Words.fmulx (d : VReg) (a : VReg) (b : VReg) (rnd : Rnd) (fi : Bool) (fo : Bool) (ty : FTy) (x : Guard) : Words.Statement (.fmulx d a b rnd fi fo ty x) :=
  two_fit _ (wordR 69 d.toNat a.toNat b.toNat) (wordX 0 (wordF rnd.code (bnat fi) (bnat fo) 0) ty.code 0 x) rfl rfl
    (by have := d.isLt; have := a.isLt; have := b.isLt; unfold wordR; omega)
    (by have := Rnd.code_lt rnd; have := bnat_lt fi; have := bnat_lt fo; have := FTy.code_lt ty; have := x.bits_le; unfold wordX wordF; omega)
theorem Sys2Proof.Laws.Words.fmin (d : VReg) (a : VReg) (b : VReg) (fi : Bool) (ty : FTy) (x : Guard) : Words.Statement (.fmin d a b fi ty x) :=
  two_fit _ (wordR 70 d.toNat a.toNat b.toNat) (wordX 0 (wordF 0 (bnat fi) 0 0) ty.code 0 x) rfl rfl
    (by have := d.isLt; have := a.isLt; have := b.isLt; unfold wordR; omega)
    (by have := bnat_lt fi; have := FTy.code_lt ty; have := x.bits_le; unfold wordX wordF; omega)
theorem Sys2Proof.Laws.Words.fmax (d : VReg) (a : VReg) (b : VReg) (fi : Bool) (ty : FTy) (x : Guard) : Words.Statement (.fmax d a b fi ty x) :=
  two_fit _ (wordR 71 d.toNat a.toNat b.toNat) (wordX 0 (wordF 0 (bnat fi) 0 0) ty.code 0 x) rfl rfl
    (by have := d.isLt; have := a.isLt; have := b.isLt; unfold wordR; omega)
    (by have := bnat_lt fi; have := FTy.code_lt ty; have := x.bits_le; unfold wordX wordF; omega)
theorem Sys2Proof.Laws.Words.fmov (d : VReg) (a : VReg) (b : VReg) (ty : FTy) (op : FMovOp) (x : Guard) : Words.Statement (.fmov d a b ty op x) :=
  two_fit _ (wordR 72 d.toNat a.toNat b.toNat) (wordX 0 0 (ty.code + op.code * 4) 0 x) rfl rfl
    (by have := d.isLt; have := a.isLt; have := b.isLt; unfold wordR; omega)
    (by have := FTy.code_lt ty; have := FMovOp.code_lt op; have := x.bits_le; unfold wordX; omega)
theorem Sys2Proof.Laws.Words.fcmp (d : PReg) (a : VReg) (b : VReg) (c : PReg) (fi : Bool) (ty : FTy) (hi : Bool) (cond : FCond) (comb : Comb) (x : Guard) : Words.Statement (.fcmp d a b c fi ty hi cond comb x) :=
  two_fit _ (wordR 73 d.toNat a.toNat b.toNat) (wordX c.toNat (wordF 0 (bnat fi) 0 0) (ty.code + bnat hi * 4) (cond.code + comb.code * 16) x) rfl rfl
    (by have := d.isLt; have := a.isLt; have := b.isLt; unfold wordR; omega)
    (by have := c.isLt; have := bnat_lt fi; have := FTy.code_lt ty; have := bnat_lt hi; have := FCond.code_lt cond; have := Comb.code_lt comb; have := x.bits_le; unfold wordX wordF; omega)
theorem Sys2Proof.Laws.Words.fclass (d : PReg) (a : VReg) (mlo : BitVec 8) (mhi : BitVec 2) (ty : FTy) (hi : Bool) (x : Guard) : Words.Statement (.fclass d a mlo mhi ty hi x) :=
  two_fit _ (wordR 74 d.toNat a.toNat 0) (wordX mlo.toNat 0 (ty.code + bnat hi * 4) mhi.toNat x) rfl rfl
    (by have := d.isLt; have := a.isLt; unfold wordR; omega)
    (by have := mlo.isLt; have := mhi.isLt; have := FTy.code_lt ty; have := bnat_lt hi; have := x.bits_le; unfold wordX; omega)
theorem Sys2Proof.Laws.Words.frnd (d : VReg) (a : VReg) (rnd : Rnd) (fi : Bool) (ty : FTy) (nx : Bool) (x : Guard) : Words.Statement (.frnd d a rnd fi ty nx x) :=
  two_fit _ (wordR 75 d.toNat a.toNat 0) (wordX 0 (wordF rnd.code (bnat fi) 0 0) (ty.code + bnat nx * 4) 0 x) rfl rfl
    (by have := d.isLt; have := a.isLt; unfold wordR; omega)
    (by have := Rnd.code_lt rnd; have := bnat_lt fi; have := FTy.code_lt ty; have := bnat_lt nx; have := x.bits_le; unfold wordX wordF; omega)
theorem Sys2Proof.Laws.Words.dfma (d : VReg) (a : VReg) (b : VReg) (c : VReg) (rnd : Rnd) (fi : Bool) (fo : Bool) (op : DfmaOp) (x : Guard) : Words.Statement (.dfma d a b c rnd fi fo op x) :=
  two_fit _ (wordR 76 d.toNat a.toNat b.toNat) (wordX c.toNat (wordF rnd.code (bnat fi) (bnat fo) 0) op.code 0 x) rfl rfl
    (by have := d.isLt; have := a.isLt; have := b.isLt; unfold wordR; omega)
    (by have := c.isLt; have := Rnd.code_lt rnd; have := bnat_lt fi; have := bnat_lt fo; have := DfmaOp.code_lt op; have := x.bits_le; unfold wordX wordF; omega)
theorem Sys2Proof.Laws.Words.cvt (d : VReg) (a : VReg) (rnd : Rnd) (fi : Bool) (fo : Bool) (sat : Bool) (si : BitVec 2) (di : BitVec 2) (sty : CvtTy) (dty : CvtTy) (x : Guard) : Words.Statement (.cvt d a rnd fi fo sat si di sty dty x) :=
  two_fit _ (wordR 80 d.toNat a.toNat 0) (wordX 0 (wordF rnd.code (bnat fi) (bnat fo) (bnat sat)) (si.toNat + di.toNat * 4) (sty.code + dty.code * 16) x) rfl rfl
    (by have := d.isLt; have := a.isLt; unfold wordR; omega)
    (by have := Rnd.code_lt rnd; have := bnat_lt fi; have := bnat_lt fo; have := bnat_lt sat; have := si.isLt; have := di.isLt; have := CvtTy.code_lt sty; have := CvtTy.code_lt dty; have := x.bits_le; unfold wordX wordF; omega)
theorem Sys2Proof.Laws.Words.cvtpk (d : VReg) (a : VReg) (b : VReg) (c : VReg) (rnd : Rnd) (fi : Bool) (fo : Bool) (sat : Bool) (h : Bool) (bs : Bool) (dty : CvtTy) (x : Guard) : Words.Statement (.cvtpk d a b c rnd fi fo sat h bs dty x) :=
  two_fit _ (wordR 81 d.toNat a.toNat b.toNat) (wordX c.toNat (wordF rnd.code (bnat fi) (bnat fo) (bnat sat)) (bnat h + bnat bs * 2) (dty.code * 16) x) rfl rfl
    (by have := d.isLt; have := a.isLt; have := b.isLt; unfold wordR; omega)
    (by have := c.isLt; have := Rnd.code_lt rnd; have := bnat_lt fi; have := bnat_lt fo; have := bnat_lt sat; have := bnat_lt h; have := bnat_lt bs; have := CvtTy.code_lt dty; have := x.bits_le; unfold wordX wordF; omega)
theorem Sys2Proof.Laws.Words.cvtup (d : VReg) (a : VReg) (c : VReg) (rnd : Rnd) (fi : Bool) (fo : Bool) (sat : Bool) (h : Bool) (bs : Bool) (sty : CvtTy) (dty : CvtTy) (x : Guard) : Words.Statement (.cvtup d a c rnd fi fo sat h bs sty dty x) :=
  two_fit _ (wordR 82 d.toNat a.toNat 0) (wordX c.toNat (wordF rnd.code (bnat fi) (bnat fo) (bnat sat)) (bnat h + bnat bs * 2) (sty.code + dty.code * 16) x) rfl rfl
    (by have := d.isLt; have := a.isLt; unfold wordR; omega)
    (by have := c.isLt; have := Rnd.code_lt rnd; have := bnat_lt fi; have := bnat_lt fo; have := bnat_lt sat; have := bnat_lt h; have := bnat_lt bs; have := CvtTy.code_lt sty; have := CvtTy.code_lt dty; have := x.bits_le; unfold wordX wordF; omega)
theorem Sys2Proof.Laws.Words.cbenc (d : VReg) (a : VReg) (c : CbReg) (rnd : Rnd) (fi : Bool) (j : BitVec 3) (x : Guard) : Words.Statement (.cbenc d a c rnd fi j x) :=
  two_fit _ (wordR 83 d.toNat a.toNat 0) (wordX c.toNat (wordF rnd.code (bnat fi) 0 0) j.toNat 0 x) rfl rfl
    (by have := d.isLt; have := a.isLt; unfold wordR; omega)
    (by have := c.isLt; have := Rnd.code_lt rnd; have := bnat_lt fi; have := j.isLt; have := x.bits_le; unfold wordX wordF; omega)
theorem Sys2Proof.Laws.Words.cbdec (d : VReg) (a : VReg) (c : CbReg) (j : BitVec 3) (x : Guard) : Words.Statement (.cbdec d a c j x) :=
  two_fit _ (wordR 84 d.toNat a.toNat 0) (wordX c.toNat 0 j.toNat 0 x) rfl rfl
    (by have := d.isLt; have := a.isLt; unfold wordR; omega)
    (by have := c.isLt; have := j.isLt; have := x.bits_le; unfold wordX; omega)
theorem Sys2Proof.Laws.Words.rcp (d : VReg) (a : VReg) : Words.Statement (.rcp d a) :=
  one_fits _ (wordR 88 d.toNat a.toNat 0) rfl rfl (by have := d.isLt; have := a.isLt; unfold wordR; omega)
theorem Sys2Proof.Laws.Words.rsq (d : VReg) (a : VReg) : Words.Statement (.rsq d a) :=
  one_fits _ (wordR 89 d.toNat a.toNat 0) rfl rfl (by have := d.isLt; have := a.isLt; unfold wordR; omega)
theorem Sys2Proof.Laws.Words.sqrt (d : VReg) (a : VReg) : Words.Statement (.sqrt d a) :=
  one_fits _ (wordR 90 d.toNat a.toNat 0) rfl rfl (by have := d.isLt; have := a.isLt; unfold wordR; omega)
theorem Sys2Proof.Laws.Words.exp2 (d : VReg) (a : VReg) : Words.Statement (.exp2 d a) :=
  one_fits _ (wordR 91 d.toNat a.toNat 0) rfl rfl (by have := d.isLt; have := a.isLt; unfold wordR; omega)
theorem Sys2Proof.Laws.Words.log2 (d : VReg) (a : VReg) : Words.Statement (.log2 d a) :=
  one_fits _ (wordR 92 d.toNat a.toNat 0) rfl rfl (by have := d.isLt; have := a.isLt; unfold wordR; omega)
theorem Sys2Proof.Laws.Words.sinpi (d : VReg) (a : VReg) : Words.Statement (.sinpi d a) :=
  one_fits _ (wordR 93 d.toNat a.toNat 0) rfl rfl (by have := d.isLt; have := a.isLt; unfold wordR; omega)
theorem Sys2Proof.Laws.Words.cospi (d : VReg) (a : VReg) : Words.Statement (.cospi d a) :=
  one_fits _ (wordR 94 d.toNat a.toNat 0) rfl rfl (by have := d.isLt; have := a.isLt; unfold wordR; omega)
theorem Sys2Proof.Laws.Words.fdiv (d : VReg) (a : VReg) (b : VReg) (rnd : Rnd) (fi : Bool) (fo : Bool) (x : Guard) : Words.Statement (.fdiv d a b rnd fi fo x) :=
  two_fit _ (wordR 95 d.toNat a.toNat b.toNat) (wordX 0 (wordF rnd.code (bnat fi) (bnat fo) 0) 0 0 x) rfl rfl
    (by have := d.isLt; have := a.isLt; have := b.isLt; unfold wordR; omega)
    (by have := Rnd.code_lt rnd; have := bnat_lt fi; have := bnat_lt fo; have := x.bits_le; unfold wordX wordF; omega)
theorem Sys2Proof.Laws.Words.tanh (d : VReg) (a : VReg) : Words.Statement (.tanh d a) :=
  one_fits _ (wordR 96 d.toNat a.toNat 0) rfl rfl (by have := d.isLt; have := a.isLt; unfold wordR; omega)
theorem Sys2Proof.Laws.Words.sigm (d : VReg) (a : VReg) : Words.Statement (.sigm d a) :=
  one_fits _ (wordR 97 d.toNat a.toNat 0) rfl rfl (by have := d.isLt; have := a.isLt; unfold wordR; omega)
theorem Sys2Proof.Laws.Words.shfl (d : VReg) (a : VReg) (b : VReg) (kind : ShflKind) (k : BitVec 5) (reg : Bool) (w : ShflW) (x : Guard) : Words.Statement (.shfl d a b kind k reg w x) :=
  two_fit _ (wordR 112 d.toNat a.toNat b.toNat) (wordX k.toNat 0 kind.code (bnat reg + w.code * 2) x) rfl rfl
    (by have := d.isLt; have := a.isLt; have := b.isLt; unfold wordR; omega)
    (by have := ShflKind.code_lt kind; have := k.isLt; have := bnat_lt reg; have := ShflW.code_lt w; have := x.bits_le; unfold wordX; omega)
theorem Sys2Proof.Laws.Words.vote (d : BitVec 6) (a : PReg) (op : VoteOp) (sc : Bool) (x : Guard) : Words.Statement (.vote d a op sc x) :=
  two_fit _ (wordR 113 d.toNat a.toNat 0) (wordX 0 0 op.code (bnat sc) x) rfl rfl
    (by have := d.isLt; have := a.isLt; unfold wordR; omega)
    (by have := VoteOp.code_lt op; have := bnat_lt sc; have := x.bits_le; unfold wordX; omega)
theorem Sys2Proof.Laws.Words.redx (d : VReg) (a : VReg) (rnd : Rnd) (fi : Bool) (fo : Bool) (op : RedOp) (sc : Bool) (x : Guard) : Words.Statement (.redx d a rnd fi fo op sc x) :=
  two_fit _ (wordR 114 d.toNat a.toNat 0) (wordX 0 (wordF rnd.code (bnat fi) (bnat fo) 0) op.code (bnat sc) x) rfl rfl
    (by have := d.isLt; have := a.isLt; unfold wordR; omega)
    (by have := Rnd.code_lt rnd; have := bnat_lt fi; have := bnat_lt fo; have := RedOp.code_lt op; have := bnat_lt sc; have := x.bits_le; unfold wordX wordF; omega)
theorem Sys2Proof.Laws.Words.scanx (d : VReg) (a : VReg) (op : ScanOp) (ex : Bool) (x : Guard) : Words.Statement (.scanx d a op ex x) :=
  two_fit _ (wordR 115 d.toNat a.toNat 0) (wordX 0 0 op.code (bnat ex) x) rfl rfl
    (by have := d.isLt; have := a.isLt; unfold wordR; omega)
    (by have := ScanOp.code_lt op; have := bnat_lt ex; have := x.bits_le; unfold wordX; omega)
theorem Sys2Proof.Laws.Words.lid (d : VReg) (what : LidSel) : Words.Statement (.lid d what) :=
  one_fits _ (wordR 116 d.toNat what.code 0) rfl rfl (by have := d.isLt; have := LidSel.code_lt what; unfold wordR; omega)
theorem Sys2Proof.Laws.Words.matchLanes (d : VReg) (a : VReg) (b64 : Bool) (x : Guard) : Words.Statement (.matchLanes d a b64 x) :=
  two_fit _ (wordR 117 d.toNat a.toNat 0) (wordX 0 0 (bnat b64) 0 x) rfl rfl
    (by have := d.isLt; have := a.isLt; unfold wordR; omega)
    (by have := bnat_lt b64; have := x.bits_le; unfold wordX; omega)
theorem Sys2Proof.Laws.Words.ld (d : VReg) (a : SReg) (b : VReg) (off : BitVec 14) (ty : LdTy) (p : Bool) (strm : Bool) (k : BitVec 2) (lo : Bool) (x : Guard) : Words.Statement (.ld d a b off ty p strm k lo x) :=
  two_fit _ (wordR 128 d.toNat a.toNat b.toNat) (wordM off.toNat (ty.code + bnat p * 8 + bnat strm * 16) (k.toNat + bnat lo * 4) x) rfl rfl
    (by have := d.isLt; have := a.isLt; have := b.isLt; unfold wordR; omega)
    (by have := off.isLt; have := LdTy.code_lt ty; have := bnat_lt p; have := bnat_lt strm; have := k.isLt; have := bnat_lt lo; have := x.bits_le; unfold wordM; omega)
theorem Sys2Proof.Laws.Words.st (d : VReg) (a : SReg) (b : VReg) (off : BitVec 14) (ty : StTy) (p : Bool) (strm : Bool) (k : BitVec 2) (lo : Bool) (x : Guard) : Words.Statement (.st d a b off ty p strm k lo x) :=
  two_fit _ (wordR 129 d.toNat a.toNat b.toNat) (wordM off.toNat (ty.code + bnat p * 8 + bnat strm * 16) (k.toNat + bnat lo * 4) x) rfl rfl
    (by have := d.isLt; have := a.isLt; have := b.isLt; unfold wordR; omega)
    (by have := off.isLt; have := StTy.code_lt ty; have := bnat_lt p; have := bnat_lt strm; have := k.isLt; have := bnat_lt lo; have := x.bits_le; unfold wordM; omega)
theorem Sys2Proof.Laws.Words.lds (d : VReg) (b : VReg) (off : BitVec 14) (ty : LdTy) (sp : LdsSp) (x : Guard) : Words.Statement (.lds d b off ty sp x) :=
  two_fit _ (wordR 130 d.toNat 0 b.toNat) (wordM off.toNat (ty.code + sp.code * 8) 0 x) rfl rfl
    (by have := d.isLt; have := b.isLt; unfold wordR; omega)
    (by have := off.isLt; have := LdTy.code_lt ty; have := LdsSp.code_lt sp; have := x.bits_le; unfold wordM; omega)
theorem Sys2Proof.Laws.Words.sts (d : VReg) (b : VReg) (off : BitVec 14) (ty : StTy) (sp : LdsSp) (x : Guard) : Words.Statement (.sts d b off ty sp x) :=
  two_fit _ (wordR 131 d.toNat 0 b.toNat) (wordM off.toNat (ty.code + sp.code * 8) 0 x) rfl rfl
    (by have := d.isLt; have := b.isLt; unfold wordR; omega)
    (by have := off.isLt; have := StTy.code_lt ty; have := LdsSp.code_lt sp; have := x.bits_le; unfold wordM; omega)
theorem Sys2Proof.Laws.Words.ldw (d : VReg) (a : SReg) (off : BitVec 14) (n : BitVec 2) (sp : Sp4) (strm : Bool) (x : Guard) : Words.Statement (.ldw d a off n sp strm x) :=
  two_fit _ (wordR 132 d.toNat a.toNat 0) (wordM off.toNat (n.toNat + sp.code * 4 + bnat strm * 16) 0 x) rfl rfl
    (by have := d.isLt; have := a.isLt; unfold wordR; omega)
    (by have := off.isLt; have := n.isLt; have := Sp4.code_lt sp; have := bnat_lt strm; have := x.bits_le; unfold wordM; omega)
theorem Sys2Proof.Laws.Words.ldp (d : VReg) (a : SReg) (b : VReg) (off : BitVec 14) (h : Bool) (j : BitVec 2) (sp : PSp) (k : BitVec 2) (lo : Bool) (x : Guard) : Words.Statement (.ldp d a b off h j sp k lo x) :=
  two_fit _ (wordR 133 d.toNat a.toNat b.toNat) (wordM off.toNat (bnat h + j.toNat * 2 + sp.code * 8) (k.toNat + bnat lo * 4) x) rfl rfl
    (by have := d.isLt; have := a.isLt; have := b.isLt; unfold wordR; omega)
    (by have := off.isLt; have := bnat_lt h; have := j.isLt; have := PSp.code_lt sp; have := k.isLt; have := bnat_lt lo; have := x.bits_le; unfold wordM; omega)
theorem Sys2Proof.Laws.Words.stp (d : VReg) (a : SReg) (b : VReg) (off : BitVec 14) (h : Bool) (j : BitVec 2) (sp : PSp) (k : BitVec 2) (lo : Bool) (x : Guard) : Words.Statement (.stp d a b off h j sp k lo x) :=
  two_fit _ (wordR 134 d.toNat a.toNat b.toNat) (wordM off.toNat (bnat h + j.toNat * 2 + sp.code * 8) (k.toNat + bnat lo * 4) x) rfl rfl
    (by have := d.isLt; have := a.isLt; have := b.isLt; unfold wordR; omega)
    (by have := off.isLt; have := bnat_lt h; have := j.isLt; have := PSp.code_lt sp; have := k.isLt; have := bnat_lt lo; have := x.bits_le; unfold wordM; omega)
theorem Sys2Proof.Laws.Words.sld (d : SReg) (a : SReg) (off : BitVec 14) (w64 : Bool) (sp : Sp4) (x : Guard) : Words.Statement (.sld d a off w64 sp x) :=
  two_fit _ (wordR 135 d.toNat a.toNat 0) (wordM off.toNat (bnat w64 + sp.code * 2) 0 x) rfl rfl
    (by have := d.isLt; have := a.isLt; unfold wordR; omega)
    (by have := off.isLt; have := bnat_lt w64; have := Sp4.code_lt sp; have := x.bits_le; unfold wordM; omega)
theorem Sys2Proof.Laws.Words.sst (d : SReg) (a : SReg) (off : BitVec 14) (w64 : Bool) (sp : Sp4) (x : Guard) : Words.Statement (.sst d a off w64 sp x) :=
  two_fit _ (wordR 136 d.toNat a.toNat 0) (wordM off.toNat (bnat w64 + sp.code * 2) 0 x) rfl rfl
    (by have := d.isLt; have := a.isLt; unfold wordR; omega)
    (by have := off.isLt; have := bnat_lt w64; have := Sp4.code_lt sp; have := x.bits_le; unfold wordM; omega)
theorem Sys2Proof.Laws.Words.atom (d : VReg) (a : SReg) (b : VReg) (c : VReg) (rnd : Rnd) (op : AtomOp) (k : BitVec 2) (lo : Bool) (x : Guard) : Words.Statement (.atom d a b c rnd op k lo x) :=
  two_fit _ (wordR 137 d.toNat a.toNat b.toNat) (wordX c.toNat (wordF rnd.code 0 0 0) op.code (k.toNat + bnat lo * 4) x) rfl rfl
    (by have := d.isLt; have := a.isLt; have := b.isLt; unfold wordR; omega)
    (by have := c.isLt; have := Rnd.code_lt rnd; have := AtomOp.code_lt op; have := k.isLt; have := bnat_lt lo; have := x.bits_le; unfold wordX wordF; omega)
theorem Sys2Proof.Laws.Words.red (a : SReg) (b : VReg) (c : VReg) (rnd : Rnd) (op : AtomOp) (k : BitVec 2) (lo : Bool) (x : Guard) : Words.Statement (.red a b c rnd op k lo x) :=
  two_fit _ (wordR 138 0 a.toNat b.toNat) (wordX c.toNat (wordF rnd.code 0 0 0) op.code (k.toNat + bnat lo * 4) x) rfl rfl
    (by have := a.isLt; have := b.isLt; unfold wordR; omega)
    (by have := c.isLt; have := Rnd.code_lt rnd; have := AtomOp.code_lt op; have := k.isLt; have := bnat_lt lo; have := x.bits_le; unfold wordX wordF; omega)
theorem Sys2Proof.Laws.Words.atoms (d : VReg) (b : VReg) (c : VReg) (rnd : Rnd) (op : AtomOp) (ts : Bool) (nr : Bool) (x : Guard) : Words.Statement (.atoms d b c rnd op ts nr x) :=
  two_fit _ (wordR 139 d.toNat 0 b.toNat) (wordX c.toNat (wordF rnd.code 0 0 0) op.code (bnat ts + bnat nr * 2) x) rfl rfl
    (by have := d.isLt; have := b.isLt; unfold wordR; omega)
    (by have := c.isLt; have := Rnd.code_lt rnd; have := AtomOp.code_lt op; have := bnat_lt ts; have := bnat_lt nr; have := x.bits_le; unfold wordX wordF; omega)
theorem Sys2Proof.Laws.Words.waitv (d : SReg) (a : SReg) (b : SReg) (c : SReg) (scope : Scope) (sp : Sp3) (cond : CmpCond) (u : Bool) (nd : Bool) (x : Guard) : Words.Statement (.waitv d a b c scope sp cond u nd x) :=
  two_fit _ (wordR 140 d.toNat a.toNat b.toNat) (wordX c.toNat 0 (scope.code + sp.code * 4) (cond.code + bnat u * 8 + bnat nd * 16) x) rfl rfl
    (by have := d.isLt; have := a.isLt; have := b.isLt; unfold wordR; omega)
    (by have := c.isLt; have := Scope.code_lt scope; have := Sp3.code_lt sp; have := CmpCond.code_lt cond; have := bnat_lt u; have := bnat_lt nd; have := x.bits_le; unfold wordX; omega)
theorem Sys2Proof.Laws.Words.tbegin (d : VReg) (a : PReg) : Words.Statement (.tbegin d a) :=
  one_fits _ (wordR 141 d.toNat a.toNat 0) rfl rfl (by have := d.isLt; have := a.isLt; unfold wordR; omega)
theorem Sys2Proof.Laws.Words.tend : Words.Statement .tend :=
  one_fits _ (wordR 142 0 0 0) rfl rfl (by unfold wordR; omega)
theorem Sys2Proof.Laws.Words.tabort (i : BitVec 8) : Words.Statement (.tabort i) :=
  one_fits _ (wordR 143 0 0 i.toNat) rfl rfl (by have := i.isLt; unfold wordR; omega)
theorem Sys2Proof.Laws.Words.pref (a : SReg) (b : VReg) (off : BitVec 14) (lvl : PrefLvl) (k : BitVec 2) (lo : Bool) (x : Guard) : Words.Statement (.pref a b off lvl k lo x) :=
  two_fit _ (wordR 144 0 a.toNat b.toNat) (wordM off.toNat lvl.code (k.toNat + bnat lo * 4) x) rfl rfl
    (by have := a.isLt; have := b.isLt; unfold wordR; omega)
    (by have := off.isLt; have := PrefLvl.code_lt lvl; have := k.isLt; have := bnat_lt lo; have := x.bits_le; unfold wordM; omega)
theorem Sys2Proof.Laws.Words.cflush (a : SReg) (b : VReg) (off : BitVec 14) (act : FlushAct) (k : BitVec 2) (lo : Bool) (x : Guard) : Words.Statement (.cflush a b off act k lo x) :=
  two_fit _ (wordR 145 0 a.toNat b.toNat) (wordM off.toNat act.code (k.toNat + bnat lo * 4) x) rfl rfl
    (by have := a.isLt; have := b.isLt; unfold wordR; omega)
    (by have := off.isLt; have := FlushAct.code_lt act; have := k.isLt; have := bnat_lt lo; have := x.bits_le; unfold wordM; omega)
theorem Sys2Proof.Laws.Words.rel : Words.Statement .rel :=
  one_fits _ (wordR 146 0 0 0) rfl rfl (by unfold wordR; omega)
theorem Sys2Proof.Laws.Words.fence (fl : Bool) (fs : Bool) : Words.Statement (.fence fl fs) :=
  one_fits _ (wordR 147 0 0 (bnat fl + bnat fs * 2)) rfl rfl (by have := bnat_lt fl; have := bnat_lt fs; unfold wordR; omega)
theorem Sys2Proof.Laws.Words.mldw (cb : CbReg) (a : OmReg) (tw : Twin) (x : Guard) : Words.Statement (.mldw cb a tw x) :=
  two_fit _ (wordR 160 cb.toNat a.toNat 0) (wordX 0 0 tw.code 0 x) rfl rfl
    (by have := cb.isLt; have := a.isLt; unfold wordR; omega)
    (by have := Twin.code_lt tw; have := x.bits_le; unfold wordX; omega)
theorem Sys2Proof.Laws.Words.mswap : Words.Statement .mswap :=
  one_fits _ (wordR 161 0 0 0) rfl rfl (by unfold wordR; omega)
theorem Sys2Proof.Laws.Words.mma (d : AccReg) (a : OmReg) (tw : Twin) (ow : Bool) (x : Guard) : Words.Statement (.mma d a tw ow x) :=
  two_fit _ (wordR 162 d.toNat a.toNat 0) (wordX 0 0 (tw.code + bnat ow * 4) 0 x) rfl rfl
    (by have := d.isLt; have := a.isLt; unfold wordR; omega)
    (by have := Twin.code_lt tw; have := bnat_lt ow; have := x.bits_le; unfold wordX; omega)
theorem Sys2Proof.Laws.Words.mmab (d : AccReg) (a : OmReg) (tw : Twin) (ow : Bool) (andOp : Bool) (x : Guard) : Words.Statement (.mmab d a tw ow andOp x) :=
  two_fit _ (wordR 163 d.toNat a.toNat 0) (wordX 0 0 (tw.code + bnat ow * 4 + bnat andOp * 8) 0 x) rfl rfl
    (by have := d.isLt; have := a.isLt; unfold wordR; omega)
    (by have := Twin.code_lt tw; have := bnat_lt ow; have := bnat_lt andOp; have := x.bits_le; unfold wordX; omega)
theorem Sys2Proof.Laws.Words.mzero (d : AccReg) (n1 : BitVec 6) (fol : Bool) : Words.Statement (.mzero d n1 fol) :=
  one_fits _ (wordR 164 d.toNat n1.toNat (bnat fol)) rfl rfl (by have := d.isLt; have := n1.isLt; have := bnat_lt fol; unfold wordR; omega)
theorem Sys2Proof.Laws.Words.mrd (d : VReg) (a : AccReg) (fol : Bool) (x : Guard) : Words.Statement (.mrd d a fol x) :=
  two_fit _ (wordR 165 d.toNat a.toNat 0) (wordX 0 0 (bnat fol) 0 x) rfl rfl
    (by have := d.isLt; have := a.isLt; unfold wordR; omega)
    (by have := bnat_lt fol; have := x.bits_le; unfold wordX; omega)
theorem Sys2Proof.Laws.Words.mwr (d : AccReg) (a : VReg) (fol : Bool) (x : Guard) : Words.Statement (.mwr d a fol x) :=
  two_fit _ (wordR 166 d.toNat a.toNat 0) (wordX 0 0 (bnat fol) 0 x) rfl rfl
    (by have := d.isLt; have := a.isLt; unfold wordR; omega)
    (by have := bnat_lt fol; have := x.bits_le; unfold wordX; omega)
theorem Sys2Proof.Laws.Words.mst (d : OmReg) (a : AccReg) (rnd : Rnd) (fo : Bool) (sat : Bool) (fol : Bool) (s32 : Bool) (x : Guard) : Words.Statement (.mst d a rnd fo sat fol s32 x) :=
  two_fit _ (wordR 167 d.toNat a.toNat 0) (wordX 0 (wordF rnd.code 0 (bnat fo) (bnat sat)) (bnat fol) (bnat s32) x) rfl rfl
    (by have := d.isLt; have := a.isLt; unfold wordR; omega)
    (by have := Rnd.code_lt rnd; have := bnat_lt fo; have := bnat_lt sat; have := bnat_lt fol; have := bnat_lt s32; have := x.bits_le; unfold wordX wordF; omega)
theorem Sys2Proof.Laws.Words.mcbl (d : CbReg) (a : SReg) (sp : McblSp) (x : Guard) : Words.Statement (.mcbl d a sp x) :=
  two_fit _ (wordR 168 d.toNat a.toNat 0) (wordX 0 0 sp.code 0 x) rfl rfl
    (by have := d.isLt; have := a.isLt; unfold wordR; omega)
    (by have := McblSp.code_lt sp; have := x.bits_le; unfold wordX; omega)
theorem Sys2Proof.Laws.Words.omset (d : OmReg) (a : SReg) (x : Guard) : Words.Statement (.omset d a x) :=
  two_fit _ (wordR 169 d.toNat a.toNat 0) (wordX 0 0 0 0 x) rfl rfl
    (by have := d.isLt; have := a.isLt; unfold wordR; omega)
    (by have := x.bits_le; unfold wordX; omega)
theorem Sys2Proof.Laws.Words.mnanr (d : SReg) : Words.Statement (.mnanr d) :=
  one_fits _ (wordR 170 d.toNat 0 0) rfl rfl (by have := d.isLt; unfold wordR; omega)
theorem Sys2Proof.Laws.Words.cpy (d : SReg) (a : SReg) (b : SReg) (dsp : Sp4) (ssp : Sp4) (cmd : BitVec 2) (x : Guard) : Words.Statement (.cpy d a b dsp ssp cmd x) :=
  two_fit _ (wordR 176 d.toNat a.toNat b.toNat) (wordX 0 0 (dsp.code + ssp.code * 4) cmd.toNat x) rfl rfl
    (by have := d.isLt; have := a.isLt; have := b.isLt; unfold wordR; omega)
    (by have := Sp4.code_lt dsp; have := Sp4.code_lt ssp; have := cmd.isLt; have := x.bits_le; unfold wordX; omega)
theorem Sys2Proof.Laws.Words.tcpy (d : SReg) (a : SReg) (out : Bool) (ts : Bool) (rsc : Bool) (cmd : BitVec 2) (x : Guard) : Words.Statement (.tcpy d a out ts rsc cmd x) :=
  two_fit _ (wordR 177 d.toNat a.toNat 0) (wordX 0 0 (bnat out + bnat ts * 2 + bnat rsc * 4) cmd.toNat x) rfl rfl
    (by have := d.isLt; have := a.isLt; unfold wordR; omega)
    (by have := bnat_lt out; have := bnat_lt ts; have := bnat_lt rsc; have := cmd.isLt; have := x.bits_le; unfold wordX; omega)
theorem Sys2Proof.Laws.Words.gather (d : SReg) (a : SReg) (b : VReg) (r : BitVec 8) (ts : Bool) (cmd : BitVec 2) (k : BitVec 2) (x : Guard) : Words.Statement (.gather d a b r ts cmd k x) :=
  two_fit _ (wordR 178 d.toNat a.toNat b.toNat) (wordX r.toNat 0 (bnat ts) (cmd.toNat + k.toNat * 4) x) rfl rfl
    (by have := d.isLt; have := a.isLt; have := b.isLt; unfold wordR; omega)
    (by have := r.isLt; have := bnat_lt ts; have := cmd.isLt; have := k.isLt; have := x.bits_le; unfold wordX; omega)
theorem Sys2Proof.Laws.Words.scatter (d : SReg) (a : SReg) (b : VReg) (r : BitVec 8) (ts : Bool) (cmd : BitVec 2) (k : BitVec 2) (x : Guard) : Words.Statement (.scatter d a b r ts cmd k x) :=
  two_fit _ (wordR 179 d.toNat a.toNat b.toNat) (wordX r.toNat 0 (bnat ts) (cmd.toNat + k.toNat * 4) x) rfl rfl
    (by have := d.isLt; have := a.isLt; have := b.isLt; unfold wordR; omega)
    (by have := r.isLt; have := bnat_lt ts; have := cmd.isLt; have := k.isLt; have := x.bits_le; unfold wordX; omega)
theorem Sys2Proof.Laws.Words.rginit (d : RgReg) (a : SReg) (n1 : BitVec 4) (slotb : BitVec 8) (ts : Bool) (x : Guard) : Words.Statement (.rginit d a n1 slotb ts x) :=
  two_fit _ (wordR 180 d.toNat a.toNat 0) (wordX n1.toNat 0 (bnat ts) slotb.toNat x) rfl rfl
    (by have := d.isLt; have := a.isLt; unfold wordR; omega)
    (by have := n1.isLt; have := slotb.isLt; have := bnat_lt ts; have := x.bits_le; unfold wordX; omega)
theorem Sys2Proof.Laws.Words.rgacqC (d : SReg) (a : RgReg) (b : SReg) (c : PReg) (ph : Bool) (x : Guard) : Words.Statement (.rgacqC d a b c ph x) :=
  two_fit _ (wordR 181 d.toNat a.toNat b.toNat) (wordX c.toNat 0 (bnat ph * 2) 0 x) rfl rfl
    (by have := d.isLt; have := a.isLt; have := b.isLt; unfold wordR; omega)
    (by have := c.isLt; have := bnat_lt ph; have := x.bits_le; unfold wordX; omega)
theorem Sys2Proof.Laws.Words.rgacqP (d : SReg) (a : RgReg) (c : PReg) (x : Guard) : Words.Statement (.rgacqP d a c x) :=
  two_fit _ (wordR 181 d.toNat a.toNat 0) (wordX c.toNat 0 1 0 x) rfl rfl
    (by have := d.isLt; have := a.isLt; unfold wordR; omega)
    (by have := c.isLt; have := x.bits_le; unfold wordX; omega)
theorem Sys2Proof.Laws.Words.rgrelC (a : RgReg) (x : Guard) : Words.Statement (.rgrelC a x) :=
  two_fit _ (wordR 182 0 a.toNat 0) (wordX 0 0 0 0 x) rfl rfl
    (by have := a.isLt; unfold wordR; omega)
    (by have := x.bits_le; unfold wordX; omega)
theorem Sys2Proof.Laws.Words.rgrelP (a : RgReg) (x : Guard) : Words.Statement (.rgrelP a x) :=
  two_fit _ (wordR 182 0 a.toNat 0) (wordX 0 0 1 0 x) rfl rfl
    (by have := a.isLt; unfold wordR; omega)
    (by have := x.bits_le; unfold wordX; omega)
theorem Sys2Proof.Laws.Words.rgput (d : RgReg) (a : SReg) (b : SReg) (ssp : Sp4) (cmd : BitVec 2) (x : Guard) : Words.Statement (.rgput d a b ssp cmd x) :=
  two_fit _ (wordR 183 d.toNat a.toNat b.toNat) (wordX 0 0 ssp.code cmd.toNat x) rfl rfl
    (by have := d.isLt; have := a.isLt; have := b.isLt; unfold wordR; omega)
    (by have := Sp4.code_lt ssp; have := cmd.isLt; have := x.bits_le; unfold wordX; omega)
theorem Sys2Proof.Laws.Words.qpush (d : SReg) (a : SReg) (b : SReg) (x : Guard) : Words.Statement (.qpush d a b x) :=
  two_fit _ (wordR 185 d.toNat a.toNat b.toNat) (wordX 0 0 0 0 x) rfl rfl
    (by have := d.isLt; have := a.isLt; have := b.isLt; unfold wordR; omega)
    (by have := x.bits_le; unfold wordX; omega)
theorem Sys2Proof.Laws.Words.qpop (d : SReg) (c : SReg) (w : Bool) (scope : Scope) (x : Guard) : Words.Statement (.qpop d c w scope x) :=
  two_fit _ (wordR 186 d.toNat 0 0) (wordX c.toNat 0 (bnat w + scope.code * 2) 0 x) rfl rfl
    (by have := d.isLt; unfold wordR; omega)
    (by have := c.isLt; have := bnat_lt w; have := Scope.code_lt scope; have := x.bits_le; unfold wordX; omega)
theorem Sys2Proof.Laws.Words.launch (d : SReg) (a : SReg) (b : SReg) (c : SReg) (q : BitVec 2) (cx : Bool) (x : Guard) : Words.Statement (.launch d a b c q cx x) :=
  two_fit _ (wordR 187 d.toNat a.toNat b.toNat) (wordX c.toNat 0 q.toNat (bnat cx) x) rfl rfl
    (by have := d.isLt; have := a.isLt; have := b.isLt; unfold wordR; omega)
    (by have := c.isLt; have := q.isLt; have := bnat_lt cx; have := x.bits_le; unfold wordX; omega)
theorem Sys2Proof.Laws.Words.launchPre (d : SReg) (a : SReg) (b : SReg) (x : Guard) : Words.Statement (.launchPre d a b x) :=
  two_fit _ (wordR 187 d.toNat a.toNat b.toNat) (wordX 0 0 4 0 x) rfl rfl
    (by have := d.isLt; have := a.isLt; have := b.isLt; unfold wordR; omega)
    (by have := x.bits_le; unfold wordX; omega)
theorem Sys2Proof.Laws.Words.launchKill (d : SReg) (a : SReg) (b : SReg) (c : SReg) (x : Guard) : Words.Statement (.launchKill d a b c x) :=
  two_fit _ (wordR 187 d.toNat a.toNat b.toNat) (wordX c.toNat 0 8 0 x) rfl rfl
    (by have := d.isLt; have := a.isLt; have := b.isLt; unfold wordR; omega)
    (by have := c.isLt; have := x.bits_le; unfold wordX; omega)
theorem Sys2Proof.Laws.Words.launchCtx (d : SReg) (a : SReg) (x : Guard) : Words.Statement (.launchCtx d a x) :=
  two_fit _ (wordR 187 d.toNat a.toNat 0) (wordX 0 0 12 0 x) rfl rfl
    (by have := d.isLt; have := a.isLt; unfold wordR; omega)
    (by have := x.bits_le; unfold wordX; omega)
theorem Sys2Proof.Laws.Words.launchRes (d : SReg) (a : SReg) (x : Guard) : Words.Statement (.launchRes d a x) :=
  two_fit _ (wordR 187 d.toNat a.toNat 0) (wordX 0 0 16 0 x) rfl rfl
    (by have := d.isLt; have := a.isLt; unfold wordR; omega)
    (by have := x.bits_le; unfold wordX; omega)
theorem Sys2Proof.Laws.Words.wsld (d : SReg) (a : SReg) (b : SReg) (x : Guard) : Words.Statement (.wsld d a b x) :=
  two_fit _ (wordR 188 d.toNat a.toNat b.toNat) (wordX 0 0 0 0 x) rfl rfl
    (by have := d.isLt; have := a.isLt; have := b.isLt; unfold wordR; omega)
    (by have := x.bits_le; unfold wordX; omega)
theorem Sys2Proof.Laws.Words.br (i : BitVec 16) : Words.Statement (.br i) :=
  one_fits _ (wordJ 192 0 i.toNat) rfl rfl (by have := i.isLt; unfold wordJ; omega)
theorem Sys2Proof.Laws.Words.brc (c : PReg) (n : Bool) (mode : BrMode) (rv : Bool) (rcv : BitVec 16) (tgt : BitVec 32) : Words.Statement (.brc c n mode rv rcv tgt) :=
  two_fit _ (wordJ 193 (c.toNat + bnat n * 8 + mode.code * 16 + bnat rv * 64) rcv.toNat) tgt.toNat rfl rfl
    (by have := c.isLt; have := bnat_lt n; have := BrMode.code_lt mode; have := bnat_lt rv; have := rcv.isLt; unfold wordJ; omega)
    (tgt.isLt)
theorem Sys2Proof.Laws.Words.call (i : BitVec 16) : Words.Statement (.call i) :=
  one_fits _ (wordJ 194 0 i.toNat) rfl rfl (by have := i.isLt; unfold wordJ; omega)
theorem Sys2Proof.Laws.Words.callt (i : BitVec 16) : Words.Statement (.callt i) :=
  one_fits _ (wordJ 195 0 i.toNat) rfl rfl (by have := i.isLt; unfold wordJ; omega)
theorem Sys2Proof.Laws.Words.calli (a : VReg) (xv : Bool) : Words.Statement (.calli a xv) :=
  one_fits _ (wordR 196 0 a.toNat (bnat xv)) rfl rfl (by have := a.isLt; have := bnat_lt xv; unfold wordR; omega)
theorem Sys2Proof.Laws.Words.ret (a : VReg) : Words.Statement (.ret a) :=
  one_fits _ (wordR 197 0 a.toNat 0) rfl rfl (by have := a.isLt; unfold wordR; omega)
theorem Sys2Proof.Laws.Words.jmpi (a : VReg) (xv : Bool) : Words.Statement (.jmpi a xv) :=
  one_fits _ (wordR 198 0 a.toNat (bnat xv)) rfl rfl (by have := a.isLt; have := bnat_lt xv; unfold wordR; omega)
theorem Sys2Proof.Laws.Words.regang (m : BitVec 8) (x : Guard) : Words.Statement (.regang m x) :=
  two_fit _ (wordR 199 0 0 0) (wordX m.toNat 0 0 0 x) rfl rfl
    (by unfold wordR; omega)
    (by have := m.isLt; have := x.bits_le; unfold wordX; omega)
theorem Sys2Proof.Laws.Words.exit : Words.Statement .exit :=
  one_fits _ (wordR 200 0 0 0) rfl rfl (by unfold wordR; omega)
theorem Sys2Proof.Laws.Words.lexit : Words.Statement .lexit :=
  one_fits _ (wordR 201 0 0 0) rfl rfl (by unfold wordR; omega)
theorem Sys2Proof.Laws.Words.yield : Words.Statement .yield :=
  one_fits _ (wordR 202 0 0 0) rfl rfl (by unfold wordR; omega)
theorem Sys2Proof.Laws.Words.idem (a : SReg) : Words.Statement (.idem a) :=
  one_fits _ (wordR 203 0 a.toNat 0) rfl rfl (by have := a.isLt; unfold wordR; omega)
theorem Sys2Proof.Laws.Words.trap (i : BitVec 16) : Words.Statement (.trap i) :=
  one_fits _ (wordJ 204 0 i.toNat) rfl rfl (by have := i.isLt; unfold wordJ; omega)
theorem Sys2Proof.Laws.Words.tret : Words.Statement .tret :=
  one_fits _ (wordR 205 0 0 0) rfl rfl (by unfold wordR; omega)
theorem Sys2Proof.Laws.Words.wait (tLd : BitVec 6) (tSt : BitVec 6) (tCp : BitVec 6) (tTl : BitVec 6) : Words.Statement (.wait tLd tSt tCp tTl) :=
  two_fit _ (wordR 206 0 0 0) (tLd.toNat + tSt.toNat * 64 + tCp.toNat * 4096 + tTl.toNat * 262144) rfl rfl
    (by unfold wordR; omega)
    (by have := tLd.isLt; have := tSt.isLt; have := tCp.isLt; have := tTl.isLt; omega)
theorem Sys2Proof.Laws.Words.bar (d : BarReg) (a : SReg) (n : BitVec 8) (op : BarOp) (sreg : Bool) (x : Guard) : Words.Statement (.bar d a n op sreg x) :=
  two_fit _ (wordR 207 d.toNat a.toNat 0) (wordX n.toNat 0 op.code (bnat sreg) x) rfl rfl
    (by have := d.isLt; have := a.isLt; unfold wordR; omega)
    (by have := n.isLt; have := BarOp.code_lt op; have := bnat_lt sreg; have := x.bits_le; unfold wordX; omega)
theorem Sys2Proof.Laws.Words.csrr (d : SReg) (nlo : BitVec 8) (nhi : BitVec 4) (x : Guard) : Words.Statement (.csrr d nlo nhi x) :=
  two_fit _ (wordR 208 d.toNat 0 0) (wordX nlo.toNat 0 0 nhi.toNat x) rfl rfl
    (by have := d.isLt; unfold wordR; omega)
    (by have := nlo.isLt; have := nhi.isLt; have := x.bits_le; unfold wordX; omega)
theorem Sys2Proof.Laws.Words.csrw (a : SReg) (nlo : BitVec 8) (op : CsrwOp) (nhi : BitVec 4) (x : Guard) : Words.Statement (.csrw a nlo op nhi x) :=
  two_fit _ (wordR 209 0 a.toNat 0) (wordX nlo.toNat 0 op.code nhi.toNat x) rfl rfl
    (by have := a.isLt; unfold wordR; omega)
    (by have := nlo.isLt; have := CsrwOp.code_lt op; have := nhi.isLt; have := x.bits_le; unfold wordX; omega)
theorem Sys2Proof.Laws.Words.grow (d : SReg) (k : BitVec 8) : Words.Statement (.grow d k) :=
  one_fits _ (wordR 210 d.toNat 0 k.toNat) rfl rfl (by have := d.isLt; have := k.isLt; unfold wordR; omega)
theorem Sys2Proof.Laws.Words.shrink (d : SReg) (k : BitVec 8) : Words.Statement (.shrink d k) :=
  one_fits _ (wordR 211 d.toNat 0 k.toNat) rfl rfl (by have := d.isLt; have := k.isLt; unfold wordR; omega)
theorem Sys2Proof.Laws.Words.query (d : SReg) (a : SReg) (item : BitVec 8) (x : Guard) : Words.Statement (.query d a item x) :=
  two_fit _ (wordR 212 d.toNat a.toNat 0) (wordX item.toNat 0 0 0 x) rfl rfl
    (by have := d.isLt; have := a.isLt; unfold wordR; omega)
    (by have := item.isLt; have := x.bits_le; unfold wordX; omega)
theorem Sys2Proof.Laws.Words.hops (d : SReg) (a : SReg) (b : SReg) (x : Guard) : Words.Statement (.hops d a b x) :=
  two_fit _ (wordR 213 d.toNat a.toNat b.toNat) (wordX 0 0 0 0 x) rfl rfl
    (by have := d.isLt; have := a.isLt; have := b.isLt; unfold wordR; omega)
    (by have := x.bits_le; unfold wordX; omega)
theorem Sys2Proof.Laws.Words.tlbw (d : SReg) (a : SReg) (b : SReg) (sz : TlbSz) (x : Guard) : Words.Statement (.tlbw d a b sz x) :=
  two_fit _ (wordR 214 d.toNat a.toNat b.toNat) (wordX 0 0 sz.code 0 x) rfl rfl
    (by have := d.isLt; have := a.isLt; have := b.isLt; unfold wordR; omega)
    (by have := TlbSz.code_lt sz; have := x.bits_le; unfold wordX; omega)
theorem Sys2Proof.Laws.Words.tlbwFault (d : SReg) (a : SReg) (b : SReg) (x : Guard) : Words.Statement (.tlbwFault d a b x) :=
  two_fit _ (wordR 214 d.toNat a.toNat b.toNat) (wordX 0 0 4 0 x) rfl rfl
    (by have := d.isLt; have := a.isLt; have := b.isLt; unfold wordR; omega)
    (by have := x.bits_le; unfold wordX; omega)
theorem Sys2Proof.Laws.Words.tlbiPage (d : SReg) (a : SReg) (c : SReg) (x : Guard) : Words.Statement (.tlbiPage d a c x) :=
  two_fit _ (wordR 215 d.toNat a.toNat 0) (wordX c.toNat 0 0 0 x) rfl rfl
    (by have := d.isLt; have := a.isLt; unfold wordR; omega)
    (by have := c.isLt; have := x.bits_le; unfold wordX; omega)
theorem Sys2Proof.Laws.Words.tlbiCtx (d : SReg) (a : SReg) (c : SReg) (x : Guard) : Words.Statement (.tlbiCtx d a c x) :=
  two_fit _ (wordR 215 d.toNat a.toNat 0) (wordX c.toNat 0 1 0 x) rfl rfl
    (by have := d.isLt; have := a.isLt; unfold wordR; omega)
    (by have := c.isLt; have := x.bits_le; unfold wordX; omega)
theorem Sys2Proof.Laws.Words.tlbiAll (d : SReg) (c : SReg) (x : Guard) : Words.Statement (.tlbiAll d c x) :=
  two_fit _ (wordR 215 d.toNat 0 0) (wordX c.toNat 0 2 0 x) rfl rfl
    (by have := d.isLt; unfold wordR; omega)
    (by have := c.isLt; have := x.bits_le; unfold wordX; omega)
theorem Sys2Proof.Laws.Words.tlbiFq (d : SReg) (a : SReg) (b : SReg) (x : Guard) : Words.Statement (.tlbiFq d a b x) :=
  two_fit _ (wordR 215 d.toNat a.toNat b.toNat) (wordX 0 0 3 0 x) rfl rfl
    (by have := d.isLt; have := a.isLt; have := b.isLt; unfold wordR; omega)
    (by have := x.bits_le; unfold wordX; omega)
theorem Sys2Proof.Laws.Words.ndsrcTime (d : SReg) (x : Guard) : Words.Statement (.ndsrcTime d x) :=
  two_fit _ (wordR 216 d.toNat 0 0) (wordX 0 0 0 0 x) rfl rfl
    (by have := d.isLt; unfold wordR; omega)
    (by have := x.bits_le; unfold wordX; omega)
theorem Sys2Proof.Laws.Words.ndsrcRand (d : SReg) (x : Guard) : Words.Statement (.ndsrcRand d x) :=
  two_fit _ (wordR 216 d.toNat 0 0) (wordX 0 0 1 0 x) rfl rfl
    (by have := d.isLt; unfold wordR; omega)
    (by have := x.bits_le; unfold wordX; omega)
theorem Sys2Proof.Laws.Words.sigrd (d : SReg) (what : SigSel) : Words.Statement (.sigrd d what) :=
  one_fits _ (wordR 217 d.toNat what.code 0) rfl rfl (by have := d.isLt; have := SigSel.code_lt what; unfold wordR; omega)
theorem Sys2Proof.Laws.Words.getm (d : SReg) (x : Guard) : Words.Statement (.getm d x) :=
  two_fit _ (wordR 218 d.toNat 0 0) (wordX 0 0 0 0 x) rfl rfl
    (by have := d.isLt; unfold wordR; omega)
    (by have := x.bits_le; unfold wordX; omega)
theorem Sys2Proof.Laws.Words.setm (a : SReg) (m : BitVec 6) (x : Guard) : Words.Statement (.setm a m x) :=
  two_fit _ (wordR 218 0 a.toNat 0) (wordX 0 0 1 m.toNat x) rfl rfl
    (by have := a.isLt; unfold wordR; omega)
    (by have := m.isLt; have := x.bits_le; unfold wordX; omega)
theorem Sys2Proof.Laws.Words.dbgHalt (d : SReg) (b : SReg) (x : Guard) : Words.Statement (.dbgHalt d b x) :=
  two_fit _ (wordR 219 d.toNat 0 b.toNat) (wordX 0 0 0 0 x) rfl rfl
    (by have := d.isLt; have := b.isLt; unfold wordR; omega)
    (by have := x.bits_le; unfold wordX; omega)
theorem Sys2Proof.Laws.Words.dbgRun (d : SReg) (b : SReg) (x : Guard) : Words.Statement (.dbgRun d b x) :=
  two_fit _ (wordR 219 d.toNat 0 b.toNat) (wordX 0 0 1 0 x) rfl rfl
    (by have := d.isLt; have := b.isLt; unfold wordR; omega)
    (by have := x.bits_le; unfold wordX; omega)
theorem Sys2Proof.Laws.Words.dbgStep (d : SReg) (b : SReg) (x : Guard) : Words.Statement (.dbgStep d b x) :=
  two_fit _ (wordR 219 d.toNat 0 b.toNat) (wordX 0 0 2 0 x) rfl rfl
    (by have := d.isLt; have := b.isLt; unfold wordR; omega)
    (by have := x.bits_le; unfold wordX; omega)
theorem Sys2Proof.Laws.Words.dbgBp (d : SReg) (a : SReg) (b : SReg) (slot : BitVec 2) (x : Guard) : Words.Statement (.dbgBp d a b slot x) :=
  two_fit _ (wordR 219 d.toNat a.toNat b.toNat) (wordX slot.toNat 0 3 0 x) rfl rfl
    (by have := d.isLt; have := a.isLt; have := b.isLt; unfold wordR; omega)
    (by have := slot.isLt; have := x.bits_le; unfold wordX; omega)
theorem Sys2Proof.Laws.Words.dbgWp (d : SReg) (a : SReg) (b : SReg) (slot : BitVec 1) (kind : BitVec 2) (len : BitVec 4) (x : Guard) : Words.Statement (.dbgWp d a b slot kind len x) :=
  two_fit _ (wordR 219 d.toNat a.toNat b.toNat) (wordX (slot.toNat + kind.toNat * 2 + len.toNat * 8) 0 4 0 x) rfl rfl
    (by have := d.isLt; have := a.isLt; have := b.isLt; unfold wordR; omega)
    (by have := slot.isLt; have := kind.isLt; have := len.isLt; have := x.bits_le; unfold wordX; omega)
theorem Sys2Proof.Laws.Words.dbgDump (d : SReg) (a : SReg) (b : SReg) (x : Guard) : Words.Statement (.dbgDump d a b x) :=
  two_fit _ (wordR 219 d.toNat a.toNat b.toNat) (wordX 0 0 5 0 x) rfl rfl
    (by have := d.isLt; have := a.isLt; have := b.isLt; unfold wordR; omega)
    (by have := x.bits_le; unfold wordX; omega)
theorem Sys2Proof.Laws.Words.codepubNew (d : SReg) (a : SReg) (x : Guard) : Words.Statement (.codepubNew d a x) :=
  two_fit _ (wordR 220 d.toNat a.toNat 0) (wordX 0 0 0 0 x) rfl rfl
    (by have := d.isLt; have := a.isLt; unfold wordR; omega)
    (by have := x.bits_le; unfold wordX; omega)
theorem Sys2Proof.Laws.Words.codepubPub (d : SReg) (a : SReg) (b : SReg) (x : Guard) : Words.Statement (.codepubPub d a b x) :=
  two_fit _ (wordR 220 d.toNat a.toNat b.toNat) (wordX 0 0 1 0 x) rfl rfl
    (by have := d.isLt; have := a.isLt; have := b.isLt; unfold wordR; omega)
    (by have := x.bits_le; unfold wordX; omega)
theorem Sys2Proof.Laws.Words.codepubRet (d : SReg) (a : SReg) (x : Guard) : Words.Statement (.codepubRet d a x) :=
  two_fit _ (wordR 220 d.toNat a.toNat 0) (wordX 0 0 2 0 x) rfl rfl
    (by have := d.isLt; have := a.isLt; unfold wordR; omega)
    (by have := x.bits_le; unfold wordX; omega)
theorem Sys2Proof.Laws.Words.frmigCopy (d : SReg) (a : SReg) (x : Guard) : Words.Statement (.frmigCopy d a x) :=
  two_fit _ (wordR 221 d.toNat a.toNat 0) (wordX 0 0 0 0 x) rfl rfl
    (by have := d.isLt; have := a.isLt; unfold wordR; omega)
    (by have := x.bits_le; unfold wordX; omega)
theorem Sys2Proof.Laws.Words.frmigCommit (d : SReg) (a : SReg) (b : SReg) (x : Guard) : Words.Statement (.frmigCommit d a b x) :=
  two_fit _ (wordR 221 d.toNat a.toNat b.toNat) (wordX 0 0 1 0 x) rfl rfl
    (by have := d.isLt; have := a.isLt; have := b.isLt; unfold wordR; omega)
    (by have := x.bits_le; unfold wordX; omega)
theorem Sys2Proof.Laws.Words.frmigEnd (d : SReg) (a : SReg) (x : Guard) : Words.Statement (.frmigEnd d a x) :=
  two_fit _ (wordR 221 d.toNat a.toNat 0) (wordX 0 0 2 0 x) rfl rfl
    (by have := d.isLt; have := a.isLt; unfold wordR; omega)
    (by have := x.bits_le; unfold wordX; omega)
theorem Sys2Proof.Laws.Words.frmigBad (d : SReg) (a : SReg) (x : Guard) : Words.Statement (.frmigBad d a x) :=
  two_fit _ (wordR 221 d.toNat a.toNat 0) (wordX 0 0 3 0 x) rfl rfl
    (by have := d.isLt; have := a.isLt; unfold wordR; omega)
    (by have := x.bits_le; unfold wordX; omega)
theorem Sys2Proof.Laws.Words.waypWrite (die : Nat) (v : BitVec 32) : Words.Statement (.waypWrite die v) := none_fits _ rfl
theorem Sys2Proof.Laws.Words.vdtbWrite (addr : BitVec 64) : Words.Statement (.vdtbWrite addr) := none_fits _ rfl
theorem Sys2Proof.Laws.Words.retnWrite (die : Nat) (v : BitVec 32) : Words.Statement (.retnWrite die v) := none_fits _ rfl
theorem Sys2Proof.Laws.Words.smplcfgWrite (die : Nat) (core : Nat) (v : BitVec 32) : Words.Statement (.smplcfgWrite die core v) := none_fits _ rfl
theorem Sys2Proof.Laws.Words.clauseHeader (h : BitVec 32) : Words.Statement (.clauseHeader h) := none_fits _ rfl
theorem Sys2Proof.Laws.Words.headerWaitMet : Words.Statement .headerWaitMet := none_fits _ rfl
theorem Sys2Proof.Laws.Words.reconvergenceRelease (k : GangKey) (rpc : BitVec 32) : Words.Statement (.reconvergenceRelease k rpc) := none_fits _ rfl
theorem Sys2Proof.Laws.Words.gangExit : Words.Statement .gangExit := none_fits _ rfl
theorem Sys2Proof.Laws.Words.resultWriteback (k : GangKey) (id : Nat) : Words.Statement (.resultWriteback k id) := none_fits _ rfl
theorem Sys2Proof.Laws.Words.loadComplete (k : GangKey) (id : Nat) : Words.Statement (.loadComplete k id) := none_fits _ rfl
theorem Sys2Proof.Laws.Words.storeAccepted (k : GangKey) (id : Nat) : Words.Statement (.storeAccepted k id) := none_fits _ rfl
theorem Sys2Proof.Laws.Words.quarantineRelease (die : Nat) (core : Nat) : Words.Statement (.quarantineRelease die core) := none_fits _ rfl
theorem Sys2Proof.Laws.Words.homeLoadFault (k : GangKey) (f : HomeFault) : Words.Statement (.homeLoadFault k f) := none_fits _ rfl
theorem Sys2Proof.Laws.Words.deferredStoreFault (k : GangKey) (f : HomeFault) : Words.Statement (.deferredStoreFault k f) := none_fits _ rfl
theorem Sys2Proof.Laws.Words.engineAccessFault (die : Nat) (core : Nat) (stream : Nat) (f : HomeFault) : Words.Statement (.engineAccessFault die core stream f) := none_fits _ rfl
theorem Sys2Proof.Laws.Words.remoteTimeout (tag : Nat) : Words.Statement (.remoteTimeout tag) := none_fits _ rfl
theorem Sys2Proof.Laws.Words.inboundRemoteAccess (link : Nat) (q : RemoteReq) : Words.Statement (.inboundRemoteAccess link q) := none_fits _ rfl
theorem Sys2Proof.Laws.Words.tlbMiss (home : Nat) (ctx : Nat) (striped : Bool) (gran : Nat) (w : Waiter) : Words.Statement (.tlbMiss home ctx striped gran w) := none_fits _ rfl
theorem Sys2Proof.Laws.Words.translationRetry (home : Nat) (ctx : Nat) (striped : Bool) (gran : Nat) (w : Waiter) : Words.Statement (.translationRetry home ctx striped gran w) := none_fits _ rfl
theorem Sys2Proof.Laws.Words.walkerStart (home : Nat) : Words.Statement (.walkerStart home) := none_fits _ rfl
theorem Sys2Proof.Laws.Words.copyComplete (die : Nat) (core : Nat) (stream : Nat) : Words.Statement (.copyComplete die core stream) := none_fits _ rfl
theorem Sys2Proof.Laws.Words.shadowPlaneReady (die : Nat) (core : Nat) : Words.Statement (.shadowPlaneReady die core) := none_fits _ rfl
theorem Sys2Proof.Laws.Words.streamRowWritten (die : Nat) (core : Nat) : Words.Statement (.streamRowWritten die core) := none_fits _ rfl
theorem Sys2Proof.Laws.Words.mstComplete (k : GangKey) (id : Nat) : Words.Statement (.mstComplete k id) := none_fits _ rfl
theorem Sys2Proof.Laws.Words.growGrant (die : Nat) (core : Nat) (part : Nat) : Words.Statement (.growGrant die core part) := none_fits _ rfl
theorem Sys2Proof.Laws.Words.boost (k : GangKey) (slice : Nat) : Words.Statement (.boost k slice) := none_fits _ rfl
theorem Sys2Proof.Laws.Words.starvationTimerExpiry : Words.Statement .starvationTimerExpiry := none_fits _ rfl
theorem Sys2Proof.Laws.Words.pinEndFlush : Words.Statement .pinEndFlush := none_fits _ rfl
theorem Sys2Proof.Laws.Words.blockRestart : Words.Statement .blockRestart := none_fits _ rfl
theorem Sys2Proof.Laws.Words.launchAppend (die : Nat) (name : Nat) (queue : Nat) : Words.Statement (.launchAppend die name queue) := none_fits _ rfl
theorem Sys2Proof.Laws.Words.dependencePoll (die : Nat) : Words.Statement (.dependencePoll die) := none_fits _ rfl
theorem Sys2Proof.Laws.Words.admission (die : Nat) : Words.Statement (.admission die) := none_fits _ rfl
theorem Sys2Proof.Laws.Words.blockDeal (b : BlockKey) : Words.Statement (.blockDeal b) := none_fits _ rfl
theorem Sys2Proof.Laws.Words.blockStart (b : BlockKey) : Words.Statement (.blockStart b) := none_fits _ rfl
theorem Sys2Proof.Laws.Words.launchCompletion (name : Nat) : Words.Statement (.launchCompletion name) := none_fits _ rfl
theorem Sys2Proof.Laws.Words.balanceTick (die : Nat) : Words.Statement (.balanceTick die) := none_fits _ rfl
theorem Sys2Proof.Laws.Words.balanceArrival (die : Nat) (core : Nat) : Words.Statement (.balanceArrival die core) := none_fits _ rfl
theorem Sys2Proof.Laws.Words.lclkTick : Words.Statement .lclkTick := none_fits _ rfl
theorem Sys2Proof.Laws.Words.repartitionComplete (die : Nat) : Words.Statement (.repartitionComplete die) := none_fits _ rfl
theorem Sys2Proof.Laws.Words.wsRefreshWindow : Words.Statement .wsRefreshWindow := none_fits _ rfl
theorem Sys2Proof.Laws.Words.retentionEntry (die : Nat) (core : Nat) (acc : Bool) : Words.Statement (.retentionEntry die core acc) := none_fits _ rfl
theorem Sys2Proof.Laws.Words.retentionExit (die : Nat) (core : Nat) (acc : Bool) : Words.Statement (.retentionExit die core acc) := none_fits _ rfl
theorem Sys2Proof.Laws.Words.homeCacheWriteback (home : Nat) (line : Nat) : Words.Statement (.homeCacheWriteback home line) := none_fits _ rfl
theorem Sys2Proof.Laws.Words.frmigCopyDone (home : Nat) : Words.Statement (.frmigCopyDone home) := none_fits _ rfl
theorem Sys2Proof.Laws.Words.versionFree (ctx : Nat) (ver : Nat) : Words.Statement (.versionFree ctx ver) := none_fits _ rfl
theorem Sys2Proof.Laws.Words.marginMonitorReport (die : Nat) (core : Nat) (halfB : Bool) : Words.Statement (.marginMonitorReport die core halfB) := none_fits _ rfl
theorem Sys2Proof.Laws.Words.halfWidthSwitch (die : Nat) (core : Nat) : Words.Statement (.halfWidthSwitch die core) := none_fits _ rfl
theorem Sys2Proof.Laws.Words.crossingCheckError (die : Nat) (core : Nat) (halfB : Bool) : Words.Statement (.crossingCheckError die core halfB) := none_fits _ rfl
theorem Sys2Proof.Laws.Words.strikeReport (die : Nat) (lDie : Bool) (region : Nat) : Words.Statement (.strikeReport die lDie region) := none_fits _ rfl
theorem Sys2Proof.Laws.Words.replicaVote (name : Nat) (blk : Nat) (gang : Nat) : Words.Statement (.replicaVote name blk gang) := none_fits _ rfl
theorem Sys2Proof.Laws.Words.verdictArrival : Words.Statement .verdictArrival := none_fits _ rfl
theorem Sys2Proof.Laws.Words.resyncImageArrival (b : BlockKey) : Words.Statement (.resyncImageArrival b) := none_fits _ rfl
theorem Sys2Proof.Laws.Words.replicaRecordTimeout (name : Nat) (blk : Nat) (gang : Nat) : Words.Statement (.replicaRecordTimeout name blk gang) := none_fits _ rfl
theorem Sys2Proof.Laws.Words.forwardArrival (k : GangKey) (vals : List (BitVec 32)) : Words.Statement (.forwardArrival k vals) := none_fits _ rfl
theorem Sys2Proof.Laws.Words.lifetimeFold : Words.Statement .lifetimeFold := none_fits _ rfl
theorem Sys2Proof.Laws.Words.dieReset (die : Nat) : Words.Statement (.dieReset die) := none_fits _ rfl
theorem Sys2Proof.Laws.Words.homeReset (home : Nat) : Words.Statement (.homeReset home) := none_fits _ rfl
theorem Sys2Proof.Laws.Words.powerUp : Words.Statement .powerUp := none_fits _ rfl
theorem Sys2Proof.Laws.Words.mgmtStatus : Words.Statement .mgmtStatus := none_fits _ rfl
theorem Sys2Proof.Laws.Words.mgmtLoad (port : Nat) (img : FwImage) : Words.Statement (.mgmtLoad port img) := none_fits _ rfl
theorem Sys2Proof.Laws.Words.mgmtLife (port : Nat) (off : Nat) (len : Nat) : Words.Statement (.mgmtLife port off len) := none_fits _ rfl
theorem Sys2Proof.Laws.Words.mgmtToken (port : Nat) (tok : List (BitVec 8)) : Words.Statement (.mgmtToken port tok) := none_fits _ rfl
theorem Sys2Proof.Laws.Words.lifecycleAdvance (signed : Bool) (dest : BitVec 2) : Words.Statement (.lifecycleAdvance signed dest) := none_fits _ rfl
theorem Sys2Proof.Laws.Words.flitArrival (link : Nat) (f : Flit) : Words.Statement (.flitArrival link f) := none_fits _ rfl
theorem Sys2Proof.Laws.Words.linkRetrain (link : Nat) : Words.Statement (.linkRetrain link) := none_fits _ rfl
theorem Sys2Proof.Laws.Words.replayInject (n : Nat) : Words.Statement (.replayInject n) := none_fits _ rfl
theorem Sys2Proof.Laws.Words.reservedOpcodeIssue (w : BitVec 32) : Words.Statement (.reservedOpcodeIssue w) :=
  one_fits _ _ rfl rfl w.isLt
theorem Sys2Proof.Laws.Words.applicationCoreAccess (q : HostAccess) : Words.Statement (.applicationCoreAccess q) := none_fits _ rfl
theorem Sys2Proof.Laws.Words.powerLoss : Words.Statement .powerLoss := none_fits _ rfl
theorem Sys2Proof.Laws.Words.orderlyShutdown : Words.Statement .orderlyShutdown := none_fits _ rfl
theorem Sys2Proof.Laws.Words.moduleReset : Words.Statement .moduleReset := none_fits _ rfl
theorem Sys2Proof.Laws.Words.logFreeze : Words.Statement .logFreeze := none_fits _ rfl
theorem Sys2Proof.Laws.Words.waitvReloadTimeout : Words.Statement .waitvReloadTimeout := none_fits _ rfl
theorem Sys2Proof.Laws.Words.recallArrival (home : Nat) (die : Nat) (ctx : Nat) (lo : Nat) (len : Nat) : Words.Statement (.recallArrival home die ctx lo len) := none_fits _ rfl
theorem Sys2Proof.Laws.Words.codebookReady (die : Nat) (core : Nat) : Words.Statement (.codebookReady die core) := none_fits _ rfl
theorem Sys2Proof.Laws.Words.abailTranslation (m : AbailModule) : Words.Statement (.abailTranslation m) := none_fits _ rfl
end

