-- ==== Sys2Proof/Tests/Slice0.lean ====
section
/-! SUPPORT. Tests of this slice: ill-formed terms that the checks refuse, words written out from the spec's encodings, worked examples of the
spec, and for every statement with hypotheses states and operands that meet them. -/

open Sys2Proof Sys2Proof.Machine

namespace Sys2Proof.Tests

set_option Elab.async false

/-- A guard that leaves the clause's. -/
def g0 : Guard := ⟨0, false, false⟩

/-! Each check of well-formedness refuses a term (04 R90, R94, and the rule of the instruction). -/

theorem test_wf_integer :
    [Instr.shli 4 5 32, .shri 4 5 32, .sari 4 5 255, .sxt 4 5 0, .zxt 4 5 33, .bfe 4 5 false 0 0 g0, .bfe 4 5 true 31 2 g0, .bfi 4 5 6 32 1 g0,
      .madw 5 6 7 8 .i32 g0, .madw 4 6 7 9 .i32 g0, .add64 5 6 8 false g0, .add64 4 7 8 false g0, .add64 4 6 9 true g0,
      .cmp 1 4 5 2 .i32 .eq .none g0, .cmpi 1 4 5 2 .ui32 .eq .none g0].all (fun i => !i.wf) = true := by decide +kernel

theorem test_wf_scalar :
    [Instr.salu 5 6 8 .add64 g0, .salu 4 7 8 .sub64 g0, .salu 4 6 9 .add64 g0, .salu 4 5 6 .mov g0, .salu 4 5 6 .popc g0, .salu 4 5 6 .clz g0,
      .salui 4 5 .popc 0, .salui 4 5 .clz 0, .salui 5 6 .add64 0, .salui 4 5 .mov 0, .rdlane 4 5 6 1 true g0, .rdlane 4 5 6 1 false g0,
      .rdlane 4 5 0 32 false g0, .wrlane 4 5 0 32 false g0, .elect 1 4 false, .scmp 1 4 6 2 .i32 .eq .none g0, .scmp 1 5 6 0 .i64 .eq .none g0,
      .scmp 1 4 7 0 .ui64 .eq .none g0].all (fun i => !i.wf) = true := by decide +kernel

theorem test_wf_float :
    [Instr.ffma 4 5 6 7 .sr false false .f32 false false g0, .ffma 4 5 6 7 .rne false false .f64 false false g0, .faddx 4 5 6 .sr false false .f32 false g0,
      .fmulx 4 6 8 .mode false false .f64 g0, .fmin 4 6 8 false .f64 g0, .fmax 4 6 8 false .f64 g0, .fmov 4 5 6 .f32 .neg g0,
      .fcmp 1 4 5 2 false .f32 false .eq .none g0, .fcmp 1 4 5 0 false .f32 true .eq .none g0, .fclass 1 4 0 0 .f64 true g0, .frnd 4 5 .sr false .f32 false g0,
      .dfma 4 6 8 10 .rne false false .add g0, .dfma 4 6 8 0 .sr false false .add g0, .dfma 4 6 8 0 .rne false false .min g0,
      .dfma 4 6 8 0 .mode false true .max g0, .fdiv 4 5 6 .sr false false g0].all (fun i => !i.wf) = true := by decide +kernel

theorem test_wf_conversions :
    [Instr.cvt 4 5 .rne false false false 0 0 .f32 .f32 g0, .cvt 4 5 .rne false false false 2 0 .f16 .f32 g0, .cvt 4 5 .rne false false false 0 1 .f16 .f32 g0,
      .cvt 4 5 .sr false false false 0 0 .f16 .f32 g0, .cvt 4 5 .sr false false false 0 0 .e4m3 .bf16 g0, .cvt 4 5 .sr false false false 0 0 .f32 .s32 g0, .cvt 4 5 .mode false false true 0 0 .f32 .s32 g0,
      .cvt 4 5 .sr false false false 0 0 .s32 .f32 g0, .cvt 4 5 .rne false false false 0 0 .s32 .s16 g0, .cvtpk 4 5 6 0 .rne false false false false false .f32 g0,
      .cvtpk 4 5 6 0 .rne false false false true false .f16 g0, .cvtpk 4 5 6 7 .rne false false false false true .e5m2 g0,
      .cvtpk 4 5 6 7 .rne false false false false false .e4m3 g0, .cvtpk 4 5 6 0 .sr false false false false false .s8 g0,
      .cvtup 5 6 0 .mode false false false false false .e4m3 .f32 g0, .cvtup 4 6 0 .mode false false false false false .f32 .f32 g0,
      .cvtup 4 6 0 .mode false false false false false .e4m3 .s32 g0, .cvtup 4 6 0 .mode false false false true false .f16 .f32 g0,
      .cvtup 4 6 0 .rne false false false false false .e4m3 .f32 g0, .cvtup 4 6 7 .sr false false false false true .e4m3 .f32 g0].all (fun i => !i.wf) = true := by
  decide +kernel

theorem test_wf_cross_lane :
    [Instr.shfl 4 5 6 .xor 1 true .w32 g0, .shfl 4 5 6 .xor 1 false .w32 g0, .vote 8 1 .any false g0, .vote 1 1 .ballot true g0,
      .redx 64 5 .mode false false .add true g0, .redx 5 6 .mode false false .minidxI false g0, .redx 4 5 .rne false false .add false g0,
      .redx 4 5 .mode true false .xor false g0, .redx 4 5 .mode false true .fmin false g0, .redx 4 5 .sr false false .fadd false g0,
      .matchLanes 4 5 true g0].all (fun i => !i.wf) = true := by decide +kernel

theorem test_wf_memory :
    [Instr.ld 4 5 6 0 .w false false 0 true g0, .ld 4 6 6 0 .w false false 0 false g0, .ld 4 6 0 0 .w true false 0 false g0, .ld 4 0 6 0 .w true false 1 false g0,
      .ld 5 4 6 0 .d false false 0 true g0, .ld 6 4 6 0 .q false false 0 true g0, .st 5 4 6 0 .d false false 0 true g0, .lds 6 5 0 .q .core g0, .sts 5 4 0 .d .ts g0,
      .ldw 5 4 0 1 .glob false g0, .ldw 4 5 0 0 .glob false g0, .ldp 4 6 7 0 true 2 .glob 0 true g0, .ldp 4 6 7 0 false 2 .core 0 false g0,
      .stp 4 6 7 0 true 3 .glob 0 true g0, .sld 5 4 0 true .glob g0, .sld 4 5 0 false .glob g0, .sst 5 4 0 true .core g0].all (fun i => !i.wf) = true := by decide +kernel

theorem test_wf_atomics :
    [Instr.atom 4 5 6 8 .mode .add 0 true g0, .atom 5 4 6 8 .mode .add64 0 true g0, .atom 4 4 6 9 .mode .cas 0 true g0, .atom 4 4 6 10 .mode .cas64 0 true g0,
      .atom 4 4 6 9 .mode .exch64 0 true g0, .atom 4 4 6 8 .rne .add 0 true g0, .atom 4 4 6 8 .sr .fadd 0 true g0, .red 4 6 8 .mode .exch 0 true g0,
      .red 4 6 8 .mode .cas 0 true g0, .atoms 4 6 8 .mode .add false true g0, .atoms 5 6 8 .mode .cas64 false false g0, .waitv 4 5 0 7 .block .glob .eq true false g0,
      .waitv 4 6 1 7 .block .glob .eq true false g0, .waitv 4 6 0 7 .block .glob .eq true true g0, .pref 5 6 0 .l1 0 true g0, .cflush 4 6 0 .wb 0 false g0,
      .fence false false].all (fun i => !i.wf) = true := by decide +kernel

theorem test_wf_engines :
    [Instr.mrd 249 4 false g0, .mwr 4 249 false g0, .mst 1 4 .sr false false false false g0, .omset 1 5 g0, .cpy 5 4 6 .glob .core 0 g0, .cpy 4 5 6 .core .glob 0 g0,
      .tcpy 4 8 false false false 0 g0, .tcpy 8 5 false false false 0 g0, .gather 4 5 6 0 false 0 0 g0, .scatter 4 5 6 0 false 0 0 g0, .rgacqC 4 1 6 1 true g0,
      .rgacqC 5 1 0 1 true g0, .rgacqP 5 1 1 g0, .rgput 1 5 6 .glob 0 g0, .wsld 4 5 6 g0].all (fun i => !i.wf) = true := by decide +kernel

theorem test_wf_control_and_system :
    [Instr.qpush 4 5 7 g0, .qpop 6 0 true .block g0, .qpop 4 0 false .ext g0, .qpop 4 1 true .launch g0, .launch 4 6 8 1 0 false g0, .launch 5 6 8 0 0 false g0,
      .launchPre 4 6 9 g0, .launchKill 4 7 8 0 g0, .launchCtx 5 6 g0, .launchRes 4 7 g0, .brc 1 false .any false 1 2, .bar 1 0 0 .sync false g0, .bar 1 0 33 .sync false g0,
      .bar 1 4 1 .sync true g0, .csrr 4 5 0 g0, .csrr 5 0x30 0 g0, .csrw 5 0x70 .write 0 g0, .csrw 4 0xB2 .write 0 g0, .grow 4 0, .grow 4 16, .shrink 4 0,
      .query 4 5 10 g0, .query 4 5 2 g0, .tlbw 4 5 7 .k64 g0, .tlbiPage 4 5 6 g0, .tlbiCtx 4 5 6 g0, .ndsrcTime 5 g0, .ndsrcRand 5 g0, .sigrd 5 .sigs,
      .getm 5 g0, .setm 5 1 g0, .dbgBp 4 5 6 0 g0, .dbgWp 4 6 8 0 0 13 g0, .dbgWp 4 5 8 0 0 2 g0, .dbgDump 4 5 6 g0, .codepubNew 4 5 g0, .codepubPub 5 6 7 g0,
      .codepubRet 5 6 g0, .frmigCopy 5 6 g0, .frmigCommit 4 6 9 g0, .frmigEnd 4 7 g0, .frmigBad 5 6 g0, .reservedOpcodeIssue 6].all (fun i => !i.wf) = true := by
  decide +kernel


/-! Words written out from the encodings that the spec's own examples give, or bit by bit from its tables, decode to what they stand for. -/

/-- Each word, with the next behind it, decodes to its instruction, in as many words as that has. -/
def reads (l : List (Nat × Nat × Instr)) : Bool := l.all fun c => match decode c.1 c.2.1 with
  | .ok (i, n) => i == c.2.2 && n == (encode i).length
  | .error _ => false

/-- 04's worked example, and 06. -/
theorem test_words_lane :
    reads [(0x06040406, 0, .add 4 4 6), (0x01060607, 0, .addi 6 6 1), (0x0206071D, 0, .shli 7 6 2), (0xFFFB00C0, 0, .br 0xFFFB),
      (0x00000405, 0x12345678, .movl 4 0x12345678), (0x0605040A, 0x00008000, .addsat 4 5 6 .i16x2 g0), (0x05040128, 0x02000000, .cmp 1 4 5 0 .i32 .lt .none g0),
      (0x00080472, 0x01028000, .redx 4 8 .mode false false .minidxU true g0), (0x00080970, 0x0000C004, .shfl 9 8 0 .xor 4 false .w32 g0)] = true := by decide +kernel

/-- 07 and 08. -/
theorem test_words_float_and_matrix :
    reads [(0x06050443, 0x00001107, .ffma 4 5 6 7 .rne false true .f32 false false g0), (0x05040149, 0x02000000, .fcmp 1 4 5 0 false .f32 false .lt .none g0),
      (0x00050450, 0x40022100, .cvt 4 5 .rne false false true 0 2 .f32 .e4m3 g0), (0x00050453, 0x0000C101, .cbenc 4 5 1 .rne false 3 g0),
      (0x000803A9, 0, .omset 3 8 g0), (0x000000A0, 0x00004000, .mldw 0 0 .kj g0), (0x000000A1, 0, .mswap), (0x000401A8, 0x00008000, .mcbl 1 4 .ws g0),
      (0x000100A2, 0x00014000, .mma 0 1 .kj true g0), (0x000502A3, 0x00020000, .mmab 2 5 .single false true g0), (0x000006AA, 0, .mnanr 6),
      (0x000304A4, 0, .mzero 4 3 false), (0x000310A5, 0x00004000, .mrd 16 3 true g0), (0x002005A6, 0, .mwr 5 32 false g0),
      (0x000004A7, 0x00000100, .mst 4 0 .rne false false false false g0)] = true := by decide +kernel

/-- 12 and 21. -/
theorem test_words_memory :
    reads [(0x07040980, 0x06010010, .ld 9 4 7 16 .w false false 2 true g0), (0x07040980, 0x06050010, .ld 9 4 7 16 .w false true 2 true g0),
      (0x01000980, 0x00030008, .ld 9 0 1 8 .w true false 0 false g0), (0x07040C81, 0x06018000, .st 12 4 7 0 .q false false 2 true g0),
      (0x07000982, 0x00030040, .lds 9 7 64 .w .ts g0), (0x07040489, 0x06000005, .atom 4 4 7 5 .mode .add 2 true g0),
      (0x00040A8C, 0x0000800C, .waitv 10 4 0 12 .launch .glob .eq false false g0), (0x0003148D, 0, .tbegin 20 3), (0x0000008E, 0, .tend), (0x0500008F, 0, .tabort 5),
      (0x00000092, 0, .rel), (0x03000093, 0, .fence true true), (0x05081080, 0x04018000, .ld 16 8 5 0 .q false false 0 true g0),
      (0x05001483, 0x00018200, .sts 20 5 512 .q .core g0), (0x040C2181, 0x06010080, .st 33 12 4 128 .w false false 2 true g0)] = true := by decide +kernel

/-- 13 and 14. -/
theorem test_words_engines :
    reads [(0x08040AB0, 0x01004000, .cpy 10 4 8 .core .glob 1 g0), (0x000410B1, 0, .tcpy 16 4 false false false 0 g0), (0x000410B1, 0x0200C000, .tcpy 16 4 true true false 2 g0),
      (0x07040CB2, 0x0F000003, .gather 12 4 7 3 false 3 3 g0), (0x07040CB3, 0x08000000, .scatter 12 4 7 0 false 0 2 g0), (0x000602B4, 0x01000003, .rginit 2 6 3 1 false g0),
      (0x000214B5, 0x00008002, .rgacqC 20 2 0 2 true g0), (0x090214B5, 0x00000002, .rgacqC 20 2 9 2 false g0), (0x000314B5, 0x00004002, .rgacqP 20 3 2 g0),
      (0x000200B6, 0, .rgrelC 2 g0), (0x000300B6, 0x00004000, .rgrelP 3 g0), (0x080402B7, 0x01000000, .rgput 2 4 8 .glob 1 g0), (0x08040ABC, 0, .wsld 10 4 8 g0),
      (0x080414BB, 0x00004000, .launch 20 4 8 0 1 false g0), (0x161222BB, 0x01000028, .launch 34 18 22 40 0 true g0), (0x0C0B0AB9, 0, .qpush 10 11 12 g0),
      (0x000010BA, 0x00004000, .qpop 16 0 true .block g0)] = true := by decide +kernel

/-- 09, 15, 16 and 17. -/
theorem test_words_control_and_system :
    reads [(0x000004D0, 0x00000002, .csrr 4 2 0 g0), (0x000600D1, 0x00000041, .csrw 6 0x41 .write 0 g0), (0x000004DA, 0, .getm 4 g0), (0x000600DA, 0x21004000, .setm 6 0x21 g0),
      (0x020004D2, 0, .grow 4 2), (0x010004D3, 0, .shrink 4 1), (0x000906D4, 0x00000003, .query 6 9 3 g0), (0x060504D5, 0, .hops 4 5 6 g0), (0x000004D8, 0x00004000, .ndsrcRand 4 g0),
      (0x000004D9, 0, .sigrd 4 .sigs), (0x000700CC, 0, .trap 7), (0x000000CD, 0, .tret), (0x060004DB, 0, .dbgHalt 4 6 g0), (0x060804DB, 0x00014000, .dbgDump 4 8 6 g0),
      (0x000300C3, 0, .callt 3), (0x000900C4, 0, .calli 9 false), (0x010900C4, 0, .calli 9 true), (0x000000C5, 0, .ret 0), (0x000900C6, 0, .jmpi 9 false), (0x000000C7, 7, .regang 7 g0),
      (0x000000C8, 0, .exit), (0x000000C9, 0, .lexit), (0x000000CA, 0, .yield), (0x000900CB, 0, .idem 9), (0x002841C1, 0x00000014, .brc 1 false .any true 0x28 0x14)] = true ∧
    reads [(0x080604D6, 0x00004000, .tlbw 4 6 8 .m2 g0), (0x090604D6, 0x00010000, .tlbwFault 4 6 9 g0), (0x000604D7, 0x0000000A, .tlbiPage 4 6 10 g0),
      (0x070604D7, 0x0000C000, .tlbiFq 4 6 7 g0), (0x000000CE, 0x00FC1FC0, .wait 0 63 1 63), (0x000003CF, 0x00000008, .bar 3 0 8 .arrive false g0),
      (0x000003CF, 0x00008008, .bar 3 0 8 .sync false g0), (0x000500CF, 0x01004000, .bar 0 5 0 .wait true g0)] = true := by decide +kernel

/-- 16 R367 to R369 and 15 R346: SUB in bits [18:14] of word 1. -/
theorem test_words_tables :
    reads [(0x000604DC, 0, .codepubNew 4 6 g0), (0x080604DC, 0x00004000, .codepubPub 4 6 8 g0), (0x000604DC, 0x00008000, .codepubRet 4 6 g0), (0x000604DD, 0, .frmigCopy 4 6 g0),
      (0x080604DD, 0x00004000, .frmigCommit 4 6 8 g0), (0x000604DD, 0x00008000, .frmigEnd 4 6 g0), (0x000604DD, 0x0000C000, .frmigBad 4 6 g0)] = true := by decide +kernel

/-- 04 R94: an undefined field, a set must-be-zero bit or a register outside its namespace does not decode; a major that no instruction owns is read by name. -/
theorem test_words_refused :
    [(0x01000001, 0), (0x00060474, 0), (0x21050C1D, 0), (0x00000832, 0), (0x0605040A, 0x00018000), (0x0605040A, 0x01000000), (0x000040D2, 0), (0x080604D6, 0x0000C000)].all
      (fun c => match decode c.1 c.2 with | .ok _ => false | .error _ => true) = true ∧
    reads [(0x000000F1, 0, .reservedOpcodeIssue 0xF1)] = true := by decide +kernel

/-- 00 R3, 04 R85: the words stand in memory with their low byte first, and the word behind a one-word instruction is not its own. -/
theorem test_decode_bytes : (decodeBytes [0x06, 0x04, 0x04, 0x06, 0x07, 0x06, 0x06, 0x01]).toOption = some (.add 4 4 6, [0x07, 0x06, 0x06, 0x01]) ∧
    decodeTableWord 64 0x000080000605040A = some (.addsat 4 5 6 .i16x2 g0) ∧ decodeTableWord 32 0x0605040A = some (.addsat 4 5 6 .i32 g0) := by decide +kernel


/-- The remaining instructions, written out from the tables of their rules: lane forms of 06 (04 R89: the major in [7:0], D, A and B in the next bytes; in word 1 of an X form
C or IMM8 in [7:0], RND [10:8], FI, FO and SAT at 11 to 13, SUB [18:14], GRD [21:19], GN 22, GO 23, EXT [31:24]). -/
theorem test_words_lane_rest :
    reads [(0x00000001, 0, .nop), (0x00050402, 0, .mov 4 5), (0xFFFB0403, 0, .movi 4 0xFFFB), (0x12340404, 0, .movh 4 0x1234), (0x06050408, 0, .sub 4 5 6), (0x00050409, 0, .neg 4 5),
      (0x0605040B, 0x0000C000, .subsat 4 5 6 .ui16x2 g0), (0x0605040C, 0, .mullo 4 5 6), (0x0605040D, 0x00008000, .mulhi 4 5 6 .mix32 g0), (0x0605040E, 0x00002007, .mad 4 5 6 7 true .i32 g0),
      (0x0706040F, 0x00004008, .madw 4 6 7 8 .ui32 g0), (0x00050410, 0, .abs 4 5), (0x06050411, 0x00D90000, .min 4 5 6 .i8x4 ⟨3, true, true⟩), (0x06050412, 0x00004000, .max 4 5 6 .ui32 g0),
      (0x06050413, 0, .and 4 5 6), (0x06050414, 0, .or 4 5 6), (0x06050415, 0, .xor 4 5 6), (0x06050416, 0, .andn 4 5 6), (0xFF050417, 0, .andi 4 5 255), (0x80050418, 0, .ori 4 5 128),
      (0x01050419, 0, .xori 4 5 1), (0x0605041A, 0, .shl 4 5 6), (0x0605041B, 0, .shr 4 5 6), (0x0605041C, 0, .sar 4 5 6), (0x1F05041E, 0, .shri 4 5 31), (0x1F05041F, 0, .sari 4 5 31),
      (0x06050420, 0, .rotl 4 5 6), (0x00050421, 0, .popc 4 5), (0x00050422, 0, .clz 4 5), (0x00050423, 0, .brev 4 5), (0x00050424, 0x04004008, .bfe 4 5 true 8 4 g0)] = true ∧
    reads [(0x06050425, 0x04000008, .bfi 4 5 6 8 4 g0), (0x06050426, 0x020000FC, .lea 4 5 6 0xFC 2 g0), (0x06050427, 0x00000003, .sel 4 5 6 3 g0),
      (0xC8040229, 0x10004003, .cmpi 2 4 200 3 .ui32 .eq .and g0), (0x0605042A, 0x00004000, .idiv 4 5 6 .ui32 g0), (0x0605042B, 0, .irem 4 5 6 .i32 g0), (0x0805042C, 0, .sxt 4 5 8),
      (0x2005042D, 0, .zxt 4 5 32), (0x0605042E, 0x00000007, .bperm 4 5 6 7 g0), (0x0806042F, 0x00004000, .add64 4 6 8 true g0), (0x06050430, 0x00004007, .shf 4 5 6 7 true g0)] = true := by
  decide +kernel

/-- 06 R131, R132, R142 to R154. -/
theorem test_words_scalar_rest :
    reads [(0x03020132, 0, .pand 1 2 3), (0x03020133, 0, .por 1 2 3), (0x03020134, 0, .pxor 1 2 3), (0x00020135, 0, .pnot 1 2), (0x00020136, 0, .pmov 1 2), (0x00020437, 0, .vfromp 4 2),
      (0x08060438, 0x00040000, .salu 4 6 8 .add64 g0), (0x06050438, 0x00060000, .salu 4 5 6 .iremU g0), (0x100A0839, 0xFFFFF000, .salui 8 10 .add64 0xFFFFF000), (0xFFFF043A, 0, .smovi 4 0xFFFF),
      (0x0005043B, 0, .bcast 4 5), (0x0005043C, 0x0000001F, .rdlane 4 5 0 31 false g0), (0x0605043D, 0x01000000, .wrlane 4 5 6 0 true g0), (0x0000013E, 0, .elect 1 0 false),
      (0x0104013E, 0, .elect 1 4 true), (0x0604013F, 0x02008000, .scmp 1 4 6 0 .i64 .lt .none g0), (0x00020171, 0, .vote 1 2 .any false g0), (0x00020971, 0x01004000, .vote 9 2 .all true g0),
      (0x00022871, 0x0000C000, .vote 40 2 .ballot false g0), (0x00050473, 0x0101C000, .scanx 4 5 .xor true g0), (0x00010474, 0, .lid 4 .slice), (0x00060475, 0x00004000, .matchLanes 4 6 true g0)] =
      true := by decide +kernel

/-- 07. -/
theorem test_words_float_rest :
    reads [(0x06050440, 0, .fadd 4 5 6), (0x06050441, 0, .fsub 4 5 6), (0x06050442, 0, .fmul 4 5 6), (0x06050444, 0x00018200, .faddx 4 5 6 .rtz false false .bf16x2 true g0),
      (0x06050445, 0x00004800, .fmulx 4 5 6 .mode true false .f16x2 g0), (0x06050446, 0, .fmin 4 5 6 false .f32 g0), (0x06050447, 0x00008800, .fmax 4 5 6 true .bf16x2 g0),
      (0x06050448, 0x00030000, .fmov 4 5 6 .f32 .cpsgn g0), (0x0005024A, 0x03000060, .fclass 2 5 0x60 3 .f32 false g0), (0x0005044B, 0x00010400, .frnd 4 5 .rdn false .f32 true g0),
      (0x0C0A084C, 0x0000020E, .dfma 8 10 12 14 .rtz false false .fma g0), (0x0C0A084C, 0x00014000, .dfma 8 10 12 0 .mode false false .max g0),
      (0x06050451, 0x4000C007, .cvtpk 4 5 6 7 .mode false false false true true .e4m3 g0), (0x00040652, 0x04004000, .cvtup 6 4 0 .mode false false false true false .e4m3 .f32 g0),
      (0x00040654, 0x0000C001, .cbdec 6 4 1 3 g0), (0x00050458, 0, .rcp 4 5), (0x00050459, 0, .rsq 4 5), (0x0005045A, 0, .sqrt 4 5), (0x0005045B, 0, .exp2 4 5), (0x0005045C, 0, .log2 4 5),
      (0x0005045D, 0, .sinpi 4 5), (0x0005045E, 0, .cospi 4 5), (0x0605045F, 0x00001900, .fdiv 4 5 6 .rne true true g0), (0x00050460, 0, .tanh 4 5), (0x00050461, 0, .sigm 4 5)] = true := by
  decide +kernel

/-- 12 R274 to R279, R287, R288, 15 R335, 16 R362, 18 R401, 09 R222, R228. -/
theorem test_words_memory_and_system_rest :
    reads [(0x00061084, 0x00028000, .ldw 16 6 0 2 .ts false g0), (0x07040485, 0x0500C000, .ldp 4 4 7 0 true 1 .glob 1 true g0), (0x07000486, 0x00058003, .stp 4 0 7 3 false 3 .ts 0 false g0),
      (0x00060487, 0x00007FF8, .sld 4 6 0x3FF8 true .glob g0), (0x00060988, 0x00010000, .sst 9 6 0 false .ts g0), (0x0704008A, 0x06028105, .red 4 7 5 .rne .fadd 2 true g0),
      (0x0700008B, 0x03038005, .atoms 0 7 5 .mode .inc true true g0), (0x00040090, 0x00008010, .pref 4 0 16 .hc 0 false g0), (0x07040091, 0x04008000, .cflush 4 7 0 .mem 0 true g0),
      (0x080604BB, 0x00010000, .launchPre 4 6 8 g0), (0x080604BB, 0x0002000A, .launchKill 4 6 8 10 g0), (0x000604BB, 0x00030000, .launchCtx 4 6 g0), (0x000604BB, 0x00040000, .launchRes 4 6 g0),
      (0xFFFB00C2, 0, .call 0xFFFB), (0x000604D7, 0x0000400A, .tlbiCtx 4 6 10 g0), (0x000004D7, 0x0000800A, .tlbiAll 4 10 g0), (0x000004D8, 0, .ndsrcTime 4 g0),
      (0x060004DB, 0x00004000, .dbgRun 4 6 g0), (0x060004DB, 0x00008000, .dbgStep 4 6 g0), (0x060804DB, 0x0000C002, .dbgBp 4 8 6 2 g0), (0x060804DB, 0x00010065, .dbgWp 4 8 6 1 2 12 g0)] =
      true := by decide +kernel


/-! Small states and what one instruction makes of them. -/

/-- A gang of 8 slices, every lane live, about to issue an instruction of this major. -/
def stand (maj : Nat) : State := { placeWord State.reset 32 maj with frag := 0xFF }

/-- Values in the lanes of a lane register, from lane 0. -/
def lanes (r : Nat) (vs : List Word) (s : State) : State :=
  modGang (fun g => { g with v := (List.range vs.length).foldl (fun m l => put m (32 * r + l) (nth 0 vs l)) g.v }) s

/-- A value in a scalar register. -/
def scal (r : Nat) (v : Word) (s : State) : State := modGang (fun g => { g with s := put g.s r v }) s

/-- A mask in a predicate. -/
def pred (p : Nat) (m : Word) (s : State) : State := modGang (fun g => { g with p := put g.p p m }) s

/-- The gang's lanes that take part. -/
def only (m : Word) (s : State) : State := modGang (fun g => { g with active := m }) s

/-- The next state of an instruction; the reset state where it has none. -/
def ran (i : Instr) (s : State) : State := match exec i s with
  | .next t => t
  | _ => State.reset

/-- As `ran`, of an instruction that stands alone. -/
def did (i : Instr) (f : State → State) : State := ran i (f (stand i.major))

/-- As `ran`, of one step. -/
def stepped (s : State) : State := match step s with
  | .next t => t
  | _ => State.reset

/-! Worked examples of the spec. -/

/-- 06 R135's example. -/
theorem test_addsat_example :
    let t := fun (ty : PackTy) => did (.addsat 4 5 6 ty g0) fun s => lanes 5 [0x7FF08001] (lanes 6 [0x0020FFFF] s)
    rdV (t .i16x2) 4 0 = 0x7FFF8000 ∧ rdV (t .ui16x2) 4 0 = 0x8010FFFF := by decide +kernel

/-- 06 R130: MOVI of −5, then MOVH of 0x1234. -/
theorem test_movi_movh : rdV (did (.movi 4 0xFFFB) id) 4 31 = 0xFFFFFFFB ∧ rdV (did (.movh 4 0x1234) fun s => lanes 4 [0xFFFFFFFB] s) 4 0 = 0x1234FFFB := by decide +kernel

/-- 03 R79: −7 divided by 2 is −3 with the remainder −1; a division by zero gives all ones and the dividend. -/
theorem test_division :
    let s := fun (s : State) => lanes 5 [0xFFFFFFF9, 9, 0x80000000] (lanes 6 [2, 0, 0xFFFFFFFF] s)
    let q := did (.idiv 4 5 6 .i32 g0) s
    let r := did (.irem 4 5 6 .i32 g0) s
    (rdV q 4 0, rdV q 4 1, rdV q 4 2) = (0xFFFFFFFD, 0xFFFFFFFF, 0x80000000) ∧ (rdV r 4 0, rdV r 4 1, rdV r 4 2) = (0xFFFFFFFF, 9, 0) := by decide +kernel

/-- 06 R133: a shift by 32 or more, and the sign it leaves. -/
theorem test_shifts :
    let s := fun (s : State) => lanes 5 [0x80000001, 0x80000001] (lanes 6 [31, 32] s)
    (rdV (did (.sar 4 5 6) s) 4 0, rdV (did (.sar 4 5 6) s) 4 1) = (0xFFFFFFFF, 0xFFFFFFFF) ∧
    (rdV (did (.shl 4 5 6) s) 4 0, rdV (did (.shl 4 5 6) s) 4 1) = (0x80000000, 0) := by decide +kernel

/-- The gang of 06's example: 2 slices, lane 4 has left, lane 5 is dead, the guard P1 is false in lane 6. -/
def example06 (maj : Nat) : State :=
  lanes 8 [9, 4, 7, 4, 2, 2, 1, 4] (lanes 9 (List.replicate 8 0) (pred 1 0xBF (modGang (fun g => { g with slices := 2, active := 0xEF, dead := 0x20 }) (stand maj))))

/-- 06's example: REDX .minidx, SHFL .xor and SCANX .add. -/
theorem test_cross_lane_example :
    let x : Guard := ⟨1, false, true⟩
    let r := ran (.redx 4 8 .mode false false .minidxU true x) (example06 0x72)
    let f := ran (.shfl 9 8 0 .xor 4 false .w32 x) (example06 0x70)
    let c := ran (.scanx 10 8 .add false x) (lanes 10 (List.replicate 8 77) (example06 0x73))
    (rdS r 4, rdS r 5) = (4, 1) ∧ (List.range 8).map (rdV f 9) = [2, 0, 1, 4, 0, 0, 0, 4] ∧ f.gang.mode.getLsbD 8 = false ∧
    f.gang.mode = (example06 0x70).gang.mode ||| xldead ∧ (List.range 8).map (rdV c 10) = [9, 13, 20, 24, 77, 77, 77, 28] := by decide +kernel

/-- 07's example of FFMA: one rounding. -/
theorem test_ffma_rounds_once : rdV (did (.ffma 4 5 5 6 .mode false false .f32 false false g0) fun s => lanes 5 [0x3F800800] (lanes 6 [0xBF800000] s)) 4 0 = 0x3A000400 := by
  decide +kernel

/-- 07's example of CVT and CVTUP. -/
theorem test_cvt_example :
    let s := fun (s : State) => only 1 (lanes 5 [0x43E80000] (lanes 4 [0x11111111] s))
    let a := did (.cvt 4 5 .rne false false true 0 2 .f32 .e4m3 g0) s
    let b := did (.cvt 4 5 .rna false false false 0 2 .f32 .e4m3 g0) s
    let c := did (.cvtup 6 4 0 .mode false false false true false .e4m3 .f32 g0) fun s => only 1 (lanes 4 [0x117E1111] s)
    rdV a 4 0 = 0x117E1111 ∧ a.gang.mode = 1 ||| flagBits [{ nx := true }] ∧ rdV b 4 0 = 0x117F1111 ∧
    b.gang.mode = 1 ||| flagBits [{ of := true, nx := true }] ∧ (rdV c 6 0, rdV c 7 0) = (0x43E00000, 0x3D100000) ∧ c.gang.mode = 1 := by decide +kernel

/-- CB1 of 07's example: −4 + 0.5 c. -/
def bookOne (s : State) : State :=
  modCore (fun c => { c with cb := canon ((List.range 16).zip [0xC080, 0xC060, 0xC040, 0xC020, 0xC000, 0xBFC0, 0xBF80, 0xBF00, 0, 0x3F00, 0x3F80, 0x3FC0, 0x4000, 0x4020, 0x4040, 0x4060]
    |>.map fun e => (16 + e.1, e.2)) }) s

/-- 07's example of CBENC and CBDEC. -/
theorem test_codebook_example :
    let f := fun (rnd : Rnd) => did (.cbenc 4 5 1 rnd false 3 g0) fun s => only 7 (lanes 5 [0x3FA00000, 0x40A00000, 0xC0800000] (bookOne s))
    (List.range 3).map (rdV (f .rne) 4) = [0xA000, 0xF000, 0] ∧ (List.range 3).map (rdV (f .rup) 4) = [0xB000, 0xF000, 0] ∧
    (List.range 3).map (rdV (f .rtz) 4) = [0xA000, 0xF000, 0] ∧
    rdV (did (.cbdec 6 4 1 3 g0) fun s => lanes 4 [0xA000] (bookOne s)) 6 0 = 0x3F800000 := by decide +kernel

/-- 03's example: the sum of a BF16 column depends on its order. -/
theorem test_mma_sum_example :
    let p : Plane := { Plane.reset with cells := canon [(0, 0x4780), (16, 0x3F80), (32, 0x4780)] }
    let st : Stream := ⟨0, 0, 0, true, none, 0, p, p, [], [], false, 0, 0, [], [], ⟨0, 0, 0, 0⟩, 0⟩
    planeSum st p [] ([0x4380, 0x3F80, 0xC380] ++ List.replicate 13 0, []) 0 0 0 = 0 := by decide +kernel

/-- 02's example: BRC .any on P1 from 40 to 60, naming 80. -/
theorem test_brc_example :
    let e : SplitEntry := { entryOf (stand 0xC1).gang 0 with pc := 40, ix := 10 }
    let hdrs := (List.range 3).flatMap fun i => cellsAt (placeBase + 4 * (20 * i + 40)) (leBytes 4 0x007F81F1)
    let big := fun (v : Ver) => { v with words := 200 }
    let s := pred 1 0x302 { modGang (fun g => { g with slices := 3, active := 0x3FF, split := List.replicate 3 e }) (stand 0xC1) with
      frag := 7, mem := canon hdrs, contexts := (stand 0xC1).contexts.map fun c => { c with vers := c.vers.map big } }
    let t := ran (.brc 1 false .any true 40 20) s
    (List.range 3).map (fun k => ((entryOf t.gang k).pc, (entryOf t.gang k).rpc, (entryOf t.gang k).fu)) = [(60, 80, false), (52, 80, false), (60, 80, false)] := by decide +kernel

/-- 08 R208's example at clk 100: an MLDW of four up crossings, and an FFMA that it delays by one clk at full width and by two at half
width; and a DFMA of six up crossings on an empty scoreboard. -/
theorem test_scoreboard_example :
    let at' := fun (n : Nat) (s : State) => { s with clk := n }
    let half := modCore fun c => { c with ports := 1 }
    let run := fun (s : State) => match planOf ⟨[0, 0, 0, 0], 0, 0⟩ (at' 100 s) with
      | none => none
      | some p =>
        let s := takeLanes ⟨[0, 0, 0, 0], 0, 0⟩ p 0 s
        let ffma := fun (n : Nat) => (planOf ⟨[0, 0, 0], 1, 4⟩ (at' n s)).map fun p => (p.starts, p.uend, p.ready)
        some (p.uend + 16, ffma 100, ffma 101, ffma 102)
    let dfma := fun (s : State) => (planOf ⟨[0, 0, 0, 0, 0, 0], 2, 8⟩ (at' 0 s)).map (·.ready)
    (run State.reset == some (116, none, some ([101, 101, 101], 101, 107), some ([102, 102, 102], 102, 108)) &&
     run (half State.reset) == some (117, none, none, some ([102, 102, 102], 103, 110)) &&
     (dfma State.reset, dfma (half State.reset)) == (some 11, some 14)) = true := by decide +kernel

/-- 10's example: granules of the striped window. -/
theorem test_striped_owner :
    (ownerVh 0x01FC001234560000, ownerVh 0x01FC001234570000, ownerVh 0x01FC001234580000) = (some (38, true), some (39, true), some (0, true)) := by decide +kernel

/-- 16's example: the four indices of a walk, with a leaf at level 1. -/
theorem test_walk_example :
    let entry := fun (a e : Nat) => cellsAt a (leBytes 8 e)
    let m := canon (entry 0x100000 0x200003 ++ entry (0x200000 + 0x240) 0x300003 ++ entry (0x300000 + 0xD10) 0x80200005)
    let s := { State.reset with mem := m }
    walkFrom s 0 0x001234567890 [(39, 11), (30, 9), (21, 9), (16, 5)] 0x100000 = some (0x80200000, 21, 0x80200005) ∧
    0x80200000 + 0x001234567890 % 2 ^ 21 = 0x80367890 := by decide +kernel

/-- 20's example: a remote window of a peer. -/
theorem test_remote_window_example :
    let va : DWord := 0x000E400000001000
    (ownerOf va, offOf va, fld (offOf va) 45 4, fld (offOf va) 0 45) = (3, 0x2400000001000, 2, 0x1000) := by decide +kernel

/-- 14's example: two of eight box elements lie inside the tensor. -/
theorem test_tensor_example :
    let t : Tensor := ⟨0x10000, 0x400, 2, 2, 0, [], [4, 40], [10, 6], [4, 2]⟩
    let ms := tensorMoves t false .core fun i => if i = 0 then 8 else 5
    ms.length = 8 ∧ (ms.filterMap fun m => m.src.map fun l => (l.addr, m.dst.addr)) = [(0x10000 + 232, 0x400), (0x10000 + 236, 0x404)] ∧
    (ms.filter fun m => m.src.isNone).all (fun m => m.const == [0, 0, 0, 0]) = true := by decide +kernel

/-- 04 R110: a module with an undefined or a reserved opcode is refused, and its instruction's index is the answer. -/
theorem test_abail_refused : (match Sys2Proof.Machine.translate true ⟨0, 0, [(0x06040406, 0), (0xE0, 0)], [], 0, [], []⟩ with
    | .error i => i == 1
    | .ok _ => false) && (Sys2Proof.Machine.translate true ⟨0, 0, [(0x06040406, 0)], [], 0, [], []⟩).toOption.isSome = true := by decide +kernel

/-- 13's example of balancing: 17 of core 31's 40 entries go to core 61, and none to its other neighbours. -/
theorem test_balance_example :
    let l : Launch := ⟨5, 0, 1, plainRecord, 0, .admitted, [0], [(0, 3)], [0], [1], 0, false, [], false, 0, none, (0, 0), [], 0⟩
    let c : Core := { Core.reset 0 31 0 with taskq := List.replicate 40 ⟨0, 0, 3, none⟩ }
    let b : Block := { Block.vacant with key := ⟨5, 0, 0⟩, st := .resident, core := 61 }
    let s : State := { State.reset with core := c, launches := [l], blocks := [b] }
    let r := [(5, 61), (20, 1), (33, 30), (40, 32)].foldl (balanceOne 0 31 8) (40, s)
    r.1 = 23 ∧ (coreOf 0 31 r.2).taskq.length = 23 ∧ (coreOf 0 61 r.2).coming.length = 17 := by decide +kernel

/-- 17's example of a barrier that a gang leaves. -/
theorem test_barrier_example :
    let a := [0, 1, 2, 3].foldl (fun b g => b.arrive g 4 true 5) Barrier.reset
    let b := a.leave 3 6
    let c := [0, 1].foldl (fun b g => b.arrive g 4 true 5) b
    let d := c.arrive 2 4 true 9
    (a.ph, a.cnt, a.arr, a.lastm) = (1, 0, 0, 0xF) ∧ (b.ph, b.dec) = (1, 1) ∧ (c.ph, c.cnt, c.arr, c.need) = (1, 4, 2, 3) ∧ (d.ph, d.cnt, d.arr, d.dec, d.fin) = (2, 0, 0, 1, 9) := by
  decide +kernel

/-- 01's example: 3 + 5 bridges between two dies, 2 + 1 to a home. -/
theorem test_distance_example : meshDist (0, 1) (3, 6) = 8 ∧ meshDist (0, 1) (2, 2) = 3 := by decide +kernel

/-- 05's example: a legal BALCFG, and one whose interval is too short. -/
theorem test_balcfg_example : csrAllowed 0x042 0x00100800 = some 0x00100800 ∧ csrAllowed 0x042 0x00000080 = none := by decide +kernel

/-- 12's example: of three transactions, the one of lane 2 loses to lane 0's with cause 3. -/
theorem test_transaction_example :
    let lane := fun (l k : Nat) (v : Byte) => (⟨l, 0, [k / 128], [k / 128], [(k, v)], [], none⟩ : TxnLane)
    txnLosers [lane 0 0x1000 2, lane 1 0x2000 1, lane 2 0x1000 2] = [2] ∧ abortCode 3 0 1 false = 0x00010003 := by decide +kernel

/-- 04's example through memory: a header is passed, and the ADD behind it is run. -/
theorem test_step_runs_add :
    let t := stepped (State.reset.withFetchWord 32 0x06040406)
    rdV (stepped ({ lanes 4 [3] (lanes 6 [4] (State.reset.withFetchWord 32 0x06040406)) with frag := 0 })) 4 0 = 7 ∧ t.gang.live = true := by decide +kernel

/-- 04 R94: a word that does not decode traps, and with no handler the block is killed. -/
theorem test_step_illegal :
    let s := modGang (fun g => { g with trapvec := 0 }) (State.reset.withFetchWord 32 0x01000001)
    (stepped s).gang.trapcause = 3 := by decide +kernel


/-! For every statement with hypotheses, states and operands that meet them, clause by clause, at ends of their ranges. -/

/-- Every request may issue where its instruction stands. -/
def issues (l : List Req) : Bool := l.all fun q => mayIssue q (stand q.maj)

/-- The gang of `stand` with lane 0 alone. -/
def lone (maj : Nat) : State := only 1 (stand maj)

/-- Team scratch of 1 MiB. -/
def withTeam (s : State) : State := modDie (fun d => { d with tsize := 2 ^ 20 }) s

/-- The gang of `stand` with a pending tag of V255. -/
def tagging (maj : Nat) : State := modGang (fun g => { g with tags := [⟨.v 255, 0, 0xFFFFFFFF, 1 + (stand maj).clk, false⟩] }) (stand maj)

/-- The gang of `stand` on a core whose up lanes are all taken in this clk. -/
def crowded (maj : Nat) : State := modCore (fun c => { c with up := (List.range 4).map fun l => (l, (stand maj).clk) }) (stand maj)

theorem witness_ScoreboardAdmits :
    (let q : Req := { req1 0x06 with vr := [255, 0], vw := [4] }
    (planOf ⟨[1, 40], 2, 60⟩ (crowded 6)).isSome && (crowded 6).core.up.Nodup && (crowded 6).core.down.Nodup &&
    (stand 6).core.up = [] && (stand 6).core.down = [] && mayIssue q (stand 6) = true && (stand 6).gang.redo = none && (planOf ⟨[0, 0], 1, 4⟩ (stand 6)).isSome &&
    preCheck q (tagging 6) = none && (tagging 6).gang.tags.any (fun t => t.reg = .v 255 && decide ((tagging 6).clk < t.clk)) &&
    preCheck q (crowded 6) = none && !tagged { q with pr := [guardPred (crowded 6) none] } (crowded 6) &&
    !kittyHolds q (execMask (crowded 6) none) (crowded 6) && (planOf ⟨[0, 0], 1, 4⟩ (crowded 6)).isNone) = true := by decide +kernel

theorem witness_MovesComplete :
    issues [req1 0x01, { req1 0x02 with vr := [255], vw := [255] }, { req1 0x03 with vw := [0] }, { req1 0x04 with vr := [255], vw := [255] }, { reqL 0x05 with vw := [255] },
      { req1 0x3B with sr := [63], vw := [255] }, { req1 0x37 with pr := [7], vw := [255] }, { req1 0x74 with vw := [0] }] = true := by decide +kernel

theorem witness_LaneArithmeticCompletes :
    issues ([0x06, 0x08, 0x0C, 0x13, 0x14, 0x15, 0x16].map (fun m => { req1 m with vr := [255, 0], vw := [255] }) ++
      [0x07, 0x09, 0x10, 0x17, 0x18, 0x19].map fun m => { req1 m with vr := [255], vw := [0] }) = true := by decide +kernel

theorem witness_ShiftsAndBitsComplete :
    issues ([0x1A, 0x1B, 0x1C, 0x20].map (fun m => { req1 m with vr := [255, 0], vw := [255] }) ++
      [0x1D, 0x1E, 0x1F, 0x21, 0x22, 0x23, 0x2C, 0x2D].map fun m => { req1 m with vr := [255], vw := [0] }) = true ∧
    1 ≤ (1 : BitVec 8).toNat ∧ (32 : BitVec 8).toNat ≤ 32 := by decide +kernel

theorem witness_PackedAndMultiplyComplete :
    issues ([0x0A, 0x0B, 0x11, 0x12, 0x0D].map (fun m => { reqX m g0 with vr := [255, 0], vw := [255] }) ++
      [{ reqX 0x0E g0 with vr := [0, 1, 255], vw := [255] }, { reqX 0x0F g0 with vr := [0, 1] ++ pair 254, vw := pair 254 }]) = true := by decide +kernel

theorem witness_DivisionAndFieldsComplete :
    issues ([0x2A, 0x2B, 0x25, 0x26].map (fun m => { reqX m g0 with vr := [255, 0], vw := [255] }) ++
      [{ reqX 0x24 g0 with vr := [0], vw := [255] }, { reqX 0x27 g0 with pr := [7], vr := [0, 255], vw := [1] }, { reqX 0x2E g0 with vr := [0, 1, 255], vw := [2] },
        { reqX 0x2F g0 with vr := pair 0 ++ pair 254, vw := pair 254 }, { reqX 0x30 g0 with vr := [0, 1, 255], vw := [2] }]) = true ∧
    (1 ≤ (1 : BitVec 8).toNat ∧ (31 : BitVec 8).toNat + (1 : BitVec 8).toNat ≤ 32) ∧ (0 : BitVec 8).toNat + (32 : BitVec 8).toNat ≤ 32 := by decide +kernel

theorem witness_PredicatesComplete :
    issues ([0x28, 0x29, 0x3F].map (fun m => { reqX m g0 with vr := [255], pr := [7], pw := [0] }) ++
      [0x32, 0x33, 0x34, 0x35, 0x36].map (fun m => { req1 m with pr := [0, 7], pw := [7] }) ++
      [{ reqX 0x3F g0 with sr := pair 0 ++ pair 62, pr := [0], pw := [7] }, { fReq (reqX 0x49 g0) .f64 [254, 0] [] with pr := [7], pw := [1] },
        { fReq (reqX 0x4A g0) .f16x2 [255] [] with pw := [7] }]) = true := by decide +kernel

theorem witness_ScalarsComplete :
    issues ([{ reqX 0x38 g0 with sr := [0, 63], sw := [63] }, { reqX 0x38 g0 with sr := pair 62 ++ pair 0, sw := pair 62 }, { reqL 0x39 with sr := [63], sw := [0] },
      { reqL 0x39 with sr := pair 62, sw := pair 0 }, { reqL 0x39 with sw := [63] }, { req1 0x3A with sw := [63] }, { reqX 0x3C g0 with vr := [255], sr := [63], sw := [0] },
      { reqX 0x3D g0 with vw := [255], sr := [0, 63] }, { req1 0x3E with pw := [7], sw := [63] }, { req1 0x3E with pw := [0] }]) = true ∧
    (SaluOp.mov ≠ .add64 ∧ SaluOp.mov ≠ .sub64) ∧ (SaluOp.add ≠ .add64 ∧ SaluOp.add ≠ .sub64 ∧ SaluOp.add ≠ .mov) := by decide +kernel

theorem witness_CrossLaneCompletes :
    issues [shflReq 255 255 0 .xor 31 true .w32 g0, shflReq 0 255 0 .idx 31 false .w8 g0, rdlaneReq 63 255 63 0 true g0, { reqX 0x71 g0 with pr := [7], sw := [63] }, { reqX 0x71 g0 with pr := [0], pw := [7] },
      { reqX 0x72 g0 with vr := [255], vw := [0] }, { reqX 0x72 g0 with vr := [255], sw := pair 62 }, { reqX 0x73 g0 with vr := [0], vw := [255] },
      { reqX 0x75 g0 with vr := pair 254, vw := [0] }] = true ∧ VoteOp.uni ≠ .ballot ∧ (∃ o, redKind .add = .int o) ∧ (∃ o, redKind .fmax = .float o) :=
  ⟨by decide +kernel, by decide, ⟨_, rfl⟩, ⟨_, rfl⟩⟩

/-- The index forms: with lane 0 alone its lane is best. -/
theorem witness_CrossLaneCompletes_index : ∃ before, redKind .minidxU = .index before ∧ lane (execMask (lone 0x72) (some g0)) 0 = true ∧
    (∀ l, lane (execMask (lone 0x72) (some g0)) l = true → before (rdV (lone 0x72) 8 l) (rdV (lone 0x72) 8 0) = false) ∧
    ∀ l, lane (execMask (lone 0x72) (some g0)) l = true → l < 0 → before (rdV (lone 0x72) 8 0) (rdV (lone 0x72) 8 l) = true := by
  have h : execMask (lone 0x72) (some g0) = 1 := by decide +kernel
  have small : ∀ l, l < 32 → lane (1 : Word) l = true → l = 0 := by decide
  have z : ∀ l, lane (1 : Word) l = true → l = 0 := fun l hl =>
    small l (Nat.lt_of_not_le fun hn => by simp [lane, BitVec.getLsbD_of_ge _ _ hn] at hl) hl
  refine ⟨_, rfl, by decide +kernel, ?_, fun l _ hl => absurd hl (Nat.not_lt_zero l)⟩
  intro l hl
  rw [h] at hl
  rw [z l hl]
  decide +kernel

theorem witness_FloatArithmeticCompletes :
    issues ([0x40, 0x41, 0x42].map (fun m => fReq (req1 m) .f32 [255, 0] [255]) ++
      [.f32, .f16x2, .bf16x2].flatMap (fun ty => [fReq (reqX 0x43 g0) ty [0, 1, 255] [255], fReq (reqX 0x44 g0) ty [0, 255] [1], fReq (reqX 0x45 g0) ty [0, 255] [1],
        fReq (reqX 0x46 g0) ty [0, 255] [1], fReq (reqX 0x47 g0) ty [0, 255] [1], fReq (reqX 0x48 g0) ty [0, 255] [1], fReq (reqX 0x4B g0) ty [255] [1]]) ++
      [fReq (reqX 0x48 g0) .f64 [254] [0], fReq (reqX 0x4B g0) .f64 [254] [0], fReq (reqX 0x4C g0) .f64 [0, 2, 254] [254]]) = true := by decide +kernel

/-- Exact values, NaNs, infinities of both signs and zeros of each format. -/
theorem witness_FloatArithmeticCompletes_values :
    ([Fmt.fp32, Fmt.fp16, Fmt.bf16].all (fun (f : Fmt) => [0, 1, f.sign true + f.maxBits].all (fun x => match f.unpack true x with
        | .num .. => true
        | _ => false) && (f.unpack false (f.nan - 1)).isNan && (f.unpack false 0).isZero && (f.unpack false (f.emax * 2 ^ f.m)).isInf &&
      f.unpack false (f.emax * 2 ^ f.m) = .inf false && f.unpack false (f.sign true + f.emax * 2 ^ f.m) = .inf true) &&
    Fmt.fp64.unpack false (2 ^ 62) = .num false (2 ^ 52) (-51)) = true ∧ false ≠ (true != false) := by decide +kernel

theorem witness_ConversionsComplete :
    issues ([cvtReq g0 .f32 .e4m3 5 4, cvtReq g0 .f64 .f32 254 0, cvtReq g0 .s8 .f64 0 254, { reqX 0x51 g0 with vr := [0, 1, 2, 255], vw := [255] },
      { reqX 0x52 g0 with vr := [0, 255], vw := pair 254 }, { reqX 0x53 g0 with vr := [0, 255], vw := [255] }, { reqX 0x54 g0 with vr := [0], vw := [255] }]) = true ∧
    (stand 0x53).block.array = true ∧ bookLoading (stand 0x53) 3 = false ∧ (stand 0x53).core.marks = [] := by decide +kernel

/-- A number, a NaN and an infinity of a source of each kind, and a result below, within and above an integer's range. -/
theorem witness_ConversionsComplete_values :
    (CvtTy.isFloat .e5m2 && CvtTy.isFloat .f32 && !CvtTy.isFloat .s8) = true ∧
    (cvtFmt .e5m2).unpack false 0x3C = .num false 4 (-2) ∧ (cvtFmt .e5m2).unpack false 0x7F = .nan false ∧ (cvtFmt .f32).unpack false 0xFF800000 = .inf true ∧
    (roundAt .ne true 129 0 0).1 = 129 ∧ (roundAt .ne true 257 (-1) 0).1 = 128 ∧ (roundAt .ne false 255 (-1) 0).1 = 128 ∧ (roundAt .ne false 127 0 0).1 = 127 := by
  decide +kernel

theorem witness_SpecialFunctionsComplete :
    issues ([0x58, 0x59, 0x5A, 0x5B, 0x5C, 0x5D, 0x5E, 0x60, 0x61].map (fun m => fReq (req1 m) .f32 [255] [0]) ++ [fReq (reqX 0x5F g0) .f32 [0, 255] [255]]) = true := by
  decide +kernel

/-- Values that a result between two neighbours, one exactly given, one above the top and one tiny come from; and of the functions with a bound. -/
theorem witness_SpecialFunctionsComplete_values :
    ([(Fmt.f8e4, 1, 0), (.f8e4, 17, 0), (.f8e5, 2 ^ 20, 0), (.fp16, 3, -26)].all (fun c => decide (0 < c.2.1)) &&
    (17 * 2 ^ (0 : Nat) % 2 = 1 && ilog 17 0 = 4) && decide (0 < Val.cmp (.num false 4 18) (.num false Fmt.f8e5.top.1 Fmt.f8e5.top.2)) &&
    pow2Of 3 0 = none && pow2Of 2 0 = some 1 && decide (ilog (2 ^ 200 / 3) (-200) < 127) &&
    decide (Val.cmp (.num false 1 (-1)) (.num false 128 0) < 0) && decide (0 ≤ Val.cmp (.num false 1 (-1)) (.num true 150 0)) && (roundAt .tz false 1 (-1) 0).2 &&
    decide (0 ≤ Val.cmp (.num false 7 (-3)) (.num false 3 (-2))) && decide (Val.cmp (.num false 7 (-3)) (.num false 3 (-1)) ≤ 0) && decide (0 < (fxLog2 7 (-3)).natAbs) &&
    decide (ilog (fxLog2 7 (-3)).natAbs (-256) < 0) && !decide (Val.cmp (.num false 3 0) (.num false 3 (-1)) ≤ 0) && decide (0 < (fxLog2 3 0).natAbs) && decide (ilog (fxLog2 3 0).natAbs (-256) < 127) &&
    (let r := mod2 1 (-2); decide (r % fxOne ≠ 0) && decide (2 * r % fxOne ≠ 0) && decide (0 < (fxSinTurn r).2) && decide (ilog (fxSinTurn r).2 (-256) < 127)) &&
    decide (Val.cmp (.num false 1 0) (.num false 9 0) < 0) && decide (0 < (fxOne - fxExpNeg (2 * fxOf 1 0)) * fxOne / (fxOne + fxExpNeg (2 * fxOf 1 0))) &&
    decide (Val.cmp (.num true 1 0) (.num false 17 0) < 0) && decide (0 < Val.cmp (.num true 1 0) (.num true 104 0)) && decide (0 < fxExpNeg (fxOf 1 0) * fxOne / (fxOne + fxExpNeg (fxOf 1 0)))) = true := by
  decide +kernel

/-- A lane's element of `n` bytes at an address. -/
def el (a : Int) (n : Nat) : Elem := ⟨0, a, n, .lane 252 0 n false, List.replicate n 0⟩

theorem witness_LoadsComplete :
    issues [formReq { reqX 0x80 g0 with vw := bytesRegs 252 16 } .glob 62 255 true, formReq { reqX 0x80 g0 with vw := [0] } .priv 0 255 false,
      { reqX 0x82 g0 with vr := [255], vw := bytesRegs 252 16 }, { reqX 0x84 g0 with sr := uniRegs .glob 62, vw := regs 248 8 },
      formReq { reqX 0x85 g0 with vr := [255], vw := [255] } .glob 62 0 true, { reqX 0x87 g0 with sr := uniRegs .ws 63, sw := regs 62 2 }] = true ∧
    loadReady true (stand 0x80) .glob 16 [el 0x1000 16] = true ∧ loadReady true (stand 0x82) .core 16 [el 98288 16] = true ∧
    loadReady true (withTeam (stand 0x82)) .ts 16 [el (2 ^ 20 - 16) 16] = true ∧ loadReady true (modDie (fun d => { d with wsOrigin := 65536 }) { stand 0x82 with clk := 131072 }) .ws 1 [el 0x7FFFFFF 1] = true ∧
    loadReady true (stand 0x84) .glob 4 [el 0 4] = true ∧ loadReady true (stand 0x85) .core 2 [el 0 2] = true ∧ loadReady false (stand 0x87) .glob 8 [el 0 8] = true ∧
    execMask (stand 0x87) (some g0) ≠ 0 ∧ (stand 0x80).core.l1 = [] ∧
    ((nearOf (stand 0x80) .glob .load [el 0x1000 16]).all fun x => x.2.all fun k => !bitmapByte k) = true := by decide +kernel

theorem witness_StoresComplete :
    issues [formReq { reqX 0x81 g0 with vr := bytesRegs 252 16 } .glob 62 255 true, { reqX 0x83 g0 with vr := 255 :: bytesRegs 252 16 },
      formReq { reqX 0x86 g0 with vr := [255] } .priv 0 0 false, { reqX 0x88 g0 with sr := uniRegs .glob 62 ++ regs 0 2 }] = true ∧
    storeReady (stand 0x81) .glob 16 [el 0x1000 16] = true ∧ storeReady (stand 0x83) .core 16 [el 98288 16] = true ∧ storeReady (withTeam (stand 0x83)) .ts 16 [el (2 ^ 20 - 16) 16] = true ∧
    storeReady (stand 0x86) .core 2 [el 2 2] = true ∧ storeReady (stand 0x88) .glob 8 [el 8 8] = true ∧ execMask (stand 0x88) (some g0) ≠ 0 := by decide +kernel

/-- Where no home and no quarantine buffer holds anything, every time is small. -/
theorem small_times (s : State) (hl : s.core.lclk.toNat < 2 ^ 63) (hh : s.homes = []) (hw : s.die.tsw = []) (hr : s.die.tsr = [])
    (hm : ∀ c ∈ allCores s, c.muck = []) : timesSmall s := by
  have h : ∀ n, homeOf n s = Home.reset n := fun n => by simp [homeOf, hh]
  refine ⟨hl, fun l => ⟨?_, ?_⟩, fun x => ⟨?_, ?_⟩, fun ts n w hx => ?_⟩
  · simp [wtOf, h, Home.reset, look]
  · simp [rlOf, h, Home.reset]
  · simp [hw, look]
  · simp [hr, look]
  · obtain ⟨c, hc, hy⟩ := List.mem_flatMap.1 hx
    simp [hm c hc] at hy

/-- A store of the gang of `stand` is held later than the core's logical time. -/
theorem witness_StoresComplete_times : timesSmall (stand 0x81) :=
  small_times _ (by decide +kernel) (by decide +kernel) (by decide +kernel) (by decide +kernel) (by decide +kernel)

theorem witness_AtomicsComplete :
    issues [{ reqX 0x89 g0 with vr := [255] ++ regs 252 4, vw := pair 254, sr := pair 62 }, { reqX 0x8A g0 with vr := regs 255 1, sr := pair 0 },
      { reqX 0x8B g0 with vr := 255 :: regs 0 1, vw := [0] }, { reqX 0x8B g0 with vr := 255 :: regs 0 1 }] = true ∧
    (let s := stand 0x89; atomReady s .glob .ld (atomBytes .cas64) [el 0x1000 8] (atomRun s .glob .cas64 .mode 252 [el 0x1000 8]).cells = true ∧ inTxn s = false) ∧
    (let s := stand 0x8A; atomReady s .glob .st (atomBytes .inc) [el 0 4] (atomRun s .glob .inc .mode 255 [el 0 4]).cells = true) ∧
    (let s := stand 0x8B; atomReady s .core .ld (atomBytes .fadd) [el 98300 4] (atomRun s .core .fadd .rne 0 [el 98300 4]).cells = true) ∧
    (let s := withTeam (stand 0x8B); atomReady s .ts .st (atomBytes .add) [el 0 4] (atomRun s .ts .add .mode 0 [el 0 4]).cells = true) := by decide +kernel

theorem witness_WaitvCompletes :
    let q := { reqX 0x8C g0 with sr := uniRegs .glob 62 ++ [63], sw := [0] }
    let e : Elem := ⟨0, 0, 4, .none, []⟩
    let s := stand 0x8C
    mayIssue q s = true ∧ execMask s (some g0) ≠ 0 ∧ inTxn s = false ∧ (cur s).wait = .none ∧ scopeLegal s .launch 0 = true ∧ accessTrap s .glob true false 4 [e] = none ∧
    fenced s = false ∧ folding s = false ∧ s.gang.rel = .none ∧ allHere s .glob .load [e] = true ∧
    (let t := withTeam s
     accessTrap t .ts true false 4 [e] = none ∧ mstPending t .ts 0 4 = false ∧ loadWaits t true [(0, 4)] = false ∧ t.die.tsPoison.contains 0 = false) ∧
    (accessTrap s .core true false 4 [e] = none ∧ retainStep false s = none ∧ mstPending s .core 0 4 = false) ∧
    condHolds .eq (0 : Nat) 0 = true ∧ condHolds .ne (0 : Nat) 0 = false := by decide +kernel


/-- An open transaction of lane 0, with these writes. -/
def txn0 (buf : List (Nat × Byte)) : Txn := ⟨20, 3, [⟨0, 0, [], [], buf, buf.map fun x => (x.1, BitVec.ofNat 64 x.1), none⟩]⟩

/-- The gang of `stand` with that transaction open. -/
def inTransaction (maj : Nat) (buf : List (Nat × Byte)) : State := modGang (fun g => { g with txn := some (txn0 buf) }) (stand maj)

theorem witness_TransactionsComplete :
    ((let s := stand 0x8D; mayIssue { req1 0x8D with vw := [255], pw := [7] } s = true && execMask s none ≠ 0 && inTxn s = false && oneFragment s = true && fenced s = false && folding s = false) &&
    (let s := inTransaction 0x8F []; mayIssue (txnReq s (req1 0x8F)) s = true && execMask s none ≠ 0 && s.gang.txn = some (txn0 []) && folding s = false) &&
    (let s := inTransaction 0x8E []; mayIssue { req1 0x8E with vw := [20], pw := [3] } s = true && execMask s none ≠ 0 && s.gang.txn = some (txn0 []) && tendReady (txn0 []) s = true) &&
    (let b := [(0x1000, (1 : Byte))]; let s := inTransaction 0x8E b; s.gang.txn = some (txn0 b) && tendReady (txn0 b) s = true)) = true := by decide +kernel

theorem witness_CacheInstructionsComplete :
    ((let s := stand 0x90; mayIssue { reqX 0x90 g0 with vr := [255], sr := pair 62 } s = true && fenced s = false && s.core.smplcfg.getLsbD 5 = false) &&
    (let s := lone 0x91; let es : List Elem := [⟨0, 0, 1, .none, []⟩]
     mayIssue { reqX 0x91 g0 with vr := [255], sr := pair 62 } s = true && (lanesOf (execMask s (some g0))).map (fun l => (l, (globalAddr s 62 255 0 0 true l).toNat)) = [(0, 0)] &&
     inTxn s = false && accessTrap s .glob false false 1 es = none && full s .st = false && fenced s = false && isPrimary s = true &&
     (es.flatMap fun e => match e.seek s .glob .store with | .at' ks => ks | _ => []).length = 1) &&
    (let s := stand 0x92; mayIssue (req1 0x92) s = true && execMask s none ≠ 0 && inTxn s = false && fenced s = false && folding s = false && s.gang.rel = .none) &&
    (let s := stand 0x93; mayIssue (req1 0x93) s = true && execMask s none ≠ 0 && inTxn s = false && fenced s = false)) = true := by decide +kernel

/-- An operand map's value. -/
def mapBits (base stride rows cols fmt space : Nat) (twin : Bool) : BitVec 128 :=
  BitVec.ofNat 128 (base + stride * 2 ^ 32 + rows * 2 ^ 52 + cols * 2 ^ 64 + fmt * 2 ^ 74 + space * 2 ^ 79 + bnat twin * 2 ^ 81)

/-- The gang of `lone` with an operand map in OM15. -/
def mapped (maj : Nat) (v : BitVec 128) : State := modCore (fun c => { c with om := put c.om 15 v }) (lone maj)

/-- The gang's block as a twin block, on a core whose partner stands. -/
def twinned (s : State) : State := modBlock (fun b => { b with twin := true }) s

theorem witness_MatrixStateCompletes_twin :
    ([(Twin.kj, mapBits 0 64 32 16 0 0 true), (.nj, mapBits 0 64 16 32 0 0 true)].all fun c => let s := twinned (mapped 0xA0 c.2); let p := omOf s 15
      mayIssue (reqX 0xA0 g0) s = true && twinAbsent s true = false && mapTrap s 15 (weightShape p c.1 && (p.fmt == 5 || (0 : CbReg) == 0)) false p = none &&
      spansReady s p.space p.spans = true && (planOf ⟨List.replicate 8 (spaceDelay p.space), 0, 0⟩ s).isSome) = true := by decide +kernel

theorem witness_MatrixStateCompletes :
    ((let v := mapBits 0xFFFFFFF8 0xFFFF8 64 512 10 2 true
     mayIssue { reqX 0xA9 g0 with sr := regs 60 4 } (stand 0xA9) = true && execMask (stand 0xA9) (some g0) ≠ 0 && (stand 0xA9).block.array = true &&
     v.extractLsb' 59 5 = 0 && v.extractLsb' 82 14 = 0 && (v.extractLsb' 74 5).toNat ≤ 10 && (v.extractLsb' 79 2).toNat ≠ 3 && (v.extractLsb' 52 7).toNat ≤ 64 &&
     (v.extractLsb' 64 10).toNat ≤ 512) &&
    (let s := mapped 0xA0 (mapBits (98304 - 512) 32 16 16 0 0 false); let p := omOf s 15
     mayIssue (reqX 0xA0 g0) s = true && (lanesOf (execMask s (some g0))).length = 1 && s.block.array = true && twinAbsent s false = false &&
     mapTrap s 15 (weightShape p .single && (p.fmt == 5 || (0 : CbReg) == 0)) false p = none && s.core.shadowReady = true && spansReady s p.space p.spans = true && s.core.marks = [] &&
     (planOf ⟨List.replicate 4 (spaceDelay p.space), 0, 0⟩ s).isSome) &&
    (let s := mapped 0xA0 (mapBits 0 64 32 16 0 0 true); let p := omOf s 15; twinAbsent s true = false && mapTrap s 15 (weightShape p .kj) false p = none) &&
    (let s := mapped 0xA0 (mapBits 0 64 16 32 0 0 true); let p := omOf s 15; mapTrap s 15 (weightShape p .nj) false p = none) &&
    (let s := lone 0xA1; mayIssue (req1 0xA1) s = true && (lanesOf (execMask s none)).length = 1 && s.block.array = true && s.core.shadowReady = true &&
     (∀ t ∈ s.core.streams, t.last + (if t.twin = 1 then 32 else 16) ≤ s.clk)) &&
    (let s := scal 63 98272 (lone 0xA8); let n := mcblSpace .core
     mayIssue { reqX 0xA8 g0 with sr := [63] } s = true && (lanesOf (execMask s (some g0))).length = 1 && (rdS s 63).toNat % 32 = 0 && (rdS s 63).toNat + 32 ≤ (mapLimit s n).1 &&
     (∀ t ∈ s.core.streams, t.pl.fmt = 5 → t.pl.sel = 3 → t.last + (if t.twin = 1 then 32 else 16) ≤ s.clk) && spansReady s n [(98272, 32)] = true && (planOf ⟨[spaceDelay n], 0, 0⟩ s).isSome) &&
    (let s := stand 0xAA; mayIssue { req1 0xAA with sw := [63] } s = true && execMask s none ≠ 0 && s.core.shadowReady = true && s.core.cbWait = [] &&
     (∀ t ∈ s.core.streams, t.last < s.clk))) = true := by decide +kernel

theorem witness_StreamsStart :
    ((let s := mapped 0xA2 (mapBits 96256 32 64 16 0 0 false); let p := omOf s 15; let live := s.core.live
     mayIssue (reqX 0xA2 g0) s = true && (lanesOf (execMask s (some g0))).length = 1 && s.block.array = true && twinAbsent s false = false &&
     mapTrap s 15 (actShape p .single && (pairOk live.fmt.toNat p.fmt && live.fmt != 8) && decide (60 + (p.rows + 15) / 16 - 1 ≤ 63) && live.twin == 0) false p = none &&
     (∀ t ∈ s.core.streams, t.last < s.clk) && (live.fmt = 5 → bookLoading s live.sel = false) && arrayAsleep s true false (p.space == 0) = none && spansReady s p.space p.spans = true &&
     !tileAwaits s 60 false && !streamMarked s 15 .single 60 p.rows false && (planOf ⟨(List.range ((p.rows + rowsPerCrossing p.fmt .single - 1) / rowsPerCrossing p.fmt .single)).map (· * rowsPerCrossing p.fmt .single), 0, 0⟩ s).isSome) &&
    (let s := modCore (fun c => { c with live := { c.live with fmt := 8 } }) (mapped 0xA3 (mapBits 0 64 1 16 8 0 false)); let p := omOf s 15
     mayIssue (reqX 0xA3 g0) s = true && mapTrap s 15 (actShape p .single && (s.core.live.fmt == 8 && p.fmt == 8) && decide (0 + (p.rows + 15) / 16 - 1 ≤ 63) && s.core.live.twin == 0) false p = none &&
     spansReady s p.space p.spans = true && (planOf ⟨[0], 0, 0⟩ s).isSome)) = true := by decide +kernel

theorem witness_TilesComplete :
    ((mayIssue (req1 0xA4) (lone 0xA4) = true && (lanesOf (execMask (lone 0xA4) none)).length = 1 && (0 : AccReg).toNat + (63 : BitVec 6).toNat ≤ 63 &&
     tilesReady (lone 0xA4) (List.range 64) false = true) &&
    (mayIssue { reqX 0xA5 g0 with vw := regs 248 8 } (stand 0xA5) = true && tilesReady (stand 0xA5) [63] true = true) &&
    (mayIssue { reqX 0xA6 g0 with vr := regs 248 8 } (stand 0xA6) = true && tilesReady (stand 0xA6) [0] false = true && (planOf ⟨List.replicate 8 0, 0, 0⟩ (stand 0xA6)).isSome)) = true := by decide +kernel

theorem witness_MstCompletes :
    (let s := mapped 0xA7 (mapBits (98304 - 1024) 64 16 16 9 0 false)
    let p := omOf s 15
    mayIssue (reqX 0xA7 g0) s = true && (lanesOf (execMask s (some g0))).length = 1 && tilesReady s [63] false = true && s.gang.rel = .none &&
    mapTrap s 15 (p.rows == 16 && p.cols == 16 && !p.twin && (mstType p.fmt).isSome) true p = none && full s .st = false && retainStep false s = none && folding s = false && (planOf ⟨[], 8, 2⟩ s).isSome &&
    (let t := withTeam (mapped 0xA7 (mapBits 0 64 16 16 9 1 false)); let p := omOf t 15
     mapTrap t 15 (p.rows == 16 && p.cols == 16 && !p.twin && (mstType p.fmt).isSome) true p = none && folding t = false) &&
    s.core.marks = [] && (followerOf s).marks = []) = true := by decide +kernel

theorem witness_CopiesEnter :
    ((let s := scal 63 4 (stand 0xB0)
     mayIssue { reqX 0xB0 g0 with sr := spaceRegs .core 62 ++ spaceRegs .glob 60 ++ [63] } s = true && execMask s (some g0) ≠ 0 && inTxn s = false &&
     copyTrap s false 4 ((rdS s 63).toNat % 4 == 0) false [⟨.core, spaceAddr s .core 62, 4, 0, true⟩, ⟨.glob, spaceAddr s .glob 60, 4, 0, false⟩] = none &&
     copyReady s .cp (streamFor s 3) [⟨some ⟨.glob, 0⟩, [], ⟨.core, 0⟩, 4⟩] = true) &&
    (let s := { stand 0xB1 with mem := canon ((stand 0xB1).mem ++ cellsAt 0x1000 ([0, 0, 1, 0, 0, 0, 0, 0, 0, 4, 0, 0, 1, 2] ++ List.replicate 50 0 ++ [4, 0, 0, 0, 0, 0, 0, 0, 8, 0, 0, 0, 4])) }
     let s := scal 62 0x1000 s
     mayIssue { reqX 0xB1 g0 with sr := spaceRegs .glob 62 ++ regs 0 8 } s = true && s.gang.redo = none && s.gang.got = [] &&
     copyTrap s false 64 true true [⟨.glob, spaceAddr s .glob 62, 192, 0, false⟩] = none &&
     (match wholeLoad 0x1000 192 s with
     | .bytes bs t =>
       let d := tensorOf bs
       tensorBad d = none && copyTrap s false 1 true true [⟨.core, d.sbase, 2 ^ d.esz * tensorCount d, 0, true⟩] = none &&
       copyReady t .tl (streamFor s 0) (tensorMoves d false .core fun _ => 0) = true
     | _ => false)) &&
    (let s := modBlock (fun b => { b with scratch := canon (cellsAt 0x1000 ([0, 0, 1, 0, 0, 0, 0, 0, 0, 4, 0, 0, 1, 2] ++ List.replicate 50 0 ++ [4, 0, 0, 0, 0, 0, 0, 0, 8, 0, 0, 0, 4])) }) (stand 0xB1)
     tensorBad (tensorOf (readBytes s.block.scratch 0x1000 192)) = none && retainStep false s = none) &&
    (let s := lone 0xB2; let rs : List CopyRange := [⟨.glob, 0, 1024, 0, false⟩, ⟨.core, 0, 1024, 0, true⟩]
     mayIssue { reqX 0xB2 g0 with vr := [255], sr := 63 :: pair 60 } s = true && copyTrap s true 4 true false rs = none &&
     copyReady s .cp (streamFor s 0) [⟨some ⟨.glob, 0⟩, [], ⟨.core, 0⟩, 1024⟩] = true) &&
    (let s := lone 0xB3; mayIssue { reqX 0xB3 g0 with vr := [255], sr := 63 :: pair 60 } s = true &&
     copyTrap s true 4 true false [⟨.glob, 0, 4, 0, true⟩, ⟨.core, 0, 4, 0, false⟩] = none) &&
    (let s := scal 63 32 (scal 60 0x07FFFFE0 (stand 0xBC))
     mayIssue { reqX 0xBC g0 with sr := 60 :: pair 58 ++ [63] } s = true && (isCrew s s.gang || isPrologue s) = true && (rdS s 60).toNat % 32 = 0 && (rdS s 63).toNat % 32 = 0 &&
     copyTrap s false 1 true true [⟨.ws, 0x07FFFFE0, 32, 0, true⟩, ⟨.glob, 0, 32, 0, false⟩] = none && wsLocked s s.die.die = false && streamOf s.core 4 = [] &&
     copyReady s .cp 4 [⟨some ⟨.glob, 0⟩, [], ⟨.ws, 0x07FFFFE0⟩, 32⟩] = true)) = true := by decide +kernel

/-- Ring 15 of the gang of `stand`, of two slots of 256 bytes, with this many free. -/
def ringed (maj free : Nat) (pmask : BitVec 16) (phase : BitVec 16) : State :=
  modRing 15 (fun _ => ⟨0x1000, 1, 2, false, true, 0, 0, free, 2 - free, 0, pmask, phase :: List.replicate 15 0⟩) (stand maj)

theorem witness_RingsComplete :
    ((let s := stand 0xB4; mayIssue { reqX 0xB4 g0 with sr := [63] } s = true && ringReady s (execMask s (some g0)) 15 = true && ((ringOf s 15).valid = true → (ringOf s 15).free = (ringOf s 15).n) &&
     copyTrap s false 128 true true [⟨.core, 0, (15 + 1) * ((0 + 1) * 128), 0, true⟩] = none) &&
    ([(0 : BitVec 16), 1, 2].all fun phase => let s := ringed 0xB5 1 0 phase
     mayIssue { reqX 0xB5 g0 with sr := [63], sw := pair 62, pw := [7] } s = true && ringReady s (execMask s (some g0)) 15 = true && (ringOf s 15).valid = true && (cur s).wait = .none &&
     (nth 0 (ringOf s 15).phases (ringOf s 15).ci - (ringOf s 15).ph).toNat = phase.toNat) &&
    ([0, 2].all fun free => let s := ringed 0xB5 free 0 0
     mayIssue { reqX 0xB5 g0 with sw := pair 62, pw := [0] } s = true && ringReady s (execMask s (some g0)) 15 = true && (ringOf s 15).valid = true) &&
    (let s := ringed 0xB6 1 0 1; let g := ringOf s 15
     mayIssue (reqX 0xB6 g0) s = true && ringReady s (execMask s (some g0)) 15 = true && g.valid = true && nth 0 g.phases g.ci = g.ph + 1 && folding s = false && s.gang.rel = .none) &&
    (let s := ringed 0xB6 1 1 0; let g := ringOf s 15
     g.valid = true && (((List.range 16).map fun i => (g.ci + i) % g.n).find? fun i => g.pmask.getLsbD i) = some 0 && mayIssue (reqX 0xB6 g0) s = true) &&
    ([0, 1].all fun free => let s := scal 63 256 (ringed 0xB7 free 0 0); let g := ringOf s 15
     mayIssue { reqX 0xB7 g0 with sr := spaceRegs .glob 60 ++ [63] } s = true && ringReady s (execMask s (some g0)) 15 = true && g.valid = true && (rdS s 63).toNat ≤ g.slotBytes &&
     copyTrap s false 1 true false [⟨.glob, 0, 256, 0, false⟩, ⟨.core, g.slotAt g.pi, 256, 0, true⟩] = none && poisonTrap false s [⟨some ⟨.glob, 0⟩, [], ⟨.core, 0⟩, 256⟩] = none &&
     copyReady s .cp (streamFor s 1) [⟨some ⟨.glob, 0⟩, [], ⟨.core, g.slotAt g.pi⟩, 256⟩] = true)) = true := by decide +kernel

theorem witness_TasksComplete :
    ((let s := stand 0xB9; mayIssue { reqX 0xB9 g0 with sr := 63 :: pair 62, sw := [0] } s = true && execMask s (some g0) ≠ 0 && inTxn s = false && folding s = false && s.gang.rel = .none &&
     ¬ 64 ≤ s.core.taskq.length) &&
    64 ≤ (modCore (fun c => { c with taskq := List.replicate 64 ⟨0, 0, 0, none⟩ }) (stand 0xB9)).core.taskq.length &&
    (let s := stand 0xBA; mayIssue { reqX 0xBA g0 with sw := regs 60 4 } s = true && execMask s (some g0) ≠ 0 && folding s = false && (cur s).wait = .none && scopeLegal s .launch 0 = true)) = true := by
  decide +kernel


/-- A launch record in global memory at 0x8000: fields as offset, bytes, value. -/
def recordAt (fs : List (Nat × Nat × Nat)) (s : State) : State :=
  { s with mem := writeBytes s.mem 0x8000 (fs.foldl (fun bs f => bs.take f.1 ++ leBytes f.2.1 f.2.2 ++ bs.drop (f.1 + f.2.1)) (List.replicate 288 0)) }

/-- Context 5, bound to four dies, beside context 0. -/
def withFive (s : State) : State := { s with contexts := s.contexts ++ [⟨5, some ⟨0, [s.die.die, 3, 7, 39], [], [], []⟩, [], 9, false⟩] }

theorem witness_LaunchCompletes :
    ([(1, 1), (1, 0), (2, 1)].all fun vm =>
      let s := scal 60 0x8000 (scal 58 (BitVec.ofNat 32 vm.2) (scal 63 5 (withFive (recordAt [(0, 4, 0x4C524344), (4, 2, vm.1), (8, 1, 1), (9, 1, 1), (10, 1, 1),
        (11, 1, 1), (12, 2, 1), (24, 1, 0xFF), (25, 1, 0xFF)] (stand 0xBB)))))
      let va := rdSS s 60
      mayIssue { reqX 0xBB g0 with level := .supervisor, sr := pair 60 ++ pair 58 ++ [63], sw := pair 62 } s = true && execMask s (some g0) ≠ 0 && inTxn s = false &&
      va.toNat % 32 = 0 && folding s = false && s.gang.rel = .none && s.gang.redo = none && s.gang.got = [] &&
      (match wholeLoad va 288 s with
      | .bytes bs _ => (launchStatus s bs 5 (rdSS s 58) 3 == 0) == (vm.1 == 1 && vm.2 == 1)
      | _ => false)) = true := by decide +kernel

/-- The gang of `stand` and a second launch of context 5, admitted with one block to start. -/
def withSecond (s : State) : State :=
  withFive { s with launches := s.launches ++ [⟨5 * 2 ^ 48, 5, 0, plainRecord, 0, .queued, [0], [(0, 1)], [0], [1], 0, false, [], false, 0, none, (0, 0), [], 0⟩] }

theorem witness_LaunchVariantsComplete :
    (let s := scal 61 (5 * 65536) (withSecond (stand 0xBB))
    let fits := fun (sr : List Nat) (f : State → VarRes) =>
      mayIssue { reqX 0xBB g0 with level := .supervisor, sr := sr, sw := pair 62 } s = true && folding (f s).state = false
    execMask s (some g0) ≠ 0 && inTxn s = false && folding s = false && s.gang.rel = .none &&
    fits (pair 60 ++ pair 58) (variantPre (rdSS s 60).toNat (rdS s 58).toNat (rdS s 59).toNat) &&
    fits (pair 60 ++ pair 58 ++ [63]) (variantKill (rdSS s 60).toNat (rdS s 58).toNat (rdS s 59).toNat ((rdS s 63).toNat % 256)) &&
    fits (pair 60) (variantCtx (rdSS s 60).toNat) && fits (pair 60) (variantRes (rdSS s 60).toNat) && launchOf 99 s = none &&
    (ctxOf 5 s).suspended = false && (ctxOf 5 (modCtx 5 (fun c => { c with suspended := true }) s)).suspended = true) = true := by decide +kernel

/-- Launch names and selectors of each status: one that is unknown, one that is complete, one whose blocks do not reach so far; a code that is none. -/
theorem witness_LaunchVariantsComplete_status :
    (let s := withSecond (stand 0xBB)
    let n := 5 * 2 ^ 48
    let done := modLaunch n (fun l => { l with st := .complete }) s
    launchOf 99 s = none && (launchOf n done).any (fun l => l.st = .complete) &&
    (namedLaunch s n).any (fun l => selected l 7 7 = none && (selected l 0 0).isSome) && !faultCodes.contains 0xFF && faultCodes.contains 0x32 && ((allBlocks s).map (·.key)).Nodup &&
    (namedLaunch (modLaunch n (fun l => { l with started := [0] }) s) n).any (fun l => (List.range l.blocks).all fun i => !l.begun i) &&
    (allDies (modDie (fun x => { x with queues := modNth x.queues 15 fun _ => [n] }) s)).any fun d => d.queues.any fun q => !q.isEmpty) = true := by decide +kernel

/-- Clause headers at words of the version that the gang of `stand` runs, which has 200 words. -/
def headed (ws : List Nat) (maj : Nat) : State :=
  let s := stand maj
  { s with mem := ws.foldl (fun m w => writeBytes m (placeBase + 4 * w) (leBytes 4 0x007F81F1)) s.mem,
           contexts := s.contexts.map fun c => { c with vers := c.vers.map fun v => { v with words := 200 } } }

/-- Its first slice alone. -/
def oneSlice (s : State) : State := { s with frag := 1 }

theorem witness_TransfersComplete :
    ((let s := headed [199] 0xC0; mayIssue (req1 0xC0) s = true && allEnded s.gang = false && badTarget s (relTarget (cur s).pc 199) = none) &&
    (let s := headed [0, 199] 0xC1; mayIssue { reqL 0xC1 with pr := [7] } s = true && badTarget s (relTarget (cur s).pc 199) = none && badTarget s (relTarget (cur s).pc 0) = none &&
      ((List.range 8).all fun k => !((lanesOf (laneSet (execMask s none) k)).any fun l => lane (rdP s 7) l))) &&
    (let s := headed [199] 0xC2; mayIssue { req1 0xC2 with vw := [0] } s = true && badTarget s (relTarget (cur s).pc 199) = none) &&
    ([(true, 0xC4), (false, 0xC6)].all fun c => let s := oneSlice (lone (c.2)); let s := { s with mem := (headed [199] c.2).mem, contexts := (headed [] c.2).contexts }
      mayIssue { req1 c.2 with vr := [255], vw := if c.1 then [0] else [] } s = true && allEnded s.gang = false && badTarget s (indirectPlace s true 199) = none &&
      badTarget s (indirectPlace s false 199) = none) &&
    (let s := oneSlice (headed [199] 0xC5); mayIssue { req1 0xC5 with vr := [255] } s = true && badTarget s ⟨199, true⟩ = none) &&
    (let s := headed [8] 0xC3
     let s := { s with mem := writeBytes s.mem (placeBase + 0x100) (leBytes 8 (2 ^ 63 + 8)),
                       contexts := s.contexts.map fun c => { c with vers := c.vers.map fun v => { v with ltab := BitVec.ofNat 64 (placeBase + 0x100), ltn := 1 } } }
     mayIssue { req1 0xC3 with vw := [0] } s = true && allEnded s.gang = false && execMask s none ≠ 0 && s.gang.redo = none && s.gang.got = [] &&
     (verOf s s.gang.ctx.toNat ((cur s).pc.toNat / 2 ^ 20)).any (fun e => e.ltn == 1 && e.ltab == BitVec.ofNat 64 (placeBase + 0x100)) &&
     ((ownLaunch s).map (·.vers)) = some [0] &&
     (match wholeLoad (BitVec.ofNat 64 (placeBase + 0x100)) 8 s with
     | .bytes bs _ => leNat bs = 2 ^ 63 + 8 && decide (16 ≤ s.gang.regs) && badTarget s ⟨8, true⟩ = none
     | _ => false))) = true := by decide +kernel

/-- The values that indirect transfers name: every lane of the fragment holds its slice's. -/
theorem witness_TransfersComplete_values : let s := modGang (fun g => { g with v := canon ((List.range 32).map fun l => (32 * 255 + l, 199)) }) (stand 0xC5)
    (List.range 8).all fun k => (List.range 32).all fun l => !lane (laneSet (execMask s none) k) l || rdV s 255 l == 199 := by decide +kernel

/-- The gang of `stand` in a launch of context 5, whose resume area is at 0x9000 of home 0. -/
def resumable (maj : Nat) : State :=
  let s := stand maj
  { s with launches := s.launches.map fun l => { l with info := { l.info with resume := 0x9000 } } }

theorem witness_GatheringCompletes :
    ((mayIssue (reqX 0xC7 g0) (stand 0xC7) = true && allEnded (stand 0xC7).gang = false && fragSlices (stand 0xC7) ≠ [] && gathered (stand 0xC7) 0xFF &&
    (let s := oneSlice (stand 0xC7); mayIssue (reqX 0xC7 g0) s = true && fragSlices s ≠ [] && !gathered s 0xFF)) &&
    (let s := resumable 0xCB
    mayIssue { req1 0xCB with sr := [63] } s = true && allEnded s.gang = false && fragSlices s ≠ [] && inTxn s = false && gathered s 0xFF && muckRoom s 1 &&
    s.block.flushReq = false && (match launchOf s.gang.blk.name s with
    | some l => (match xlateUnit s l.ctx.toNat (resumeAddr l s.gang.blk s.gang.gno) .store with
      | .ok _ _ => true
      | _ => false)
    | none => false))) = true := by decide +kernel

/-- A handler at word 8 of the gang's version. -/
def handled (maj : Nat) : State := modGang (fun g => { g with trapvec := 8 }) (headed [8] maj)

theorem witness_TrapAndTretComplete :
    ((let s := handled 0xCC; mayIssue (req1 0xCC) s = true && allEnded s.gang = false && trapReady s) &&
    (let s := only 0 (handled 0xCC); mayIssue (req1 0xCC) s = true && execMask s none = 0 && trapReady s) &&
    ([(0 : Word), 8].all fun pc =>
      let s := handled 0xCD
      let s := modGang (fun g => { g with frame := some ⟨g.split, 0xFF, 0, true, false⟩, trappc := pc }) s
      mayIssue (req1 0xCD) s = true && (nth SplitEntry.over s.gang.split 7).st ≠ .ended && (pc = 0 || badTarget s ⟨pc, true⟩ = none))) = true := by decide +kernel

theorem witness_WaitAndBarComplete :
    ((let s := stand 0xCE; mayIssue (reqL 0xCE) s = true && execMask s none ≠ 0 && folding s = false && (cur s).stands = false) &&
    (let s := scal 63 1 (stand 0xCF); let cap := ((ownLaunch s).map fun l => (blockGangs l).length).getD 1
     mayIssue { reqX 0xCF g0 with sr := [63] } s = true && execMask s (some g0) ≠ 0 && inTxn s = false && folding s = false && s.gang.rel = .none && s.block.bars.length = 32 &&
     (cur s).stands = false && decide (1 ≤ cap) && (nth Barrier.reset s.block.bars 31).cnt = 0) &&
    ([WaitOn.counters 0 0 0 0, .bar 31 0 .counted, .bar 31 1 .none].all fun w => let s := modSplit 0xFF (fun e => { e with wait := w }) (stand 1)
     (entryOf s.gang 7).stands && gangAble s s.gang && decide (7 < s.gang.split.length) && (entryOf s.gang 7).st = .ready && counter s.gang .ld = 0 &&
     (blockOf s.gang.blk s).any fun b => (nth Barrier.reset b.bars 31).ph = 0)) = true := by decide +kernel

theorem witness_ExitsComplete :
    ([0xC8, 0xC9, 0xCA].all fun maj => let s := stand maj
      mayIssue (req1 maj) s = true && s.gang.rel = .none && decide (s.gang.slices ≤ s.gang.split.length) && decide (s.gang.slices ≤ 8) && s.gang.leaving = false && folding s = false &&
      ((List.range s.gang.slices).all fun k => s.frag.getLsbD k && hasLanes (execMask s none) k) &&
      (modGang (fun g => { g with frame := some ⟨g.split, 1, 0, true, false⟩ }) (oneSlice s)).gang.frame.isSome) = true := by decide +kernel

theorem witness_CsrInstructionsComplete :
    ([0x000, 0x0B1].all (fun n => let s := stand 0xD0
      mayIssue { reqX 0xD0 g0 with sw := if (csrWide n).getD false then pair 62 else [63] } s = true && decide ((csrLevels n).1.rank ≤ s.gang.level.rank) && folding s = false) &&
    [0x020, 0x024, 0x040, 0x070, 0x080, 0x090, 0x092].all fun n => let s := stand 0xD1
      mayIssue { reqX 0xD1 g0 with sr := if (csrWide n).getD false then pair 62 else [63] } s = true && execMask s (some g0) ≠ 0 &&
      ((csrLevels n).2.any fun l => decide (l.rank ≤ s.gang.level.rank)) && (n ≠ 0x090 || debugOpen s)) = true := by decide +kernel

theorem witness_ModeAndSystemComplete :
    ((let s := stand 0xDA; mayIssue { reqX 0xDA g0 with sw := pair 62 } s = true && mayIssue { reqX 0xDA g0 with sr := pair 62 } s = true && modePending s = false && execMask s (some g0) ≠ 0) &&
    ([(2, 16), (15, 16)].all fun rn => let s := modGang (fun g => { g with regs := rn.1 }) (stand 0xD2)
      mayIssue { req1 0xD2 with sw := [63] } s = true && execMask s none ≠ 0 && (cur s).stands = false && s.gang.kit = 0 && decide (rn.1 + (rn.2 - rn.1) ≤ 16)) &&
    (let s := stand 0xD3; mayIssue (req1 0xD3) s = true && execMask s none ≠ 0 && s.gang.kit = 0 && decide (15 < s.gang.regs) && s.gang.pend = [] && s.gang.tags = []) &&
    (mayIssue { reqX 0xD4 g0 with sr := [63], sw := [63] } (stand 0xD4) = true && mayIssue { reqX 0xD4 g0 with sw := [0] } (stand 0xD4) = true && folding (stand 0xD4) = false) &&
    mayIssue { reqX 0xD5 g0 with sr := [63, 0], sw := [63] } (stand 0xD5) = true && (mayIssue { reqX 0xD8 g0 with sw := pair 62 } (stand 0xD8) = true && execMask (stand 0xD8) (some g0) ≠ 0) &&
    mayIssue { req1 0xD9 with sw := pair 62 } (stand 0xD9) = true) = true := by decide +kernel

theorem witness_DebugCompletes :
    ((let s := scal 63 (2 ^ 18) (stand 0xDB)
     mayIssue (dbgReq g0 62 63 []) s = true && mayIssue (dbgReq g0 62 63 (pair 60)) s = true && debugOpen s && execMask s (some g0) ≠ 0 &&
     (dbgTarget s (rdS s 63)).isSome && dbgTarget s 479 = none && (rdSS s 60).toNat % 2 ^ 12 = 0) &&
    (let s := modCore (fun c => { c with parts := c.parts.map fun p => { p with halted := true } }) (scal 60 0x40000 (scal 63 (2 ^ 18) (stand 0xDB)))
     mayIssue (dbgReq g0 62 63 (pair 60)) s = true && (rdSS s 60).toNat % 4096 = 0 && full s .st = false &&
     ((List.range 12).all fun i => match xlateUnit s s.gang.ctx.toNat (rdSS s 60 + BitVec.ofNat 64 (4096 * i)) .store with
       | .ok _ k => boundFrame s k = false
       | _ => false) &&
     ((dbgTarget s (rdS s 63)).any fun t => (partOf s t).halted) && noTxns s)) = true := by decide +kernel

/-- The gang of `stand` with a further version 4095 of its context in this STATE. -/
def versioned (maj st : Nat) : State :=
  let v : Ver := ⟨4095, BitVec.ofNat 64 placeBase, 3, 0, 0, 0, st, false, 0, []⟩
  let s := stand maj
  { s with contexts := s.contexts.map fun c => { c with vers := c.vers ++ [v] } }

/-- A dump of a partition that is not halted, and of none. -/
theorem witness_DebugCompletes_status :
    (let s := scal 63 (2 ^ 18) (stand 0xDB)
    ((dbgTarget s (rdS s 63)).all fun t => !(partOf s t).halted || (partOf s t).stepping) && (dbgTarget s (rdS s 63)).isSome && dbgTarget s 479 = none) = true := by decide +kernel

theorem witness_CodepubCompletes :
    ((let s := stand 0xDC
     let s := scal 62 0x8000 { s with mem := writeBytes s.mem 0x8000 (leBytes 8 0x20000 ++ leBytes 4 1 ++ List.replicate 20 0) }
     mayIssue { reqX 0xDC g0 with level := .supervisor, sr := pair 62, sw := pair 60 } s = true && execMask s (some g0) ≠ 0 && s.gang.redo = none && s.gang.got = [] &&
     (match wholeLoad (rdSS s 62) 32 s with
     | .bytes bs _ => descBad (verOfDesc bs) = false
     | _ => false) && verIn s 0 1 = none && verIn s 0 0 ≠ none) &&
    (let s := scal 62 4095 (versioned 0xDC 1)
     mayIssue { reqX 0xDC g0 with level := .supervisor, sr := [62, 63], sw := pair 60 } s = true && execMask s (some g0) ≠ 0 &&
     (match verIn s 0 4095 with
     | some e => e.state = 1 && (match framesOf s 0 e with
       | some fs => headerLaid (firstWord s fs) && !imageWaits s 0 e && fs.all (fun f => !heldAny s (65536 * f) 65536)
       | none => false) && decide (s.fuse.toNat ≤ e.secv.toNat)
     | none => false) && (verIn s 0 0).any (·.hdl) && holdsStores s = false) &&
    (let s := scal 62 4095 (versioned 0xDC 2)
     mayIssue { reqX 0xDC g0 with level := .supervisor, sr := [62], sw := pair 60 } s = true && (verIn s 0 4095).any fun e => e.state == 2)) = true := by decide +kernel

/-- The firmware gang in walker slot 1 of home 0, whose record 7 walks there, and a record 3 that waits. -/
def walks (maj : Nat) (stale : Bool) : State :=
  let r : MissRec := ⟨7, 5, false, 16, [⟨⟨1, 1, 1, 1⟩, some 4⟩], some 1, stale⟩
  let q : MissRec := ⟨3, 5, true, 0, [], none, false⟩
  let e : TlbEntry := ⟨5, false, 0x100000, 16, 0x100000, true, true, true, none, []⟩
  modGang (fun g => { g with key := ⟨128, 0, 0, 1⟩ }) (modHome 0 (fun h => { h with recs := [q, r], tlb := [e] }) (withFive (scal 63 7 (stand maj))))

theorem witness_TlbwCompletes :
    (([TlbSz.k64, .m2, .g1].all fun sz => let s := scal 60 0x40000005 (walks 0xD6 false)
      mayIssue { reqX 0xD6 g0 with level := .firmware, sr := 63 :: pair 60, sw := [62] } s = true && execMask s (some g0) ≠ 0 &&
      (walkingHere s 7).any (fun x => x.1 == 0 && x.2.num == 7 && !x.2.stale) && leafBad s 0 (leafBits sz) false (rdSS s 60).toNat = false) &&
    ([0x10, 0x11].all fun code => let s := scal 60 (BitVec.ofNat 32 code) (walks 0xD6 false)
      mayIssue { reqX 0xD6 g0 with level := .firmware, sr := [63, 60], sw := [62] } s = true && (rdS s 60).toNat % 256 = code) &&
    (let s := walks 0xD6 true
     mayIssue { reqX 0xD6 g0 with level := .firmware, sr := [63, 60], sw := [62] } s = true && (walkingHere s 7).any (·.2.stale))) = true := by decide +kernel

/-- `withFive` with its homes 0 and 1 at VH 0 and 1. -/
def withHomes (s : State) : State := { s with contexts := s.contexts ++ [⟨5, some ⟨0, [s.die.die], [0, 1], [none, none], [none, none]⟩, [], 0, false⟩] }

theorem witness_TlbiCompletes :
    ((let s := scal 61 5 (withHomes (stand 0xD7))
     mayIssue { reqX 0xD7 g0 with level := .supervisor, sr := pair 62 ++ [61], sw := [60] } s = true && mayIssue { reqX 0xD7 g0 with level := .supervisor, sr := [61], sw := [60] } s = true &&
     execMask s (some g0) ≠ 0 && ownSettles s = [] && namesCtx s 5 && namesCtx s 0 && namedWindow s 5 0 = some (0, false) && (namedWindow s 5 0x01FC000000000000).any (·.2)) &&
    (let s := stand 0xD7; let s := modHome 0 (fun h => { h with settling := [⟨issuerTag s, ⟨5, false, 0x100000, 16, 0x100000, true, true, true, none, []⟩, 0x1000, 65536, [(3, 10)], [3], none⟩] }) s
     (namesCtx s 9 = false && (s.homes.all fun h => h.tlb.all fun e => decide (e.ctx ≠ 5))) && ownSettles s ≠ [] && mayIssue { reqX 0xD7 g0 with level := .supervisor, sr := [61], sw := [60] } s = true)) = true := by decide +kernel

/-- A removal that names what nothing holds, and one in a context that is none. -/
theorem witness_TlbiCompletes_nothing :
    (let s := scal 61 5 (withHomes (stand 0xD7))
    mayIssue { reqX 0xD7 g0 with level := .supervisor, sr := pair 62 ++ [61], sw := [60] } s = true && ownSettles s = [] && namesCtx s (rdS s 61).toNat &&
    (namedWindow s 5 (rdSS s 62)).isSome && (s.homes.all fun h => h.tlb.all (fun e => decide (e.ctx ≠ 5)) && h.settling.isEmpty) &&
    !namesCtx s 9 && (namedWindow s 5 0x00A8000000000000).isNone) = true := by decide +kernel

theorem witness_TlbiFqCompletes :
    ([0, 39].all fun h => let s := scal 63 (BitVec.ofNat 32 (h * 65536 + 2)) (stand 0xD7)
      mayIssue { reqX 0xD7 g0 with level := .supervisor, sr := [63, 62], sw := [60] } s = true && execMask s (some g0) ≠ 0 && fld (rdS s 63).toNat 16 6 = h) = true := by decide +kernel

/-- The gang of `handled` with record 2 of home 0 live for it: of a load that it has parked, of a store sector, or of a copy that has stopped. -/
def recorded (kind : Nat) (parked : Bool) (s : State) : State :=
  let f : HomeFault := ⟨0, 50, kind, 0x10, 0, 0, 0, 0x1000, 1, List.replicate 32 0⟩
  let s := scal 63 2 (modHome 0 (fun h => { h with live := [(2, f, s.gang.key, (dieOf s.gang.key.die s).incarn)] }) s)
  if parked then modGang (fun g => { g with park := some ⟨some 50, 0xFF, 1, 0x10, 0x1000⟩ }) s else s

theorem witness_TlbiFqCompletes_dispositions :
    (let q := { reqX 0xD7 g0 with level := .supervisor, sr := [63, 62], sw := [60] }
    let named := fun (s : State) (p : HomeFault → GangKey → Bool) => mayIssue q s && execMask s (some g0) ≠ 0 && fld (rdS s 63).toNat 16 6 = 0 &&
      ((homeOf 0 s).live.find? fun y => y.1 == (rdS s 63).toNat % 4096).any fun y => y.2.2.2 == (dieOf y.2.2.1.die s).incarn && p y.2.1 y.2.2.1
    let s := handled 0xD7
    [0, 1, 2, 3].all (fun d => rdS (scal 62 (BitVec.ofNat 32 d) s) 62 = BitVec.ofNat 32 d) &&
    named (recorded 1 false s) (fun f k => parkedBy (recorded 1 false s) k f = none) && named (recorded 2 false s) (fun f _ => f.kind = 2 && f.code ≠ 0x19) &&
    named (recorded 3 false s) (fun f k => stoppedStream (recorded 3 false s) k f = none) &&
    (let t := recorded 1 true s
     named t fun f k => (parkedBy t k f).any fun p =>
       let v := modGang (fun g => { g with park := none }) { focusGang k t with frag := p.slices }
       p.id = some 50 && trapReady (retireGang (completePart 50 1 v))) &&
    (let c : Cmd := ⟨s.gang.key, s.gang.blk, 0, 50, [], none, 0, 0, false, some (0x10, 0x1000), [], [], (0xB0, 0), some 0, 0, 0, 0, false, none, false, [], []⟩
     let t := modCore (fun x => { x with cmds := modNth x.cmds 4 fun _ => [c] }) (recorded 3 false s)
     named t (fun f k => stoppedStream t k f = some (4, 0x1000)) && ((streamOf t.core 4).find? fun y => y.id == 50).any fun c => (issuerOf t c).isSome && c.gang = t.gang.key) &&
    (let t := recorded 2 false s
     ((homeOf 0 t).live.find? fun y => y.1 == 3).isNone && !unitWaits t 0 0x1000 && (match xlateUnit t 0 0x1000 .store with
       | .ok h k => boundFrame t k == false && decide ((homeOf h t).mig = none) && ((List.range 32).map fun i => k + i).Nodup
       | _ => false) && t.homes.all (fun h => h.mig.isNone) && fqFull t 0 = false)) = true := by decide +kernel

theorem witness_FrmigCompletes :
    (let m : Migration := ⟨5, 77, 512, true, false⟩
    let named := fun (s : State) (a u : Nat) => match frameNamed s (BitVec.ofNat 64 a) u with
      | .ok x => x == (0, a)
      | .error _ => false
    (let s := scal 62 0x50000 (stand 0xDD)
     mayIssue (frmigReq g0 60 62 []) s = true && execMask s (some g0) ≠ 0 && named s 0x50000 65536 && (homeOf 0 s).mig = none &&
     ((List.range 256).find? fun i => !(homeOf 0 s).spares.contains (spareFrame i) && !(homeOf 0 s).bad.any fun b => b.1 == spareFrame i) = some 0) &&
    (let s := modHome 0 (fun h => { h with mig := some m }) (scal 62 0x50000 (scal 58 0x1200 (stand 0xDD)))
     let s := { s with mem := writeBytes s.mem 0x1200 (leBytes 8 0x50005) }; let e := leNat (readBytes s.mem 0x1200 8)
     mayIssue (frmigReq g0 60 62 (pair 58)) s = true && mayIssue (frmigReq g0 60 62 []) s = true && ownSettles s = [] && named s 0x50000 65536 && named s 0x1200 8 &&
     (homeOf 0 s).mig = some m && e.testBit 0 && !e.testBit 1 && fld e 16 20 = m.old)) = true := by decide +kernel

/-- A copy of a frame under way, of its first line and of its last. -/
theorem witness_FrmigCompletes_line :
    ([0, 511].all fun n => let s := modHome 39 (fun h => { h with mig := some ⟨5, 77, n, false, false⟩ }) (stand 0xDD)
      (homeOf 39 s).mig.any fun g => g.lines = n && decide (g.lines < 512) && g.old ≠ g.spare && decide (g.old < 2 ^ 20) && decide (g.spare < 2 ^ 20)) = true ∧
    largeLeaf (stand 0xDD) 0 0x1200 = false := by decide +kernel

/-- The gang of `handled` at the header at word 0. -/
def atHeader (s : State) : State := modSplit 0xFF (fun e => { e with ix := 0, left := 0 }) s

theorem witness_ClauseHeadersComplete :
    (let s := atHeader (handled 1)
    let h := plainHeader .gen
    let stop := modCore (fun c => { c with parts := c.parts.map fun p => { p with bpen := true, bps := [(0, 0, true)] } }) s
    s.gang.live && s.gang.errs = [] && s.gang.defer = [] && s.gang.deliver = [] && trapReady s &&
    (let t := modGang (fun g => { g with errs := [.split 7] }) s; ErrMark.split 7 ∈ t.gang.errs && t.frag.getLsbD 7 && (blockOf t.gang.blk t).any (fun b => b.st ≠ .ended) &&
      !(oneSlice t).frag.getLsbD 7) && breakpointAt s (herePos s) = none && headerBad h = none && folding s = false && headerMet s.gang h &&
    roleMay s.gang.role (hdrCls h) && (modGang (fun g => { g with defer := [⟨0, 1, none, 0, 0⟩] }) s).gang.defer ≠ [] &&
    (let t := modGang (fun g => { g with deliver := [⟨0x17, 0, 7⟩] }) s; t.gang.deliver = [⟨0x17, 0, 7⟩] && trapReady t) &&
    breakpointAt stop (herePos stop) = some 0 && trapReady stop && headerBad 0 = some (0x01, 0) && (headerBad 0x007F81F2).isSome &&
    !headerMet (modGang (fun g => { g with pend := [⟨50, .ld, false, 1, [], [], 0, false, [], 1, false⟩] }) s).gang 0x007E01F1 &&
    !roleMay .vector (hdrCls (plainHeader .mtx)) &&
    (let r : Launch → Launch := fun l => { l with info := { l.info with nrep := 2 } }
     let t := { modBlock (fun b => { b with nrep := 2 }) s with launches := s.launches.map r }
     folding t && fld 0x007981F1 17 2 ≠ 3 && (cur t).wait ≠ .header && t.gang.rel = .none &&
     (cur (modSplit 0xFF (fun e => { e with wait := .header }) t)).wait = .header)) = true := by decide +kernel

theorem witness_SliceEventsComplete :
    (let s := handled 1
    slotThere ⟨39, 479, 3, 7⟩ && slotThere ⟨167, 3, 0, 7⟩ && slotThere s.gang.key && s.gang.live && trapReady s &&
    reconReady (modSplit 0xFF (fun e => { e with st := .recon, rpc := 8 }) s).gang 8 &&
    64 ≤ (entryOf (modSplit 1 (fun e => { e with elig := 64 }) s).gang 0).elig &&
    (let t := modGang (fun g => { g with timer := 0x01000000 }) (modSplit 3 (fun e => { e with wait := .task false true }) s)
     t.gang.live && waitingFrag t = 3 && decide ((dieOf t.gang.key.die t).strvt.toNat ≤ t.gang.timer) && classOfLaunch t ≠ .w && trapReady { t with frag := 3 }) &&
    (let t := modSplit 3 (fun e => { e with wait := .bar 31 0 .counted }) s
     (entryOf t.gang (lowSlice 3)).wait = .bar 31 0 .counted && decide (31 < t.block.bars.length) && (nth Barrier.reset t.block.bars 31).ph = 0 &&
     (List.range 8).all fun k => (3 : BitVec 8).getLsbD k || (entryOf t.gang k).wait ≠ .bar 31 0 .again) &&
    (cur (modSplit 0xFF (fun e => { e with wait := .value .ts 0 0 true false }) s)).wait = .value .ts 0 0 true false) = true := by decide +kernel

theorem witness_TimedChangesComplete :
    (dieThere 0 && dieThere 39 && dieThere 128 && dieThere 167 && coreThere 39 479 && coreThere 167 3) = true := by decide +kernel

/-- The gang of `stand` with one access in flight, entry 50. -/
def inFlight (p : Pend) : State := modGang (fun g => { g with pend := [p] }) (stand 1)

theorem witness_AccessesFinish :
    (let has := fun (s : State) (f : Pend → Bool) => slotThere s.gang.key && (let t := focusGang s.gang.key s
      t.gang.live && (t.gang.pend.find? fun p => p.id == 50).any f)
    has (inFlight ⟨50, .none, false, 1, [.scal 63 7], [], 0, false, [], 1, false⟩) (fun p => p.cls = .none && p.flush = []) &&
    has (inFlight ⟨50, .ld, false, 2, [.lane 255 31 7], [], 0, false, [], 1, false⟩) (fun p => p.cls ≠ .st) &&
    has (inFlight ⟨50, .st, false, 1, [], [], 0, false, [(33, 0)], 1, false⟩) (fun p => p.cls = .st && p.flush ≠ [] && p.bytes = [] && !p.modeSet) &&
    ((allGangs (stand 1)).any fun g => g.key == (stand 1).gang.key && g.pend.any fun p => p.id == 50) = false &&
    (let s := inFlight ⟨50, .st, false, 1, [], [(.core, 98303, 7)], 0, false, [], 1, false⟩
     has s (fun p => !p.bytes.isEmpty && p.bytes.all (·.1 == .core)) && noValueWaits (focusGang s.gang.key s) && muckRoom (focusGang s.gang.key s) 32) &&
    (let s := withTeam (inFlight ⟨50, .st, false, 1, [], [(.ts, 0, 7), (.ts, 2 ^ 20 - 1, 8)], 0, false, [], 1, false⟩)
     has s (fun p => p.bytes.all (·.1 == .ts) && p.bytes.length == 2) && folding (focusGang s.gang.key s) = false) &&
    (let s := stand 1
     let s := modCore (fun c => { c with muck := [⟨false, 128, [(0x1000, 7)], 5, 0, s.gang.key, s.gang.blk, some 50, none, true, true, none, 0, false, 0, false, none⟩] }) { s with clk := 20000 }
     let t := focusCore s.core.die 0 (focusDie s.core.die s)
     coreThere s.core.die 0 && (t.core.muck.takeWhile fun e => e.matched && decide (e.clk + Config.sw ≤ t.clk)).length == 1 && t.core.muck.all (·.remote.isNone) && (allCores t).all (fun c => c.muck.all (·.writes)) && t.homes.all (·.mig.isNone))) = true := by
  decide +kernel

/-- The gang of `stand` with a command at the head of stream 4. -/
def copies (moves : List Move) (ring : Option (Nat × Nat)) : State :=
  let s := stand 1
  modCore (fun c => { c with cmds := modNth c.cmds 4 fun _ => [⟨s.gang.key, s.gang.blk, 0, 50, moves, ring, 0, 0, false, none, [], [], (0xB0, 0), some 0, 0, 0, 0, false, none, false, [], []⟩] }) s

/-- The gang of `stand` with a stream of one row, of this twin form. -/
def streaming (tw : BitVec 2) : State :=
  let p : Plane := { Plane.reset with cells := canon [(0, 0x3F800000)] }
  modCore (fun c => { c with streams := [⟨0, 63, tw, false, none, 0, p, p, [], [], false, 0, 0, [(List.replicate 16 0, List.replicate 16 0)], [33], (stand 1).gang.key, 0⟩] }) (stand 1)

theorem witness_EngineResultsComplete :
    ((let ok := fun (s : State) (f : Cmd → Bool) => coreThere s.core.die s.core.core && (let t := focusCore s.core.die s.core.core (focusDie s.core.die s)
        4 < t.core.cmds.length && (match streamOf t.core 4 with
        | cmd :: rest => f cmd && cmd.stopped = none && cmd.far = [] && cmd.ws = false && cmd.peers = [] && cmd.racy = [] && cmd.start.isSome &&
          decide (cmd.till ≤ t.clk) && rest.isEmpty && (blockOf cmd.blk t).all fun b => !b.replay
        | [] => false))
     ok (copies [⟨some ⟨.glob, 0⟩, [], ⟨.core, 0⟩, 4⟩] none) (fun c => (activeCmd [c]).isSome) &&
     (let s := copies [⟨some ⟨.glob, 0⟩, [], ⟨.core, 0⟩, 4⟩] none; dueCmd (focusCore s.core.die s.core.core (focusDie s.core.die s)) 4 = none) && ok (copies [] none) (fun c => c.moves = []) &&
     ok (copies [] (some (15, 1))) (fun c => c.ring.isSome)) &&
    ([(0 : BitVec 2), 1, 2].all fun tw => let s := streaming tw; let t := focusCore s.core.die 0 (focusDie s.core.die s)
      (t.core.streams.find? fun x => !x.rows.isEmpty).any fun st => st.twin = tw && st.rows.length = 1) &&
    (let s := stand 1; (focusCore s.core.die 0 (focusDie s.core.die s)).core.streams.all fun x => x.rows.isEmpty)) = true := by decide +kernel


/-- The record of a load's fault at a home, of the gang's entry 50. -/
def faultAt (h : Nat) : HomeFault := ⟨h, 50, 1, 0x10, 0, 0, 0, 0x1000, 1, []⟩

/-- The gang of `stand` with a request to a peer under way. -/
def asking (write old : Bool) (engine : Option (Nat × Nat × Nat)) : State :=
  let s := inFlight ⟨50, .st, false, 1, [], [], 0, false, [], 1, false⟩
  { s with remotes := [⟨9, 15, s.gang.key, 50, write, 0, .none, 0x000E400000001000, 0, engine, [], 0, old⟩] }

theorem witness_HomeFaultsComplete :
    (let still := fun (s : State) (h : Nat) => decide ((homeOf h s).mig = none) && decide (Memory.wf s.mem = true)
    let s := stand 1
    let full := { s with mem := writeBytes s.mem (reservedAt 39 0x40000) (leBytes 4 4096) }
    slotThere s.gang.key && coreThere s.core.die 0 && [0, 39].all (fun h => still s h && (faultAt h).home == h && fqFull s h = false) && fqFull full 39 &&
    ((allGangs s).any fun g => g.key == s.gang.key && g.pend.any fun p => p.id == 50) = false &&
    ([(true, false), (false, true)].all fun c => let t := asking c.1 c.2 none
      (t.remotes.find? fun r => r.tag == 9).any fun r => r.write == c.1 && r.old == c.2 && r.engine.isNone) &&
    (let t := focusGang s.gang.key (asking true false none); t.gang.live && (t.gang.pend.find? fun p => p.id == 50).isSome) &&
    ((asking false false (some (s.core.die, 0, 1))).remotes.any fun r => r.engine.isSome && decide (r.dst = .none)) &&
    (let q := fun (w : Bool) (a : DWord) => (⟨3, 0, a, w, 4, [1, 2, 3, 4], false⟩ : RemoteReq)
     [false, true].all fun w => (match xlateUnit s 0 (q w 0x1000).addr (if w then .store else .load) with
       | .ok _ k => boundFrame s k == false && ((List.range 4).any fun i => s.poison.contains (sectorOf (k + i))) == false
       | _ => false)) &&
    (match xlateUnit s 0 0x1000 .load with
     | .ok h k => { s with poison := [sectorOf k] }.poison.contains (sectorOf k) && boundFrame (modHome h (fun x => { x with bound := [(k % Config.stackBytes / 65536, 0, 0)] }) s) k &&
       heldBefore (modCore (fun c => { c with muck := [⟨false, sectorOf k, [(k, 7)], 0, 0, s.gang.key, s.gang.blk, none, none, true, true, none, 0, false, 0, false, none⟩] }) s) k 4 0 &&
       heldBefore s k 4 0 == false
     | _ => false) &&
    (match xlateUnit (withHomes s) 5 0x1000 .load with
     | .fault _ code => code == 0x10
     | _ => false) &&
    (match xlateUnit s 0 0x0000001000000000 .load with
     | .noHome => true
     | _ => false)) = true := by decide +kernel

/-- A request refused once: of a load or a store sector that translates meanwhile, of one that still faults, or of a queue that is full. -/
theorem witness_HomeFaultsComplete_again :
    (let s := stand 1
    let w : Waiter := ⟨s.gang.key, none⟩
    let once := fun (c : Nat) (s : State) => modHome 0 (setTries c false 0x1000 w 1) s
    let goes := once 0 { s with mem := writeBytes s.mem (reservedAt 0 0x40000) (leBytes 4 4096) }
    triesOf (homeOf 0 s) 0 false 0x1000 w = 0 && triesOf (homeOf 0 goes) 0 false 0x1000 w = 1 && slotThere w.gang && (homeOf 0 goes).mig.isNone && decide (Memory.wf goes.mem = true) &&
    ([Access.load, .store].all fun a => match xlateUnit (countRetry w goes) 0 0x1000 a with
      | .ok _ k => boundFrame (countRetry w goes) k == false
      | _ => false) &&
    ([Access.load, .store].all fun a => let t := countRetry w (once 5 { withHomes s with mem := goes.mem })
      triesOf (homeOf 0 t) 5 false 0x1000 w = 1 && fqFull t 0 && match xlateUnit t 5 0x1000 a with
      | .fault h c => h == 0 && c == 0x10
      | _ => false) &&
    (match xlateUnit (countRetry w (once 5 (withHomes s))) 5 0x1000 .load with
      | .fault _ _ => fqFull (countRetry w (once 5 (withHomes s))) 0 == false
      | _ => false) &&
    (let k : GangKey := ⟨39, 479, 3, 7⟩
     slotThere k && !(focusGang k s).gang.live && !(allGangs s).any fun g => g.key == k && g.pend.any fun p => p.id == 50) &&
    !unitWaits s 0 0x1000 &&
    (let r := fun (dst : LoadDst) (e : Option (Nat × Nat × Nat)) (w : Bool) => ({ s with clk := Config.remoteTimer, remotes := [⟨9, 15, s.gang.key, 50, w, 0, dst, 0x000E400000001000, 0, e, [], 0, false⟩] } : State)
     [r (.after 77 0) (some (0, 0, 0)) false, r .none (some (0, 0, 4)) true, r .none none false].all fun t => (t.remotes.find? fun x => x.tag == 9).any fun x =>
       !((linkOf x.link t).queued.any fun y => match y.2 with
         | .req q => q.tag == 9
         | _ => false) && !decide (t.clk < x.sent + Config.remoteTimer) && !x.old) &&
    (let t := modLink 15 (fun l => { l with queued := [(false, .req ⟨9, 0, 0, true, 4, [], false⟩)] }) (asking true false none)
     (linkOf 15 t).queued.any fun x => match x.2 with
       | .req q => q.tag == 9
       | _ => false)) = true := by decide +kernel

/-- What waits for a translation: the gang of `stand`, or a stream of its core's copy engine. -/
def waiter (n : Option Nat) : Waiter := ⟨(stand 1).gang.key, n⟩

theorem witness_TranslationsComplete :
    (let s := stand 1
    let bound := modHome 39 (fun h => { h with tlb := [⟨5, false, 0x100000, 16, 0x100000, true, true, true, none, []⟩], recs := [⟨263, 5, true, 7, [], none, false⟩], walkq := [263] }) s
    [none, some 4].all (fun n => missThere 39 65535 (waiter n)) && ((allGangs s).any fun g => g.key == (waiter none).gang) && (waiter (some 4)).engine.isSome &&
    (tlbFind (homeOf 39 bound) 5 false (16 * 65536)).isSome && (tlbFind (homeOf 39 bound) 5 true (7 * 65536)).isSome = false &&
    ((homeOf 39 bound).recs.find? fun x => x.num == 263).any (fun r => (homeOf 39 bound).walkq == [r.num] && (tlbFind (homeOf 39 bound) r.ctx r.striped (r.gran * 65536)).isSome == false) &&
    ((List.range 8).find? fun n => !((homeOf 39 bound).recs.any fun r => r.slot == some n) && !(allGangs bound).any fun g => g.key == ⟨128 + 39, n / 2, 0, n % 2⟩) = some 0 &&
    (homeOf 39 s).walkq = [] && Memory.wf s.mem && (homeOf 0 (modHome 0 (fun h => { h with mig := some ⟨5, 77, 0, false, false⟩ }) s)).mig.isSome &&
    ((verIn (versioned 1 3) 0 4095).any fun e => e.state == 3) && holdOf (versioned 1 3) 0 4095 = 0 &&
    homeOfKey (128 * (2 ^ 29 * 39)) = 39 && (List.range 4).all fun i => !s.poison.contains (4 * (2 ^ 29 * 39) + i)) = true := by decide +kernel

/-- Launch 77 of two blocks beside the gang of `stand`, queued at its die's queue 15 or admitted there. -/
def launched (st : LaunchSt) : State :=
  let s := stand 1
  let d := s.core.die
  let info := { plainRecord with cls := .p, team := 2, crew := 2, regs := 4, prologue := false, done := 0x7000, resume := 0x6000, mode := 1 }
  let l : Launch := ⟨77, 0, 1, info, 0x8000, st, [d], [(d, 3)], if st = .admitted then [0] else [], [0], 0, false, [], false, 0, none, (0, 0), [], 0⟩
  onDie d (modDie fun x => { x with queues := modNth x.queues 15 fun _ => [77] }) { s with launches := s.launches ++ [l] }

/-- Its block 0 dealt to a core. -/
def dealt : State := ran (.blockDeal ⟨77, 0, 0⟩) (launched .admitted)

theorem witness_SchedulerComplete :
    (let s := launched .queued
    let a := launched .admitted
    let d := s.core.die
    (let t := { s with launches := s.launches.map fun l => { l with lrefs := [] } }
     dieThere d && decide (15 < (dieOf d t).queues.length) && (launchOf 77 t).any fun l => decide (l.st ≠ .complete) && !l.reserved && (l.lrefs.any fun x => x.1 == d) == false) &&
    ((launchOf 77 s).any fun l => decide ((headsOf s (dieOf d s)).head? = some (15, 77)) && decide (l.st = .queued) && decide (1 ≤ l.info.mode.toNat % 8) && decide (l.info.mode.toNat % 8 ≤ 5) &&
      ((namedVersion s l).any fun v => decide (s.fuse.toNat ≤ v.secv.toNat)) && decide (l.info.cls ≠ .c) && !prologueBars s l d) &&
    ((launchOf 77 a).any fun l => (bestCore a l (l.dieFor 0 0)).isSome && dealtWith a ⟨77, 0, 0⟩ = [⟨77, 0, 0⟩] && !copiesPending a ⟨77, 0, 0⟩ && ((blockOf ⟨77, 0, 0⟩ a).any fun x => placed x || x.st == .ended) == false) &&
    (placeBlock ⟨78, 0, 0⟩ a).isNone &&
    ((blockOf ⟨77, 0, 0⟩ dealt).any fun x => decide (x.st = .starting)) && (focusBlock ⟨77, 0, 0⟩ dealt).block.st = .starting && (launchOf (focusBlock ⟨77, 0, 0⟩ dealt).block.key.name dealt).isSome &&
    (let e := { a with launches := a.launches.map fun l => { l with started := [2], ended := 2 } }
     (launchOf 77 e).any fun l => decide (l.st = .admitted) && blocksEnded e l && l.crewOf.isNone && e.homes.all (·.mig.isNone) && decide ((dropTasks l e).1 = 0) &&
       ([Access.load, .store, .atomic].all fun k => match xlateUnit e 0 l.info.done k with
        | .ok _ k => !boundFrame e k && decide (l.time.toNat < 2 ^ 63)
        | _ => false)) &&
    ([0, 479].all fun c => decide (taskDepth (coreOf 39 c s) ≤ fld (dieOf 39 s).balcfg.toNat 16 8)) &&
    (let m := modCore (fun c => { c with taskq := List.replicate 40 ⟨0, 0, 3, none⟩ }) { a with blocks := [{ Block.vacant with key := ⟨77, 0, 0⟩, st := .resident, die := d, core := 1 }] }
     decide (0 + 8 < 40) && decide (8 ≤ 0 + 8) && !(takeYoungest (taskMoves m d 1) ((40 - 0) / 2) (coreOf d 0 m).taskq).1.isEmpty) &&
    coreThere 39 479 && (nth Part.reset (coreOf d 0 (modCore (fun c => { c with parts := modNth c.parts 3 fun p => { p with growq := [(0, 0, 1, 5)] } }) s)).parts 3).growq = [(0, 0, 1, 5)] &&
    (let g := modGang (fun g => { g with leaving := true }) (stand 0xC8); g.gang.live && g.gang.leaving && muckRoom g 1 && g.gang.frame.isNone && g.launches.any fun l => l.st = .admitted && l.dies.contains g.gang.key.die)) = true := by decide +kernel

/-- Two or three replicas of block 0 of launch 77 on dies 1 to 3, and the records that their gangs 3 sent. -/
def voting (n : Nat) (sigs : Nat → DWord) : State :=
  let info := { plainRecord with nrep := n, crew := n }
  let s := stand 1
  let bs : List Block := (List.range n).map fun i => { Block.vacant with key := ⟨77, i, 0⟩, st := .resident, die := i + 1, repl := i, nrep := n }
  let l : Launch := ⟨77, 0, 7, info, 0x8000, .admitted, [1, 2, 3], [], [0], [1], 0, false, [], false, 0, none, (0, 0), [], 0⟩
  { s with clk := 3000, blocks := bs, launches := s.launches ++ [l], votes := [⟨77, 0, 3, (List.range n).map fun i => ⟨i, sigs i, 9, 0, 8, 5, 10⟩, [], 10⟩] }

/-- Its gang in focus, replica 1, that has sent its record and has its verdict. -/
def judged (o : Nat) : State :=
  let s := voting 2 fun _ => 7
  modGang (fun g => { g with blk := ⟨77, 1, 0⟩, gno := 3, rel := .sent 8 0 }) { s with votes := s.votes.map fun v => { v with verdict := [(0, 0), (1, o)] } }

/-- A resynchronisation of replica 1 from replica 0. -/
def resyncing (image : Option Image) : State := { voting 2 (fun _ => 7) with resyncs := [⟨⟨77, 1, 0⟩, ⟨77, 0, 0⟩, image⟩] }

theorem witness_ReplicasComplete :
    (slotThere ⟨39, 479, 3, 7⟩ &&
    ([Cls.cp, Cls.ld].all fun c => let s := inFlight ⟨50, c, false, 1, [], [], 9, false, [], 1, false⟩
      let t := focusGang s.gang.key s
      slotThere s.gang.key && t.gang.live && (t.gang.pend.find? fun p => p.id == 50).isSome &&
        (((allGangs s).find? fun g => g.live && g.key == s.gang.key).bind fun g => copyAwaited s g [9]) == if c = .cp then some 50 else none) &&
    ([2, 3].all fun n => let s := voting n fun _ => 7
      let v := s.votes.find? fun v => v.name == 77 && v.blk == 0 && v.gno == 3 && v.verdict.isEmpty
      v.isSome && decide ((voters s 77 0).length = n) && (lowest (voters s 77 0)).isSome &&
      ((voters s 77 0).all fun x => v.any fun v => v.recs.any fun r => r.rep == x.key.rep && r.sigs == 7 && decide (r.arrives + 4 ≤ s.clk))) &&
    (let s := voting 2 fun i => BitVec.ofNat 64 i
     (voters s 77 0).map (·.key.rep) == [0, 1] && s.votes.any fun v => v.verdict.isEmpty && (v.recs.map fun r => (r.rep, r.sigs)) == [(0, 0), (1, 1)]) &&
    (let s := { voting 2 (fun _ => 7) with clk := 13 }
     s.votes.all fun v => ((voters s 77 0).all fun x => v.recs.any fun r => r.rep == x.key.rep && decide (r.arrives + 4 ≤ s.clk)) == false) &&
    ([0, 1].all fun o => let s := judged o
      s.gang.live && s.gang.rel = .sent 8 0 && s.votes.any fun v => v.name == s.gang.blk.name && v.blk == s.gang.blk.idx && v.gno == s.gang.gno &&
        (v.verdict.find? fun x => x.1 == s.gang.blk.rep) == some (1, o)) &&
    ([none, some (⟨[], Block.vacant, [], 0⟩ : Image)].all fun im => let s := resyncing im
      (s.resyncs.find? fun r => r.dst == ⟨77, 1, 0⟩).any (fun r => decide (r.image = im) && (blockOf r.src s).isSome) && (blockOf ⟨77, 1, 0⟩ s).any fun x => decide (x.st ≠ .flushed))) = true := by
  decide +kernel

/-- A replica that sends its state, at rest; one that was flushed, with an image and without; and one that has taken its place. -/
theorem witness_ReplicasComplete_resync :
    (let fl := fun (s : State) => { s with blocks := s.blocks.map fun b => if b.key = ⟨77, 1, 0⟩ then { b with st := .flushed } else b }
    (let s := resyncing none
     s.resyncs = [⟨⟨77, 1, 0⟩, ⟨77, 0, 0⟩, none⟩] && (blockOf ⟨77, 1, 0⟩ s).isSome && (blockOf ⟨77, 0, 0⟩ s).isSome) &&
    ([none, some (⟨[], Block.vacant, [], 9⟩ : Image)].all fun im => let s := fl (resyncing im)
      (s.resyncs.find? fun r => r.dst == ⟨77, 1, 0⟩).isSome && (blockOf ⟨77, 1, 0⟩ s).any (fun x => x.st = .flushed) && (launchOf 77 s).isSome) &&
    ((stand 1).resyncs.find? fun r => r.dst == ⟨77, 1, 0⟩).isNone) = true := by decide +kernel

theorem witness_FailuresComplete :
    (let s := stand 1
    let with1 := fun (p : BitVec 2) => modCore (fun c => { c with ports := p }) s
    coreThere 0 479 && coreThere 39 0 && blocksOn s 38 479 = [] && portsNow s 38 479 = 0 && (coreOf s.core.die 0 (with1 3)).ports = 3 && (coreOf s.core.die 0 (with1 1)).ports ≠ 3 &&
    onDieNow s 38 = [] && (homeOf 39 s).writers = [] &&
    (let t := { s with counts := [(0x019000 - 8, 3)], links := [] }; t.counts = [(0x018FF8, 3)] && t.links = [])) = true := by decide +kernel

/-- A home on which no replica waits; a fold after a second, and one before. -/
theorem witness_FailuresComplete_seconds :
    homeless 39 (stand 1) = [] ∧ ((stand 1).clk - (stand 1).foldAt) / Config.second = 0 ∧
    ({ stand 1 with clk := Config.second }.clk - (stand 1).foldAt) / Config.second = 1 := by decide +kernel

/-- A firmware image. -/
def firmware : FwImage := ⟨[1], [2], 0, false, true, true, [], 0, [], [], [], 0⟩

theorem witness_ModuleComplete : (State.reset.stage = 1 && { State.reset with stage := 8 }.stage ≠ 0) = true := by decide +kernel

/-- An Abail module of no instruction. -/
def abail : AbailModule := ⟨0, 0, [], [], 0, [], []⟩

/-- Its translation in the cache. -/
def cached : State := { State.reset with xcache := [⟨Config.sha384 (abailBytes abail), 0, [], [], 0, []⟩] }

theorem witness_LinksComplete :
    (let f : Flit := ⟨true, 0xFFFF, 0, true, 0, [], .idle⟩
    let up := modLink 15 (fun l => { l with trained := true }) State.reset
    (linkOf 15 up).trained && !(linkOf 0 State.reset).trained && f.good && f.unordered && !{ f with good := false }.good && State.reset.replay = false && { State.reset with replay := true }.replay &&
    (let q : HostAccess := ⟨39, Config.stackBytes - 1, some [7], 0⟩; decide (q.off + 1 ≤ Config.stackBytes) && (homeOf 39 State.reset).mig = none)) = true ∧
    (State.reset.xcache.find? fun e => e.digest == Config.sha384 (abailBytes abail) && e.gen == abail.gen) = none ∧
    ((cached.xcache.find? fun e => e.digest == Config.sha384 (abailBytes abail) && e.gen == abail.gen).map (·.image)) = some [] := by
  refine ⟨by decide +kernel, rfl, ?_⟩
  simp [cached, abail]

/-- Flits of each place in their channel: one again, one new, the next in turn, one ahead of it and one that fails; and what a port holds back. -/
theorem witness_LinksComplete_flits :
    (let f : Flit := ⟨true, 5, 3, true, 0, [], .idle⟩
    let up := modLink 15 (fun l => { l with trained := true, taken := [5], rxSeq := 5 }) State.reset
    (linkOf 15 up).trained && f.good && f.unordered && (linkOf 15 up).taken.contains f.seq && !(linkOf 15 up).taken.contains 6 &&
    (let g := { f with unordered := false }; !g.unordered && g.seq = (linkOf 15 up).rxSeq && (linkOf 15 up).waiting = []) &&
    (let g := { f with unordered := false, seq := 0x8004 }; g.seq ≠ (linkOf 15 up).rxSeq && decide ((g.seq - (linkOf 15 up).rxSeq).toNat < 2 ^ 15)) &&
    !{ f with good := false }.good && (linkOf 15 up).queued = [] && { State.reset with logWait := [(15, [1]), (0, [2])] }.logWait = [(15, [1]), (0, [2])] &&
    !State.reset.logFrozen && Memory.wf State.reset.mem && { State.reset with stage := 8 }.stage = 8 && !boundFrame State.reset (39 * Config.stackBytes)) = true ∧
    (State.reset.xcache.find? fun e => e.digest == Config.sha384 (abailBytes abail) && e.gen == abail.gen) = none ∧
    (withFive { State.reset with launches := [⟨5, 5, 0, plainRecord, 0, .queued, [], [], [], [], 0, false, [], false, 0, none, (0, 0), [], 0⟩] }).launches.length = 1 :=
  ⟨by decide +kernel, rfl, rfl⟩

theorem witness_EncodingsDecode : ((Instr.cmp 1 4 5 0 .i32 .lt .none g0).wf && encode (.cmp 1 4 5 0 .i32 .lt .none g0) == [0x05040128, 0x02000000]) = true ∧
    decode 0x05040128 0x02000000 = .ok (.cmp 1 4 5 0 .i32 .lt .none g0, 2) := ⟨by decide +kernel, rfl⟩

theorem witness_StepsKeepMemoryCanonical : ((match step (placeWord State.reset 32 0x00000001) with
    | .next _ => true
    | _ => false) && decide (Memory.wf ([] : SMap 8)) && decide (Memory.wf ([(0, 7)] : SMap 8))) = true := by decide +kernel

/-- A step runs what stands at the fragment in focus: an instruction, a header, an event from outside, an error found, a CSR write or an event
that is due; a state after reset has no fragment; and a word that does not decode, a position past the end of the version, a second word past it and
a clause that the role bars trap. -/
theorem witness_StepRunsTheInstruction :
    (let s := placeWord State.reset 32 0x06050406
    let idle := fun (s : State) => s.inbox.isEmpty && (duty s).isNone && s.agenda.all fun d => decide (s.clk < d.clk)
    let at' := fun (s : State) => (pick s).map fun x => ready x.1 x.2 s
    idle s && (at' s).any (fun r => (cur r).ix ≠ 0 && fetchWord r r.gang.ctx.toNat (herePos r) == some 0x06050406 && roleMay r.gang.role (hdrCls (cur r).hdr) &&
      !sfuDefers r && wordsOf 0x06 = some 1 && match decodeBytes (leBytes 4 0x06050406 ++ leBytes 4 0) with
      | .ok (i, rest) => i == .add 4 5 6 && !rest.isEmpty
      | .error _ => false) &&
    (let t := atHeader s; idle t && (at' t).any fun r => (cur r).ix == 0) &&
    (at' (modSplit 0xFF (fun e => { e with ix := 7 }) s)).any (fun r => (fetchWord r r.gang.ctx.toNat (herePos r)).isNone) &&
    (at' (modGang (fun g => { g with role := .vector }) (modSplit 0xFF (fun e => { e with hdr := plainHeader .mtx }) s))).any (fun r =>
      (fetchWord r r.gang.ctx.toNat (herePos r)).isSome && !roleMay r.gang.role (hdrCls (cur r).hdr)) &&
    (let t := placeWord State.reset 32 0x0605040A
     let t := { t with contexts := t.contexts.map fun c => { c with vers := c.vers.map fun v => { v with words := 2 } } }
     (at' t).any fun r => fetchWord r r.gang.ctx.toNat (herePos r) == some 0x0605040A && (fetchWord r r.gang.ctx.toNat (posAdd (herePos r) 1)).isNone &&
       match decodeBytes (leBytes 4 0x0605040A ++ leBytes 4 0) with
       | .ok (_, rest) => rest.isEmpty
       | .error _ => false) &&
    idle State.reset && (pick State.reset).isNone && { s with inbox := [.logFreeze] }.inbox = [.logFreeze] &&
    (duty { s with upsets := [.corrected 0] }).any (·.1.isNone) &&
    (let w := fun (n c : Nat) => ({ s with csrq := [⟨c, s.gang.key, s.gang.blk, n, .write, 7⟩] } : State)
     (duty (w 0x40 0)).any (·.1.isNone) && (duty (w 0x20 0)).any (·.1.isSome) && (duty (w 0x40 (s.clk + 1))).isNone) &&
    (later 0 .none .logFreeze s).agenda.map (·.ev) = [.logFreeze] && (later 0 .none .logFreeze s).agenda.all (fun d => decide (d.clk ≤ s.clk)) &&
    (match decodeBytes (leBytes 4 0x01000001 ++ leBytes 4 0) with
    | .ok _ => false
    | .error _ => true) &&
    (verOf s 0 0).any fun v => decide (2 < v.words) && (codeByte s 0 v 2).isSome) = true := by decide +kernel

/-- Each check of an instruction fails in a state that passes those before it. -/
theorem witness_ChecksInOrder :
    (let s := fun (m : Nat) => handled m
    let kernel := modGang fun g => { g with level := .kernel }
    [0xC0, 0xCD].all (fun m => let t := modSplit 0xFF (fun e => { e with left := 2 }) (s m); trapReady t && decide (1 < (cur t).left)) &&
    (let t := modSplit 0xFF (fun e => { e with hdr := plainHeader .gen }) (s 0x80); trapReady t && EngClass.mem.code ≠ hdrCls (cur t).hdr && decide ((cur t).left ≤ 1)) &&
    { s 0x43 with profD := false }.profD = false && trapReady { s 0x4C with profD := false } && (s 0x4C).profD &&
    [(0xBB, EngClass.sys), (0xDC, .sys), (0xD7, .sys), (0xDD, .sys), (0xDB, .sys), (0xD6, .sys)].all (fun m => let t := kernel (s m.1); trapReady t && m.2.code = hdrCls (cur t).hdr && t.gang.level = .kernel) &&
    (let t := modGang (fun g => { g with regs := 1 }) (s 6); trapReady t && decide (16 * t.gang.regs ≤ 16) && decide (15 < 16 * t.gang.regs))) = true := by decide +kernel

/-- Execution masks that are empty: no lane active, every lane dead, and a guard that is false in every lane. -/
theorem witness_EmptyMasksDoNothing :
    ([(Instr.add 4 5 6, only 0 (stand 6)), (.lds 4 8 0 .w .core g0, modGang (fun g => { g with dead := 0xFFFFFFFF }) (stand 0x82)),
      (.addsat 4 5 6 .i16x2 ⟨1, false, true⟩, stand 0x0A)].all fun c =>
      c.1.wf && execMask c.2 (ownGuard c.1) = 0 && c.2.gang.live && (cur c.2).stands = false && c.2.gang.pend = [] && c.2.gang.errs = [] && c.2.gang.txn = none && c.2.gang.redo = none && c.2.gang.rel = .none &&
      !fenced c.2 && c.2.gang.tags = [] && c.2.core.up = [] && c.2.core.down = [] && decide (c.2.core.div ≤ c.2.clk) &&
      decide ((nth Part.reset c.2.core.parts c.2.gang.key.part).sdiv ≤ c.2.clk) && c.2.gang.level = .firmware && c.2.gang.regs = 16 && debugOpen c.2) = true := by decide +kernel

end Sys2Proof.Tests
end

section
/-! Proofs of the statements on 06: the fields of the words that its instructions are made of, and their decoding (04 R89). -/

namespace Sys2Proof

@[simp] theorem wordR_major {m : Nat} (hm : m < 256) (d a b : Nat) : wordR m d a b % 256 = m := by
  unfold wordR; omega

@[simp] theorem fld_wordR_d {m d : Nat} (hm : m < 256) (hd : d < 256) (a b : Nat) : fld (wordR m d a b) 8 8 = d := by
  unfold fld wordR; omega

@[simp] theorem fld_wordR_a {m d a : Nat} (hm : m < 256) (hd : d < 256) (ha : a < 256) (b : Nat) : fld (wordR m d a b) 16 8 = a := by
  unfold fld wordR; omega

@[simp] theorem fld_wordR_b {m d a b : Nat} (hm : m < 256) (hd : d < 256) (ha : a < 256) (hb : b < 256) : fld (wordR m d a b) 24 8 = b := by
  unfold fld wordR; omega

@[simp] theorem wordJ_major {m : Nat} (hm : m < 256) (d i : Nat) : wordJ m d i % 256 = m := by
  unfold wordJ; omega

@[simp] theorem fld_wordJ_d {m d : Nat} (hm : m < 256) (hd : d < 256) (i : Nat) : fld (wordJ m d i) 8 8 = d := by
  unfold fld wordJ; omega

@[simp] theorem fld_wordJ_imm {m d i : Nat} (hm : m < 256) (hd : d < 256) (hi : i < 2 ^ 16) : fld (wordJ m d i) 16 16 = i := by
  unfold fld wordJ; omega

@[simp] theorem fld_wordX_sub {c f sub : Nat} (hc : c + f < 2 ^ 14) (hs : sub < 32) (ext : Nat) (x : Guard) :
    fld (wordX c f sub ext x) 14 5 = sub := by
  unfold fld wordX Guard.bits; omega

/-- A register number, or an immediate, is its own low field. -/
@[simp] theorem fld_toNat {n : Nat} (x : BitVec n) : fld x.toNat 0 n = x.toNat := by
  simp [fld, Nat.mod_eq_of_lt x.isLt]

@[simp] theorem natb_bnat (b : Bool) : natb (bnat b) = b := by cases b <;> rfl

/-- The guard that word 1 of an X form holds is read back from it (04 R89). -/
@[simp] theorem Guard.ofWord_wordX {c f sub : Nat} (hc : c + f < 2 ^ 14) (hs : sub < 32) (ext : Nat) (x : Guard) :
    Guard.ofWord (wordX c f sub ext x) = x := by
  have hgrd : fld (wordX c f sub ext x) 19 3 = x.grd.toNat := by
    have := x.grd.isLt; unfold fld wordX Guard.bits; omega
  have hgn : fld (wordX c f sub ext x) 22 1 = bnat x.gn := by
    have := x.grd.isLt; have := Laws.bnat_lt x.gn; unfold fld wordX Guard.bits; omega
  have hgo : fld (wordX c f sub ext x) 23 1 = bnat x.go := by
    have := x.grd.isLt; have := Laws.bnat_lt x.gn; have := Laws.bnat_lt x.go; unfold fld wordX Guard.bits; omega
  simp [Guard.ofWord, hgrd, hgn, hgo]

@[simp] theorem Sgn.ofCode_code (t : Sgn) : Sgn.ofCode t.code = some t := by cases t <;> rfl

theorem wordX_sgn (t : Sgn) (x : Guard) :
    wordX 0 0 t.code 0 x = (if t = .ui32 then 2 ^ 14 else 0) + x.grd.toNat * 2 ^ 19 + bnat x.gn * 2 ^ 22 + bnat x.go * 2 ^ 23 := by
  have ht : t.code * 2 ^ 14 = if t = .ui32 then 2 ^ 14 else 0 := by cases t <;> rfl
  unfold wordX Guard.bits
  rw [ht]
  omega

/-- A word decodes to the one-word instruction whose fields it holds and whose word it is. -/
theorem decode_one {i : Instr} {w0 w1 : Nat} (hn : wordsOf (w0 % 256) = some 1) (hx : extract w0 w1 = some i) (hw : i.wf = true)
    (he : encode i = [w0]) : decode w0 w1 = .ok (i, 1) := by
  simp [decode, hn, hx, hw, he]

/-- Two words decode to the instruction whose fields they hold and whose words they are. -/
theorem decode_two {i : Instr} {w0 w1 : Nat} (hn : wordsOf (w0 % 256) = some 2) (hx : extract w0 w1 = some i) (hw : i.wf = true)
    (he : encode i = [w0, w1]) : decode w0 w1 = .ok (i, 2) := by
  simp [decode, hn, hx, hw, he]

/-- `decode_one` for the forms R and I, by the major. -/
theorem decode_wordR {i : Instr} {m d a b w1 : Nat} (hm : m < 256) (hn : wordsOf m = some 1) (hx : extract (wordR m d a b) w1 = some i)
    (hw : i.wf = true) (he : encode i = [wordR m d a b]) : decode (wordR m d a b) w1 = .ok (i, 1) :=
  decode_one ((congrArg wordsOf (wordR_major hm d a b)).trans hn) hx hw he

/-- `decode_one` for the form J, by the major. -/
theorem decode_wordJ {i : Instr} {m d k w1 : Nat} (hm : m < 256) (hn : wordsOf m = some 1) (hx : extract (wordJ m d k) w1 = some i)
    (hw : i.wf = true) (he : encode i = [wordJ m d k]) : decode (wordJ m d k) w1 = .ok (i, 1) :=
  decode_one ((congrArg wordsOf (wordJ_major hm d k)).trans hn) hx hw he

/-- `decode_two` for the forms X and L, by the major. -/
theorem decode_wordR_two {i : Instr} {m d a b w1 : Nat} (hm : m < 256) (hn : wordsOf m = some 2) (hx : extract (wordR m d a b) w1 = some i)
    (hw : i.wf = true) (he : encode i = [wordR m d a b, w1]) : decode (wordR m d a b) w1 = .ok (i, 2) :=
  decode_two ((congrArg wordsOf (wordR_major hm d a b)).trans hn) hx hw he

theorem decode_nop (w1 : Nat) : decode (wordR 1 0 0 0) w1 = .ok (.nop, 1) := rfl

theorem decode_mov (d a : VReg) (w1 : Nat) : decode (wordR 2 d.toNat a.toNat 0) w1 = .ok (.mov d a, 1) :=
  decode_wordR (by decide) rfl (by simp (disch := omega) [extract, extract0]) rfl rfl

theorem decode_movi (d : VReg) (i : BitVec 16) (w1 : Nat) : decode (wordJ 3 d.toNat i.toNat) w1 = .ok (.movi d i, 1) :=
  decode_wordJ (by decide) rfl (by simp (disch := omega) [extract, extract0]) rfl rfl

theorem decode_movh (d : VReg) (i : BitVec 16) (w1 : Nat) : decode (wordJ 4 d.toNat i.toNat) w1 = .ok (.movh d i, 1) :=
  decode_wordJ (by decide) rfl (by simp (disch := omega) [extract, extract0]) rfl rfl

theorem decode_movl (d : VReg) (i : BitVec 32) : decode (wordR 5 d.toNat 0 0) i.toNat = .ok (.movl d i, 2) :=
  decode_wordR_two (by decide) rfl (by simp (disch := omega) [extract, extract0]) rfl rfl

theorem decode_bcast (d : VReg) (a : SReg) (w1 : Nat) : decode (wordR 0x3B d.toNat a.toNat 0) w1 = .ok (.bcast d a, 1) :=
  decode_wordR (by decide) rfl (by simp (disch := omega) [extract, extract3]) rfl rfl

theorem decode_vfromp (d : VReg) (a : PReg) (w1 : Nat) : decode (wordR 0x37 d.toNat a.toNat 0) w1 = .ok (.vfromp d a, 1) :=
  decode_wordR (by decide) rfl (by simp (disch := omega) [extract, extract3]) rfl rfl

theorem decode_smovi (d : SReg) (i : BitVec 16) (w1 : Nat) : decode (wordJ 0x3A d.toNat i.toNat) w1 = .ok (.smovi d i, 1) :=
  decode_wordJ (by decide) rfl (by simp (disch := omega) [extract, extract3]) rfl rfl

theorem decode_pand (d a b : PReg) (w1 : Nat) : decode (wordR 0x32 d.toNat a.toNat b.toNat) w1 = .ok (.pand d a b, 1) :=
  decode_wordR (by decide) rfl (by simp (disch := omega) [extract, extract3]) rfl rfl

theorem decode_por (d a b : PReg) (w1 : Nat) : decode (wordR 0x33 d.toNat a.toNat b.toNat) w1 = .ok (.por d a b, 1) :=
  decode_wordR (by decide) rfl (by simp (disch := omega) [extract, extract3]) rfl rfl

theorem decode_pxor (d a b : PReg) (w1 : Nat) : decode (wordR 0x34 d.toNat a.toNat b.toNat) w1 = .ok (.pxor d a b, 1) :=
  decode_wordR (by decide) rfl (by simp (disch := omega) [extract, extract3]) rfl rfl

theorem decode_pnot (d a : PReg) (w1 : Nat) : decode (wordR 0x35 d.toNat a.toNat 0) w1 = .ok (.pnot d a, 1) :=
  decode_wordR (by decide) rfl (by simp (disch := omega) [extract, extract3]) rfl rfl

theorem decode_pmov (d a : PReg) (w1 : Nat) : decode (wordR 0x36 d.toNat a.toNat 0) w1 = .ok (.pmov d a, 1) :=
  decode_wordR (by decide) rfl (by simp (disch := omega) [extract, extract3]) rfl rfl

theorem decode_idiv (d a b : VReg) (ty : Sgn) (x : Guard) :
    decode (wordR 0x2A d.toNat a.toNat b.toNat) (wordX 0 0 ty.code 0 x) = .ok (.idiv d a b ty x, 2) := by
  have hty : ty.code < 32 := Nat.lt_trans ty.code_lt (by decide)
  exact decode_wordR_two (by decide) rfl (by simp (disch := omega) [extract, extract2]) rfl rfl

theorem decode_irem (d a b : VReg) (ty : Sgn) (x : Guard) :
    decode (wordR 0x2B d.toNat a.toNat b.toNat) (wordX 0 0 ty.code 0 x) = .ok (.irem d a b ty x, 2) := by
  have hty : ty.code < 32 := Nat.lt_trans ty.code_lt (by decide)
  exact decode_wordR_two (by decide) rfl (by simp (disch := omega) [extract, extract2]) rfl rfl

end Sys2Proof
end

section
/-! What the operations of 06 compute, in the words of its rules, and how predicates, scalars and sticky bits are written. -/

namespace Sys2Proof.Machine

/-! Masks of lanes. -/

theorem lane_maskOf_of_lt (f : Nat → Bool) {l : Nat} (h : l < 32) : lane (maskOf f) l = f l := by
  rw [lane_maskOf, decide_eq_true h, Bool.true_and]

theorem lane_uniform {l : Nat} (h : l < 32) (b : Bool) : lane (if b then 0xFFFFFFFF else 0) l = b := by
  cases b with
  | false => exact lane_zero l
  | true =>
    show (BitVec.allOnes 32).getLsbD l = true
    rw [BitVec.getLsbD_allOnes, decide_eq_true h]

theorem lanesOf_eq_nil_iff (m : Word) : lanesOf m = [] ↔ m = 0 := by
  constructor
  · intro h
    refine BitVec.eq_of_getLsbD_eq fun l _ => ?_
    have hl : lane m l ≠ true := fun hl => by simpa [h] using (mem_lanesOf m l).mpr hl
    simpa [lane] using hl
  · rintro rfl
    exact List.filter_eq_nil_iff.mpr fun l _ => by simp

theorem predW_congr {f g : Nat → Bool} (h : ∀ l, l < 32 → f l = g l) (d : Nat) (m : Word) : predW d m f = predW d m g := by
  funext p l
  by_cases hl : l < 32
  · simp only [predW, h l hl]
  · simp [predW, lane_ge m (Nat.le_of_not_lt hl)]

/-- A comparison's result in one lane, combined with Pc there (06 R141). -/
def joined (comb : Comb) (c pc : Bool) : Bool :=
  match comb with
  | .none => c
  | .and => c && pc
  | .or => c || pc

theorem lane_combine (comb : Comb) (t p : Word) (l : Nat) : lane (combine comb t p) l = joined comb (lane t l) (lane p l) := by
  cases comb with
  | none => rfl
  | and => exact lane_and t p l
  | or => exact lane_or t p l

/-! Division and fields of bits (03 R79, 06 R134, R137 to R139). -/

theorem divRem_fst (ty : Sgn) (a b : Word) :
    (divRem (ty == .i32) a b).1 = if b = 0 then 0xFFFFFFFF else BitVec.ofInt 32 ((valOf ty a).tdiv (valOf ty b)) := by
  unfold divRem
  by_cases hb : b = 0
  · simp only [if_pos hb]
  · simp only [if_neg hb]
    cases ty with
    | i32 => rfl
    | ui32 =>
      show a / b = BitVec.ofInt 32 ((a.toNat : Int).tdiv b.toNat)
      rw [← Int.ofNat_tdiv, BitVec.ofInt_natCast, ← BitVec.toNat_udiv, BitVec.ofNat_toNat, BitVec.setWidth_eq]

theorem divRem_snd (ty : Sgn) (a b : Word) :
    (divRem (ty == .i32) a b).2 = if b = 0 then a else BitVec.ofInt 32 ((valOf ty a).tmod (valOf ty b)) := by
  unfold divRem
  by_cases hb : b = 0
  · simp only [if_pos hb]
  · simp only [if_neg hb]
    cases ty with
    | i32 => rfl
    | ui32 =>
      show a % b = BitVec.ofInt 32 ((a.toNat : Int).tmod b.toNat)
      rw [← Int.ofNat_tmod, BitVec.ofInt_natCast, ← BitVec.toNat_umod, BitVec.ofNat_toNat, BitVec.setWidth_eq]

theorem sextN_eq_toInt (x n : Nat) : sextN x n = (BitVec.ofNat n x).toInt := by
  unfold sextN
  cases n with
  | zero => exact (BitVec.toInt_zero_length _).symm
  | succ n =>
    rw [BitVec.toInt_eq_toNat_cond, BitVec.toNat_ofNat]
    simp only [Nat.succ_ne_zero, if_false, Nat.add_sub_cancel]
    have h : 2 ^ (n + 1) = 2 * 2 ^ n := by rw [Nat.pow_succ, Nat.mul_comm]
    by_cases hx : x % 2 ^ (n + 1) < 2 ^ n
    · rw [if_pos hx, if_pos (by omega)]
    · rw [if_neg hx, if_neg (by omega)]
      simp

theorem sxtW_shrW (a : Word) (pos len : Nat) : sxtW (shrW a pos) len = (a.extractLsb' pos len).signExtend 32 := by
  unfold sxtW shrW
  rw [sextN_eq_toInt, BitVec.toNat_ushiftRight]
  rfl

theorem zxtW_shrW (a : Word) (pos len : Nat) : zxtW (shrW a pos) len = (a.extractLsb' pos len).zeroExtend 32 := by
  apply BitVec.eq_of_toNat_eq
  simp [zxtW, shrW]

theorem getLsbD_fieldMask (pos len i : Nat) : (BitVec.ofNat 32 ((2 ^ len - 1) * 2 ^ pos)).getLsbD i =
    (decide (i < 32) && decide (pos ≤ i ∧ i < pos + len)) := by
  rw [BitVec.getLsbD_ofNat, Nat.testBit_mul_two_pow, Nat.testBit_two_pow_sub_one]
  congr 1
  by_cases h : pos ≤ i
  · have : i - pos < len ↔ i < pos + len := by omega
    simp [h, this]
  · simp [h]

/-- A field inserted by a mask is inserted bit by bit (06 R138). -/
theorem insertField_eq_maskOf (a b : Word) (pos len : Nat) :
    (a &&& ~~~BitVec.ofNat 32 ((2 ^ len - 1) * 2 ^ pos)) ||| (shlW b pos &&& BitVec.ofNat 32 ((2 ^ len - 1) * 2 ^ pos)) =
      maskOf fun i => if pos ≤ i ∧ i < pos + len then b.getLsbD (i - pos) else a.getLsbD i := by
  apply BitVec.eq_of_getLsbD_eq
  intro i hi
  rw [show (maskOf _).getLsbD i = _ from lane_maskOf_of_lt _ hi]
  simp only [shlW, BitVec.getLsbD_or, BitVec.getLsbD_and, BitVec.getLsbD_not, BitVec.getLsbD_shiftLeft, getLsbD_fieldMask, hi, decide_true,
    Bool.true_and]
  by_cases h : pos ≤ i ∧ i < pos + len
  · simp [h]
  · simp [h]

theorem elemOf_lt (x : Word) (w i : Nat) : elemOf x w i < 2 ^ w := Nat.mod_lt _ (Nat.two_pow_pos w)

theorem natb_div_128 {y : Nat} (h : y < 256) : natb (y / 128) = decide (128 ≤ y) := by
  unfold natb
  rw [Bool.eq_iff_iff, beq_iff_eq, decide_eq_true_iff]
  omega

/-- A field of the number that two words make is a field of their concatenation. -/
theorem fld_concat (a b : Word) (pos n : Nat) : fld (a.toNat + b.toNat * 2 ^ 32) pos n = ((b ++ a : DWord).extractLsb' pos n).toNat := by
  have h : (b ++ a : DWord).toNat = a.toNat + b.toNat * 2 ^ 32 := by
    rw [BitVec.toNat_append, ← Nat.shiftLeft_add_eq_or_of_lt a.isLt, Nat.shiftLeft_eq, Nat.add_comm]
  rw [BitVec.extractLsb'_toNat, h, Nat.shiftRight_eq_div_pow]
  rfl

/-! Writes. -/

theorem wrote_wrP_of_lanes {v : Word} {g : Nat → Bool} (h : ∀ l, l < 32 → lane v l = g l) (d : Nat) (m : Word) (s : State) :
    Wrote { p := predW d m g } s (wrP d m v s) := by
  rw [← predW_congr h]
  exact wrote_wrP d m v s

/-- A scalar written after other writes, where the mask holds a lane. -/
theorem Wrote.thenWrS {w : Writes} {s u : State} (h : Wrote w s u) (hw : w.s = fun _ => none) {m : Word} (hm : m ≠ 0) (d : Nat) (v : Word) :
    Wrote { w with s := scalW d m v } s (wrS d v u) := by
  refine ⟨h.lanes, fun r => ?_, h.preds, h.mode, h.kfull, fun e he => h.marks e (errs_wrS d v u e he), h.split, h.rest⟩
  have hr : rdS u r = rdS s r := by rw [h.scal, hw]; rfl
  simp only [rdS_wrS, hr, scalW, ne_eq, hm, not_false_eq_true, and_true]
  split <;> rfl

/-- XLDEAD set, where a dead lane was read, on top of writes. -/
theorem Wrote.setXldead {w : Writes} {s u : State} (h : Wrote w s u) (hw : w.mode = 0) (b : Bool) :
    Wrote { w with mode := if b then xldead else 0 } s (setXldead b u) := by
  cases b with
  | true => exact h.orMode hw xldead
  | false => exact h.congr (fun _ _ _ => rfl) (fun _ => rfl) (fun _ _ => rfl) hw

/-- An instruction that writes one predicate completes with the lanes of the word written. -/
theorem predWrite_completes (q : Req) (d : Nat) (v : State → Word) (i : Instr) (s : State) (g : Nat → Bool)
    (hx : exec i s = runs q s fun m s => .done (wrP d m (v s) s)) (hg : ∀ l, l < 32 → lane (v s) l = g l) :
    Completes q i { p := predW d (execMask s q.x) g } s :=
  completes_of_wrote q i _ s _ _ hx rfl (wrote_wrP_of_lanes hg ..)

end Sys2Proof.Machine
end

section
/-! The instructions of 06, and of 07 R169 and R170, that are none of the shared operation forms. -/

namespace Sys2Proof.Machine

theorem cmp_completes (d : PReg) (a b : VReg) (c : PReg) (ty : Sgn) (cond : CmpCond) (comb : Comb) (x : Guard) (s : State) :
    Completes { reqX 0x28 x with vr := [a.toNat, b.toNat], pr := [c.toNat], pw := [d.toNat] } (.cmp d a b c ty cond comb x)
      { p := predW d.toNat (execMask s (some x)) fun l =>
          joined comb (condHolds cond (valOf ty (rdV s a.toNat l)) (valOf ty (rdV s b.toNat l))) (lane (rdP s c.toNat) l) } s :=
  predWrite_completes _ _ _ _ _ _ rfl fun l hl => by rw [lane_combine, lane_maskOf_of_lt _ hl]

/-- The immediate of CMPI is extended as the type says (06 R141). -/
theorem valOf_imm (ty : Sgn) (i : BitVec 8) :
    valOf ty (if ty = .i32 then immS i else immZ i) = if ty = .i32 then i.toInt else i.toNat := by
  cases ty with
  | i32 => exact BitVec.toInt_signExtend_of_le (by decide)
  | ui32 =>
    show ((i.setWidth 32).toNat : Int) = i.toNat
    rw [BitVec.toNat_setWidth_of_le (by decide)]

theorem cmpi_completes (d : PReg) (a : VReg) (i : BitVec 8) (c : PReg) (ty : Sgn) (cond : CmpCond) (comb : Comb) (x : Guard) (s : State) :
    Completes { reqX 0x29 x with vr := [a.toNat], pr := [c.toNat], pw := [d.toNat] } (.cmpi d a i c ty cond comb x)
      { p := predW d.toNat (execMask s (some x)) fun l =>
          joined comb (condHolds cond (valOf ty (rdV s a.toNat l)) (if ty = .i32 then i.toInt else i.toNat)) (lane (rdP s c.toNat) l) } s :=
  predWrite_completes _ _ _ _ _ _ rfl fun l hl => by rw [lane_combine, lane_maskOf_of_lt _ hl, valOf_imm]

/-- SCMP compares once for the gang, and every lane combines the result with its own Pc (06 R146). -/
theorem scmp_completes (d : PReg) (a b : SReg) (c : PReg) (ty : ScmpTy) (cond : CmpCond) (comb : Comb) (x : Guard) (s : State) :
    Completes { reqX 0x3F x with
        sr := if ty = .i64 ∨ ty = .ui64 then pair a.toNat ++ pair b.toNat else [a.toNat, b.toNat], pr := [c.toNat], pw := [d.toNat] }
      (.scmp d a b c ty cond comb x)
      { p := predW d.toNat (execMask s (some x)) fun l =>
          joined comb (condHolds cond (scmpVals s ty a.toNat b.toNat).1 (scmpVals s ty a.toNat b.toNat).2) (lane (rdP s c.toNat) l) } s := by
  have hwide : (ty = .i64 ∨ ty = .ui64) = ((ty == .i64 || ty == .ui64) = true) := by simp
  simp only [hwide]
  exact predWrite_completes _ _ _ _ _ _ rfl fun l hl => by rw [lane_combine, lane_uniform hl]

/-- FCMP writes a predicate and ORs the flags of the mask's lanes into MODE (07 R169). -/
theorem fcmp_completes (d : PReg) (a b : VReg) (c : PReg) (fi : Bool) (ty : FTy) (hi : Bool) (cond : FCond) (comb : Comb) (x : Guard) (s : State) :
    let r := fun l => fcmpHolds cond ((ftyFmt ty).unpack fi (fElem s ty a.toNat l (bnat hi))) ((ftyFmt ty).unpack fi (fElem s ty b.toNat l (bnat hi)))
    Completes { fReq (reqX 0x49 x) ty [a.toNat, b.toNat] [] with pr := [c.toNat], pw := [d.toNat] } (.fcmp d a b c fi ty hi cond comb x)
      { p := predW d.toNat (execMask s (some x)) fun l => joined comb (r l).1 (lane (rdP s c.toNat) l)
        mode := flagBits ((lanesOf (execMask s (some x))).map fun l => { nv := (r l).2 }) } s := by
  intro r
  have hlanes : ∀ l, l < 32 → lane (combine comb (maskOf fun l => (r l).1) (rdP s c.toNat)) l = joined comb (r l).1 (lane (rdP s c.toNat) l) :=
    fun l hl => by rw [lane_combine, lane_maskOf_of_lt _ hl]
  exact completes_of_wrote _ _ _ s _ _ rfl rfl ((wrote_wrP_of_lanes hlanes d.toNat (execMask s (some x)) s).orMode rfl _)

theorem fclass_completes (d : PReg) (a : VReg) (mlo : BitVec 8) (mhi : BitVec 2) (ty : FTy) (hi : Bool) (x : Guard) (s : State) :
    Completes { fReq (reqX 0x4A x) ty [a.toNat] [] with pw := [d.toNat] } (.fclass d a mlo mhi ty hi x)
      { p := predW d.toNat (execMask s (some x)) fun l =>
          (mhi ++ mlo : BitVec 10).getLsbD ((ftyFmt ty).classBit (fElem s ty a.toNat l (bnat hi))) } s :=
  predWrite_completes _ _ _ _ _ _ rfl fun _ hl => lane_maskOf_of_lt _ hl

/-- The operations of SALU on 32 bits are one scalar operation (06 R144). -/
theorem execSalu_word (d a b : SReg) (op : SaluOp) (x : Guard) (s : State) (ha : op ≠ .add64) (hs : op ≠ .sub64) :
    execSalu d a b op x s =
      scalOp { reqX 0x38 x with sr := saluReads op a b, lat := saluLat op } d.toNat (fun s => saluW op (rdS s a.toNat) (rdS s b.toNat)) s := by
  unfold execSalu
  split
  · exact absurd rfl ha
  · exact absurd rfl hs
  · rfl

/-- The operations of SALUI on 32 bits, but for .mov, are one scalar operation (06 R144). -/
theorem execSalui_word (d a : SReg) (op : SaluOp) (i : BitVec 32) (s : State) (ha : op ≠ .add64) (hs : op ≠ .sub64) (hm : op ≠ .mov) :
    execSalui d a op i s = scalOp { reqL 0x39 with sr := [a.toNat], lat := saluLat op } d.toNat (fun s => saluW op (rdS s a.toNat) i) s := by
  unfold execSalui
  split
  · exact absurd rfl ha
  · exact absurd rfl hs
  · exact absurd rfl hm
  · rfl

/-- What RDLANE leaves is one scalar write, of 0 for a lane that is missing or dead, and XLDEAD for one that is dead (06 R132). -/
theorem rdlane_leaves (s : State) (d r l : Nat) (m : Word) :
    (if m = 0 then s else if !hasLane s.gang l then wrS d 0 s else if lane s.gang.dead l then setXldead true (wrS d 0 s) else wrS d (rdV s r l) s) =
      setXldead (decide (m ≠ 0 ∧ hasLane s.gang l = true ∧ lane s.gang.dead l = true))
        (if m = 0 then s else wrS d (if hasLane s.gang l && !lane s.gang.dead l then rdV s r l else 0) s) := by
  by_cases hm : m = 0
  · simp [hm, setXldead]
  · simp only [ne_eq, hm, not_false_eq_true, true_and]
    cases hasLane s.gang l <;> cases lane s.gang.dead l <;> rfl

theorem rdlane_completes (d : SReg) (a : VReg) (b : SReg) (n : BitVec 8) (reg : Bool) (x : Guard) (s : State) :
    Completes (rdlaneReq d a b n reg x) (.rdlane d a b n reg x)
      (let m := execMask s (some x)
       let l := laneSel s b n reg
       { s := scalW d.toNat m (if hasLane s.gang l && !lane s.gang.dead l then rdV s a.toNat l else 0)
         mode := if m ≠ 0 ∧ hasLane s.gang l = true ∧ lane s.gang.dead l = true then xldead else 0 }) s := by
  refine completes_of_wrote _ _ _ s _ _ rfl (congrArg Eff.done (rdlane_leaves s d.toNat a.toNat (laneSel s b n reg) _)) ?_
  refine ((wrote_wrS d.toNat (execMask s (some x)) _ s).setXldead rfl _).congr (fun _ _ _ => rfl) (fun _ => rfl) (fun _ _ => rfl) ?_
  simp only [decide_eq_true_eq]
  rfl

theorem wrlane_completes (d : VReg) (a b : SReg) (n : BitVec 8) (reg : Bool) (x : Guard) (s : State) :
    Completes { reqX 0x3D x with vw := [d.toNat], sr := a.toNat :: if reg then [b.toNat] else [] } (.wrlane d a b n reg x)
      { v := fun r k => if r = d.toNat ∧ k = laneSel s b n reg ∧ lane (execMask s (some x)) k = true then some (rdS s a.toNat) else none } s := by
  refine completes_of_wrote _ _ _ s _ _ rfl rfl ((wrote_wrV ..).congr (fun r k hk => ?_) (fun _ => rfl) (fun _ _ => rfl) rfl)
  simp only [laneW, lane_and, lane_maskOf, hk, decide_true, Bool.true_and, Bool.and_eq_true, beq_iff_eq, and_comm (b := k = _)]
  rfl

/-- ELECT marks the lowest lane of the mask, and writes its number where asked (06 R143). -/
theorem elect_completes (d : PReg) (a : SReg) (ws : Bool) (s : State) :
    Completes { req1 0x3E with pw := [d.toNat], sw := if ws then [a.toNat] else [] } (.elect d a ws)
      { p := predW d.toNat (execMask s none) fun l => l == (lanesOf (execMask s none)).headD 0
        s := if ws then scalW a.toNat (execMask s none) (BitVec.ofNat 32 ((lanesOf (execMask s none)).headD 0)) else fun _ => none } s := by
  cases hls : lanesOf (execMask s none) with
  | nil =>
    have hm : execMask s none = 0 := (lanesOf_eq_nil_iff _).mp hls
    refine completes_of_wrote _ _ _ s _ s rfl ?_ ((Wrote.nil s).congr (fun _ _ _ => rfl) (fun r => ?_) (fun p l => ?_) rfl)
    · show Eff.done (match lanesOf (execMask s none) with | [] => s | _ :: _ => _) = _
      rw [hls]
    · cases ws <;> simp [scalW, hm]
    · simp [predW, hm]
  | cons e t =>
    have hm : execMask s none ≠ 0 := fun h => by simp [(lanesOf_eq_nil_iff _).mpr h] at hls
    have hp : Wrote { p := predW d.toNat (execMask s none) fun l => l == e } s (wrP d.toNat (execMask s none) (maskOf (· == e)) s) :=
      wrote_wrP_of_lanes (fun _ hl => lane_maskOf_of_lt _ hl) ..
    generalize hu : wrP d.toNat (execMask s none) (maskOf (· == e)) s = u at hp
    refine completes_of_wrote _ _ _ s _ (if ws then wrS a.toNat (BitVec.ofNat 32 e) u else u) rfl ?_ ?_
    · show Eff.done (match lanesOf (execMask s none) with | [] => s | _ :: _ => _) = _
      rw [hls, ← hu]
      rfl
    · cases ws with
      | false => exact hp
      | true => exact hp.thenWrS rfl hm a.toNat (BitVec.ofNat 32 e)

end Sys2Proof.Machine
end

section
/-! The statements on 06 settled. -/

namespace Sys2Proof.Machine

/-- Settles O2: each move is one lane operation, and each word holds its instruction's fields. -/
theorem movesComplete : Obligations.MovesComplete := by
  refine ⟨fun s => ?_, fun d a s => ?_, fun d i s => ?_, fun d i s => ?_, fun d i s => ?_, fun d a s => ?_, fun d a s => ?_, fun d what s => ?_,
    fun w1 => ?_, fun d a w1 => ?_, fun d i w1 => ?_, fun d i w1 => ?_, fun d i => ?_, fun d a w1 => ?_, fun d a w1 => ?_⟩
  · exact completes_of_wrote _ _ _ s _ _ rfl rfl (Wrote.nil s)
  · exact laneOp_completes (req1 0x02) _ _ _ _ _ _ rfl fun _ _ _ => rfl
  · exact laneOp_completes (req1 0x03) _ _ _ _ _ _ rfl fun _ _ _ => rfl
  · exact laneOp_completes (req1 0x04) _ _ _ _ _ _ rfl fun _ _ _ => rfl
  · exact laneOp_completes (reqL 0x05) _ _ _ _ _ _ rfl fun _ _ _ => rfl
  · exact laneOp_completes { req1 0x3B with sr := [a.toNat] } _ _ _ _ _ _ rfl fun _ _ _ => rfl
  · exact laneOp_completes { req1 0x37 with pr := [a.toNat] } _ _ _ _ _ _ rfl fun _ _ _ => rfl
  · exact laneOp_completes (req1 0x74) _ _ _ _ _ _ rfl fun _ _ _ => by cases what <;> rfl
  · exact decode_nop w1
  · simpa [wordR] using decode_mov d a w1
  · exact decode_movi d i w1
  · exact decode_movh d i w1
  · simpa [wordR] using decode_movl d i
  · simpa [wordR] using decode_bcast d a w1
  · simpa [wordR] using decode_vfromp d a w1

/-- Settles O6: division by the two cases of the sign, fields bit by bit, and the rest as they are written. -/
theorem divisionAndFieldsComplete : Obligations.DivisionAndFieldsComplete := by
  refine ⟨fun d a b ty x s => ?_, fun d a b ty x s => ?_, fun rem d a b ty x => ?_, fun d a sx pos len x s _ _ => ?_, fun d a b pos len x s _ _ => ?_,
    fun d a b i sh x s => ?_, fun d a b c x s => ?_, fun d a b c x s => ?_, fun d a b sub x s => ?_, fun d a b c right x s => ?_⟩
  · exact laneOp_completes (reqX 0x2A x) _ _ _ _ _ _ rfl fun _ _ _ => divRem_fst ..
  · exact laneOp_completes (reqX 0x2B x) _ _ _ _ _ _ rfl fun _ _ _ => divRem_snd ..
  · rw [← wordX_sgn]
    cases rem with
    | false => exact decode_idiv d a b ty x
    | true => exact decode_irem d a b ty x
  · refine laneOp_completes (reqX 0x24 x) _ _ _ _ _ _ rfl fun _ _ _ => ?_
    cases sx with
    | false => exact zxtW_shrW ..
    | true => exact sxtW_shrW ..
  · exact laneOp_completes (reqX 0x25 x) _ _ _ _ _ _ rfl fun _ _ _ => insertField_eq_maskOf ..
  · exact laneOp_completes (reqX 0x26 x) _ _ _ _ _ _ rfl fun _ _ _ => rfl
  · exact laneOp_completes { reqX 0x27 x with pr := [c.toNat] } _ _ _ _ _ _ rfl fun _ _ _ => rfl
  · refine laneOp_completes (reqX 0x2E x) _ _ _ _ _ _ rfl fun _ _ _ => congrArg (packElems 8) (funext fun i => ?_)
    simp only [natb_div_128 (elemOf_lt _ 8 i), fld_concat, decide_eq_true_eq]
  · exact lanePairOp_completes (reqX 0x2F x) _ _ _ _ _ _ rfl fun _ _ => rfl
  · exact laneOp_completes (reqX 0x30 x) _ _ _ _ _ _ rfl fun _ _ _ => rfl

/-- Settles O7: each instruction writes one predicate, lane by lane, and FCMP its flags besides. -/
theorem predicatesComplete : Obligations.PredicatesComplete := by
  refine ⟨fun d a b c ty cond comb x s => ?_, fun d a i c ty cond comb x s => ?_, fun d a b c ty cond comb x s => ?_, fun d a b s => ?_,
    fun d a b s => ?_, fun d a b s => ?_, fun d a s => ?_, fun d a s => ?_, fun d a b c fi ty hi cond comb x s => ?_,
    fun d a mlo mhi ty hi x s => ?_, fun d a b w1 => ?_, fun d a b w1 => ?_, fun d a b w1 => ?_, fun d a w1 => ?_, fun d a w1 => ?_⟩
  · exact cmp_completes d a b c ty cond comb x s
  · exact cmpi_completes d a i c ty cond comb x s
  · have h := scmp_completes d a b c ty cond comb x s
    cases ty <;> exact h
  · exact predOp_completes (req1 0x32) [] _ _ _ _ _ _ rfl fun l _ => lane_and _ _ l
  · exact predOp_completes (req1 0x33) [] _ _ _ _ _ _ rfl fun l _ => lane_or _ _ l
  · exact predOp_completes (req1 0x34) [] _ _ _ _ _ _ rfl fun l _ => lane_xor _ _ l
  · exact predOp_completes (req1 0x35) [] _ _ _ _ _ _ rfl fun _ _ => rfl
  · exact predOp_completes (req1 0x36) [] _ _ _ _ _ _ rfl fun _ _ => rfl
  · exact fcmp_completes d a b c fi ty hi cond comb x s
  · exact fclass_completes d a mlo mhi ty hi x s
  · exact decode_pand d a b w1
  · exact decode_por d a b w1
  · exact decode_pxor d a b w1
  · simpa [wordR] using decode_pnot d a w1
  · simpa [wordR] using decode_pmov d a w1

/-- Settles O8: scalar operations write once for the gang; RDLANE, WRLANE and ELECT by the lanes they name. -/
theorem scalarsComplete : Obligations.ScalarsComplete := by
  refine ⟨fun d a b op x s ha hs => ?_, fun d a b x s => ?_, fun d a b x s => ?_, fun d a op i s ha hs hm => ?_, fun d a i s => ?_, fun d a i s => ?_,
    fun d a i s => ?_, fun d i s => ?_, fun d a b n reg x s => ?_, fun d a b n reg x s => ?_, fun d a ws s => ?_, fun d i w1 => ?_⟩
  · exact scalOp_completes { reqX 0x38 x with sr := saluReads op a b, lat := saluLat op } _ _ _ _ _ (execSalu_word d a b op x s ha hs) rfl
  · exact scalPairOp_completes { reqX 0x38 x with sr := pair a.toNat ++ pair b.toNat } _ _ _ _ _ rfl rfl
  · exact scalPairOp_completes { reqX 0x38 x with sr := pair a.toNat ++ pair b.toNat } _ _ _ _ _ rfl rfl
  · exact scalOp_completes { reqL 0x39 with sr := [a.toNat], lat := saluLat op } _ _ _ _ _ (execSalui_word d a op i s ha hs hm) rfl
  · exact scalPairOp_completes { reqL 0x39 with sr := pair a.toNat } _ _ _ _ _ rfl rfl
  · exact scalPairOp_completes { reqL 0x39 with sr := pair a.toNat } _ _ _ _ _ rfl rfl
  · exact scalOp_completes (reqL 0x39) _ _ _ _ _ rfl rfl
  · exact scalOp_completes (req1 0x3A) _ _ _ _ _ rfl rfl
  · exact rdlane_completes d a b n reg x s
  · exact wrlane_completes d a b n reg x s
  · exact elect_completes d a ws s
  · exact decode_smovi d i w1

end Sys2Proof.Machine
end

section
/-! What the operations of 07 R163 to R168 compute on the exact values of their operands (03 R76, 07 R165). -/

namespace Sys2Proof.Machine

/-- The exact sum of two numbers, in units of the lesser of their last places. -/
def exactSum (s : Bool) (m : Nat) (e : Int) (t : Bool) (n : Nat) (k : Int) : Int :=
  let x : Int := ((m * 2 ^ (e - min e k).toNat : Nat) : Int)
  let y : Int := ((n * 2 ^ (k - min e k).toNat : Nat) : Int)
  (if s then -x else x) + (if t then -y else y)

/-- The exact sum of two numbers rounded once: a sum that is zero has the sign that 07 R165 gives. -/
def roundedSum (f : Fmt) (rm : RM) (fo s : Bool) (m : Nat) (e : Int) (t : Bool) (n : Nat) (k : Int) : Nat × Fl :=
  if exactSum s m e t n k = 0 then (f.sign (if m = 0 ∧ n = 0 ∧ s = t then s else decide (rm = .dn)), Fl.nil)
  else f.round rm false fo (.num (decide (exactSum s m e t n k < 0)) (exactSum s m e t n k).natAbs (min e k))

/-! Signs of values. -/

theorem Val.negate_num (s : Bool) (m : Nat) (e : Int) (c : Bool) : (if c then (Val.num s m e).negate else .num s m e) = .num (s != c) m e := by
  cases c with
  | false => exact congrArg (Val.num · m e) (Bool.bne_false s).symm
  | true => exact congrArg (Val.num · m e) (Bool.bne_true s).symm

theorem Val.negate_inf (s c : Bool) : (if c then (Val.inf s).negate else .inf s) = .inf (s != c) := by
  cases c with
  | false => exact congrArg Val.inf (Bool.bne_false s).symm
  | true => exact congrArg Val.inf (Bool.bne_true s).symm

theorem Val.isNan_negate (a : Val) (c : Bool) : (if c then a.negate else a).isNan = a.isNan := by
  cases c <;> cases a <;> rfl

theorem Val.isSig_negate (a : Val) (c : Bool) : (if c then a.negate else a).isSig = a.isSig := by
  cases c <;> cases a <;> rfl

theorem Val.isInf_negate (a : Val) (c : Bool) : (if c then a.negate else a).isInf = a.isInf := by
  cases c <;> cases a <;> rfl

theorem Val.isZero_negate (a : Val) (c : Bool) : (if c then a.negate else a).isZero = a.isZero := by
  cases c <;> cases a <;> rfl

/-! Sums and products of values, by their kinds. -/

theorem Val.add_num (rm : RM) (s : Bool) (m : Nat) (e : Int) (t : Bool) (n : Nat) (k : Int) :
    (Val.num s m e).add rm (.num t n k) =
      (.num (if exactSum s m e t n k = 0 then (if m = 0 ∧ n = 0 ∧ s = t then s else decide (rm = .dn)) else decide (exactSum s m e t n k < 0))
        (exactSum s m e t n k).natAbs (min e k), false) := by
  have hsign : (if (decide (m = 0) && decide (n = 0) && s == t) = true then s else rm == .dn) =
      if m = 0 ∧ n = 0 ∧ s = t then s else decide (rm = .dn) := by
    simp only [Bool.and_eq_true, decide_eq_true_eq, and_assoc, Bool.beq_eq_decide_eq]
  rw [← hsign]
  rfl

theorem Val.exists_of_isNan {a : Val} (h : a.isNan = true) : ∃ g, a = .nan g := by
  cases a with
  | nan g => exact ⟨g, rfl⟩
  | inf s => cases h
  | num s m e => cases h

theorem Val.exists_of_isInf {a : Val} (h : a.isInf = true) : ∃ s, a = .inf s := by
  cases a with
  | nan g => cases h
  | inf s => exact ⟨s, rfl⟩
  | num s m e => cases h

theorem Val.exists_of_isZero {a : Val} (h : a.isZero = true) : ∃ s e, a = .num s 0 e := by
  cases a with
  | nan g => cases h
  | inf s => cases h
  | num s m e => exact ⟨s, e, by rw [eq_of_beq h]⟩

theorem Val.add_nan (rm : RM) (a : Val) (g : Bool) : a.add rm (.nan g) = (.nan false, a.isSig || g) := by
  cases a with
  | nan g' => rfl
  | inf s => exact congrArg (Prod.mk _) (Bool.or_comm ..)
  | num s m e => exact congrArg (Prod.mk _) (Bool.or_comm ..)

theorem Val.mul_nan (a : Val) (g : Bool) : a.mul (.nan g) = (.nan false, a.isSig || g) := by
  cases a with
  | nan g' => rfl
  | inf s => exact congrArg (Prod.mk _) (Bool.or_comm ..)
  | num s m e => exact congrArg (Prod.mk _) (Bool.or_comm ..)

theorem Val.add_of_nan {a b : Val} (h : a.isNan = true ∨ b.isNan = true) (rm : RM) : a.add rm b = (.nan false, a.isSig || b.isSig) := by
  rcases h with h | h
  · obtain ⟨g, rfl⟩ := Val.exists_of_isNan h
    rfl
  · obtain ⟨g, rfl⟩ := Val.exists_of_isNan h
    exact Val.add_nan rm a g

theorem Val.mul_of_nan {a b : Val} (h : a.isNan = true ∨ b.isNan = true) : a.mul b = (.nan false, a.isSig || b.isSig) := by
  rcases h with h | h
  · obtain ⟨g, rfl⟩ := Val.exists_of_isNan h
    rfl
  · obtain ⟨g, rfl⟩ := Val.exists_of_isNan h
    exact Val.mul_nan a g

theorem Val.add_inf_of_ne {s t : Bool} (h : s ≠ t) (rm : RM) : (Val.inf s).add rm (.inf t) = (.nan false, true) := if_neg h

theorem Val.mul_of_inf_of_zero {a b : Val} (h : (a.isInf = true ∧ b.isZero = true) ∨ (a.isZero = true ∧ b.isInf = true)) :
    a.mul b = (.nan false, true) := by
  rcases h with ⟨ha, hb⟩ | ⟨ha, hb⟩
  · obtain ⟨s, rfl⟩ := Val.exists_of_isInf ha
    obtain ⟨t, k, rfl⟩ := Val.exists_of_isZero hb
    rfl
  · obtain ⟨s, e, rfl⟩ := Val.exists_of_isZero ha
    obtain ⟨t, rfl⟩ := Val.exists_of_isInf hb
    rfl

theorem Val.fma_of_invalid_product {a b : Val} (h : a.mul b = (.nan false, true)) (rm : RM) (c : Val) : Val.fma rm a b c = (.nan false, true) := by
  have hadd : (Val.nan false).add rm c = (.nan false, c.isSig) := Val.add_of_nan (.inl rfl) rm
  simp only [Val.fma, h, hadd, Bool.true_or]

/-! Rounding a result with its NV. -/

theorem Fmt.finish_nan (f : Fmt) (rm : RM) (sat fo sig nv : Bool) : f.finish rm sat fo (.nan sig, nv) = (f.nan, { nv := nv }) := rfl

theorem Fmt.ite_nv {c : Prop} [Decidable c] {a b : Nat × Fl} (ha : a.2.nv = false) (hb : b.2.nv = false) :
    (if c then a else b).2.nv = false := by
  by_cases h : c
  · rwa [if_pos h]
  · rwa [if_neg h]

/-- Rounding raises no NV of its own. -/
theorem Fmt.round_nv (f : Fmt) (rm : RM) (sat fo : Bool) (v : Val) : (f.round rm sat fo v).2.nv = false := by
  unfold Fmt.round
  split
  · rfl
  · rfl
  · rfl
  · exact Fmt.ite_nv rfl (Fmt.ite_nv rfl rfl)

theorem Fmt.finish_valid (f : Fmt) (rm : RM) (sat fo : Bool) (v : Val) : f.finish rm sat fo (v, false) = f.round rm sat fo v :=
  Prod.ext rfl (by
    show { (f.round rm sat fo v).2 with nv := false } = (f.round rm sat fo v).2
    rw [← Fmt.round_nv f rm sat fo v])

theorem Fmt.round_add_num (f : Fmt) (rm : RM) (fo s : Bool) (m : Nat) (e : Int) (t : Bool) (n : Nat) (k : Int) :
    f.round rm false fo ((Val.num s m e).add rm (.num t n k)).1 = roundedSum f rm fo s m e t n k := by
  rw [Val.add_num]
  unfold roundedSum
  by_cases hz : exactSum s m e t n k = 0
  · simp only [hz, if_true]
    rfl
  · simp only [if_neg hz]

/-! The operations on encodings (07 R165). -/

theorem Fmt.addBits_eq (f : Fmt) (rm : RM) (fi fo sub : Bool) (x y : Nat) : f.addBits rm fi fo sub x y =
    f.finish rm false fo ((f.unpack fi x).add rm (if sub then (f.unpack fi y).negate else f.unpack fi y)) := rfl

theorem Fmt.mulBits_eq (f : Fmt) (rm : RM) (fi fo : Bool) (x y : Nat) :
    f.mulBits rm fi fo x y = f.finish rm false fo ((f.unpack fi x).mul (f.unpack fi y)) := rfl

theorem Fmt.fmaBits_eq (f : Fmt) (rm : RM) (fi fo np nc : Bool) (x y z : Nat) : f.fmaBits rm fi fo np nc x y z =
    f.finish rm false fo (Val.fma rm (if np then (f.unpack fi x).negate else f.unpack fi x) (f.unpack fi y)
      (if nc then (f.unpack fi z).negate else f.unpack fi z)) := rfl

theorem Fmt.addBits_of_num {f : Fmt} {fi : Bool} {x y : Nat} {s t : Bool} {m n : Nat} {e k : Int} (hx : f.unpack fi x = .num s m e)
    (hy : f.unpack fi y = .num t n k) (rm : RM) (fo sub : Bool) : f.addBits rm fi fo sub x y = roundedSum f rm fo s m e (t != sub) n k := by
  rw [Fmt.addBits_eq, hx, hy, Val.negate_num, ← Fmt.round_add_num]
  exact Fmt.finish_valid ..

theorem Fmt.mulBits_of_num {f : Fmt} {fi : Bool} {x y : Nat} {s t : Bool} {m n : Nat} {e k : Int} (hx : f.unpack fi x = .num s m e)
    (hy : f.unpack fi y = .num t n k) (rm : RM) (fo : Bool) :
    f.mulBits rm fi fo x y = f.round rm false fo (.num (s != t) (m * n) (e + k)) := by
  rw [Fmt.mulBits_eq, hx, hy]
  exact Fmt.finish_valid ..

theorem Fmt.fmaBits_of_num {f : Fmt} {fi : Bool} {x y z : Nat} {s t u : Bool} {m n o : Nat} {e k j : Int} (hx : f.unpack fi x = .num s m e)
    (hy : f.unpack fi y = .num t n k) (hz : f.unpack fi z = .num u o j) (rm : RM) (fo np nc : Bool) :
    f.fmaBits rm fi fo np nc x y z = roundedSum f rm fo ((s != np) != t) (m * n) (e + k) (u != nc) o j := by
  rw [Fmt.fmaBits_eq, hx, hy, hz, Val.negate_num, Val.negate_num, ← Fmt.round_add_num]
  exact Fmt.finish_valid ..

theorem Fmt.addBits_of_nan {f : Fmt} {fi : Bool} {x y : Nat} (h : (f.unpack fi x).isNan = true ∨ (f.unpack fi y).isNan = true) (rm : RM)
    (fo sub : Bool) : f.addBits rm fi fo sub x y = (f.nan, { nv := (f.unpack fi x).isSig || (f.unpack fi y).isSig }) := by
  rw [Fmt.addBits_eq, Val.add_of_nan (by rwa [Val.isNan_negate]), Val.isSig_negate, Fmt.finish_nan]

theorem Fmt.mulBits_of_nan {f : Fmt} {fi : Bool} {x y : Nat} (h : (f.unpack fi x).isNan = true ∨ (f.unpack fi y).isNan = true) (rm : RM)
    (fo : Bool) : f.mulBits rm fi fo x y = (f.nan, { nv := (f.unpack fi x).isSig || (f.unpack fi y).isSig }) := by
  rw [Fmt.mulBits_eq, Val.mul_of_nan h, Fmt.finish_nan]

theorem Fmt.addBits_of_opposite_inf {f : Fmt} {fi : Bool} {x y : Nat} {s t sub : Bool} (hx : f.unpack fi x = .inf s) (hy : f.unpack fi y = .inf t)
    (h : s ≠ (t != sub)) (rm : RM) (fo : Bool) : f.addBits rm fi fo sub x y = (f.nan, { nv := true }) := by
  rw [Fmt.addBits_eq, hx, hy, Val.negate_inf, Val.add_inf_of_ne h, Fmt.finish_nan]

theorem Fmt.mulBits_of_inf_of_zero {f : Fmt} {fi : Bool} {x y : Nat}
    (h : ((f.unpack fi x).isInf = true ∧ (f.unpack fi y).isZero = true) ∨ ((f.unpack fi x).isZero = true ∧ (f.unpack fi y).isInf = true))
    (rm : RM) (fo : Bool) : f.mulBits rm fi fo x y = (f.nan, { nv := true }) := by
  rw [Fmt.mulBits_eq, Val.mul_of_inf_of_zero h, Fmt.finish_nan]

theorem Fmt.fmaBits_of_inf_of_zero {f : Fmt} {fi : Bool} {x y : Nat}
    (h : ((f.unpack fi x).isInf = true ∧ (f.unpack fi y).isZero = true) ∨ ((f.unpack fi x).isZero = true ∧ (f.unpack fi y).isInf = true))
    (rm : RM) (fo np nc : Bool) (z : Nat) : f.fmaBits rm fi fo np nc x y z = (f.nan, { nv := true }) := by
  rw [Fmt.fmaBits_eq, Val.fma_of_invalid_product (Val.mul_of_inf_of_zero (by rwa [Val.isInf_negate, Val.isZero_negate])), Fmt.finish_nan]

end Sys2Proof.Machine
end

section
/-! The instructions of 07 that compute each element of each lane apart (07 R160), and their decoding (04 R89). -/

namespace Sys2Proof

theorem decode_fadd (d a b : VReg) (w1 : Nat) : decode (wordR 0x40 d.toNat a.toNat b.toNat) w1 = .ok (.fadd d a b, 1) :=
  decode_wordR (by decide) rfl (by simp (disch := omega) [extract, extract4]) rfl rfl

theorem decode_fsub (d a b : VReg) (w1 : Nat) : decode (wordR 0x41 d.toNat a.toNat b.toNat) w1 = .ok (.fsub d a b, 1) :=
  decode_wordR (by decide) rfl (by simp (disch := omega) [extract, extract4]) rfl rfl

theorem decode_fmul (d a b : VReg) (w1 : Nat) : decode (wordR 0x42 d.toNat a.toNat b.toNat) w1 = .ok (.fmul d a b, 1) :=
  decode_wordR (by decide) rfl (by simp (disch := omega) [extract, extract4]) rfl rfl

end Sys2Proof

namespace Sys2Proof.Machine

/-- What is written depends on the results of the elements that a type has. -/
theorem floatW_congr {ty : FTy} {f g : Nat → Nat → Nat × Fl} (h : ∀ l j, j < ftyCount ty → f l j = g l j) (d : Nat) (m : Word) :
    floatW ty d m f = floatW ty d m g := by
  have hels : ∀ l, (List.range (ftyCount ty)).map (f l) = (List.range (ftyCount ty)).map (g l) := fun l =>
    List.map_congr_left fun j hj => h l j (List.mem_range.mp hj)
  unfold floatW
  simp only [hels]

/-- An instruction that computes each element apart completes with the elements' results and flags. -/
theorem fLanes_completes (q : Req) (ty : FTy) (rs : List Nat) (d : Nat) (f : State → Nat → Nat → Nat × Fl) (i : Instr) (s : State)
    (g : Nat → Nat → Nat × Fl) (hx : exec i s = fLanes q ty rs d f s) (hg : ∀ l j, j < ftyCount ty → f s l j = g l j) :
    Completes (fReq q ty rs [d]) i (floatW ty d (execMask s q.x) g) s := by
  rw [← floatW_congr hg]
  refine completes_of_wrote _ i _ s _ _ hx rfl ?_
  unfold floatW
  by_cases hty : ty = .f64
  · simp only [if_pos hty]
    exact (wrote_wrVV ..).orMode rfl _
  · simp only [if_neg hty]
    exact (wrote_wrV ..).orMode rfl _

/-- The result of a special function on an input's bits, under MODE.FTZI, MODE.FTZO and MODE.RM (07 R179). -/
def specialResult (f : RM → Bool → Word → Val → Nat × Fl) (ftzi ftzo : Bool) (rm : RM) (n : Nat) : Nat × Fl :=
  let x : Word := BitVec.ofNat 32 (Fmt.fp32.flushed ftzi n)
  f rm ftzo x (Fmt.fp32.unpack false x.toNat)

/-- The one element of an FP32 operand is its register. -/
theorem fElem_f32_zero (s : State) (r l : Nat) : fElem s .f32 r l 0 = (rdV s r l).toNat :=
  (if_neg (by decide)).trans (fld_toNat (rdV s r l))

/-- A special function completes with what it gives on each lane's input. -/
theorem specialOp_completes (maj : Nat) (d a : VReg) (f : RM → Bool → Word → Val → Nat × Fl) (i : Instr) (s : State)
    (hx : exec i s = specialOp maj d a (fun s => f (modeRM s)) s) :
    Completes (fReq (req1 maj) .f32 [a.toNat] [d.toNat]) i
      (floatW .f32 d.toNat (execMask s none) fun l j => specialResult f (modeFtzi s) (modeFtzo s) (modeRM s) (fElem s .f32 a.toNat l j)) s := by
  refine fLanes_completes (req1 maj) .f32 _ _ _ _ _ _ hx fun l j hj => ?_
  rw [Nat.lt_one_iff.mp hj, fElem_f32_zero]
  rfl

/-- The quotient of two encodings, rounded once, with the flags of the division and of the rounding (07 R180). -/
def quotientBits (fi fo : Bool) (rm : RM) (x y : Nat) : Nat × Fl :=
  let q := (Fmt.fp32.unpack fi x).div (Fmt.fp32.unpack fi y)
  let r := Fmt.fp32.round rm false fo q.1
  (r.1, q.2.or r.2)

end Sys2Proof.Machine
end

section
/-! The statements on 07 settled. -/

namespace Sys2Proof.Machine

/-- Settles O10: the exact values by the kinds of the operands; each instruction computes its elements apart. -/
theorem floatArithmeticCompletes : Obligations.FloatArithmeticCompletes := by
  refine ⟨fun f rm fi fo sub x y s m e t n k hx hy => ?_, fun f rm fi fo sub x y => ?_, fun d a b s => ?_, fun d a b s => ?_, fun d a b s => ?_,
    fun d a b c rnd fi fo ty np nc x s => ?_, fun d a b rnd fi fo ty sub x s => ?_, fun d a b rnd fi fo ty x s => ?_, fun d a b fi ty x s => ?_,
    fun d a b fi ty x s => ?_, fun d a b ty op x s => ?_, fun d a rnd fi ty nx x s => ?_, fun d a b c rnd fi fo op x s => ?_,
    ⟨specialResult fun _ => rcpBits, fun d a s => ?_⟩, ⟨specialResult fun _ => rsqBits, fun d a s => ?_⟩,
    ⟨specialResult fun rm fo _ v => Fmt.fp32.finish rm false fo v.sqrt, fun d a s => ?_⟩, ⟨specialResult fun _ => exp2Bits, fun d a s => ?_⟩,
    ⟨specialResult fun _ => log2Bits, fun d a s => ?_⟩, ⟨specialResult fun _ => sinpiBits, fun d a s => ?_⟩,
    ⟨specialResult fun _ => cospiBits, fun d a s => ?_⟩, ⟨specialResult fun _ => tanhBits, fun d a s => ?_⟩,
    ⟨specialResult fun _ => sigmBits, fun d a s => ?_⟩, ⟨quotientBits, fun d a b rnd fi fo x s => ?_⟩,
    fun d a b w1 => ?_, fun d a b w1 => ?_, fun d a b w1 => ?_⟩
  · exact ⟨Fmt.addBits_of_num hx hy rm fo sub, Fmt.mulBits_of_num hx hy rm fo, fun _ np nc _ _ _ hz => Fmt.fmaBits_of_num hx hy hz rm fo np nc⟩
  · exact ⟨fun h => ⟨Fmt.addBits_of_nan h rm fo sub, Fmt.mulBits_of_nan h rm fo⟩, fun _ _ ha hb h => Fmt.addBits_of_opposite_inf ha hb h rm fo,
      fun h => ⟨Fmt.mulBits_of_inf_of_zero h rm fo, Fmt.fmaBits_of_inf_of_zero h rm fo⟩⟩
  · exact fLanes_completes (req1 0x40) _ _ _ _ _ _ _ rfl fun _ _ _ => rfl
  · exact fLanes_completes (req1 0x41) _ _ _ _ _ _ _ rfl fun _ _ _ => rfl
  · exact fLanes_completes (req1 0x42) _ _ _ _ _ _ _ rfl fun _ _ _ => rfl
  · exact fLanes_completes (reqX 0x43 x) _ _ _ _ _ _ _ rfl fun _ _ _ => rfl
  · exact fLanes_completes (reqX 0x44 x) _ _ _ _ _ _ _ rfl fun _ _ _ => rfl
  · exact fLanes_completes (reqX 0x45 x) _ _ _ _ _ _ _ rfl fun _ _ _ => rfl
  · exact fLanes_completes (reqX 0x46 x) _ _ _ _ _ _ _ rfl fun _ _ _ => rfl
  · exact fLanes_completes (reqX 0x47 x) _ _ _ _ _ _ _ rfl fun _ _ _ => rfl
  · exact fLanes_completes (reqX 0x48 x) _ _ _ _ _ _ _ rfl fun _ _ _ => rfl
  · exact fLanes_completes (reqX 0x4B x) _ _ _ _ _ _ _ rfl fun _ _ _ => rfl
  · exact fLanes_completes (reqX 0x4C x) _ _ _ _ _ _ _ rfl fun _ _ _ => rfl
  · exact specialOp_completes 0x58 _ _ _ _ _ rfl
  · exact specialOp_completes 0x59 _ _ _ _ _ rfl
  · exact specialOp_completes 0x5A _ _ _ _ _ rfl
  · exact specialOp_completes 0x5B _ _ _ _ _ rfl
  · exact specialOp_completes 0x5C _ _ _ _ _ rfl
  · exact specialOp_completes 0x5D _ _ _ _ _ rfl
  · exact specialOp_completes 0x5E _ _ _ _ _ rfl
  · exact specialOp_completes 0x60 _ _ _ _ _ rfl
  · exact specialOp_completes 0x61 _ _ _ _ _ rfl
  · exact fLanes_completes (reqX 0x5F x) _ _ _ _ _ _ _ rfl fun _ _ _ => rfl
  · exact decode_fadd d a b w1
  · exact decode_fsub d a b w1
  · exact decode_fmul d a b w1

end Sys2Proof.Machine
end
